-- ==== Sys2Proof/Word.lean ====
section
/-!
DEFINITION. The words of the machine (00/R8) and their plainest arithmetic.
-/

namespace Sys2Proof

abbrev Byte := BitVec 8
abbrev Half := BitVec 16
abbrev Word := BitVec 32
abbrev Dword := BitVec 64

end Sys2Proof
end

