-- ==== Sys2Proof/Syntax.lean ====
section
/-!
DEFINITION. The instructions of the T940: one constructor for each row of the opcode table, words and events alike.
Operands are raw fields of the encodings of 04_encoding.md; which of their values are legal is WellFormed's matter.
-/

namespace Sys2Proof

/-- The four seats of a core (02/R12). -/
inductive Seat where
  | C | L | X | S
deriving DecidableEq, Repr

/-- Bits 28:20 of a short L, X or S word (04/R93): token bits, iteration flags, predicate register. -/
structure Slot where
  popUp : Bool
  popDn : Bool
  pushUp : Bool
  pushDn : Bool
  first : Bool
  last : Bool
  pred : BitVec 3
deriving DecidableEq, Repr

/-- The control half of a command's extension (04/R98): stamp, relocatable, speculative, completion object. -/
structure Ctl where
  stamp : BitVec 16
  reloc : Bool
  spec : Bool
  co : BitVec 6
deriving DecidableEq, Repr

/-- Registers of BAR0 whose write has no behaviour of its own (19/R401, R402, R417). -/
inductive HostReg where
  | qbase (q : Nat)
  | qjob (q : Nat)
  | qpoll (q : Nat)
  | pktcmp (die n : Nat)
  | winbase
  /-- A slice's way register with its command field (12/R353). -/
  | slwayctl (die slice : Nat)
  /-- An offset that 19/R401 does not list, or a read-only register: the write is ignored. -/
  | unlisted (offset : Nat)
deriving DecidableEq, Repr

/-- Units that power gating acts on (12/R356). -/
inductive GateUnit where
  | l1dWay (core way : Nat)
  | cacheWay (die slice way : Nat)
  | scratchWay (die slice way : Nat)
  | spadBank (core bank : Nat)
deriving DecidableEq, Repr

/-- Registers the debugger may write (20/R440). -/
inductive DebugReg where
  | s (n : BitVec 6)
  | b (n : BitVec 3)
  | lc (n : BitVec 3)
  | pL (n : BitVec 4)
  | pS (n : BitVec 4)
  | k (n : BitVec 3)
  /-- One 32-bit lane of a vector register. -/
  | v (n : BitVec 4) (lane : BitVec 6)
  | csr (n : BitVec 10)
  /-- One 32-bit lane of an entry of a stream, the oldest entry first. -/
  | q (n : BitVec 4) (entry : Nat) (lane : BitVec 6)
deriving DecidableEq, Repr

/-- A firmware image (21/R455): what its header of 4 KiB holds, and its body. -/
structure FirmwareImage where
  /-- The header's first 2 KiB, which hold its fields but the signature. -/
  head : List Byte
  length : Nat
  version : BitVec 32
  key : List Byte
  signature : Nat
  /-- What follows the header; the body is its first length bytes. -/
  stored : List Byte
deriving DecidableEq, Repr, Inhabited

/-- What training finds on one Fjaroita link (22/R462). -/
inductive LinkTraining where
  | absent
  | failed
  | trained (latency : Nat)
deriving DecidableEq, Repr

/-- How a message of another device comes (10/R301, R312; 12/R365): its link, the sender's clock at which it entered
the link, its vector clock, and the heat of this device whose access it carries, if it is one's; the identifier of that
access when it is the reply to it. -/
structure LinkBeat where
  link : Nat
  sent : Nat
  clock : List Nat
  heat : Option Nat
  reply : Option Nat
deriving DecidableEq, Repr

/-- A number that a message of another device brings. -/
structure NumBeat where
  beat : LinkBeat
  n : Nat
deriving DecidableEq, Repr

/-- What a peer device asks of an ASR cell of this device (12/R355): the operations of 06/R149 on 32 or 64 bits, and
those of 06/R152 on an la640 cell. -/
inductive PeerOp where
  | load (wide : Bool)
  | store (wide : Bool)
  /-- An atomic by its opcode 0x40 to 0x4C, with the expected value for a compare and swap. -/
  | atomic (op : BitVec 7) (wide : Bool) (expected : BitVec 64)
  | accumulate (form : BitVec 2)
  | readAccumulator (flags : Bool)
deriving DecidableEq, Repr

/-- A peer's access (06/R156, 10/R322, 12/R355): the message, its source core and sequence number, what it asks, and the
taint of its operand. -/
structure PeerAccess where
  beat : LinkBeat
  core : Nat
  seq : BitVec 16
  resent : Bool
  op : PeerOp
  taint : Bool
deriving DecidableEq, Repr

/-- The words of a collective's member as a message brings them, each with its taint (10/R322). -/
structure PartBeat where
  beat : LinkBeat
  words : List (BitVec 32 × Bool)
deriving DecidableEq, Repr

/-- What the members of a collective must agree in (07/R225, R226), and the root rank of a broadcast. -/
structure CollSig where
  kind : BitVec 4
  op : BitVec 4
  fmt : BitVec 4
  exact : Bool
  count : Nat
  root : Nat
deriving DecidableEq, Repr


/-- One constructor for each row of the opcode table: the words and the steps that the device takes of itself,
then the events that only the outside world starts. -/
inductive Instr where
  /-- NOPA (05/R111). Shared no-operation executed by every seat. -/
  | nopa
  /-- BR (05/R111, 04/R86). Shared conditional branch; C resolves the predicate and the other seats take the outcome from the outcome queue. -/
  | br (bp : BitVec 3) (neg : Bool) (disp : BitVec 20)
  /-- JMP (05/R111). Shared unconditional jump by a 24-bit word displacement. -/
  | jmp (disp : BitVec 24)
  /-- CALL (05/R111). Shared call that pushes the return address on each seat's return stack. -/
  | call (disp : BitVec 24)
  /-- RET (05/R111). Shared return that pops each seat's return stack. -/
  | ret
  /-- LOOP_LC (04/R87, 05/R116). Opens a hardware loop whose count comes from a loop-count register. -/
  | loopLc (lc : BitVec 3) (body : BitVec 12)
  /-- LOOP_IMM (04/R87, 05/R116). Opens a hardware loop whose count is an 11-bit immediate. -/
  | loopImm (count : BitVec 11) (body : BitVec 12)
  /-- ITERATION_END (05/R117). A seat reaches the end address of its innermost loop, applies strides and repeats or leaves the loop. -/
  | iterationEnd
  /-- LEXIT (05/R121). Shared early loop exit, taken when the predicate XOR neg is 1. -/
  | lexit (bp : BitVec 3) (neg : Bool)
  /-- LEXIT_DRAIN (05/R123). Once all seats have passed a taken exit and drained their commands, the heat's token FIFOs are emptied. -/
  | lexitDrain (heat : Nat)
  /-- STROKE (05/R125). Shared stroke alignment: in coxed mode each seat waits for the next stroke boundary. -/
  | stroke
  /-- HEND (05/R126). Shared heat end: the seat stops fetching, discarding its loops and return stack. -/
  | hend
  /-- NOP (05/R129). C no-operation. -/
  | nop
  /-- ADD (05/R129). Scalar add, wrapping modulo 2^64. -/
  | add (d a b : BitVec 6)
  /-- SUB (05/R129). Scalar subtract. -/
  | sub (d a b : BitVec 6)
  /-- AND (05/R129). Scalar bitwise AND. -/
  | and (d a b : BitVec 6)
  /-- OR (05/R129). Scalar bitwise OR. -/
  | or (d a b : BitVec 6)
  /-- XOR (05/R129). Scalar bitwise XOR. -/
  | xor (d a b : BitVec 6)
  /-- SHL (05/R129). Scalar shift left by sb[5:0]. -/
  | shl (d a b : BitVec 6)
  /-- SHR (05/R129). Scalar logical shift right. -/
  | shr (d a b : BitVec 6)
  /-- SAR (05/R129). Scalar arithmetic shift right. -/
  | sar (d a b : BitVec 6)
  /-- MUL (05/R129). Scalar multiply, low 64 bits. -/
  | mul (d a b : BitVec 6)
  /-- MULH (05/R129). Signed multiply, high 64 bits. -/
  | mulh (d a b : BitVec 6)
  /-- MULHN (05/R129). Natural multiply, high 64 bits. -/
  | mulhn (d a b : BitVec 6)
  /-- DIV (05/R130). Signed divide toward zero; no trap on zero. -/
  | div (d a b : BitVec 6)
  /-- DIVN (05/R130). Natural divide. -/
  | divn (d a b : BitVec 6)
  /-- REM (05/R130). Signed remainder. -/
  | rem (d a b : BitVec 6)
  /-- REMN (05/R130). Natural remainder. -/
  | remn (d a b : BitVec 6)
  /-- MIN (05/R129). Signed minimum. -/
  | min (d a b : BitVec 6)
  /-- MAX (05/R129). Signed maximum. -/
  | max (d a b : BitVec 6)
  /-- MINN (05/R129). Natural minimum. -/
  | minn (d a b : BitVec 6)
  /-- MAXN (05/R129). Natural maximum. -/
  | maxn (d a b : BitVec 6)
  /-- CLZ (05/R129). Count leading zero bits. -/
  | clz (d a : BitVec 6)
  /-- POPC (05/R129). Count one bits. -/
  | popc (d a : BitVec 6)
  /-- BFX (05/R131). Bit-field extract, zero- or sign-extended. -/
  | bfx (d a b : BitVec 6) (sgn : Bool)
  /-- BFI (05/R131). Bit-field insert into sd. -/
  | bfi (d a b : BitVec 6)
  /-- SEL (05/R129). Select sa or sb by a branch predicate. -/
  | sel (d a b : BitVec 6) (neg : Bool) (bp : BitVec 3)
  /-- CMP (05/R132). Compare two scalars into a branch predicate, optionally combined with its old value. -/
  | cmp (comb bp : BitVec 3) (a b : BitVec 6) (cond : BitVec 4)
  /-- SEXT (05/R129). Sign-extend the low 8, 16 or 32 bits. -/
  | sext (d a : BitVec 6) (w : BitVec 4)
  /-- ZEXT (05/R129). Zero-extend the low 8, 16 or 32 bits. -/
  | zext (d a : BitVec 6) (w : BitVec 4)
  /-- LEA (05/R129). sd := sa + (sb << shift). -/
  | lea (d a b : BitVec 6) (sh : BitVec 4)
  /-- ADDI (05/R133). Add a signed 10-bit immediate. -/
  | addi (d a : BitVec 6) (imm : BitVec 10)
  /-- ANDI (05/R133). AND with a signed immediate. -/
  | andi (d a : BitVec 6) (imm : BitVec 10)
  /-- ORI (05/R133). OR with a signed immediate. -/
  | ori (d a : BitVec 6) (imm : BitVec 10)
  /-- XORI (05/R133). XOR with a signed immediate. -/
  | xori (d a : BitVec 6) (imm : BitVec 10)
  /-- SHLI (05/R133). Shift left by an immediate. -/
  | shli (d a sh : BitVec 6)
  /-- SHRI (05/R133). Logical shift right by an immediate. -/
  | shri (d a sh : BitVec 6)
  /-- SARI (05/R133). Arithmetic shift right by an immediate. -/
  | sari (d a sh : BitVec 6)
  /-- CMPI (05/R132). Compare a scalar with an immediate into a branch predicate. -/
  | cmpi (cond bp : BitVec 3) (a : BitVec 6) (imm : BitVec 10)
  /-- MOVI (05/R134, 04/R89). Load a sign-extended 32-bit immediate. -/
  | movi (d : BitVec 6) (imm : BitVec 32) (stamp : BitVec 16)
  /-- MOVHI (05/R134, 04/R89). Set bits 63:32 of sd to a 32-bit immediate. -/
  | movhi (d : BitVec 6) (imm : BitVec 32) (stamp : BitVec 16)
  /-- LDS (05/R135, R136). Scalar load of 8 to 64 bits. -/
  | lds (d a : BitVec 6) (off : BitVec 23) (w : BitVec 3) (stamp : BitVec 16)
  /-- STS (05/R135, R136). Scalar store of 8 to 64 bits. -/
  | sts (d a : BitVec 6) (off : BitVec 23) (w : BitVec 3) (stamp : BitVec 16)
  /-- LOAD_RETURN (02/R18). An outstanding load or atomic reply returns and writes its register, releasing waiting readers. -/
  | loadReturn (id : Nat)
  /-- CSRR (05/R137). Read a CSR as of the word's text time. -/
  | csrr (d : BitVec 6) (n : BitVec 10)
  /-- CSRW (05/R137). Write a CSR at the word's text time. -/
  | csrw (a : BitVec 6) (n : BitVec 10)
  /-- TRAP (05/R139). Raise the trap-instruction fault with a code. -/
  | trap (code : BitVec 10)
  /-- SETLC (05/R140). Set a loop-count register, saturated to 0..2^32-1. -/
  | setlc (lc : BitVec 3) (a : BitVec 6)
  /-- SETSTRD (05/R120). Write one loop stride slot. -/
  | setstrd (lvl : BitVec 3) (a : BitVec 6) (seatS en : Bool) (slot : BitVec 2) (p : BitVec 4) (stamp : BitVec 16)
  /-- SETSLIP (05/R141). Set the slip window, clamped to 4..256. -/
  | setslip (a : BitVec 6)
  /-- PRIO (05/R141). Set the heat's own priority class. -/
  | prio (a : BitVec 6)
  /-- RDCLK (05/R142). Read the regatta clock, tainted. -/
  | rdclk (d : BitVec 6)
  /-- RDSTROKE (05/R142). Read the stroke number. -/
  | rdstroke (d : BitVec 6)
  /-- WFE (05/R143). Wait for the heat's event latch or a cycle count. -/
  | wfe (d a : BitVec 6)
  /-- WFE_TIMEOUT (05/R143). The cycle count of a waiting WFE expires and it returns 0. -/
  | wfeTimeout (heat : Nat)
  /-- SMS (05/R144, 14/R386). Enable early start of the successor launch. -/
  | sms
  /-- WPV (05/R144, 14/R386). Hold every seat until every predecessor launch has ended and its writes are visible. -/
  | wpv
  /-- HRET (05/R145). End an arrival handler and free its context. -/
  | hret
  /-- BKPT (05/R139). Raise the breakpoint fault, or halt the job when a debugger is attached. -/
  | bkpt (code : BitVec 10)
  /-- AADD (06/R149). ASR atomic add. -/
  | aadd (d a b : BitVec 6) (wide : Bool) (off stamp : BitVec 16)
  /-- AMIN (06/R149). ASR atomic signed minimum. -/
  | amin (d a b : BitVec 6) (wide : Bool) (off stamp : BitVec 16)
  /-- AMAX (06/R149). ASR atomic signed maximum. -/
  | amax (d a b : BitVec 6) (wide : Bool) (off stamp : BitVec 16)
  /-- AMINN (06/R149). ASR atomic natural minimum. -/
  | aminn (d a b : BitVec 6) (wide : Bool) (off stamp : BitVec 16)
  /-- AMAXN (06/R149). ASR atomic natural maximum. -/
  | amaxn (d a b : BitVec 6) (wide : Bool) (off stamp : BitVec 16)
  /-- AAND (06/R149). ASR atomic AND. -/
  | aand (d a b : BitVec 6) (wide : Bool) (off stamp : BitVec 16)
  /-- AOR (06/R149). ASR atomic OR. -/
  | aor (d a b : BitVec 6) (wide : Bool) (off stamp : BitVec 16)
  /-- AXOR (06/R149). ASR atomic XOR. -/
  | axor (d a b : BitVec 6) (wide : Bool) (off stamp : BitVec 16)
  /-- AXCHG (06/R149). ASR atomic exchange. -/
  | axchg (d a b : BitVec 6) (wide : Bool) (off stamp : BitVec 16)
  /-- ACAS (06/R149). ASR atomic compare-and-swap. -/
  | acas (d a b : BitVec 6) (wide : Bool) (off stamp : BitVec 16)
  /-- FAADD (06/R150, R151). ASR atomic f32 add with RNE, tainted. -/
  | faadd (d a b : BitVec 6) (off stamp : BitVec 16)
  /-- FAMIN (06/R150, R151). ASR atomic IEEE minimum. -/
  | famin (d a b : BitVec 6) (off stamp : BitVec 16)
  /-- FAMAX (06/R150, R151). ASR atomic IEEE maximum. -/
  | famax (d a b : BitVec 6) (off stamp : BitVec 16)
  /-- LAADD (06/R152). Exact add of one contribution into an la640 cell. -/
  | laadd (a b : BitVec 6) (form : BitVec 2) (off stamp : BitVec 16)
  /-- ALD (06/R152). ASR atomic load, including la640 retirement and flags. -/
  | ald (d a : BitVec 6) (form : BitVec 2) (off stamp : BitVec 16)
  /-- AST (06/R149). ASR atomic store. -/
  | ast (a b : BitVec 6) (wide : Bool) (off stamp : BitVec 16)
  /-- ATOMIC_APPLY (06/R154). An atomic packet arrives at its ASR home and is applied, or answered from the reply cache. -/
  | atomicApply (id : Nat)
  /-- FENCE (06/R157). Full fence at a scope. -/
  | fence (scope : BitVec 4)
  /-- FENCEA (06/R157). Acquire fence at a scope. -/
  | fencea (scope : BitVec 4)
  /-- FENCER (06/R157). Release fence at a scope. -/
  | fencer (scope : BitVec 4)
  /-- BARINIT (06/R159). Initialise a barrier object and advance its generation. -/
  | barinit (a b : BitVec 6) (off stamp : BitVec 16)
  /-- BARARR (06/R160). Arrive once at a barrier object. -/
  | bararr (d a : BitVec 6)
  /-- BARWAIT (06/R159). Wait until a barrier's generation differs from sb. -/
  | barwait (a b : BitVec 6)
  /-- WAITCO_ALL (06/R163). Wait until no completion object in the mask is busy. -/
  | waitcoAll (d a : BitVec 6)
  /-- WAITCO_ANY (06/R163). Wait until some completion object in the mask is idle or done. -/
  | waitcoAny (d a : BitVec 6)
  /-- TESTCO (06/R163). Return without waiting the mask of objects not busy. -/
  | testco (d a : BitVec 6)
  /-- DBAR (06/R161). Arrive at and wait on a device barrier of the gang. -/
  | dbar (id : BitVec 6)
  /-- SPAWN (06/R164, R165). Enqueue a launch from a launch record. -/
  | spawn (d a : BitVec 6) (c : Ctl)
  /-- SPAWNT (06/R164). Enqueue a one-heat launch from a task type and coordinates. -/
  | spawnt (d a b : BitVec 6) (n : BitVec 4) (c : Ctl)
  /-- CANCEL (06/R166). Cancel a heat, launch, graph, phase or job. -/
  | cancel (d a b : BitVec 6) (lvl : BitVec 4)
  /-- WAITC (06/R167). Wait until a level is complete and return its summary. -/
  | waitc (d a b : BitVec 6) (lvl : BitVec 4)
  /-- SUSPEND (06/R170). Turn the heat into a continuation object at the next common boundary. -/
  | suspend (a b : BitVec 6)
  /-- RESUME (06/R171). Check and claim a continuation object and place it as a heat. -/
  | resume (d a : BitVec 6) (c : Ctl)
  /-- COPYCO (06/R172). Copy a suspended continuation object under a new claim cell. -/
  | copyco (d a b : BitVec 6) (c : Ctl)
  /-- DROPCO (06/R173). Try to mark a suspended continuation object dead. -/
  | dropco (d a : BitVec 6)
  /-- YIELDI (06/R174). Make every seat not ready for a number of cycles. -/
  | yieldi (a : BitVec 6)
  /-- YIELD_EXPIRY (06/R174). The YIELDI count ends, or no other heat is ready, and the heat is ready again. -/
  | yieldExpiry (heat : Nat)
  /-- SELF (06/R174). Read one field of the heat's identity. -/
  | self (d : BitVec 6) (sel : BitVec 4)
  /-- SLWIN (06/R175). Create or join the gang's slalom context. -/
  | slwin (a b : BitVec 6) (kk : BitVec 4) (w1 : BitVec 12) (stamp : BitVec 16)
  /-- SLRES (06/R178). Reserve a gate-table slot in the reserve round. -/
  | slres (a b : BitVec 6) (off stamp : BitVec 16)
  /-- SLCHK (06/R178). Check that a gate-table slot holds this iteration's reservation. -/
  | slchk (comb bp : BitVec 3) (a b : BitVec 6) (off stamp : BitVec 16)
  /-- SLDONE (06/R179). Report an iteration committed or failed. -/
  | sldone (a : BitVec 6) (neg : Bool) (bp : BitVec 3)
  /-- SLNEXT (06/R177). Return the next index of the heat's share. -/
  | slnext (d : BitVec 6)
  /-- SLRESET (06/R178). Clear a gate-table slot held by this iteration. -/
  | slreset (a b : BitVec 6) (off stamp : BitVec 16)
  /-- TAINTQ (06/R180). Read the taint of a register. -/
  | taintq (d a : BitVec 6)
  /-- TAINTQ_MEM (06/R180). Read the taint of a memory word. -/
  | taintqMem (d a : BitVec 6)
  /-- TCLR (06/R180). Copy a value with its taint cleared. -/
  | tclr (d a : BitVec 6)
  /-- TCNT (06/R180). Read, and optionally clear, a taint counter. -/
  | tcnt (d : BitVec 6) (clr : Bool) (sel : BitVec 2)
  /-- NOPL (04/R97). L no-operation that may carry tokens. -/
  | nopl (w : Slot)
  /-- LDQ (07/R191). Load one packed row into an inbound stream. -/
  | ldq (w : Slot) (q p : BitVec 4) (upd : BitVec 2)
  /-- LDQS (07/R191). Load one strided row into an inbound stream. -/
  | ldqs (w : Slot) (q p : BitVec 4) (upd : BitVec 2)
  /-- GATQ (07/R192). Gather 32-bit scratchpad elements by an index stream. -/
  | gatq (w : Slot) (q p : BitVec 4) (qi : BitVec 2)
  /-- L_QSET (07/R188). Set an inbound stream's descriptor. -/
  | lQset (w : Slot) (q : BitVec 4) (sa : BitVec 6) (ringEn : Bool) (ring : BitVec 3) (fmt : BitVec 4) (elems1 : BitVec 9) (stamp : BitVec 16)
  /-- L_PSET (07/R186). Set an L pointer from a scalar. -/
  | lPset (w : Slot) (p : BitVec 4) (sa : BitVec 6)
  /-- L_PADD (07/R186). Add an immediate to an L pointer. -/
  | lPadd (w : Slot) (p : BitVec 4) (imm : BitVec 10)
  /-- CPYIN (07/R205). Copy engine command copying memory inward. -/
  | cpyin (w : Slot) (p : BitVec 4) (sa : BitVec 6) (len : BitVec 12) (c : Ctl)
  /-- GATR (07/R208, R209). Gather rows by index into a ring, scratchpad or bag accumulation. -/
  | gatr (w : Slot) (pb pi : BitVec 4) (disp : BitVec 14) (c : Ctl)
  /-- LDBLK (07/R219). Pin and fill lines of the L1D as a block. -/
  | ldblk (w : Slot) (tag : BitVec 4) (sa lines1 : BitVec 6) (c : Ctl)
  /-- LDBLK_REL (07/R219). Unpin an L1D block. -/
  | ldblkRel (w : Slot) (tag : BitVec 4) (c : Ctl)
  /-- PREF (07/R220). Prefetch lines to a level. -/
  | pref (w : Slot) (sa : BitVec 6) (level : BitVec 2) (lines1 : BitVec 8) (stamp : BitVec 16)
  /-- STMAP (07/R221). Map a stash range of scratchpad onto global lines. -/
  | stmap (w : Slot) (p : BitVec 4) (sa : BitVec 6) (slot : BitVec 4) (lines stamp : BitVec 16)
  /-- STUNMAP (07/R223). Write back stash lines and remove the mapping. -/
  | stunmap (w : Slot) (slot : BitVec 4) (c : Ctl)
  /-- STFLUSH (07/R223). Write back dirty stash lines. -/
  | stflush (w : Slot) (all : Bool) (slot : BitVec 4) (c : Ctl)
  /-- BAGOPEN (07/R214). Open a bag and clear its control block and region. -/
  | bagopen (w : Slot) (disp : BitVec 22) (c : Ctl)
  /-- INVM (07/R224). Privileged translation invalidation behind an in-order marker. -/
  | invm (w : Slot) (sa : BitVec 6) (size : BitVec 2) (pages1 : BitVec 14) (stamp : BitVec 16)
  /-- INVM_COMPLETE (07/R224). Every copy queue has passed the marker and the TLB entries are invalid, releasing L. -/
  | invmComplete (heat : Nat)
  /-- L_CWAIT (07/R203). L waits until a completion object is not busy. -/
  | lCwait (w : Slot) (co : BitVec 6)
  /-- RPUSH (07/R218). Publish n tiles that L has written to a ring. -/
  | rpush (w : Slot) (ring : BitVec 3) (n : BitVec 11)
  /-- HND (07/R204). Attach an arrival handler to L's next engine command. -/
  | hnd (w : Slot) (disp : BitVec 30) (stamp : BitVec 16)
  /-- NOPS (04/R97). S no-operation that may carry tokens. -/
  | nops (w : Slot)
  /-- STQ (07/R191). Store one packed row from an outbound stream. -/
  | stq (w : Slot) (q p : BitVec 4) (upd : BitVec 2)
  /-- STQS (07/R191). Store one strided row from an outbound stream. -/
  | stqs (w : Slot) (q p : BitVec 4) (upd : BitVec 2)
  /-- SCATQ (07/R192). Scatter 32-bit elements into scratchpad by an index stream. -/
  | scatq (w : Slot) (q p : BitVec 4) (qi : BitVec 2)
  /-- S_QSET (07/R188). Set an outbound stream's descriptor. -/
  | sQset (w : Slot) (q : BitVec 4) (sa : BitVec 6) (ringEn : Bool) (ring : BitVec 3) (fmt : BitVec 4) (elems1 : BitVec 9) (stamp : BitVec 16)
  /-- S_PSET (07/R186). Set an S pointer from a scalar. -/
  | sPset (w : Slot) (p : BitVec 4) (sa : BitVec 6)
  /-- S_PADD (07/R186). Add an immediate to an S pointer. -/
  | sPadd (w : Slot) (p : BitVec 4) (imm : BitVec 10)
  /-- CPYOUT (07/R205). Copy engine command copying memory outward. -/
  | cpyout (w : Slot) (p : BitVec 4) (sa : BitVec 6) (len : BitVec 12) (c : Ctl)
  /-- SCATR (07/R208, R212). Scatter rows by index, overwriting or adding into ASR. -/
  | scatr (w : Slot) (pb pi : BitVec 4) (disp : BitVec 14) (c : Ctl)
  /-- BAGCLOSE (07/R216). Close a bag after its gathers settle and write the report. -/
  | bagclose (w : Slot) (disp : BitVec 22) (c : Ctl)
  /-- ASRCPY (07/R207). Copy ASR cells out raw or retired to f32. -/
  | asrcpy (w : Slot) (p : BitVec 4) (sa : BitVec 6) (n : BitVec 11) (retire : Bool) (c : Ctl)
  /-- COLL (07/R225). Collective all-reduce, reduce-scatter, all-gather or broadcast. -/
  | coll (w : Slot) (p : BitVec 4) (c : Ctl)
  /-- RPOP (07/R218). Free n tiles that S has read from a ring. -/
  | rpop (w : Slot) (ring : BitVec 3) (n : BitVec 11)
  /-- S_CWAIT (07/R203). S waits until a completion object is not busy. -/
  | sCwait (w : Slot) (co : BitVec 6)
  /-- NOPX (08/R245). X no-operation that may carry tokens. -/
  | nopx (w : Slot)
  /-- SETT (08/R229). Set the vector element type and rounding mode. -/
  | sett (w : Slot) (fmt : BitVec 4) (rm : BitVec 3)
  /-- SETT_M (08/R229). Set the matrix A and W formats and signedness. -/
  | settM (w : Slot) (af wf : BitVec 4) (asg wsg : Bool)
  /-- SETT_O (08/R229). Set the matrix output format. -/
  | settO (w : Slot) (fmt : BitVec 4)
  /-- VADD (08/R235). Element-wise add. -/
  | vadd (w : Slot) (vd va : BitVec 5) (vb : BitVec 4)
  /-- VSUB (08/R235). Element-wise subtract. -/
  | vsub (w : Slot) (vd va : BitVec 5) (vb : BitVec 4)
  /-- VMUL (08/R235). Element-wise multiply. -/
  | vmul (w : Slot) (vd va : BitVec 5) (vb : BitVec 4)
  /-- VFMA (08/R235). Element-wise fused multiply-add into vd. -/
  | vfma (w : Slot) (vd va : BitVec 5) (vb : BitVec 4)
  /-- VMIN (08/R235). Element-wise minimum. -/
  | vmin (w : Slot) (vd va : BitVec 5) (vb : BitVec 4)
  /-- VMAX (08/R235). Element-wise maximum. -/
  | vmax (w : Slot) (vd va : BitVec 5) (vb : BitVec 4)
  /-- VABS (08/R235). Element-wise absolute value. -/
  | vabs (w : Slot) (vd va : BitVec 5)
  /-- VNEG (08/R235). Element-wise negation. -/
  | vneg (w : Slot) (vd va : BitVec 5)
  /-- VAND (08/R235). Element-wise bitwise AND. -/
  | vand (w : Slot) (vd va : BitVec 5) (vb : BitVec 4)
  /-- VOR (08/R235). Element-wise bitwise OR. -/
  | vor (w : Slot) (vd va : BitVec 5) (vb : BitVec 4)
  /-- VXOR (08/R235). Element-wise bitwise XOR. -/
  | vxor (w : Slot) (vd va : BitVec 5) (vb : BitVec 4)
  /-- VSHL (08/R235). Element-wise shift left. -/
  | vshl (w : Slot) (vd va : BitVec 5) (vb : BitVec 4)
  /-- VSHR (08/R235). Element-wise logical shift right. -/
  | vshr (w : Slot) (vd va : BitVec 5) (vb : BitVec 4)
  /-- VSAR (08/R235). Element-wise arithmetic shift right. -/
  | vsar (w : Slot) (vd va : BitVec 5) (vb : BitVec 4)
  /-- VCMP (08/R242). Element-wise compare into a lane predicate. -/
  | vcmp (w : Slot) (kd : BitVec 3) (cond : BitVec 2) (va : BitVec 5) (vb : BitVec 4)
  /-- VSEL (08/R244). Select lanes of va or vb by the predicate. -/
  | vsel (w : Slot) (vd va : BitVec 5) (vb : BitVec 4)
  /-- VMOV (08/R235). Move bits unchanged. -/
  | vmov (w : Slot) (vd va : BitVec 5)
  /-- VBCST (08/R237). Broadcast a C scalar's low bits to every element. -/
  | vbcst (w : Slot) (vd : BitVec 5) (sa : BitVec 6)
  /-- VIDX (08/R235). Write each element's index converted to T. -/
  | vidx (w : Slot) (vd : BitVec 5)
  /-- VCVT (08/R239). Convert elements from a source format to T. -/
  | vcvt (w : Slot) (vd va : BitVec 5) (fmt : BitVec 4)
  /-- VRCP (08/R236). Element-wise reciprocal. -/
  | vrcp (w : Slot) (vd va : BitVec 5)
  /-- VRSQ (08/R236). Element-wise reciprocal square root. -/
  | vrsq (w : Slot) (vd va : BitVec 5)
  /-- VEXP2 (08/R236). Element-wise power of two. -/
  | vexp2 (w : Slot) (vd va : BitVec 5)
  /-- VLOG2 (08/R236). Element-wise base-2 logarithm. -/
  | vlog2 (w : Slot) (vd va : BitVec 5)
  /-- VRED (08/R240). Reduce the elements by a fixed pairwise tree. -/
  | vred (w : Slot) (vd va : BitVec 5) (op : BitVec 4)
  /-- VSCAN (08/R241). Serial inclusive or exclusive prefix scan. -/
  | vscan (w : Slot) (vd va : BitVec 5) (excl : Bool) (op : BitVec 3)
  /-- VPERM (08/R238). Permute whole lanes by an index register. -/
  | vperm (w : Slot) (vd va : BitVec 5) (vb : BitVec 4)
  /-- VQNT (08/R246). Quantize f32 lanes into cb blocks pushed to a stream. -/
  | vqnt (w : Slot) (vd va : BitVec 5)
  /-- VDQN (08/R247). Decode cb blocks from a stream into f32 lanes. -/
  | vdqn (w : Slot) (vd va : BitVec 5)
  /-- KOP (08/R243). Logical operation on lane predicates. -/
  | kop (w : Slot) (kd ka kb op : BitVec 3)
  /-- VCPUSH (08/R248). Append active lanes to a stream's routing buffer, optionally flushing. -/
  | vcpush (w : Slot) (vd va : BitVec 5) (form : BitVec 4)
  /-- VCPOP (08/R248). Take the next unconsumed lanes of a stream into active lanes. -/
  | vcpop (w : Slot) (vd va : BitVec 5) (form : BitVec 4)
  /-- MWLD (08/R260). Load a stationary weight tile into the sweep array. -/
  | mwld (w : Slot) (ring : BitVec 3) (k1 n1 : BitVec 8) (stamp : BitVec 16)
  /-- MBAG (08/R266). Consume a bag's ring tiles through the array, accumulating or steering by tag. -/
  | mbag (w : Slot) (ring : BitVec 3) (acc exact : Bool) (disp : BitVec 17) (c : Ctl)
  /-- MMUL (08/R261, R263). Matrix product of operand rows against the stationary tile. -/
  | mmul (w : Slot) (src : BitVec 3) (srcQ : Bool) (dk : BitVec 2) (dst : BitVec 3) (sr : BitVec 6) (c : Ctl)
  /-- MDIST (08/R261, R263). Squared distances of operand rows to the tile's columns. -/
  | mdist (w : Slot) (src : BitVec 3) (srcQ : Bool) (dk : BitVec 2) (dst : BitVec 3) (sr : BitVec 6) (c : Ctl)
  /-- MTOPK (08/R261, R265). Top-k column indices per operand row. -/
  | mtopk (w : Slot) (src : BitVec 3) (srcQ : Bool) (dk : BitVec 2) (dst : BitVec 3) (largest : Bool) (kr1 : BitVec 4) (dist : Bool) (sr : BitVec 6) (c : Ctl)
  /-- MRET (08/R268, R269). Retire a closed bag's accumulated sums in place. -/
  | mret (w : Slot) (force : Bool) (disp : BitVec 17) (c : Ctl)
  /-- MRET_REGION (08/R268, R269). Retire an accumulator region in place. -/
  | mretRegion (w : Slot) (kind : BitVec 2) (n1 : BitVec 8) (sr : BitVec 6) (c : Ctl)
  /-- MCLR (08/R270). Clear an accumulator region. -/
  | mclr (w : Slot) (kind : BitVec 2) (n1 : BitVec 8) (sr : BitVec 6) (c : Ctl)
  /-- RSET (08/R256). Set a scratchpad ring's span and reset head and tail. -/
  | rset (w : Slot) (f : BitVec 30) (stamp : BitVec 16)
  /-- MWAIT (08/R271). Wait until every earlier matrix command has completed. -/
  | mwait (w : Slot)
  /-- LEASE (08/R252). Request a run of n matrix commands on the crew's array. -/
  | lease (w : Slot) (n1 : BitVec 8)
  /-- UNLEASE (08/R253). End the lease run once issued matrix commands complete. -/
  | unlease (w : Slot)
  /-- LEASE_GRANT (08/R252). The array grants its lease to the next requesting core. -/
  | leaseGrant (crew : Nat)
  /-- ARRAY_ROW_RESULT (08/R263). An operand row's results leave the array to a ring, stream or ASR. -/
  | arrayRowResult (cmd : Nat)
  /-- ENGINE_COMMAND_START (07/R194). The copy engine starts a queued command when a running place is free. -/
  | engineCommandStart (core : Nat)
  /-- GATHER_ROW_LAND (07/R211). A gathered row arrives and lands under its bag's policies. -/
  | gatherRowLand (cmd pos : Nat)
  /-- TRANSFER_PERFORMED (07/R206). A counted transfer's writes are performed and it decrements its barrier object. -/
  | transferPerformed (cmd : Nat)
  /-- COMMAND_COMPLETE (07/R196). An engine command ends and its completion object becomes done. -/
  | commandComplete (cmd : Nat)
  /-- HANDLER_START (07/R204). A dormant handler context starts an arrival handler for a done command. -/
  | handlerStart (core : Nat)
  /-- TOKEN_WATCHDOG (02/R24). A token wait exceeds TOKWDOG cycles and raises the token fault. -/
  | tokenWatchdog (heat : Nat) (seat : Seat)
  /-- HEAT_AGED (02/R44). A ready heat waits AGECAP-4 cycles on a slot and becomes aged. -/
  | heatAged (heat : Nat) (seat : Seat)
  /-- WALKER_PLACE (19/R413). The walker places the next heat of the first launch that fits a core. -/
  | walkerPlace (die : Nat)
  /-- LAUNCH_ENQUEUE (19/R419). The command processor holds and checks a launch's records and enqueues it. -/
  | launchEnqueue (req : Nat)
  /-- HEAT_END (02/R31). All seats have passed HEND and all commands and loads have drained; the heat's resources are freed. -/
  | heatEnd (heat : Nat)
  /-- HEAT_FAULTED (20/R423). A STOPPING heat's seats have stopped and commands drained; it becomes FAULTED and its trap record is written. -/
  | heatFaulted (heat : Nat)
  /-- HEAT_CANCELLED (02/R36). A cancelled heat's seats reach their common boundary and drain, and it becomes CANCELLED. -/
  | heatCancelled (heat : Nat)
  /-- HEAT_SUSPENDED (06/R170). Outstanding work is settled, the COB is written and the claim cell set to suspended. -/
  | heatSuspended (heat : Nat)
  /-- RESUME_PLACEMENT (13/R381). A resumed COB is placed on a core with room and its state restored. -/
  | resumePlacement (req : Nat)
  /-- COXED_PLACEMENT (10/R308). A heat entry is made resident at the first cycle of stroke S+start-1. -/
  | coxedPlacement (entry : Nat)
  /-- SPAN_END (10/R308). A coxed heat not final at the end of its span raises the overrun fault. -/
  | spanEnd (heat : Nat)
  /-- DRAW_MESSAGE_ENTRY (10/R316). A ready message enters its owned draw position, or faults when it owns none. -/
  | drawMessageEntry (msg : Nat)
  /-- BEAT_RELEASE (10/R301). A held coxed beat is released at clock t+d. -/
  | beatRelease (id : Nat)
  /-- WRITE_FORWARD_APPLY (12/R364). A die applies a forwarded write once its causal predecessors are applied. -/
  | writeForwardApply (id : Nat)
  /-- SAMPLE_TICK (20/R446). Every 64P cycles each seat of each resident heat yields a sample record. -/
  | sampleTick (job : Nat)
  /-- QPOLL_CHANGE (19/R403). In poll mode, the producer-index word's line changes and is read. -/
  | qpollChange (q : Nat)
  /-- NOP_PACKET (19/R406). NOP packet, complete at dispatch. -/
  | nopPacket (q : Nat)
  /-- LAUNCH_PACKET (19/R406). Packet forming a graph of one launch. -/
  | launchPacket (q : Nat)
  /-- GRAPH_PACKET (19/R407). Packet forming a graph of launches from a descriptor. -/
  | graphPacket (q : Nat)
  /-- PCLOSE (19/R406). Packet closing the header's phase. -/
  | pclose (q : Nat)
  /-- CANCEL_PACKET (19/R416). Packet cancelling a level of the queue's job. -/
  | cancelPacket (q : Nat)
  /-- WRITE_PACKET (19/R406). Packet writing an 8-byte value at a job virtual address. -/
  | writePacket (q : Nat)
  /-- COXED_PACKET (10/R302). Packet that checks and loads a schedule image and starts a coxed job. -/
  | coxedPacket (q : Nat)
  /-- PREEMPT_PACKET (20/R435). Packet suspending a named heat into a COB. -/
  | preemptPacket (q : Nat)
  /-- WAY_FLUSH_DONE (12/R354). A way flush finishes and busy clears. -/
  | wayFlushDone (die slice : Nat)
  /-- REBALANCE_INTERVAL (22/R465). At the end of each interval the rebalancer may start a bucket move. -/
  | rebalanceInterval (die : Nat)
  /-- BUCKET_MOVE_DONE (12/R352). A bucket move's drain-and-flush ends and waiting requests proceed. -/
  | bucketMoveDone (die : Nat)
  /-- HALT_PENDING_HALT (20/R437). A halt-pending heat becomes resident with handlers run and halts. -/
  | haltPendingHalt (heat : Nat)
  /-- ROM (21/R453). Boot ROM reads the fused root key digest and security counter. -/
  | rom (ok : Bool)
  /-- VERIFY (21/R455). Lamom and command-processor images are verified. -/
  | verify (lamomImg cpImg : FirmwareImage)
  /-- MEASURE (21/R456). Measurement registers 0-3 are extended. -/
  | measure (ok : Bool)
  /-- ARRAYS (21/R453). Pattern test of the sweep arrays. -/
  | arrays (ok : Bool)
  /-- SRAM (21/R453). March test of the SRAMs. -/
  | sram (ok : Bool)
  /-- DRAM (21/R453). Training and march test of the underlays. -/
  | dram (ok : Bool)
  /-- LINKS (22/R462). Die-boundary, CXL and Fjaroita link training. -/
  | links (dieOk cxlOk : Bool) (cables : List LinkTraining)
  /-- ILLEGAL_ENCODING (04/R107). A seat reaches a word with a reserved tag or opcode, or a nonzero zero field, and raises the illegal fault. -/
  | illegalEncoding
  /-- FETCH_FAILURE (05/R114). A seat's next word cannot be fetched because of a translation or protection failure, and the seat raises that fault. -/
  | fetchFailure (protection : Bool)
  /-- ATOMIC_RETRY (06/R156). A lost atomic packet or reply times out and the source resends it with the same sequence number. -/
  | atomicRetry (id : Nat)
  /-- SETTLE_TIMEOUT (13/R380). An idempotent copy's remote end has not answered for 4,096 cycles and becomes a pending descriptor. -/
  | settleTimeout (cmd : Nat)
  /-- COMMAND_STEAL (13/R384). An idle sibling claims a relocatable command that has waited 512 cycles. -/
  | commandSteal (cmd thief : Nat)
  /-- STEAL_ACKNOWLEDGE (13/R385). The thief acknowledges a marked command and begins it. -/
  | stealAcknowledge (cmd : Nat)
  /-- STEAL_MARK_TIMEOUT (13/R385). A marked command is not acknowledged within 16 cycles and returns to the victim's queue. -/
  | stealMarkTimeout (cmd : Nat)
  /-- THIEF_RESET (13/R385). A thief holding a stolen command is reset; the command is redone or aborted. -/
  | thiefReset (core : Nat)
  /-- CANCEL_MESSAGE (10/R312). A cancel message of a multi-device job arrives over Fjaroita and cancels local heats. -/
  | cancelMessage (job : NumBeat)
  /-- FJAROITA_BEAT_ARRIVAL (10/R301). A coxed beat arrives over a link; one after its release cycle raises overrun 0x0C. -/
  | fjaroitaBeatArrival (beat : LinkBeat) (addr : Nat) (val : BitVec 64) (taint : Bool)
  /-- PROBE_ARRIVAL (12/R363). A probe arrives and is applied, held behind an outstanding reply to its line. -/
  | probeArrival (core line : Nat)
  /-- HOST_HDM_ACCESS (12/R367). A host access through the HDM range is performed at the line's home slice. -/
  | hostHdmAccess (wr : Bool) (addr : Nat) (val : BitVec 64)
  /-- COLL_ABORT_MESSAGE (20/R452). A collective abort arrives and aborts the group's pending collectives. -/
  | collAbortMessage (job group : Nat) (seq : NumBeat)
  /-- QDOOR (19/R403). Doorbell write making packets up to the producer index available. -/
  | qdoor (q : Nat) (p : BitVec 32)
  /-- QCTL (19/R402). Write of a queue's control register, enabling or disabling it. -/
  | qctl (q : Nat) (v : BitVec 32)
  /-- DEVNUM (19/R401). Write of the device number, ignored while any job is resident. -/
  | devnum (v : BitVec 64)
  /-- BUCKET_TABLE_ENTRY (19/R401). Write of a bucket-table entry, ignored while a coxed job is resident. -/
  | bucketTableEntry (die b : Nat) (v : BitVec 32)
  /-- REGISTER_WRITE (19/R402). Write to a host or CSR register with no behaviour of its own. -/
  | registerWrite (r : HostReg) (v : BitVec 64)
  /-- FLUSH_WAYS (12/R354). SLWAYCTL command 1: write back and invalidate the named cache ways. -/
  | flushWays (die slice : Nat) (mask : BitVec 16)
  /-- SET_SCRATCH_MASK (12/R354). SLWAYCTL command 2: set the slice-scratch way mask or refuse it. -/
  | setScratchMask (die slice : Nat) (mask : BitVec 16)
  /-- CLKALIGN_START (22/R464). A CLKALIGN write with start begins clock alignment. -/
  | clkalignStart (v : BitVec 64)
  /-- CLOCK_ALIGNED (22/R464). The probe exchange ends, the clock is aligned and link delays are set. -/
  | clockAligned (parentAligned : Bool) (parentClock : Nat) (ends : List Nat)
  /-- LINK_DOWN (22/R464). A parent link goes down or retrains and aligned clears. -/
  | linkDown (link : Nat)
  /-- UNIT_GATE (22/R467). A unit idle for the threshold is power-gated. -/
  | unitGate (u : GateUnit)
  /-- UNIT_WAKE (12/R356). A gated unit finishes waking for an access. -/
  | unitWake (u : GateUnit)
  /-- READ_SELF_TEST_REPORT (21/R457). Mailbox command 0xC000. -/
  | readSelfTestReport
  /-- READ_ERROR_LOG (20/R433). Mailbox command 0xC001 returning the error log and counters. -/
  | readErrorLog
  /-- READ_MEASUREMENT_REGISTER (21/R457). Mailbox command 0xC002. -/
  | readMeasurementRegister (m : Nat)
  /-- EXTEND_REGISTER (21/R456). Mailbox command 0xC003 extending measurement register 4-7. -/
  | extendRegister (m : Nat) (digest : BitVec 512)
  /-- ADVANCE_SECURITY_VERSION (21/R455). Mailbox command 0xC004 advancing the fused security version. -/
  | advanceSecurityVersion
  /-- KEY_LOAD (21/R459). Mailbox command 0xC010 loading a memory key slot. -/
  | keyLoad (slot : Nat) (key : BitVec 512) (owner : Nat)
  /-- KEY_UNLOAD (21/R460). Mailbox command 0xC011 writing back the slot's lines and zeroing it. -/
  | keyUnload (slot : Nat)
  /-- DEBUGGER_ATTACH (20/R437). Mailbox command 0xC020. -/
  | debuggerAttach (job : Nat)
  /-- DEBUGGER_DETACH (21/R457). Mailbox command 0xC021. -/
  | debuggerDetach (job : Nat)
  /-- SET_WATCHPOINT (20/R437). Mailbox command 0xC022 setting or clearing a watchpoint. -/
  | setWatchpoint (job n : Nat) (base : BitVec 64) (log2len : Nat) (rd wr : Bool)
  /-- HALT_REQUEST (20/R437). Mailbox command 0xC023 halting a job; it may name a heat of it. -/
  | haltRequest (job : Nat) (heat : Option Nat)
  /-- RELEASE (20/R441). Mailbox command 0xC024 releasing the whole halted job. -/
  | release (job : Nat)
  /-- STEP_RELEASE (20/R441). Mailbox command 0xC024 letting one seat issue n words, then halting again. -/
  | stepRelease (heat : Nat) (seat : Seat) (n : Nat)
  /-- READ_HALT_RECORD (20/R442). Mailbox command 0xC025 returning the halt record and halted-cycle count. -/
  | readHaltRecord (job : Nat)
  /-- MAILBOX_UNSUPPORTED (21/R457). Another vendor opcode returns Unsupported. -/
  | mailboxUnsupported (opcode : BitVec 16)
  /-- DEBUG_REGISTER_WRITE (20/R440). The debugger writes a halted heat's register, cancelling an outstanding write-back. -/
  | debugRegisterWrite (heat : Nat) (r : DebugReg) (v : BitVec 64) (taint : Bool)
  /-- GET_VERSION (21/R458). SPDM GET_VERSION. -/
  | getVersion
  /-- GET_CAPABILITIES (21/R458). SPDM GET_CAPABILITIES. -/
  | getCapabilities
  /-- NEGOTIATE_ALGORITHMS (21/R458). SPDM NEGOTIATE_ALGORITHMS. -/
  | negotiateAlgorithms
  /-- GET_DIGESTS (21/R458). SPDM GET_DIGESTS. -/
  | getDigests
  /-- GET_CERTIFICATE (21/R458). SPDM GET_CERTIFICATE. -/
  | getCertificate
  /-- CHALLENGE (21/R458). SPDM CHALLENGE. -/
  | challenge (nonce : BitVec 256)
  /-- GET_MEASUREMENTS (21/R458). SPDM GET_MEASUREMENTS for registers 0-7. -/
  | getMeasurements (index : Nat) (nonce : BitVec 256)
  /-- KEY_EXCHANGE (21/R458). SPDM KEY_EXCHANGE. -/
  | keyExchange (share : BitVec 512)
  /-- FINISH (21/R458). SPDM FINISH establishing the session. -/
  | finish
  /-- BOARD_RESET_RELEASE (21/R453). Release of the board reset starts the regatta clock and the ROM state. -/
  | boardResetRelease
  /-- READY (21/R453). Every memory word is zeroed and compute enabled. -/
  | ready
  /-- THERMAL_TRIP (21/R461). A die junction above 105 C cancels every job and disables compute. -/
  | thermalTrip
  /-- POWER_TRIP (21/R461). Board power above 1,800 W over 10 ms cancels every job and disables compute. -/
  | powerTrip
  /-- COMPUTE_REENABLE (21/R461). After one second below 95 C compute is enabled again. -/
  | computeReenable
  /-- VICTIM_CORE_RESET (13/R385). The victim core of a stolen command is reset; the thief completes the command and the completion is discarded. -/
  | victimCoreReset (core : Nat)
  /-- HOST_REJECTED_WRITE (19/R400). The host rejects a posted write request, which is dropped and entered in Lamom's error log. -/
  | hostRejectedWrite (id : Nat)
  /-- CXL_FLUSH_READ_COMPLETE (19/R400). The flushing read issued after posted writes completes at the host, releasing a system-scope fence, release or completion edge. -/
  | cxlFlushReadComplete
  /-- PEER_ASR_ACCESS (12/R355). An access from a peer device arrives over Fjaroita and is performed at this device's ASR cell, after its causal predecessors. -/
  | peerAsrAccess (addr : Nat) (access : PeerAccess) (val : BitVec 64)
  /-- COLL_PARTNER_MESSAGE (07/R226). A collective member's readiness or contribution arrives, starting or continuing the adds at the destination home, or aborting on disagreement. -/
  | collPartnerMessage (job group seq rank : Nat) (sig : CollSig) (data : PartBeat)
  /-- STASH_LINE_WRITE_BACK (07/R222). Under pressure a clean stash line is dropped or a dirty one written back, with any uncorrectable error charged under R432. -/
  | stashLineWriteBack (heat slot line : Nat)
deriving DecidableEq, Repr

end Sys2Proof
end

