-- ==== Sys2Proof/WellFormed.lean ====
section
/-!
DEFINITION. The encoding checks of 04/R107 that a word's own bits decide, each with a name; a word that breaks one
raises the illegal fault. Checks that read the machine's state (04/R108) are made where the word executes (log 14).
-/

namespace Sys2Proof

/-- Why an encoding is not an instruction (04/R107). -/
inductive Reject where
  | reservedTag | reservedOpcode | nonzeroField | reservedCode | bothFlags
  | badLoop | badStream | badReloc | badSpec | badLength | badRegister
deriving DecidableEq, Repr

namespace Check

/-- The first failing check of a list, in the order given. -/
def firstOf : List (Bool × Reject) → Option Reject
  | [] => none
  | (bad, r) :: rest => if bad then some r else firstOf rest

/-- First-only and last-only both set (04/R94). -/
def slot (w : Slot) : Bool × Reject := (w.first && w.last, .bothFlags)

/-- vd names an inbound stream (04/R96). -/
def vd (v : BitVec 5) : Bool × Reject := (decide (16 ≤ v.toNat ∧ v.toNat < 24), .badStream)

/-- va names an outbound or index stream (04/R96). -/
def va (v : BitVec 5) : Bool × Reject := (decide (24 ≤ v.toNat), .badStream)

/-- A command that may not carry the relocatable bit (04/R99). -/
def noReloc (c : Ctl) : Bool × Reject := (c.reloc, .badReloc)

/-- A C command carries neither the relocatable nor the speculative bit (04/R99, R100). -/
def cCtl (c : Ctl) : Option Reject := firstOf [(c.reloc, .badReloc), (c.spec, .badSpec)]

/-- A value above the largest code of a field. -/
def above {n : Nat} (v : BitVec n) (most : Nat) : Bool × Reject := (decide (most < v.toNat), .reservedCode)

/-- A field that must be zero. -/
def nonzero {n : Nat} (v : BitVec n) : Bool × Reject := (decide (v.toNat ≠ 0), .nonzeroField)

/-- Update modes 10 and 11 are reserved (04/R97). -/
def upd (w : Slot) (u : BitVec 2) : Option Reject := firstOf [slot w, above u 1]

/-- L12 of 07/R205: words, or a scalar's number with bits 10:6 zero. -/
def len12 (l : BitVec 12) : Bool × Reject := (decide (2048 ≤ l.toNat ∧ (l.toNat % 2048) / 64 ≠ 0), .badLength)

/-- A vector word of two sources. -/
def vec3 (w : Slot) (d a : BitVec 5) : Option Reject := firstOf [slot w, vd d, va a]

/-- The destination field of a matrix product (08/R261). -/
def mdst (dk : BitVec 2) (dst : BitVec 3) : Bool × Reject :=
  (if dk.toNat = 0 then false else if dk.toNat = 1 then decide (4 ≤ dst.toNat) else decide (dst.toNat ≠ 0), .nonzeroField)

end Check

open Check in
/-- The encoding check of each instruction; events have no encoding and nothing to check. DEDUCED (log 83): VCMP and KOP
with kd = k0, MBAG steer with exact, and MTOPK with accumulation, whose rules (08/R242, R243, R265, R266) give the illegal
fault for bits of the word alone, are checked here though 04/R107 does not list them. -/
def check : Instr → Option Reject
  | .loopLc lc body => firstOf [(decide (5 < lc.toNat), .badLoop), (decide (body.toNat = 0), .badLoop)]
  | .loopImm _ body => firstOf [(decide (body.toNat = 0), .badLoop)]
  | .cmp comb _ _ _ cond => firstOf [above comb 2, above cond 5]
  | .sext _ _ w => firstOf [above w 2]
  | .zext _ _ w => firstOf [above w 2]
  | .cmpi cond _ _ _ => firstOf [above cond 5]
  | .lds _ _ _ w _ => firstOf [above w 6]
  | .sts _ _ _ w _ => firstOf [above w 6]
  | .setlc lc _ => firstOf [above lc 5]
  | .setstrd lvl _ _ _ _ _ _ => firstOf [above lvl 5]
  | .laadd _ _ form _ _ => firstOf [above form 2]
  | .fence s => firstOf [above s 5]
  | .fencea s => firstOf [above s 5]
  | .fencer s => firstOf [above s 5]
  | .spawn _ _ c => cCtl c
  | .spawnt _ _ b n c =>
    (cCtl c).or (firstOf [above n 4, (decide (0 < n.toNat ∧ 63 < b.toNat + n.toNat - 1), .badRegister)])
  | .cancel _ a b lvl => firstOf [above lvl 4, (decide (lvl.toNat ≠ 0 ∧ b.toNat ≠ 0), .nonzeroField),
      (decide (lvl.toNat = 4 ∧ a.toNat ≠ 0), .nonzeroField)]
  | .waitc _ a b lvl => firstOf [above lvl 4, (decide (lvl.toNat ≠ 0 ∧ b.toNat ≠ 0), .nonzeroField),
      (decide (lvl.toNat = 4 ∧ a.toNat ≠ 0), .nonzeroField)]
  | .resume _ _ c => cCtl c
  | .copyco _ _ _ c => cCtl c
  | .self _ sel => firstOf [above sel 6]
  | .slwin _ _ kk _ _ => firstOf [above kk 10]
  | .slchk comb _ _ _ _ _ => firstOf [above comb 2]
  | .nopl w => firstOf [slot w]
  | .ldq w _ _ u => upd w u
  | .ldqs w _ _ u => upd w u
  | .gatq w _ _ _ => firstOf [slot w]
  | .lQset w _ _ en ring _ _ _ => firstOf [slot w, (!en && decide (ring.toNat ≠ 0), .nonzeroField)]
  | .lPset w _ _ => firstOf [slot w]
  | .lPadd w _ _ => firstOf [slot w]
  | .cpyin w _ _ len _ => firstOf [slot w, len12 len]
  | .gatr w _ _ _ _ => firstOf [slot w]
  | .ldblk w _ _ _ c => firstOf [slot w, noReloc c]
  | .ldblkRel w _ c => firstOf [slot w, noReloc c]
  | .pref w _ lvl _ _ => firstOf [slot w, above lvl 2]
  | .stmap w _ _ _ _ _ => firstOf [slot w]
  | .stunmap w _ c => firstOf [slot w, noReloc c]
  | .stflush w all s c => firstOf [slot w, (all && decide (s.toNat ≠ 0), .nonzeroField), noReloc c]
  | .bagopen w _ c => firstOf [slot w, noReloc c]
  | .invm w sa size pages _ => firstOf [slot w, above size 2,
      (decide (size.toNat = 2 ∧ (sa.toNat ≠ 0 ∨ pages.toNat ≠ 0)), .nonzeroField)]
  | .lCwait w _ => firstOf [slot w]
  | .rpush w _ _ => firstOf [slot w]
  | .hnd w _ _ => firstOf [slot w]
  | .nops w => firstOf [slot w]
  | .stq w _ _ u => upd w u
  | .stqs w _ _ u => upd w u
  | .scatq w _ _ _ => firstOf [slot w]
  | .sQset w _ _ en ring _ _ _ => firstOf [slot w, (!en && decide (ring.toNat ≠ 0), .nonzeroField)]
  | .sPset w _ _ => firstOf [slot w]
  | .sPadd w _ _ => firstOf [slot w]
  | .cpyout w _ _ len _ => firstOf [slot w, len12 len]
  | .scatr w _ _ _ _ => firstOf [slot w]
  | .bagclose w _ c => firstOf [slot w, noReloc c]
  | .asrcpy w _ _ _ _ _ => firstOf [slot w]
  | .coll w _ c => firstOf [slot w, noReloc c]
  | .rpop w _ _ => firstOf [slot w]
  | .sCwait w _ => firstOf [slot w]
  | .nopx w => firstOf [slot w]
  | .sett w fmt rm => firstOf [slot w, above fmt 12, above rm 4]
  | .settM w _ _ _ _ => firstOf [slot w]
  | .settO w fmt => firstOf [slot w, above fmt 5]
  | .vadd w d a _ => vec3 w d a
  | .vsub w d a _ => vec3 w d a
  | .vmul w d a _ => vec3 w d a
  | .vfma w d a _ => vec3 w d a
  | .vmin w d a _ => vec3 w d a
  | .vmax w d a _ => vec3 w d a
  | .vabs w d a => vec3 w d a
  | .vneg w d a => vec3 w d a
  | .vand w d a _ => vec3 w d a
  | .vor w d a _ => vec3 w d a
  | .vxor w d a _ => vec3 w d a
  | .vshl w d a _ => vec3 w d a
  | .vshr w d a _ => vec3 w d a
  | .vsar w d a _ => vec3 w d a
  | .vcmp w kd _ a _ => firstOf [slot w, va a, (decide (kd.toNat = 0), .reservedCode)]
  | .vsel w d a _ => vec3 w d a
  | .vmov w d a => vec3 w d a
  | .vbcst w d _ => firstOf [slot w, vd d]
  | .vidx w d => firstOf [slot w, vd d]
  | .vcvt w d a fmt => (vec3 w d a).or (firstOf [above fmt 12])
  | .vrcp w d a => vec3 w d a
  | .vrsq w d a => vec3 w d a
  | .vexp2 w d a => vec3 w d a
  | .vlog2 w d a => vec3 w d a
  | .vred w d a op => (vec3 w d a).or (firstOf [above op 5])
  | .vscan w d a _ op => (vec3 w d a).or (firstOf [above op 5])
  | .vperm w d a _ => vec3 w d a
  | .vqnt w d a => vec3 w d a
  | .vdqn w d a => vec3 w d a
  | .kop w kd _ kb op => firstOf [slot w, (decide (kd.toNat = 0), .reservedCode), above op 4,
      (decide (op.toNat = 4 ∧ kb.toNat ≠ 0), .nonzeroField)]
  | .vcpush w d a form => firstOf [slot w, vd d, va a, above form 2,
      (decide (form.toNat = 2 ∧ a.toNat ≠ 0), .nonzeroField)]
  | .vcpop w d a form => firstOf [slot w, vd d, va a, above form 1]
  | .mwld w _ _ _ _ => firstOf [slot w]
  | .mbag w _ acc exact _ c => firstOf [slot w, (!acc && exact, .reservedCode), noReloc c]
  | .mmul w _ _ dk dst _ c => firstOf [slot w, mdst dk dst, noReloc c]
  | .mdist w _ _ dk dst _ c => firstOf [slot w, mdst dk dst, noReloc c]
  | .mtopk w _ _ dk dst _ _ _ _ c => firstOf [slot w, (decide (2 ≤ dk.toNat), .reservedCode), mdst dk dst, noReloc c]
  | .mret w _ _ c => firstOf [slot w, noReloc c]
  | .mretRegion w kind _ _ c => firstOf [slot w, above kind 2, noReloc c]
  | .mclr w kind _ _ c => firstOf [slot w, above kind 2, noReloc c]
  | .rset w _ _ => firstOf [slot w]
  | .mwait w => firstOf [slot w]
  | .lease w _ => firstOf [slot w]
  | .unlease w => firstOf [slot w]
  | _ => none

/-- A well-formed instruction passes its encoding check. -/
def WellFormed (i : Instr) : Bool := decide (check i = none)

end Sys2Proof
end

