-- ==== Sys2Proof/Decode.lean ====
section
/-!
DEFINITION. Decoding of program text (04_encoding.md), total on any bytes, and the encoder after it.
A word is read as a number with bit 0 its least significant bit; a long instruction is the base word w0 and the
extension word w1 (04/R81).
-/

namespace Sys2Proof

/-- Bits lo + n - 1 down to lo of a word. -/
def bits (w lo n : Nat) : Nat := w / 2 ^ lo % 2 ^ n

/-- The same bits as an n-bit field. -/
def fld (w lo n : Nat) : BitVec n := BitVec.ofNat n (w / 2 ^ lo)

/-- One bit as a flag. -/
def flag (w lo : Nat) : Bool := decide (bits w lo 1 = 1)

/-- Bits 28:20 of an L, X or S word (04/R93). -/
def slotOf (w : Nat) : Slot :=
  { popUp := flag w 28, popDn := flag w 27, pushUp := flag w 26, pushDn := flag w 25,
    first := flag w 24, last := flag w 23, pred := fld w 20 3 }

/-- Bits 63:40 of a command (04/R98). -/
def ctlOf (w1 : Nat) : Ctl :=
  { stamp := fld w1 16 16, reloc := flag w1 15, spec := flag w1 14, co := fld w1 8 6 }

/-- The opcodes that 04/R103 to R106 list as long, by seat tag (C, L, X, S). -/
def longOps : Nat → List Nat
  | 0 => [40, 41, 42, 43, 52, 64, 65, 66, 67, 68, 69, 70, 71, 72, 73, 74, 75, 76, 77, 78, 79, 83, 96, 97, 101, 102, 112, 113, 114, 117]
  | 1 => [4, 7, 8, 9, 10, 11, 12, 13, 14, 15, 18]
  | 2 => [48, 49, 50, 51, 52, 53, 54, 55]
  | 3 => [4, 7, 8, 9, 10, 11]
  | _ => []

/-- Shared words (04/R85 to R87, R102). -/
def rawShared (op w0 : Nat) : Except Reject Instr :=
  match op with
  | 0 =>
      if bits w0 0 24 = 0 then .ok .nopa
      else .error .nonzeroField
  | 1 =>
      .ok (.br (fld w0 21 3) (flag w0 20) (fld w0 0 20))
  | 2 =>
      .ok (.jmp (fld w0 0 24))
  | 3 =>
      .ok (.call (fld w0 0 24))
  | 4 =>
      if bits w0 0 24 = 0 then .ok .ret
      else .error .nonzeroField
  | 5 =>
      if bits w0 23 1 = 0 ∧ bits w0 15 8 = 0 then .ok (.loopLc (fld w0 12 3) (fld w0 0 12))
      else if bits w0 23 1 = 1 then .ok (.loopImm (fld w0 12 11) (fld w0 0 12))
      else .error .nonzeroField
  | 6 =>
      if bits w0 0 20 = 0 then .ok (.lexit (fld w0 21 3) (flag w0 20))
      else .error .nonzeroField
  | 7 =>
      if bits w0 0 24 = 0 then .ok .stroke
      else .error .nonzeroField
  | 8 =>
      if bits w0 0 24 = 0 then .ok .hend
      else .error .nonzeroField
  | _ => .error .reservedOpcode

/-- Register-form integer words of C (04/R103, 05/R129). -/
def rawCReg (op w0 : Nat) : Except Reject Instr :=
  match op with
  | 0 =>
      if bits w0 0 22 = 0 then .ok .nop
      else .error .nonzeroField
  | 1 =>
      if bits w0 0 4 = 0 then .ok (.add (fld w0 16 6) (fld w0 10 6) (fld w0 4 6))
      else .error .nonzeroField
  | 2 =>
      if bits w0 0 4 = 0 then .ok (.sub (fld w0 16 6) (fld w0 10 6) (fld w0 4 6))
      else .error .nonzeroField
  | 3 =>
      if bits w0 0 4 = 0 then .ok (.and (fld w0 16 6) (fld w0 10 6) (fld w0 4 6))
      else .error .nonzeroField
  | 4 =>
      if bits w0 0 4 = 0 then .ok (.or (fld w0 16 6) (fld w0 10 6) (fld w0 4 6))
      else .error .nonzeroField
  | 5 =>
      if bits w0 0 4 = 0 then .ok (.xor (fld w0 16 6) (fld w0 10 6) (fld w0 4 6))
      else .error .nonzeroField
  | 6 =>
      if bits w0 0 4 = 0 then .ok (.shl (fld w0 16 6) (fld w0 10 6) (fld w0 4 6))
      else .error .nonzeroField
  | 7 =>
      if bits w0 0 4 = 0 then .ok (.shr (fld w0 16 6) (fld w0 10 6) (fld w0 4 6))
      else .error .nonzeroField
  | 8 =>
      if bits w0 0 4 = 0 then .ok (.sar (fld w0 16 6) (fld w0 10 6) (fld w0 4 6))
      else .error .nonzeroField
  | 9 =>
      if bits w0 0 4 = 0 then .ok (.mul (fld w0 16 6) (fld w0 10 6) (fld w0 4 6))
      else .error .nonzeroField
  | 10 =>
      if bits w0 0 4 = 0 then .ok (.mulh (fld w0 16 6) (fld w0 10 6) (fld w0 4 6))
      else .error .nonzeroField
  | 11 =>
      if bits w0 0 4 = 0 then .ok (.mulhn (fld w0 16 6) (fld w0 10 6) (fld w0 4 6))
      else .error .nonzeroField
  | 12 =>
      if bits w0 0 4 = 0 then .ok (.div (fld w0 16 6) (fld w0 10 6) (fld w0 4 6))
      else .error .nonzeroField
  | 13 =>
      if bits w0 0 4 = 0 then .ok (.divn (fld w0 16 6) (fld w0 10 6) (fld w0 4 6))
      else .error .nonzeroField
  | 14 =>
      if bits w0 0 4 = 0 then .ok (.rem (fld w0 16 6) (fld w0 10 6) (fld w0 4 6))
      else .error .nonzeroField
  | 15 =>
      if bits w0 0 4 = 0 then .ok (.remn (fld w0 16 6) (fld w0 10 6) (fld w0 4 6))
      else .error .nonzeroField
  | 16 =>
      if bits w0 0 4 = 0 then .ok (.min (fld w0 16 6) (fld w0 10 6) (fld w0 4 6))
      else .error .nonzeroField
  | 17 =>
      if bits w0 0 4 = 0 then .ok (.max (fld w0 16 6) (fld w0 10 6) (fld w0 4 6))
      else .error .nonzeroField
  | 18 =>
      if bits w0 0 4 = 0 then .ok (.minn (fld w0 16 6) (fld w0 10 6) (fld w0 4 6))
      else .error .nonzeroField
  | 19 =>
      if bits w0 0 4 = 0 then .ok (.maxn (fld w0 16 6) (fld w0 10 6) (fld w0 4 6))
      else .error .nonzeroField
  | 20 =>
      if bits w0 0 10 = 0 then .ok (.clz (fld w0 16 6) (fld w0 10 6))
      else .error .nonzeroField
  | 21 =>
      if bits w0 0 10 = 0 then .ok (.popc (fld w0 16 6) (fld w0 10 6))
      else .error .nonzeroField
  | 22 =>
      if bits w0 1 3 = 0 then .ok (.bfx (fld w0 16 6) (fld w0 10 6) (fld w0 4 6) (flag w0 0))
      else .error .nonzeroField
  | 23 =>
      if bits w0 0 4 = 0 then .ok (.bfi (fld w0 16 6) (fld w0 10 6) (fld w0 4 6))
      else .error .nonzeroField
  | 24 =>
      .ok (.sel (fld w0 16 6) (fld w0 10 6) (fld w0 4 6) (flag w0 3) (fld w0 0 3))
  | 25 =>
      .ok (.cmp (fld w0 19 3) (fld w0 16 3) (fld w0 10 6) (fld w0 4 6) (fld w0 0 4))
  | 26 =>
      if bits w0 4 6 = 0 then .ok (.sext (fld w0 16 6) (fld w0 10 6) (fld w0 0 4))
      else .error .nonzeroField
  | 27 =>
      if bits w0 4 6 = 0 then .ok (.zext (fld w0 16 6) (fld w0 10 6) (fld w0 0 4))
      else .error .nonzeroField
  | 28 =>
      .ok (.lea (fld w0 16 6) (fld w0 10 6) (fld w0 4 6) (fld w0 0 4))
  | _ => .error .reservedOpcode

/-- Immediate, long-immediate, load, store, CSR and control words of C (04/R103, 05/R133 to R145). -/
def rawCImm (op w0 w1 : Nat) : Except Reject Instr :=
  match op with
  | 32 =>
      .ok (.addi (fld w0 16 6) (fld w0 10 6) (fld w0 0 10))
  | 33 =>
      .ok (.andi (fld w0 16 6) (fld w0 10 6) (fld w0 0 10))
  | 34 =>
      .ok (.ori (fld w0 16 6) (fld w0 10 6) (fld w0 0 10))
  | 35 =>
      .ok (.xori (fld w0 16 6) (fld w0 10 6) (fld w0 0 10))
  | 36 =>
      if bits w0 6 4 = 0 then .ok (.shli (fld w0 16 6) (fld w0 10 6) (fld w0 0 6))
      else .error .nonzeroField
  | 37 =>
      if bits w0 6 4 = 0 then .ok (.shri (fld w0 16 6) (fld w0 10 6) (fld w0 0 6))
      else .error .nonzeroField
  | 38 =>
      if bits w0 6 4 = 0 then .ok (.sari (fld w0 16 6) (fld w0 10 6) (fld w0 0 6))
      else .error .nonzeroField
  | 39 =>
      .ok (.cmpi (fld w0 19 3) (fld w0 16 3) (fld w0 10 6) (fld w0 0 10))
  | 40 =>
      .ok (.movi (fld w0 16 6) (fld w1 0 16 ++ fld w0 0 16) (fld w1 16 16))
  | 41 =>
      .ok (.movhi (fld w0 16 6) (fld w1 0 16 ++ fld w0 0 16) (fld w1 16 16))
  | 42 =>
      .ok (.lds (fld w0 16 6) (fld w0 10 6) (fld w1 0 13 ++ fld w0 0 10) (fld w1 13 3) (fld w1 16 16))
  | 43 =>
      .ok (.sts (fld w0 16 6) (fld w0 10 6) (fld w1 0 13 ++ fld w0 0 10) (fld w1 13 3) (fld w1 16 16))
  | 48 =>
      if bits w0 10 6 = 0 then .ok (.csrr (fld w0 16 6) (fld w0 0 10))
      else .error .nonzeroField
  | 49 =>
      if bits w0 16 6 = 0 then .ok (.csrw (fld w0 10 6) (fld w0 0 10))
      else .error .nonzeroField
  | 50 =>
      if bits w0 10 12 = 0 then .ok (.trap (fld w0 0 10))
      else .error .nonzeroField
  | 51 =>
      if bits w0 19 3 = 0 ∧ bits w0 0 10 = 0 then .ok (.setlc (fld w0 16 3) (fld w0 10 6))
      else .error .nonzeroField
  | 52 =>
      if bits w0 19 3 = 0 ∧ bits w0 0 10 = 0 ∧ bits w1 6 8 = 0 then .ok (.setstrd (fld w0 16 3) (fld w0 10 6) (flag w1 15) (flag w1 14) (fld w1 4 2) (fld w1 0 4) (fld w1 16 16))
      else .error .nonzeroField
  | 53 =>
      if bits w0 16 6 = 0 ∧ bits w0 0 10 = 0 then .ok (.setslip (fld w0 10 6))
      else .error .nonzeroField
  | 54 =>
      if bits w0 16 6 = 0 ∧ bits w0 0 10 = 0 then .ok (.prio (fld w0 10 6))
      else .error .nonzeroField
  | 55 =>
      if bits w0 0 16 = 0 then .ok (.rdclk (fld w0 16 6))
      else .error .nonzeroField
  | 56 =>
      if bits w0 0 16 = 0 then .ok (.rdstroke (fld w0 16 6))
      else .error .nonzeroField
  | 57 =>
      if bits w0 0 10 = 0 then .ok (.wfe (fld w0 16 6) (fld w0 10 6))
      else .error .nonzeroField
  | 58 =>
      if bits w0 0 22 = 0 then .ok .sms
      else .error .nonzeroField
  | 59 =>
      if bits w0 0 22 = 0 then .ok .wpv
      else .error .nonzeroField
  | 60 =>
      if bits w0 0 22 = 0 then .ok .hret
      else .error .nonzeroField
  | 61 =>
      if bits w0 10 12 = 0 then .ok (.bkpt (fld w0 0 10))
      else .error .nonzeroField
  | _ => .error .reservedOpcode

/-- Atomics, fences, barriers and completion-object words of C (04/R103, 06/R148 to R163). -/
def rawCSync (op w0 w1 : Nat) : Except Reject Instr :=
  match op with
  | 64 =>
      if bits w0 1 3 = 0 then .ok (.aadd (fld w0 16 6) (fld w0 10 6) (fld w0 4 6) (flag w0 0) (fld w1 0 16) (fld w1 16 16))
      else .error .nonzeroField
  | 65 =>
      if bits w0 1 3 = 0 then .ok (.amin (fld w0 16 6) (fld w0 10 6) (fld w0 4 6) (flag w0 0) (fld w1 0 16) (fld w1 16 16))
      else .error .nonzeroField
  | 66 =>
      if bits w0 1 3 = 0 then .ok (.amax (fld w0 16 6) (fld w0 10 6) (fld w0 4 6) (flag w0 0) (fld w1 0 16) (fld w1 16 16))
      else .error .nonzeroField
  | 67 =>
      if bits w0 1 3 = 0 then .ok (.aminn (fld w0 16 6) (fld w0 10 6) (fld w0 4 6) (flag w0 0) (fld w1 0 16) (fld w1 16 16))
      else .error .nonzeroField
  | 68 =>
      if bits w0 1 3 = 0 then .ok (.amaxn (fld w0 16 6) (fld w0 10 6) (fld w0 4 6) (flag w0 0) (fld w1 0 16) (fld w1 16 16))
      else .error .nonzeroField
  | 69 =>
      if bits w0 1 3 = 0 then .ok (.aand (fld w0 16 6) (fld w0 10 6) (fld w0 4 6) (flag w0 0) (fld w1 0 16) (fld w1 16 16))
      else .error .nonzeroField
  | 70 =>
      if bits w0 1 3 = 0 then .ok (.aor (fld w0 16 6) (fld w0 10 6) (fld w0 4 6) (flag w0 0) (fld w1 0 16) (fld w1 16 16))
      else .error .nonzeroField
  | 71 =>
      if bits w0 1 3 = 0 then .ok (.axor (fld w0 16 6) (fld w0 10 6) (fld w0 4 6) (flag w0 0) (fld w1 0 16) (fld w1 16 16))
      else .error .nonzeroField
  | 72 =>
      if bits w0 1 3 = 0 then .ok (.axchg (fld w0 16 6) (fld w0 10 6) (fld w0 4 6) (flag w0 0) (fld w1 0 16) (fld w1 16 16))
      else .error .nonzeroField
  | 73 =>
      if bits w0 1 3 = 0 then .ok (.acas (fld w0 16 6) (fld w0 10 6) (fld w0 4 6) (flag w0 0) (fld w1 0 16) (fld w1 16 16))
      else .error .nonzeroField
  | 74 =>
      if bits w0 0 4 = 0 then .ok (.faadd (fld w0 16 6) (fld w0 10 6) (fld w0 4 6) (fld w1 0 16) (fld w1 16 16))
      else .error .nonzeroField
  | 75 =>
      if bits w0 0 4 = 0 then .ok (.famin (fld w0 16 6) (fld w0 10 6) (fld w0 4 6) (fld w1 0 16) (fld w1 16 16))
      else .error .nonzeroField
  | 76 =>
      if bits w0 0 4 = 0 then .ok (.famax (fld w0 16 6) (fld w0 10 6) (fld w0 4 6) (fld w1 0 16) (fld w1 16 16))
      else .error .nonzeroField
  | 77 =>
      if bits w0 16 6 = 0 ∧ bits w0 2 2 = 0 then .ok (.laadd (fld w0 10 6) (fld w0 4 6) (fld w0 0 2) (fld w1 0 16) (fld w1 16 16))
      else .error .nonzeroField
  | 78 =>
      if bits w0 4 6 = 0 ∧ bits w0 2 2 = 0 then .ok (.ald (fld w0 16 6) (fld w0 10 6) (fld w0 0 2) (fld w1 0 16) (fld w1 16 16))
      else .error .nonzeroField
  | 79 =>
      if bits w0 16 6 = 0 ∧ bits w0 1 3 = 0 then .ok (.ast (fld w0 10 6) (fld w0 4 6) (flag w0 0) (fld w1 0 16) (fld w1 16 16))
      else .error .nonzeroField
  | 80 =>
      if bits w0 4 18 = 0 then .ok (.fence (fld w0 0 4))
      else .error .nonzeroField
  | 81 =>
      if bits w0 4 18 = 0 then .ok (.fencea (fld w0 0 4))
      else .error .nonzeroField
  | 82 =>
      if bits w0 4 18 = 0 then .ok (.fencer (fld w0 0 4))
      else .error .nonzeroField
  | 83 =>
      if bits w0 16 6 = 0 ∧ bits w0 0 4 = 0 then .ok (.barinit (fld w0 10 6) (fld w0 4 6) (fld w1 0 16) (fld w1 16 16))
      else .error .nonzeroField
  | 84 =>
      if bits w0 0 10 = 0 then .ok (.bararr (fld w0 16 6) (fld w0 10 6))
      else .error .nonzeroField
  | 85 =>
      if bits w0 16 6 = 0 ∧ bits w0 0 4 = 0 then .ok (.barwait (fld w0 10 6) (fld w0 4 6))
      else .error .nonzeroField
  | 86 =>
      if bits w0 0 10 = 0 then .ok (.waitcoAll (fld w0 16 6) (fld w0 10 6))
      else if bits w0 4 6 = 0 ∧ bits w0 0 4 = 1 then .ok (.waitcoAny (fld w0 16 6) (fld w0 10 6))
      else .error .nonzeroField
  | 87 =>
      if bits w0 0 10 = 0 then .ok (.testco (fld w0 16 6) (fld w0 10 6))
      else .error .nonzeroField
  | 88 =>
      if bits w0 0 16 = 0 then .ok (.dbar (fld w0 16 6))
      else .error .nonzeroField
  | _ => .error .reservedOpcode

/-- Task, continuation, slalom and taint words of C (04/R103, 06/R164 to R180). -/
def rawCTask (op w0 w1 : Nat) : Except Reject Instr :=
  match op with
  | 96 =>
      if bits w0 0 10 = 0 ∧ bits w1 0 8 = 0 then .ok (.spawn (fld w0 16 6) (fld w0 10 6) (ctlOf w1))
      else .error .nonzeroField
  | 97 =>
      if bits w1 0 8 = 0 then .ok (.spawnt (fld w0 16 6) (fld w0 10 6) (fld w0 4 6) (fld w0 0 4) (ctlOf w1))
      else .error .nonzeroField
  | 98 =>
      .ok (.cancel (fld w0 16 6) (fld w0 10 6) (fld w0 4 6) (fld w0 0 4))
  | 99 =>
      .ok (.waitc (fld w0 16 6) (fld w0 10 6) (fld w0 4 6) (fld w0 0 4))
  | 100 =>
      if bits w0 16 6 = 0 ∧ bits w0 0 4 = 0 then .ok (.suspend (fld w0 10 6) (fld w0 4 6))
      else .error .nonzeroField
  | 101 =>
      if bits w0 0 10 = 0 ∧ bits w1 0 8 = 0 then .ok (.resume (fld w0 16 6) (fld w0 10 6) (ctlOf w1))
      else .error .nonzeroField
  | 102 =>
      if bits w0 0 4 = 0 ∧ bits w1 0 8 = 0 then .ok (.copyco (fld w0 16 6) (fld w0 10 6) (fld w0 4 6) (ctlOf w1))
      else .error .nonzeroField
  | 103 =>
      if bits w0 0 10 = 0 then .ok (.dropco (fld w0 16 6) (fld w0 10 6))
      else .error .nonzeroField
  | 104 =>
      if bits w0 16 6 = 0 ∧ bits w0 0 10 = 0 then .ok (.yieldi (fld w0 10 6))
      else .error .nonzeroField
  | 105 =>
      if bits w0 4 12 = 0 then .ok (.self (fld w0 16 6) (fld w0 0 4))
      else .error .nonzeroField
  | 112 =>
      if bits w0 16 6 = 0 ∧ bits w0 0 4 = 0 then .ok (.slwin (fld w0 10 6) (fld w0 4 6) (fld w1 12 4) (fld w1 0 12) (fld w1 16 16))
      else .error .nonzeroField
  | 113 =>
      if bits w0 16 6 = 0 ∧ bits w0 0 4 = 0 then .ok (.slres (fld w0 10 6) (fld w0 4 6) (fld w1 0 16) (fld w1 16 16))
      else .error .nonzeroField
  | 114 =>
      if bits w0 0 4 = 0 then .ok (.slchk (fld w0 19 3) (fld w0 16 3) (fld w0 10 6) (fld w0 4 6) (fld w1 0 16) (fld w1 16 16))
      else .error .nonzeroField
  | 115 =>
      if bits w0 16 6 = 0 ∧ bits w0 4 6 = 0 then .ok (.sldone (fld w0 10 6) (flag w0 3) (fld w0 0 3))
      else .error .nonzeroField
  | 116 =>
      if bits w0 0 16 = 0 then .ok (.slnext (fld w0 16 6))
      else .error .nonzeroField
  | 117 =>
      if bits w0 16 6 = 0 ∧ bits w0 0 4 = 0 then .ok (.slreset (fld w0 10 6) (fld w0 4 6) (fld w1 0 16) (fld w1 16 16))
      else .error .nonzeroField
  | 118 =>
      if bits w0 0 10 = 0 then .ok (.taintq (fld w0 16 6) (fld w0 10 6))
      else if bits w0 4 6 = 0 ∧ bits w0 0 4 = 1 then .ok (.taintqMem (fld w0 16 6) (fld w0 10 6))
      else .error .nonzeroField
  | 119 =>
      if bits w0 0 10 = 0 then .ok (.tclr (fld w0 16 6) (fld w0 10 6))
      else .error .nonzeroField
  | 120 =>
      if bits w0 4 12 = 0 ∧ bits w0 3 1 = 0 then .ok (.tcnt (fld w0 16 6) (flag w0 2) (fld w0 0 2))
      else .error .nonzeroField
  | _ => .error .reservedOpcode

/-- L words (04/R104). -/
def rawL (op w0 w1 : Nat) : Except Reject Instr :=
  match op with
  | 0 =>
      if bits w0 0 14 = 0 then .ok (.nopl (slotOf w0))
      else .error .nonzeroField
  | 1 =>
      if bits w0 0 4 = 0 then .ok (.ldq (slotOf w0) (fld w0 10 4) (fld w0 6 4) (fld w0 4 2))
      else .error .nonzeroField
  | 2 =>
      if bits w0 0 4 = 0 then .ok (.ldqs (slotOf w0) (fld w0 10 4) (fld w0 6 4) (fld w0 4 2))
      else .error .nonzeroField
  | 3 =>
      if bits w0 0 4 = 0 then .ok (.gatq (slotOf w0) (fld w0 10 4) (fld w0 6 4) (fld w0 4 2))
      else .error .nonzeroField
  | 4 =>
      if bits w1 0 3 = 0 then .ok (.lQset (slotOf w0) (fld w0 10 4) (fld w0 4 6) (flag w0 3) (fld w0 0 3) (fld w1 12 4) (fld w1 3 9) (fld w1 16 16))
      else .error .nonzeroField
  | 5 =>
      if bits w0 0 4 = 0 then .ok (.lPset (slotOf w0) (fld w0 10 4) (fld w0 4 6))
      else .error .nonzeroField
  | 6 =>
      .ok (.lPadd (slotOf w0) (fld w0 10 4) (fld w0 0 10))
  | 7 =>
      .ok (.cpyin (slotOf w0) (fld w0 10 4) (fld w0 4 6) (fld w1 0 8 ++ fld w0 0 4) (ctlOf w1))
  | 8 =>
      .ok (.gatr (slotOf w0) (fld w0 10 4) (fld w0 6 4) (fld w1 0 8 ++ fld w0 0 6) (ctlOf w1))
  | 9 =>
      if bits w0 0 4 = 0 ∧ bits w1 7 1 = 0 ∧ bits w1 6 1 = 0 then .ok (.ldblk (slotOf w0) (fld w0 10 4) (fld w0 4 6) (fld w1 0 6) (ctlOf w1))
      else if bits w0 4 6 = 0 ∧ bits w0 0 4 = 0 ∧ bits w1 7 1 = 1 ∧ bits w1 6 1 = 0 ∧ bits w1 0 6 = 0 then .ok (.ldblkRel (slotOf w0) (fld w0 10 4) (ctlOf w1))
      else .error .nonzeroField
  | 10 =>
      if bits w0 10 4 = 0 ∧ bits w0 0 4 = 0 ∧ bits w1 8 6 = 0 then .ok (.pref (slotOf w0) (fld w0 4 6) (fld w1 14 2) (fld w1 0 8) (fld w1 16 16))
      else .error .nonzeroField
  | 11 =>
      .ok (.stmap (slotOf w0) (fld w0 10 4) (fld w0 4 6) (fld w0 0 4) (fld w1 0 16) (fld w1 16 16))
  | 12 =>
      if bits w0 4 10 = 0 ∧ bits w1 0 8 = 0 then .ok (.stunmap (slotOf w0) (fld w0 0 4) (ctlOf w1))
      else .error .nonzeroField
  | 13 =>
      if bits w0 5 9 = 0 ∧ bits w1 0 8 = 0 then .ok (.stflush (slotOf w0) (flag w0 4) (fld w0 0 4) (ctlOf w1))
      else .error .nonzeroField
  | 14 =>
      .ok (.bagopen (slotOf w0) (fld w1 0 8 ++ fld w0 0 14) (ctlOf w1))
  | 15 =>
      if bits w0 10 4 = 0 ∧ bits w0 0 4 = 0 then .ok (.invm (slotOf w0) (fld w0 4 6) (fld w1 14 2) (fld w1 0 14) (fld w1 16 16))
      else .error .nonzeroField
  | 16 =>
      if bits w0 6 8 = 0 then .ok (.lCwait (slotOf w0) (fld w0 0 6))
      else .error .nonzeroField
  | 17 =>
      .ok (.rpush (slotOf w0) (fld w0 11 3) (fld w0 0 11))
  | 18 =>
      .ok (.hnd (slotOf w0) (fld w0 0 14 ++ fld w1 0 16) (fld w1 16 16))
  | _ => .error .reservedOpcode

/-- X words (04/R106). -/
def rawX (op w0 w1 : Nat) : Except Reject Instr :=
  match op with
  | 0 =>
      if bits w0 0 14 = 0 then .ok (.nopx (slotOf w0))
      else .error .nonzeroField
  | 1 =>
      if bits w0 12 2 = 0 ∧ bits w0 0 5 = 0 then .ok (.sett (slotOf w0) (fld w0 8 4) (fld w0 5 3))
      else if bits w0 12 2 = 1 ∧ bits w0 0 2 = 0 then .ok (.settM (slotOf w0) (fld w0 8 4) (fld w0 4 4) (flag w0 3) (flag w0 2))
      else if bits w0 12 2 = 2 ∧ bits w0 0 8 = 0 then .ok (.settO (slotOf w0) (fld w0 8 4))
      else .error .nonzeroField
  | 2 =>
      .ok (.vadd (slotOf w0) (fld w0 9 5) (fld w0 4 5) (fld w0 0 4))
  | 3 =>
      .ok (.vsub (slotOf w0) (fld w0 9 5) (fld w0 4 5) (fld w0 0 4))
  | 4 =>
      .ok (.vmul (slotOf w0) (fld w0 9 5) (fld w0 4 5) (fld w0 0 4))
  | 5 =>
      .ok (.vfma (slotOf w0) (fld w0 9 5) (fld w0 4 5) (fld w0 0 4))
  | 6 =>
      .ok (.vmin (slotOf w0) (fld w0 9 5) (fld w0 4 5) (fld w0 0 4))
  | 7 =>
      .ok (.vmax (slotOf w0) (fld w0 9 5) (fld w0 4 5) (fld w0 0 4))
  | 8 =>
      if bits w0 0 4 = 0 then .ok (.vabs (slotOf w0) (fld w0 9 5) (fld w0 4 5))
      else .error .nonzeroField
  | 9 =>
      if bits w0 0 4 = 0 then .ok (.vneg (slotOf w0) (fld w0 9 5) (fld w0 4 5))
      else .error .nonzeroField
  | 10 =>
      .ok (.vand (slotOf w0) (fld w0 9 5) (fld w0 4 5) (fld w0 0 4))
  | 11 =>
      .ok (.vor (slotOf w0) (fld w0 9 5) (fld w0 4 5) (fld w0 0 4))
  | 12 =>
      .ok (.vxor (slotOf w0) (fld w0 9 5) (fld w0 4 5) (fld w0 0 4))
  | 13 =>
      .ok (.vshl (slotOf w0) (fld w0 9 5) (fld w0 4 5) (fld w0 0 4))
  | 14 =>
      .ok (.vshr (slotOf w0) (fld w0 9 5) (fld w0 4 5) (fld w0 0 4))
  | 15 =>
      .ok (.vsar (slotOf w0) (fld w0 9 5) (fld w0 4 5) (fld w0 0 4))
  | 16 =>
      .ok (.vcmp (slotOf w0) (fld w0 11 3) (fld w0 9 2) (fld w0 4 5) (fld w0 0 4))
  | 17 =>
      .ok (.vsel (slotOf w0) (fld w0 9 5) (fld w0 4 5) (fld w0 0 4))
  | 18 =>
      if bits w0 0 4 = 0 then .ok (.vmov (slotOf w0) (fld w0 9 5) (fld w0 4 5))
      else .error .nonzeroField
  | 19 =>
      if bits w0 0 3 = 0 then .ok (.vbcst (slotOf w0) (fld w0 9 5) (fld w0 3 6))
      else .error .nonzeroField
  | 20 =>
      if bits w0 0 9 = 0 then .ok (.vidx (slotOf w0) (fld w0 9 5))
      else .error .nonzeroField
  | 21 =>
      .ok (.vcvt (slotOf w0) (fld w0 9 5) (fld w0 4 5) (fld w0 0 4))
  | 22 =>
      if bits w0 0 4 = 0 then .ok (.vrcp (slotOf w0) (fld w0 9 5) (fld w0 4 5))
      else .error .nonzeroField
  | 23 =>
      if bits w0 0 4 = 0 then .ok (.vrsq (slotOf w0) (fld w0 9 5) (fld w0 4 5))
      else .error .nonzeroField
  | 24 =>
      if bits w0 0 4 = 0 then .ok (.vexp2 (slotOf w0) (fld w0 9 5) (fld w0 4 5))
      else .error .nonzeroField
  | 25 =>
      if bits w0 0 4 = 0 then .ok (.vlog2 (slotOf w0) (fld w0 9 5) (fld w0 4 5))
      else .error .nonzeroField
  | 26 =>
      .ok (.vred (slotOf w0) (fld w0 9 5) (fld w0 4 5) (fld w0 0 4))
  | 27 =>
      .ok (.vscan (slotOf w0) (fld w0 9 5) (fld w0 4 5) (flag w0 3) (fld w0 0 3))
  | 28 =>
      .ok (.vperm (slotOf w0) (fld w0 9 5) (fld w0 4 5) (fld w0 0 4))
  | 29 =>
      if bits w0 0 4 = 0 then .ok (.vqnt (slotOf w0) (fld w0 9 5) (fld w0 4 5))
      else .error .nonzeroField
  | 30 =>
      if bits w0 0 4 = 0 then .ok (.vdqn (slotOf w0) (fld w0 9 5) (fld w0 4 5))
      else .error .nonzeroField
  | 31 =>
      if bits w0 0 2 = 0 then .ok (.kop (slotOf w0) (fld w0 11 3) (fld w0 8 3) (fld w0 5 3) (fld w0 2 3))
      else .error .nonzeroField
  | 32 =>
      .ok (.vcpush (slotOf w0) (fld w0 9 5) (fld w0 4 5) (fld w0 0 4))
  | 33 =>
      .ok (.vcpop (slotOf w0) (fld w0 9 5) (fld w0 4 5) (fld w0 0 4))
  | 48 =>
      if bits w0 0 3 = 0 ∧ bits w1 0 8 = 0 then .ok (.mwld (slotOf w0) (fld w0 11 3) (fld w0 3 8) (fld w1 8 8) (fld w1 16 16))
      else .error .nonzeroField
  | 49 =>
      .ok (.mbag (slotOf w0) (fld w0 11 3) (flag w0 10) (flag w0 9) (fld w1 0 8 ++ fld w0 0 9) (ctlOf w1))
  | 50 =>
      if bits w0 0 5 = 0 ∧ bits w1 6 2 = 0 then .ok (.mmul (slotOf w0) (fld w0 11 3) (flag w0 10) (fld w0 8 2) (fld w0 5 3) (fld w1 0 6) (ctlOf w1))
      else .error .nonzeroField
  | 51 =>
      if bits w0 0 5 = 0 ∧ bits w1 6 2 = 0 then .ok (.mdist (slotOf w0) (fld w0 11 3) (flag w0 10) (fld w0 8 2) (fld w0 5 3) (fld w1 0 6) (ctlOf w1))
      else .error .nonzeroField
  | 52 =>
      if bits w1 7 1 = 0 then .ok (.mtopk (slotOf w0) (fld w0 11 3) (flag w0 10) (fld w0 8 2) (fld w0 5 3) (flag w0 4) (fld w0 0 4) (flag w1 6) (fld w1 0 6) (ctlOf w1))
      else .error .nonzeroField
  | 53 =>
      if bits w0 13 1 = 0 ∧ bits w0 10 2 = 0 ∧ bits w0 9 1 = 0 then .ok (.mret (slotOf w0) (flag w0 12) (fld w1 0 8 ++ fld w0 0 9) (ctlOf w1))
      else if bits w0 13 1 = 1 ∧ bits w0 12 1 = 0 ∧ bits w0 9 1 = 0 ∧ bits w0 8 1 = 0 ∧ bits w1 6 2 = 0 then .ok (.mretRegion (slotOf w0) (fld w0 10 2) (fld w0 0 8) (fld w1 0 6) (ctlOf w1))
      else .error .nonzeroField
  | 54 =>
      if bits w0 13 1 = 0 ∧ bits w0 12 1 = 0 ∧ bits w0 9 1 = 0 ∧ bits w0 8 1 = 0 ∧ bits w1 6 2 = 0 then .ok (.mclr (slotOf w0) (fld w0 10 2) (fld w0 0 8) (fld w1 0 6) (ctlOf w1))
      else .error .nonzeroField
  | 55 =>
      .ok (.rset (slotOf w0) (fld w1 0 16 ++ fld w0 0 14) (fld w1 16 16))
  | 56 =>
      if bits w0 0 14 = 0 then .ok (.mwait (slotOf w0))
      else .error .nonzeroField
  | 57 =>
      if bits w0 8 6 = 0 then .ok (.lease (slotOf w0) (fld w0 0 8))
      else .error .nonzeroField
  | 58 =>
      if bits w0 0 14 = 0 then .ok (.unlease (slotOf w0))
      else .error .nonzeroField
  | _ => .error .reservedOpcode

/-- S words (04/R105). -/
def rawS (op w0 w1 : Nat) : Except Reject Instr :=
  match op with
  | 0 =>
      if bits w0 0 14 = 0 then .ok (.nops (slotOf w0))
      else .error .nonzeroField
  | 1 =>
      if bits w0 0 4 = 0 then .ok (.stq (slotOf w0) (fld w0 10 4) (fld w0 6 4) (fld w0 4 2))
      else .error .nonzeroField
  | 2 =>
      if bits w0 0 4 = 0 then .ok (.stqs (slotOf w0) (fld w0 10 4) (fld w0 6 4) (fld w0 4 2))
      else .error .nonzeroField
  | 3 =>
      if bits w0 0 4 = 0 then .ok (.scatq (slotOf w0) (fld w0 10 4) (fld w0 6 4) (fld w0 4 2))
      else .error .nonzeroField
  | 4 =>
      if bits w1 0 3 = 0 then .ok (.sQset (slotOf w0) (fld w0 10 4) (fld w0 4 6) (flag w0 3) (fld w0 0 3) (fld w1 12 4) (fld w1 3 9) (fld w1 16 16))
      else .error .nonzeroField
  | 5 =>
      if bits w0 0 4 = 0 then .ok (.sPset (slotOf w0) (fld w0 10 4) (fld w0 4 6))
      else .error .nonzeroField
  | 6 =>
      .ok (.sPadd (slotOf w0) (fld w0 10 4) (fld w0 0 10))
  | 7 =>
      .ok (.cpyout (slotOf w0) (fld w0 10 4) (fld w0 4 6) (fld w1 0 8 ++ fld w0 0 4) (ctlOf w1))
  | 8 =>
      .ok (.scatr (slotOf w0) (fld w0 10 4) (fld w0 6 4) (fld w1 0 8 ++ fld w0 0 6) (ctlOf w1))
  | 9 =>
      .ok (.bagclose (slotOf w0) (fld w1 0 8 ++ fld w0 0 14) (ctlOf w1))
  | 10 =>
      .ok (.asrcpy (slotOf w0) (fld w0 10 4) (fld w0 4 6) (fld w1 0 7 ++ fld w0 0 4) (flag w1 7) (ctlOf w1))
  | 11 =>
      if bits w0 0 10 = 0 ∧ bits w1 0 8 = 0 then .ok (.coll (slotOf w0) (fld w0 10 4) (ctlOf w1))
      else .error .nonzeroField
  | 12 =>
      .ok (.rpop (slotOf w0) (fld w0 11 3) (fld w0 0 11))
  | 13 =>
      if bits w0 6 8 = 0 then .ok (.sCwait (slotOf w0) (fld w0 0 6))
      else .error .nonzeroField
  | _ => .error .reservedOpcode

/-- The seat tag of a base word (04/R83). -/
def tagOf (w0 : Nat) : Nat := bits w0 29 3

/-- The seat that owns a word; none for shared and reserved tags (04/R83). -/
def ownerOf (w0 : Nat) : Option Seat :=
  match tagOf w0 with
  | 0 => some .C
  | 1 => some .L
  | 2 => some .X
  | 3 => some .S
  | _ => none

/-- Length from tag and opcode alone (04/R84). -/
def isLong (w0 : Nat) : Bool :=
  let op := if tagOf w0 = 0 then bits w0 22 7 else bits w0 14 6
  (longOps (tagOf w0)).contains op

/-- Opcode and fields by seat tag, before the checks of WellFormed. -/
def rawDecode (w0 w1 : Nat) : Except Reject Instr :=
  match tagOf w0 with
  | 0 =>
    let op := bits w0 22 7
    if op < 0x20 then rawCReg op w0
    else if op < 0x40 then rawCImm op w0 w1
    else if op < 0x60 then rawCSync op w0 w1
    else rawCTask op w0 w1
  | 1 => rawL (bits w0 14 6) w0 w1
  | 2 => rawX (bits w0 14 6) w0 w1
  | 3 => rawS (bits w0 14 6) w0 w1
  | 4 => rawShared (bits w0 24 5) w0
  | _ => .error .reservedTag

/-- The instruction of a base word and, where it is long, the word after it; otherwise why it is none (04/R107). -/
def decodeWords (w0 w1 : Nat) : Except Reject Instr :=
  match rawDecode w0 w1 with
  | .error r => .error r
  | .ok i =>
    match check i with
    | none => .ok i
    | some r => .error r

/-- Why a byte string is not an instruction. -/
inductive DecodeError where
  | truncated
  | rejected (r : Reject)
deriving DecidableEq, Repr

/-- Four bytes as a little-endian number (00/R8). -/
def le32 (a b c d : Byte) : Nat := a.toNat + 256 * b.toNat + 65536 * c.toNat + 16777216 * d.toNat

/-- Total decoder on bytes: the instruction and the bytes after it. -/
def decode : List Byte → Except DecodeError (Instr × List Byte)
  | a :: b :: c :: d :: rest =>
    let w0 := le32 a b c d
    if isLong w0 then
      match rest with
      | e :: f :: g :: h :: rest' =>
        match decodeWords w0 (le32 e f g h) with
        | .ok i => .ok (i, rest')
        | .error r => .error (.rejected r)
      | _ => .error .truncated
    else
      match decodeWords w0 0 with
      | .ok i => .ok (i, rest)
      | .error r => .error (.rejected r)
  | _ => .error .truncated

/-- The little-endian bytes of a word. -/
def wordBytes (w : Nat) : List Byte :=
  [BitVec.ofNat 8 w, BitVec.ofNat 8 (w / 256), BitVec.ofNat 8 (w / 65536), BitVec.ofNat 8 (w / 16777216)]

/-- What the decoder reads from an instruction whose bits are numbered as the opcode table numbers them. -/
def decodeTableWord (nbits w : Nat) : Option Instr :=
  let v := w % 2 ^ nbits
  match decode (wordBytes v ++ wordBytes (v / 4294967296)) with
  | .ok (i, _) => some i
  | .error _ => none

/-- The width of a list of fields, most significant first. -/
def widthOf : List (Nat × Nat) → Nat
  | [] => 0
  | (n, _) :: rest => n + widthOf rest

/-- Fields laid side by side, most significant first. -/
def pack : List (Nat × Nat) → Nat
  | [] => 0
  | (n, v) :: rest => (v % 2 ^ n) * 2 ^ widthOf rest + pack rest

/-- A 32-bit word of fields. -/
def word (fs : List (Nat × Nat)) : Word := BitVec.ofNat 32 (pack fs)

/-- The fields of a slot, bits 28:20. -/
def slotF (w : Slot) : List (Nat × Nat) :=
  [(1, w.popUp.toNat), (1, w.popDn.toNat), (1, w.pushUp.toNat), (1, w.pushDn.toNat), (1, w.first.toNat),
   (1, w.last.toNat), (3, w.pred.toNat)]

/-- The fields of a command's control, bits 63:40. -/
def ctlF (c : Ctl) : List (Nat × Nat) := [(16, c.stamp.toNat), (1, c.reloc.toNat), (1, c.spec.toNat), (6, c.co.toNat)]

/-- A shared word (04/R85). -/
def sharedWord (op : Nat) (fs : List (Nat × Nat)) : Word := word ((3, 4) :: (5, op) :: fs)

/-- A C base word (04/R88). -/
def cWord (op : Nat) (fs : List (Nat × Nat)) : Word := word ((3, 0) :: (7, op) :: fs)

/-- An L, X or S base word (04/R93). -/
def slotWord (tag : Nat) (w : Slot) (op : Nat) (fs : List (Nat × Nat)) : Word :=
  word ((3, tag) :: (slotF w ++ (6, op) :: fs))

/-- A long-ext or long-imm extension (04/R89, R98). -/
def stampWord (stamp : BitVec 16) (fs : List (Nat × Nat)) : Word := word ((16, stamp.toNat) :: fs)

/-- A command extension (04/R98). -/
def ctlWord (c : Ctl) (fs : List (Nat × Nat)) : Word := word (ctlF c ++ fs)


/-- The words of an instruction, from the encoding tables of 04 to 08; an event has none. -/
def encode : Instr → List Word
  | .nopa => [sharedWord 0 [(24, 0)]]
  | .br bp neg disp => [sharedWord 1 [(3, bp.toNat), (1, neg.toNat), (20, disp.toNat)]]
  | .jmp disp => [sharedWord 2 [(24, disp.toNat)]]
  | .call disp => [sharedWord 3 [(24, disp.toNat)]]
  | .ret => [sharedWord 4 [(24, 0)]]
  | .loopLc lc body => [sharedWord 5 [(1, 0), (8, 0), (3, lc.toNat), (12, body.toNat)]]
  | .loopImm count body => [sharedWord 5 [(1, 1), (11, count.toNat), (12, body.toNat)]]
  | .lexit bp neg => [sharedWord 6 [(3, bp.toNat), (1, neg.toNat), (20, 0)]]
  | .stroke => [sharedWord 7 [(24, 0)]]
  | .hend => [sharedWord 8 [(24, 0)]]
  | .nop => [cWord 0 [(22, 0)]]
  | .add d a b => [cWord 1 [(6, d.toNat), (6, a.toNat), (6, b.toNat), (4, 0)]]
  | .sub d a b => [cWord 2 [(6, d.toNat), (6, a.toNat), (6, b.toNat), (4, 0)]]
  | .and d a b => [cWord 3 [(6, d.toNat), (6, a.toNat), (6, b.toNat), (4, 0)]]
  | .or d a b => [cWord 4 [(6, d.toNat), (6, a.toNat), (6, b.toNat), (4, 0)]]
  | .xor d a b => [cWord 5 [(6, d.toNat), (6, a.toNat), (6, b.toNat), (4, 0)]]
  | .shl d a b => [cWord 6 [(6, d.toNat), (6, a.toNat), (6, b.toNat), (4, 0)]]
  | .shr d a b => [cWord 7 [(6, d.toNat), (6, a.toNat), (6, b.toNat), (4, 0)]]
  | .sar d a b => [cWord 8 [(6, d.toNat), (6, a.toNat), (6, b.toNat), (4, 0)]]
  | .mul d a b => [cWord 9 [(6, d.toNat), (6, a.toNat), (6, b.toNat), (4, 0)]]
  | .mulh d a b => [cWord 10 [(6, d.toNat), (6, a.toNat), (6, b.toNat), (4, 0)]]
  | .mulhn d a b => [cWord 11 [(6, d.toNat), (6, a.toNat), (6, b.toNat), (4, 0)]]
  | .div d a b => [cWord 12 [(6, d.toNat), (6, a.toNat), (6, b.toNat), (4, 0)]]
  | .divn d a b => [cWord 13 [(6, d.toNat), (6, a.toNat), (6, b.toNat), (4, 0)]]
  | .rem d a b => [cWord 14 [(6, d.toNat), (6, a.toNat), (6, b.toNat), (4, 0)]]
  | .remn d a b => [cWord 15 [(6, d.toNat), (6, a.toNat), (6, b.toNat), (4, 0)]]
  | .min d a b => [cWord 16 [(6, d.toNat), (6, a.toNat), (6, b.toNat), (4, 0)]]
  | .max d a b => [cWord 17 [(6, d.toNat), (6, a.toNat), (6, b.toNat), (4, 0)]]
  | .minn d a b => [cWord 18 [(6, d.toNat), (6, a.toNat), (6, b.toNat), (4, 0)]]
  | .maxn d a b => [cWord 19 [(6, d.toNat), (6, a.toNat), (6, b.toNat), (4, 0)]]
  | .clz d a => [cWord 20 [(6, d.toNat), (6, a.toNat), (10, 0)]]
  | .popc d a => [cWord 21 [(6, d.toNat), (6, a.toNat), (10, 0)]]
  | .bfx d a b sgn => [cWord 22 [(6, d.toNat), (6, a.toNat), (6, b.toNat), (3, 0), (1, sgn.toNat)]]
  | .bfi d a b => [cWord 23 [(6, d.toNat), (6, a.toNat), (6, b.toNat), (4, 0)]]
  | .sel d a b neg bp => [cWord 24 [(6, d.toNat), (6, a.toNat), (6, b.toNat), (1, neg.toNat), (3, bp.toNat)]]
  | .cmp comb bp a b cond => [cWord 25 [(3, comb.toNat), (3, bp.toNat), (6, a.toNat), (6, b.toNat), (4, cond.toNat)]]
  | .sext d a w => [cWord 26 [(6, d.toNat), (6, a.toNat), (6, 0), (4, w.toNat)]]
  | .zext d a w => [cWord 27 [(6, d.toNat), (6, a.toNat), (6, 0), (4, w.toNat)]]
  | .lea d a b sh => [cWord 28 [(6, d.toNat), (6, a.toNat), (6, b.toNat), (4, sh.toNat)]]
  | .addi d a imm => [cWord 32 [(6, d.toNat), (6, a.toNat), (10, imm.toNat)]]
  | .andi d a imm => [cWord 33 [(6, d.toNat), (6, a.toNat), (10, imm.toNat)]]
  | .ori d a imm => [cWord 34 [(6, d.toNat), (6, a.toNat), (10, imm.toNat)]]
  | .xori d a imm => [cWord 35 [(6, d.toNat), (6, a.toNat), (10, imm.toNat)]]
  | .shli d a sh => [cWord 36 [(6, d.toNat), (6, a.toNat), (4, 0), (6, sh.toNat)]]
  | .shri d a sh => [cWord 37 [(6, d.toNat), (6, a.toNat), (4, 0), (6, sh.toNat)]]
  | .sari d a sh => [cWord 38 [(6, d.toNat), (6, a.toNat), (4, 0), (6, sh.toNat)]]
  | .cmpi cond bp a imm => [cWord 39 [(3, cond.toNat), (3, bp.toNat), (6, a.toNat), (10, imm.toNat)]]
  | .movi d imm stamp => [cWord 40 [(6, d.toNat), (16, imm.toNat % 65536)], stampWord stamp [(16, imm.toNat / 65536)]]
  | .movhi d imm stamp => [cWord 41 [(6, d.toNat), (16, imm.toNat % 65536)], stampWord stamp [(16, imm.toNat / 65536)]]
  | .lds d a off w stamp => [cWord 42 [(6, d.toNat), (6, a.toNat), (10, off.toNat % 1024)], stampWord stamp [(3, w.toNat), (13, off.toNat / 1024)]]
  | .sts d a off w stamp => [cWord 43 [(6, d.toNat), (6, a.toNat), (10, off.toNat % 1024)], stampWord stamp [(3, w.toNat), (13, off.toNat / 1024)]]
  | .csrr d n => [cWord 48 [(6, d.toNat), (6, 0), (10, n.toNat)]]
  | .csrw a n => [cWord 49 [(6, 0), (6, a.toNat), (10, n.toNat)]]
  | .trap code => [cWord 50 [(12, 0), (10, code.toNat)]]
  | .setlc lc a => [cWord 51 [(3, 0), (3, lc.toNat), (6, a.toNat), (10, 0)]]
  | .setstrd lvl a seatS en slot p stamp => [cWord 52 [(3, 0), (3, lvl.toNat), (6, a.toNat), (10, 0)], stampWord stamp [(1, seatS.toNat), (1, en.toNat), (8, 0), (2, slot.toNat), (4, p.toNat)]]
  | .setslip a => [cWord 53 [(6, 0), (6, a.toNat), (10, 0)]]
  | .prio a => [cWord 54 [(6, 0), (6, a.toNat), (10, 0)]]
  | .rdclk d => [cWord 55 [(6, d.toNat), (16, 0)]]
  | .rdstroke d => [cWord 56 [(6, d.toNat), (16, 0)]]
  | .wfe d a => [cWord 57 [(6, d.toNat), (6, a.toNat), (10, 0)]]
  | .sms => [cWord 58 [(22, 0)]]
  | .wpv => [cWord 59 [(22, 0)]]
  | .hret => [cWord 60 [(22, 0)]]
  | .bkpt code => [cWord 61 [(12, 0), (10, code.toNat)]]
  | .aadd d a b wide off stamp => [cWord 64 [(6, d.toNat), (6, a.toNat), (6, b.toNat), (3, 0), (1, wide.toNat)], stampWord stamp [(16, off.toNat)]]
  | .amin d a b wide off stamp => [cWord 65 [(6, d.toNat), (6, a.toNat), (6, b.toNat), (3, 0), (1, wide.toNat)], stampWord stamp [(16, off.toNat)]]
  | .amax d a b wide off stamp => [cWord 66 [(6, d.toNat), (6, a.toNat), (6, b.toNat), (3, 0), (1, wide.toNat)], stampWord stamp [(16, off.toNat)]]
  | .aminn d a b wide off stamp => [cWord 67 [(6, d.toNat), (6, a.toNat), (6, b.toNat), (3, 0), (1, wide.toNat)], stampWord stamp [(16, off.toNat)]]
  | .amaxn d a b wide off stamp => [cWord 68 [(6, d.toNat), (6, a.toNat), (6, b.toNat), (3, 0), (1, wide.toNat)], stampWord stamp [(16, off.toNat)]]
  | .aand d a b wide off stamp => [cWord 69 [(6, d.toNat), (6, a.toNat), (6, b.toNat), (3, 0), (1, wide.toNat)], stampWord stamp [(16, off.toNat)]]
  | .aor d a b wide off stamp => [cWord 70 [(6, d.toNat), (6, a.toNat), (6, b.toNat), (3, 0), (1, wide.toNat)], stampWord stamp [(16, off.toNat)]]
  | .axor d a b wide off stamp => [cWord 71 [(6, d.toNat), (6, a.toNat), (6, b.toNat), (3, 0), (1, wide.toNat)], stampWord stamp [(16, off.toNat)]]
  | .axchg d a b wide off stamp => [cWord 72 [(6, d.toNat), (6, a.toNat), (6, b.toNat), (3, 0), (1, wide.toNat)], stampWord stamp [(16, off.toNat)]]
  | .acas d a b wide off stamp => [cWord 73 [(6, d.toNat), (6, a.toNat), (6, b.toNat), (3, 0), (1, wide.toNat)], stampWord stamp [(16, off.toNat)]]
  | .faadd d a b off stamp => [cWord 74 [(6, d.toNat), (6, a.toNat), (6, b.toNat), (4, 0)], stampWord stamp [(16, off.toNat)]]
  | .famin d a b off stamp => [cWord 75 [(6, d.toNat), (6, a.toNat), (6, b.toNat), (4, 0)], stampWord stamp [(16, off.toNat)]]
  | .famax d a b off stamp => [cWord 76 [(6, d.toNat), (6, a.toNat), (6, b.toNat), (4, 0)], stampWord stamp [(16, off.toNat)]]
  | .laadd a b form off stamp => [cWord 77 [(6, 0), (6, a.toNat), (6, b.toNat), (2, 0), (2, form.toNat)], stampWord stamp [(16, off.toNat)]]
  | .ald d a form off stamp => [cWord 78 [(6, d.toNat), (6, a.toNat), (6, 0), (2, 0), (2, form.toNat)], stampWord stamp [(16, off.toNat)]]
  | .ast a b wide off stamp => [cWord 79 [(6, 0), (6, a.toNat), (6, b.toNat), (3, 0), (1, wide.toNat)], stampWord stamp [(16, off.toNat)]]
  | .fence scope => [cWord 80 [(18, 0), (4, scope.toNat)]]
  | .fencea scope => [cWord 81 [(18, 0), (4, scope.toNat)]]
  | .fencer scope => [cWord 82 [(18, 0), (4, scope.toNat)]]
  | .barinit a b off stamp => [cWord 83 [(6, 0), (6, a.toNat), (6, b.toNat), (4, 0)], stampWord stamp [(16, off.toNat)]]
  | .bararr d a => [cWord 84 [(6, d.toNat), (6, a.toNat), (10, 0)]]
  | .barwait a b => [cWord 85 [(6, 0), (6, a.toNat), (6, b.toNat), (4, 0)]]
  | .waitcoAll d a => [cWord 86 [(6, d.toNat), (6, a.toNat), (10, 0)]]
  | .waitcoAny d a => [cWord 86 [(6, d.toNat), (6, a.toNat), (6, 0), (4, 1)]]
  | .testco d a => [cWord 87 [(6, d.toNat), (6, a.toNat), (10, 0)]]
  | .dbar id => [cWord 88 [(6, id.toNat), (16, 0)]]
  | .spawn d a c => [cWord 96 [(6, d.toNat), (6, a.toNat), (10, 0)], ctlWord c [(8, 0)]]
  | .spawnt d a b n c => [cWord 97 [(6, d.toNat), (6, a.toNat), (6, b.toNat), (4, n.toNat)], ctlWord c [(8, 0)]]
  | .cancel d a b lvl => [cWord 98 [(6, d.toNat), (6, a.toNat), (6, b.toNat), (4, lvl.toNat)]]
  | .waitc d a b lvl => [cWord 99 [(6, d.toNat), (6, a.toNat), (6, b.toNat), (4, lvl.toNat)]]
  | .suspend a b => [cWord 100 [(6, 0), (6, a.toNat), (6, b.toNat), (4, 0)]]
  | .resume d a c => [cWord 101 [(6, d.toNat), (6, a.toNat), (10, 0)], ctlWord c [(8, 0)]]
  | .copyco d a b c => [cWord 102 [(6, d.toNat), (6, a.toNat), (6, b.toNat), (4, 0)], ctlWord c [(8, 0)]]
  | .dropco d a => [cWord 103 [(6, d.toNat), (6, a.toNat), (10, 0)]]
  | .yieldi a => [cWord 104 [(6, 0), (6, a.toNat), (10, 0)]]
  | .self d sel => [cWord 105 [(6, d.toNat), (12, 0), (4, sel.toNat)]]
  | .slwin a b kk w1 stamp => [cWord 112 [(6, 0), (6, a.toNat), (6, b.toNat), (4, 0)], stampWord stamp [(4, kk.toNat), (12, w1.toNat)]]
  | .slres a b off stamp => [cWord 113 [(6, 0), (6, a.toNat), (6, b.toNat), (4, 0)], stampWord stamp [(16, off.toNat)]]
  | .slchk comb bp a b off stamp => [cWord 114 [(3, comb.toNat), (3, bp.toNat), (6, a.toNat), (6, b.toNat), (4, 0)], stampWord stamp [(16, off.toNat)]]
  | .sldone a neg bp => [cWord 115 [(6, 0), (6, a.toNat), (6, 0), (1, neg.toNat), (3, bp.toNat)]]
  | .slnext d => [cWord 116 [(6, d.toNat), (16, 0)]]
  | .slreset a b off stamp => [cWord 117 [(6, 0), (6, a.toNat), (6, b.toNat), (4, 0)], stampWord stamp [(16, off.toNat)]]
  | .taintq d a => [cWord 118 [(6, d.toNat), (6, a.toNat), (10, 0)]]
  | .taintqMem d a => [cWord 118 [(6, d.toNat), (6, a.toNat), (6, 0), (4, 1)]]
  | .tclr d a => [cWord 119 [(6, d.toNat), (6, a.toNat), (10, 0)]]
  | .tcnt d clr sel => [cWord 120 [(6, d.toNat), (12, 0), (1, 0), (1, clr.toNat), (2, sel.toNat)]]
  | .nopl w => [slotWord 1 w 0 [(14, 0)]]
  | .ldq w q p upd => [slotWord 1 w 1 [(4, q.toNat), (4, p.toNat), (2, upd.toNat), (4, 0)]]
  | .ldqs w q p upd => [slotWord 1 w 2 [(4, q.toNat), (4, p.toNat), (2, upd.toNat), (4, 0)]]
  | .gatq w q p qi => [slotWord 1 w 3 [(4, q.toNat), (4, p.toNat), (2, qi.toNat), (4, 0)]]
  | .lQset w q sa ringEn ring fmt elems1 stamp => [slotWord 1 w 4 [(4, q.toNat), (6, sa.toNat), (1, ringEn.toNat), (3, ring.toNat)], stampWord stamp [(4, fmt.toNat), (9, elems1.toNat), (3, 0)]]
  | .lPset w p sa => [slotWord 1 w 5 [(4, p.toNat), (6, sa.toNat), (4, 0)]]
  | .lPadd w p imm => [slotWord 1 w 6 [(4, p.toNat), (10, imm.toNat)]]
  | .cpyin w p sa len c => [slotWord 1 w 7 [(4, p.toNat), (6, sa.toNat), (4, len.toNat % 16)], ctlWord c [(8, len.toNat / 16)]]
  | .gatr w pb pi disp c => [slotWord 1 w 8 [(4, pb.toNat), (4, pi.toNat), (6, disp.toNat % 64)], ctlWord c [(8, disp.toNat / 64)]]
  | .ldblk w tag sa lines1 c => [slotWord 1 w 9 [(4, tag.toNat), (6, sa.toNat), (4, 0)], ctlWord c [(1, 0), (1, 0), (6, lines1.toNat)]]
  | .ldblkRel w tag c => [slotWord 1 w 9 [(4, tag.toNat), (6, 0), (4, 0)], ctlWord c [(1, 1), (1, 0), (6, 0)]]
  | .pref w sa level lines1 stamp => [slotWord 1 w 10 [(4, 0), (6, sa.toNat), (4, 0)], stampWord stamp [(2, level.toNat), (6, 0), (8, lines1.toNat)]]
  | .stmap w p sa slot lines stamp => [slotWord 1 w 11 [(4, p.toNat), (6, sa.toNat), (4, slot.toNat)], stampWord stamp [(16, lines.toNat)]]
  | .stunmap w slot c => [slotWord 1 w 12 [(10, 0), (4, slot.toNat)], ctlWord c [(8, 0)]]
  | .stflush w all slot c => [slotWord 1 w 13 [(9, 0), (1, all.toNat), (4, slot.toNat)], ctlWord c [(8, 0)]]
  | .bagopen w disp c => [slotWord 1 w 14 [(14, disp.toNat % 16384)], ctlWord c [(8, disp.toNat / 16384)]]
  | .invm w sa size pages1 stamp => [slotWord 1 w 15 [(4, 0), (6, sa.toNat), (4, 0)], stampWord stamp [(2, size.toNat), (14, pages1.toNat)]]
  | .lCwait w co => [slotWord 1 w 16 [(8, 0), (6, co.toNat)]]
  | .rpush w ring n => [slotWord 1 w 17 [(3, ring.toNat), (11, n.toNat)]]
  | .hnd w disp stamp => [slotWord 1 w 18 [(14, disp.toNat / 65536)], stampWord stamp [(16, disp.toNat % 65536)]]
  | .nops w => [slotWord 3 w 0 [(14, 0)]]
  | .stq w q p upd => [slotWord 3 w 1 [(4, q.toNat), (4, p.toNat), (2, upd.toNat), (4, 0)]]
  | .stqs w q p upd => [slotWord 3 w 2 [(4, q.toNat), (4, p.toNat), (2, upd.toNat), (4, 0)]]
  | .scatq w q p qi => [slotWord 3 w 3 [(4, q.toNat), (4, p.toNat), (2, qi.toNat), (4, 0)]]
  | .sQset w q sa ringEn ring fmt elems1 stamp => [slotWord 3 w 4 [(4, q.toNat), (6, sa.toNat), (1, ringEn.toNat), (3, ring.toNat)], stampWord stamp [(4, fmt.toNat), (9, elems1.toNat), (3, 0)]]
  | .sPset w p sa => [slotWord 3 w 5 [(4, p.toNat), (6, sa.toNat), (4, 0)]]
  | .sPadd w p imm => [slotWord 3 w 6 [(4, p.toNat), (10, imm.toNat)]]
  | .cpyout w p sa len c => [slotWord 3 w 7 [(4, p.toNat), (6, sa.toNat), (4, len.toNat % 16)], ctlWord c [(8, len.toNat / 16)]]
  | .scatr w pb pi disp c => [slotWord 3 w 8 [(4, pb.toNat), (4, pi.toNat), (6, disp.toNat % 64)], ctlWord c [(8, disp.toNat / 64)]]
  | .bagclose w disp c => [slotWord 3 w 9 [(14, disp.toNat % 16384)], ctlWord c [(8, disp.toNat / 16384)]]
  | .asrcpy w p sa n retire c => [slotWord 3 w 10 [(4, p.toNat), (6, sa.toNat), (4, n.toNat % 16)], ctlWord c [(1, retire.toNat), (7, n.toNat / 16)]]
  | .coll w p c => [slotWord 3 w 11 [(4, p.toNat), (10, 0)], ctlWord c [(8, 0)]]
  | .rpop w ring n => [slotWord 3 w 12 [(3, ring.toNat), (11, n.toNat)]]
  | .sCwait w co => [slotWord 3 w 13 [(8, 0), (6, co.toNat)]]
  | .nopx w => [slotWord 2 w 0 [(14, 0)]]
  | .sett w fmt rm => [slotWord 2 w 1 [(2, 0), (4, fmt.toNat), (3, rm.toNat), (5, 0)]]
  | .settM w af wf asg wsg => [slotWord 2 w 1 [(2, 1), (4, af.toNat), (4, wf.toNat), (1, asg.toNat), (1, wsg.toNat), (2, 0)]]
  | .settO w fmt => [slotWord 2 w 1 [(2, 2), (4, fmt.toNat), (8, 0)]]
  | .vadd w vd va vb => [slotWord 2 w 2 [(5, vd.toNat), (5, va.toNat), (4, vb.toNat)]]
  | .vsub w vd va vb => [slotWord 2 w 3 [(5, vd.toNat), (5, va.toNat), (4, vb.toNat)]]
  | .vmul w vd va vb => [slotWord 2 w 4 [(5, vd.toNat), (5, va.toNat), (4, vb.toNat)]]
  | .vfma w vd va vb => [slotWord 2 w 5 [(5, vd.toNat), (5, va.toNat), (4, vb.toNat)]]
  | .vmin w vd va vb => [slotWord 2 w 6 [(5, vd.toNat), (5, va.toNat), (4, vb.toNat)]]
  | .vmax w vd va vb => [slotWord 2 w 7 [(5, vd.toNat), (5, va.toNat), (4, vb.toNat)]]
  | .vabs w vd va => [slotWord 2 w 8 [(5, vd.toNat), (5, va.toNat), (4, 0)]]
  | .vneg w vd va => [slotWord 2 w 9 [(5, vd.toNat), (5, va.toNat), (4, 0)]]
  | .vand w vd va vb => [slotWord 2 w 10 [(5, vd.toNat), (5, va.toNat), (4, vb.toNat)]]
  | .vor w vd va vb => [slotWord 2 w 11 [(5, vd.toNat), (5, va.toNat), (4, vb.toNat)]]
  | .vxor w vd va vb => [slotWord 2 w 12 [(5, vd.toNat), (5, va.toNat), (4, vb.toNat)]]
  | .vshl w vd va vb => [slotWord 2 w 13 [(5, vd.toNat), (5, va.toNat), (4, vb.toNat)]]
  | .vshr w vd va vb => [slotWord 2 w 14 [(5, vd.toNat), (5, va.toNat), (4, vb.toNat)]]
  | .vsar w vd va vb => [slotWord 2 w 15 [(5, vd.toNat), (5, va.toNat), (4, vb.toNat)]]
  | .vcmp w kd cond va vb => [slotWord 2 w 16 [(3, kd.toNat), (2, cond.toNat), (5, va.toNat), (4, vb.toNat)]]
  | .vsel w vd va vb => [slotWord 2 w 17 [(5, vd.toNat), (5, va.toNat), (4, vb.toNat)]]
  | .vmov w vd va => [slotWord 2 w 18 [(5, vd.toNat), (5, va.toNat), (4, 0)]]
  | .vbcst w vd sa => [slotWord 2 w 19 [(5, vd.toNat), (6, sa.toNat), (3, 0)]]
  | .vidx w vd => [slotWord 2 w 20 [(5, vd.toNat), (9, 0)]]
  | .vcvt w vd va fmt => [slotWord 2 w 21 [(5, vd.toNat), (5, va.toNat), (4, fmt.toNat)]]
  | .vrcp w vd va => [slotWord 2 w 22 [(5, vd.toNat), (5, va.toNat), (4, 0)]]
  | .vrsq w vd va => [slotWord 2 w 23 [(5, vd.toNat), (5, va.toNat), (4, 0)]]
  | .vexp2 w vd va => [slotWord 2 w 24 [(5, vd.toNat), (5, va.toNat), (4, 0)]]
  | .vlog2 w vd va => [slotWord 2 w 25 [(5, vd.toNat), (5, va.toNat), (4, 0)]]
  | .vred w vd va op => [slotWord 2 w 26 [(5, vd.toNat), (5, va.toNat), (4, op.toNat)]]
  | .vscan w vd va excl op => [slotWord 2 w 27 [(5, vd.toNat), (5, va.toNat), (1, excl.toNat), (3, op.toNat)]]
  | .vperm w vd va vb => [slotWord 2 w 28 [(5, vd.toNat), (5, va.toNat), (4, vb.toNat)]]
  | .vqnt w vd va => [slotWord 2 w 29 [(5, vd.toNat), (5, va.toNat), (4, 0)]]
  | .vdqn w vd va => [slotWord 2 w 30 [(5, vd.toNat), (5, va.toNat), (4, 0)]]
  | .kop w kd ka kb op => [slotWord 2 w 31 [(3, kd.toNat), (3, ka.toNat), (3, kb.toNat), (3, op.toNat), (2, 0)]]
  | .vcpush w vd va form => [slotWord 2 w 32 [(5, vd.toNat), (5, va.toNat), (4, form.toNat)]]
  | .vcpop w vd va form => [slotWord 2 w 33 [(5, vd.toNat), (5, va.toNat), (4, form.toNat)]]
  | .mwld w ring k1 n1 stamp => [slotWord 2 w 48 [(3, ring.toNat), (8, k1.toNat), (3, 0)], stampWord stamp [(8, n1.toNat), (8, 0)]]
  | .mbag w ring acc exact disp c => [slotWord 2 w 49 [(3, ring.toNat), (1, acc.toNat), (1, exact.toNat), (9, disp.toNat % 512)], ctlWord c [(8, disp.toNat / 512)]]
  | .mmul w src srcQ dk dst sr c => [slotWord 2 w 50 [(3, src.toNat), (1, srcQ.toNat), (2, dk.toNat), (3, dst.toNat), (5, 0)], ctlWord c [(2, 0), (6, sr.toNat)]]
  | .mdist w src srcQ dk dst sr c => [slotWord 2 w 51 [(3, src.toNat), (1, srcQ.toNat), (2, dk.toNat), (3, dst.toNat), (5, 0)], ctlWord c [(2, 0), (6, sr.toNat)]]
  | .mtopk w src srcQ dk dst largest kr1 dist sr c => [slotWord 2 w 52 [(3, src.toNat), (1, srcQ.toNat), (2, dk.toNat), (3, dst.toNat), (1, largest.toNat), (4, kr1.toNat)], ctlWord c [(1, 0), (1, dist.toNat), (6, sr.toNat)]]
  | .mret w force disp c => [slotWord 2 w 53 [(1, 0), (1, force.toNat), (2, 0), (1, 0), (9, disp.toNat % 512)], ctlWord c [(8, disp.toNat / 512)]]
  | .mretRegion w kind n1 sr c => [slotWord 2 w 53 [(1, 1), (1, 0), (2, kind.toNat), (1, 0), (1, 0), (8, n1.toNat)], ctlWord c [(2, 0), (6, sr.toNat)]]
  | .mclr w kind n1 sr c => [slotWord 2 w 54 [(1, 0), (1, 0), (2, kind.toNat), (1, 0), (1, 0), (8, n1.toNat)], ctlWord c [(2, 0), (6, sr.toNat)]]
  | .rset w f stamp => [slotWord 2 w 55 [(14, f.toNat % 16384)], stampWord stamp [(16, f.toNat / 16384)]]
  | .mwait w => [slotWord 2 w 56 [(14, 0)]]
  | .lease w n1 => [slotWord 2 w 57 [(6, 0), (8, n1.toNat)]]
  | .unlease w => [slotWord 2 w 58 [(14, 0)]]
  | .iterationEnd .. | .lexitDrain .. | .loadReturn .. | .wfeTimeout .. | .atomicApply .. | .yieldExpiry ..
  | .invmComplete .. | .leaseGrant .. | .arrayRowResult .. | .engineCommandStart .. | .gatherRowLand ..
  | .transferPerformed .. | .commandComplete .. | .handlerStart .. | .tokenWatchdog .. | .heatAged ..
  | .walkerPlace .. | .launchEnqueue .. | .heatEnd .. | .heatFaulted .. | .heatCancelled .. | .heatSuspended ..
  | .resumePlacement .. | .coxedPlacement .. | .spanEnd .. | .drawMessageEntry .. | .beatRelease ..
  | .writeForwardApply .. | .sampleTick .. | .qpollChange .. | .nopPacket .. | .launchPacket .. | .graphPacket ..
  | .pclose .. | .cancelPacket .. | .writePacket .. | .coxedPacket .. | .preemptPacket .. | .wayFlushDone ..
  | .rebalanceInterval .. | .bucketMoveDone .. | .haltPendingHalt .. | .rom .. | .verify .. | .measure ..
  | .arrays .. | .sram .. | .dram .. | .links .. | .illegalEncoding .. | .fetchFailure .. | .atomicRetry ..
  | .settleTimeout .. | .commandSteal .. | .stealAcknowledge .. | .stealMarkTimeout .. | .thiefReset ..
  | .cancelMessage .. | .fjaroitaBeatArrival .. | .probeArrival .. | .hostHdmAccess .. | .collAbortMessage ..
  | .qdoor .. | .qctl .. | .devnum .. | .bucketTableEntry .. | .registerWrite .. | .flushWays .. | .setScratchMask ..
  | .clkalignStart .. | .clockAligned .. | .linkDown .. | .unitGate .. | .unitWake .. | .readSelfTestReport ..
  | .readErrorLog .. | .readMeasurementRegister .. | .extendRegister .. | .advanceSecurityVersion .. | .keyLoad ..
  | .keyUnload .. | .debuggerAttach .. | .debuggerDetach .. | .setWatchpoint .. | .haltRequest .. | .release ..
  | .stepRelease .. | .readHaltRecord .. | .mailboxUnsupported .. | .debugRegisterWrite .. | .getVersion ..
  | .getCapabilities .. | .negotiateAlgorithms .. | .getDigests .. | .getCertificate .. | .challenge ..
  | .getMeasurements .. | .keyExchange .. | .finish .. | .boardResetRelease .. | .ready .. | .thermalTrip ..
  | .powerTrip .. | .computeReenable .. | .victimCoreReset .. | .hostRejectedWrite .. | .cxlFlushReadComplete ..
  | .peerAsrAccess .. | .collPartnerMessage .. | .stashLineWriteBack .. => []

end Sys2Proof
end

