-- ==== Sys2Proof/Machine/Aes.lean ====
section
/-!
DEFINITION. AES-256-XTS over a line of 128 bytes, which 21/R459 names: the data unit is the line, the tweak its physical
address. The cipher itself is not in the manual; it is that of FIPS 197 and IEEE 1619 (log 9).
-/

namespace Sys2Proof.Machine

/-- Twice an element of the field of 256 elements. -/
def fieldTwice (a : Nat) : Nat := if 2 * a < 256 then 2 * a else (2 * a) ^^^ 0x11B

/-- The product of two elements, over n bits of the second. -/
def fieldMul : Nat → Nat → Nat → Nat
  | 0, _, _ => 0
  | n + 1, a, b => (if b % 2 = 1 then a else 0) ^^^ fieldMul n (fieldTwice a) (b / 2)

/-- The inverse of an element, its 254th power; 0 for 0. -/
def fieldInv (a : Nat) : Nat :=
  let sq (x : Nat) : Nat := fieldMul 8 x x
  let a2 := sq a
  let a4 := sq a2
  let a8 := sq a4
  let a16 := sq a8
  let a32 := sq a16
  let a64 := sq a32
  [a4, a8, a16, a32, a64, sq a64].foldl (fieldMul 8) a2

/-- A byte rotated left. -/
def turnByte (a n : Nat) : Nat := (a * 2 ^ n) % 256 ||| a / 2 ^ (8 - n)

/-- The substitution of bytes, and its inverse. -/
def subByte (a : Nat) : Nat :=
  let b := fieldInv a
  b ^^^ turnByte b 1 ^^^ turnByte b 2 ^^^ turnByte b 3 ^^^ turnByte b 4 ^^^ 0x63

def unsubByte (a : Nat) : Nat := fieldInv (turnByte a 1 ^^^ turnByte a 3 ^^^ turnByte a 6 ^^^ 0x05)

/-- Bytes combined one by one. -/
def xorBytes (a b : List Nat) : List Nat := List.zipWith (· ^^^ ·) a b

/-- The next word of the key schedule, after the last eight words, the latest first. -/
def nextKeyWord (i : Nat) (ws : List (List Nat)) : List Nat :=
  let t := ws.headD []
  let t := if i % 8 = 0 then xorBytes ((t.drop 1 ++ t.take 1).map subByte) [2 ^ (i / 8 - 1), 0, 0, 0]
    else if i % 8 = 4 then t.map subByte else t
  xorBytes (ws.getD 7 []) t

/-- The words of the key schedule from the i-th on, n of them, the latest first. -/
def keyWords : Nat → Nat → List (List Nat) → List (List Nat)
  | 0, _, ws => ws
  | n + 1, i, ws => keyWords n (i + 1) (nextKeyWord i ws :: ws)

/-- The fifteen round keys of a key of 32 bytes. -/
def roundKeys (key : List Nat) : List (List Nat) :=
  let first := (List.range 8).map fun i => (key.drop (4 * i)).take 4
  let ws := (keyWords 52 8 first.reverse).reverse
  (List.range 15).map fun r => ((ws.drop (4 * r)).take 4).flatten

/-- Rows of a block shifted left by their number, or right. -/
def shiftRows (b : List Nat) (left : Bool) : List Nat :=
  (List.range 16).map fun i => b.getD (i % 4 + 4 * ((i / 4 + (if left then i % 4 else 4 - i % 4)) % 4)) 0

/-- Columns of a block multiplied by a matrix whose first row is given. -/
def mixColumns (row : List Nat) (b : List Nat) : List Nat :=
  (List.range 16).map fun i =>
    (List.range 4).foldl (fun x j => x ^^^ fieldMul 8 (b.getD (i / 4 * 4 + j) 0) (row.getD ((j + 4 - i % 4) % 4) 0)) 0

/-- AES of a block under round keys. -/
def aesBlock (ks : List (List Nat)) (b : List Nat) : List Nat :=
  let sub (b : List Nat) : List Nat := shiftRows (b.map subByte) true
  let mid := ((ks.drop 1).take 13).foldl (fun b k => xorBytes (mixColumns [2, 3, 1, 1] (sub b)) k)
    (xorBytes b (ks.headD []))
  xorBytes (sub mid) (ks.getD 14 [])

/-- Its inverse. -/
def aesInverse (ks : List (List Nat)) (b : List Nat) : List Nat :=
  let unsub (b : List Nat) : List Nat := (shiftRows b false).map unsubByte
  let mid := ((ks.drop 1).take 13).reverse.foldl (fun b k => mixColumns [14, 11, 13, 9] (xorBytes (unsub b) k))
    (xorBytes b (ks.getD 14 []))
  xorBytes (unsub mid) (ks.headD [])

/-- n little-endian bytes of a number, and back. -/
def natBytes (n v : Nat) : List Nat := (List.range n).map fun i => v / 256 ^ i % 256

def bytesNat (bs : List Nat) : Nat := bs.foldr (fun b v => b + 256 * v) 0

/-- The tweaks of the blocks of a line from its first one, n of them. -/
def tweaks : Nat → Nat → List (List Nat)
  | 0, _ => []
  | n + 1, t => natBytes 16 t :: tweaks n (if t < 2 ^ 127 then 2 * t else (2 * t) % 2 ^ 128 ^^^ 0x87)

/-- The 128 bytes of a line with each block between its tweak, under a key of 64 bytes. -/
def xtsLine (key : BitVec 512) (line : Nat) (f : List (List Nat) → List Nat → List Nat) (bs : List Byte) : List Byte :=
  let ks := natBytes 64 key.toNat
  let k1 := roundKeys (ks.take 32)
  let t0 := bytesNat (aesBlock (roundKeys (ks.drop 32)) (natBytes 16 (line * 128)))
  ((tweaks 8 t0).zipIdx.flatMap fun t =>
    xorBytes (f k1 (xorBytes (((bs.drop (16 * t.2)).take 16).map (·.toNat)) t.1)) t.1).map (BitVec.ofNat 8)

/-- What a line whose bytes were written back under one key reads as under another (21/R459). -/
def recrypt (old new : BitVec 512) (line : Nat) (bs : List Byte) : List Byte :=
  xtsLine new line aesInverse (xtsLine old line aesBlock bs)

end Sys2Proof.Machine
end

