-- ==== Sys2Proof/Config.lean ====
section
/-!
DEFINITION. What an implementation fixes and the manual does not, and the free values: constants with no body, so that
nothing can be proved of what they are (log 7, 8, 9).
-/

namespace Sys2Proof.Config

/-- A fresh free value for each count of the model's own counter State.freeCtr (log 7). -/
opaque freeWord : Nat → Dword

/-- Which 4 KiB page of the range kept for them the completion tables read from; 07/R195 names no address (log 8). -/
opaque cowinPage : Nat

/-- The key digest burnt into the fuses (21/R455). -/
opaque fusedKeyDigest : BitVec 512

/-- The security version counter in the fuses at power-up (21/R455). -/
opaque fusedVersion : BitVec 32

/-- The digest of the boot ROM's configuration fuses (21/R456). -/
opaque fuseDigest : BitVec 512

/-- Whether a Falcon-1024 signature over a digest verifies under a public key (21/R455); the scheme itself is not in the
manual (log 9). -/
opaque falconVerify : List Byte → BitVec 512 → Nat → Bool

/-- Lamom's Falcon-1024 signature, under the device key derived from register 1, over a message (21/R458; log 9). -/
opaque falconSign : BitVec 512 → List Byte → List Byte

/-- The SPDM responder's certificate chain for a device identity (21/R458; log 9). -/
opaque certificate : BitVec 512 → List Byte

/-- What the responder says of its capabilities (21/R458; log 9). -/
opaque capabilities : List Byte

/-- The responder's key share for a requester's share, and the key that the session gives CXL IDE (21/R458; log 9). -/
opaque keyShare : BitVec 512 → BitVec 512
opaque sessionKey : BitVec 512 → BitVec 512

/-- The code by which a trace record names a heat's final state: ended, dropped, faulted or cancelled as 0 to 3; the
manual gives none (20/R447; log 7). -/
opaque finalCode : Nat → Word

/-- The unit names under which Lamom's log enters a rejected host write and a thermal or power trip (19/R400, 21/R461;
log 7). -/
opaque portUnit : Nat
opaque tripUnit : Nat

/-- The timing version of the T940 (05/R138). -/
def timingVersion : Nat := 1

/-- The failing unit that the self-test report of a failed state names (21/R454; log 7). -/
opaque failDetail : Nat → BitVec 384

/-- The firmware images in Lamom's flash and the host's command-processor image, as the power-up finds them when the
agenda does not say (21/R455; log 1). -/
opaque lamomImage : FirmwareImage
opaque cpImage : FirmwareImage

end Sys2Proof.Config
end

