-- ==== Sys2Proof/Machine/State.lean ====
section
/-!
DEFINITION. The state of the device as plain data, what stops the machine, and the state after reset.
Every field cites the rule that names it; INVENTORY.md lists them with their reset values.
-/

namespace Sys2Proof.Machine

/-- Why the machine stops. -/
inductive Fault where
  /-- Raised by the passage of time when the 64-bit regatta clock (10/R299) would leave its range; safe: the machine
  stops where the hardware's count has no stated next value (log 13). -/
  | clockExhausted
deriving DecidableEq, Repr

/-- Why an instruction has no meaning in a state. -/
inductive Refusal where
  /-- Raised by exec for an instruction that the model does not give a meaning yet; safe. -/
  | notModelled (mnemonic : String)
  /-- Raised by a word when no heat of the state is the current one: a word needs the seat that meets it
  (02/R12); safe: no run reaches it, since step sets the current heat before it executes a word. -/
  | noCurrentHeat
deriving DecidableEq, Repr

/-- A scalar of up to 64 bits and its taint bit (10/R322). -/
structure TVal where
  v : Dword
  t : Bool
deriving DecidableEq, Repr

/-- A branch predicate and its taint bit (10/R322). -/
structure TBit where
  v : Bool
  t : Bool
deriving DecidableEq, Repr

/-- A vector register or stream entry: 2,048 bits and one taint bit per 32-bit lane (03/R62, R63). -/
structure VReg where
  bits : BitVec 2048
  taint : BitVec 64
deriving DecidableEq, Repr

/-- One stride slot (05/R119, R120). -/
structure StrideSlot where
  seatS : Bool
  en : Bool
  p : BitVec 4
  stride : TVal
deriving DecidableEq, Repr

/-- One active loop level of a seat (05/R116). -/
structure Level where
  loopAddr : Dword
  start : Dword
  stop : Dword
  remain : Nat
  iter : Nat
  depth : Nat
  strides : List StrideSlot
deriving DecidableEq, Repr

/-- What a seat waits for, in the classes of 18/R396. -/
inductive WaitKind where
  | token (fifo : Nat)
  | cobj (n : Nat)
  /-- As cobj, where one of the objects is done only when every seat has stopped. -/
  | cobjStuck (n : Nat)
  | barrier (pa : Nat)
  | deviceBarrier (id : Nat)
  | engine
  | empty
deriving DecidableEq, Repr

/-- A wait that has not ended: its kind and the clock at which it began. -/
structure Wait where
  kind : WaitKind
  since : Nat
deriving DecidableEq, Repr

/-- A word of another seat that a seat has passed and whose effect it may have to wait for: a write of a shared
register (02/R18), a command that names a completion object (07/R197), a change of a ring (08/R256) or of a stream
(07/R188), the close of a bag record (07/R215) with whether its predicate is certain. -/
inductive SeenKind where
  | scalar (n : BitVec 6)
  | lanes (n : BitVec 3)
  | cmd (co : BitVec 6)
  | xferbar
  | ring (n : BitVec 3)
  | stream (q : BitVec 4)
  | close (recAddr : Dword) (sure : Bool)
  | opens (recAddr : Dword)
  /-- STMAP or STUNMAP (07/R221, R223). -/
  | stash
deriving DecidableEq, Repr

/-- A passed word of another seat: its text time, its owner, and what it does. -/
structure Seen where
  tt : Nat
  owner : Seat
  kind : SeenKind
deriving DecidableEq, Repr

/-- The state of a seat at an unresolved LEXIT that it ran past (05/R122). -/
structure Checkpoint where
  tt : Nat
  stop : Dword
  loops : List Level
  ptrs : Vector TVal 16
  passed : Nat
  atBoundary : Bool
  atFinal : Bool
deriving DecidableEq, Repr

/-- A taken LEXIT whose drain is not over (05/R123): its text time, and the last command issued before the seat passed
it. -/
structure ExitMark where
  tt : Nat
  last : Nat
deriving DecidableEq, Repr

/-- One seat of a heat (02/R12, R15; 05/R112, R116, R122, R123, R125; 20/R443, R444). -/
structure SeatState where
  pc : Dword
  tt : Nat
  ended : Bool
  stopped : Bool
  ret : List Dword
  loops : List Level
  /-- Kernel-iteration boundaries passed, and whether the seat stands at one (02/R30). -/
  passed : Nat
  atBoundary : Bool
  /-- Whether the boundary it stands at is the final one. -/
  atFinal : Bool
  /-- The first cycle of the stroke of the last STROKE passed, and that stroke's number (05/R125, 10/R310). -/
  strokeBase : Nat
  strokeNo : Nat
  strokeSeen : Bool
  lastIssue : Option Nat
  /-- Cycles by which accesses of the model, which wait for what memory order puts before them, have made the seat late for
  its stamps (10/R310; log 76). -/
  slack : Nat
  seen : List Seen
  wait : Option Wait
  check : Option Checkpoint
  /-- Taken LEXITs whose drain is not over, the oldest first (05/R123). -/
  exits : List ExitMark
  /-- The cycle in which the seat last passed words of other seats, and how many (02/R13). -/
  skips : Nat × Nat
  mark : Nat
  /-- Text time of the last word it issued. -/
  lastTT : Nat
  /-- Counters of cycles, and those of cycles at text times that C has not reached: text time, counter, cycles
  (20/R443). -/
  prof : List (Nat × Nat)
  profAhead : List (Nat × Nat × Nat)
  readySince : Option Nat
  agedAt : Option Nat
deriving DecidableEq, Repr

/-- An entry of the outcome queue (02/R20): the word's text time and address, a branch or exit outcome, or a loop count
with its strides. -/
structure OutcomeEntry where
  tt : Nat
  text : Dword
  taken : Bool
  count : Nat
  strides : List StrideSlot
  seenL : Bool
  seenX : Bool
  seenS : Bool
deriving DecidableEq, Repr

/-- A register that other seats read under text time (02/R18). -/
inductive SharedReg where
  | s (n : BitVec 6)
  | k (n : BitVec 3)
  /-- XFERBAR, which commands read as of their text time (07/R206). -/
  | xferbar
deriving DecidableEq, Repr

/-- A superseded value: what the register held before the write of text time tt (02/R19). -/
structure Version where
  reg : SharedReg
  tt : Nat
  old : TVal
deriving DecidableEq, Repr

/-- An outstanding load or atomic of C, or of a handler context: its destination, and the value once it is known. -/
structure Pending where
  id : Nat
  /-- Destination scalar register; none when the reply writes nothing. -/
  dst : Option (BitVec 6)
  tt : Nat
  value : Option TVal
  text : Dword
  addr : Dword
  /-- The handler context that issued it, if any. -/
  ctx : Option Nat
  cancelled : Bool
deriving DecidableEq, Repr

/-- A stream's descriptor (07/R188). -/
structure QDesc where
  fmt : BitVec 4
  elems : Nat
  rowStride : Int
  elemStride : Int
  ring : Option (BitVec 3)
  taint : Bool
deriving DecidableEq, Repr

/-- A stream (07/R187, 08/R248). -/
structure QStream where
  desc : Option QDesc
  entries : List VReg
  buf : List (Word × Bool)
  taken : Nat
  /-- The last entries of the stream that are not visible yet: for each, the cycle from which it is (08/R250). -/
  due : List Nat
deriving DecidableEq, Repr

/-- The sideband of a filled tile (07/R209, 11/R337): the bag that landed it, its identity, its replaced flag. -/
structure Tile where
  bag : Option Nat
  tag : Nat
  member : Nat
  replaced : Bool
deriving DecidableEq, Repr

/-- A scratchpad ring (08/R256): span, tile size, count, head, and the filled tiles from head to tail. -/
structure Ring where
  base : Nat
  t : Nat
  c : Nat
  head : Nat
  tiles : List Tile
deriving DecidableEq, Repr

/-- A completion object, 64 bytes (07/R195, R196, R217). -/
structure CObj where
  status : Dword
  progress : Dword
  faultAddr : Dword
  detail : BitVec 320
deriving DecidableEq, Repr

/-- The type state of X (08/R228). -/
structure XTypes where
  t : BitVec 4
  rm : BitVec 3
  af : BitVec 4
  asg : Bool
  wf : BitVec 4
  wsg : Bool
  out : BitVec 4
deriving DecidableEq, Repr

/-- The state of a bag (07/R215, 11/R330, R343): failed when a gather of it has faulted, so that it can only be
abandoned. -/
inductive BagPhase where
  | opening | opened | failed | closed | abandoned
deriving DecidableEq, Repr

/-- A bag of a heat: its record's address and fields (07/R213, 11/R333) and its life. -/
structure Bag where
  id : Nat
  recAddr : Nat
  ctl : Nat
  acc : Nat
  tags : Nat
  rows : Nat
  policy : Word
  phase : BagPhase
  openTT : Nat
  closeTT : Option Nat
  retired : Bool
  steered : Bool
  /-- Rows settled (07/R211). -/
  settled : Nat
deriving DecidableEq, Repr

/-- A mapped stash range (07/R221, R222): the text time from which accesses are stash accesses; lines filled and dirty. -/
structure Stash where
  heat : Nat
  since : Nat
  slot : BitVec 4
  spad : Nat
  global : Dword
  lines : Nat
  filled : List Nat
  dirty : List Nat
deriving DecidableEq, Repr

/-- A block of pinned L1D lines (07/R219). -/
structure Block where
  tag : BitVec 4
  addr : Dword
  lines : Nat
  /-- The physical lines that a coxed heat's block holds in the core's L1D. -/
  pins : List Nat
deriving DecidableEq, Repr

/-- A task-type entry (02/R27, 19/R409). -/
structure TaskType where
  index : Nat
  prologue : Dword
  kernel : Dword
  epilogue : Dword
  trip : Nat
  tripSrc : Nat
  sGroups : Nat
  vGroups : Nat
  spadUnits : Nat
  asrUnits : Nat
  prio : Nat
  depth : Nat
  coxed : Bool
  gang : Bool
deriving DecidableEq, Repr

/-- Why a heat is STOPPING (02/R32). -/
inductive StopCause where
  | fault | cancel | suspend | preempt
deriving DecidableEq, Repr

/-- A stop in force: its cause and the boundary at which the seats meet (02/R30). -/
structure Stop where
  cause : StopCause
  since : Nat
  upTo : Nat
  /-- A cancel that arrives while the heat stops for SUSPEND or pre-emption (02/R36). -/
  cancelAfter : Bool
deriving DecidableEq, Repr

/-- The states of a heat after QUEUED (02/R32). -/
inductive HeatStatus where
  | resident | stopping | suspended | ended | dropped | faulted | cancelled
deriving DecidableEq, Repr

/-- What a trap record says of a fault (20/R426). -/
structure FaultInfo where
  cls : BitVec 8
  addr : Dword
  engStatus : Dword
  clock : Nat
  text : Dword
  loop : Dword
  iter : Nat
  cmdIndex : Option Nat
  seat : Seat
  handler : Bool
  engine : Nat
deriving DecidableEq, Repr

/-- What the pre-emption or SUSPEND that stops a heat asks for (06/R170, 20/R434). -/
structure SuspendReq where
  cob : Dword
  claim : Dword
  rights : Nat
  image : Dword
  preempt : Bool
  packet : Option Nat
deriving DecidableEq, Repr

/-- Where a member stands in its slalom window (13/R372). -/
structure ShareCursor where
  pos : Nat
  gen : Nat
  commit : Bool
deriving DecidableEq, Repr

/-- Long waits of C that other parties end. -/
inductive Holding where
  | none
  | wfe (since limit : Nat)
  /-- The count of a WFE has expired. -/
  | wfeOver
  | yielded (since limit : Nat)
  | dbar (id gen : Nat)
  /-- WAITC of a phase id: the phases that were incomplete when the wait began (06/R167). -/
  | phases (uids : List Nat)
deriving DecidableEq, Repr

/-- The C seat's registers (02/R14). -/
structure CFile where
  s : Vector TVal 64
  b : Vector TBit 8
  lc : Vector TVal 6
  strides : Vector StrideSlot 24
deriving DecidableEq, Repr

/-- A place that X words write. -/
inductive XName where
  | v (n : BitVec 4)
  | k (n : BitVec 3)
  /-- The holding buffer of an outbound stream (08/R248). -/
  | buf (q : BitVec 4)
deriving DecidableEq, Repr

/-- The X seat's registers (02/R14, 08/R228, R230). -/
structure XFile where
  v : Vector VReg 16
  k : Vector TVal 8
  types : XTypes
  stat : BitVec 5
  /-- Flags set by X words whose text time C has not reached (08/R230). -/
  statLog : List (Nat × BitVec 5)
  /-- Results that are not readable yet, each with the cycle from which it is and its word's text time (08/R250). -/
  busy : List (XName × Nat × Nat)
deriving DecidableEq, Repr

/-- The heat's CSRs and counters (05/R138, 06/R153, R180, 07/R206, 13/R379, 20/R443). -/
structure HeatCtl where
  slipw : Nat
  tokwdog : Nat
  prio : Nat
  /-- Barrier objects arrived at, by address, with the generation of the last arrival (02/R45). -/
  arrived : List (Nat × Nat)
  latch : Bool
  specsup : Nat
  asrstat : BitVec 5
  xferbar : Dword
  cobRights : Nat
  cobImg : Dword
  profSel : Nat
  tStored : Nat
  tControl : Nat
  tCleared : Nat
  tRead : Nat
deriving DecidableEq, Repr

/-- Who a heat is (06/R174, 02/R26, R37). -/
structure HeatId where
  uid : Nat
  job : Nat
  launch : Nat
  index : Nat
  graph : Nat
  phase : Nat
  detached : Bool
  trapTask : Bool
  coxed : Bool
deriving DecidableEq, Repr

/-- A heat (02/R26 to R32). -/
structure Heat where
  id : HeatId
  type : TaskType
  core : Nat
  slot : Nat
  since : Nat
  spad : List Nat
  asr : List Nat
  status : HeatStatus
  stop : Option Stop
  fault : Option FaultInfo
  secondary : Nat
  C : SeatState
  L : SeatState
  X : SeatState
  S : SeatState
  c : CFile
  pL : Vector TVal 16
  pS : Vector TVal 16
  x : XFile
  q : Vector QStream 16
  g : Vector (Option Ring) 8
  co : Vector CObj 64
  /-- The commands that have named an object, the latest last: object, text time, and the error bit that the object
  showed before (07/R197). -/
  coTT : List (Nat × Nat × Bool)
  fifo : Vector Nat 6
  /-- Pushed tokens that are not visible yet: for each its FIFO and the cycle from which it is (02/R22). -/
  hidden : List (Nat × Nat)
  outcomes : List OutcomeEntry
  versC : List Version
  versX : List Version
  pend : List Pending
  ctl : HeatCtl
  hold : Holding
  /-- Commands that an INVM of L waits for (07/R223). -/
  invm : Option (List Nat)
  /-- Address, pages and size of that INVM. -/
  marker : Option (Dword × Nat × Nat)
  bags : List Bag
  blocks : List Block
  hnd : Option Dword
  claim : Option (Dword × Dword)
  susp : Option SuspendReq
  cursor : Option ShareCursor
  cmdCount : Nat
  haltPending : Bool
  /-- Stroke by whose end a coxed heat is final, and its first stroke (10/R304). -/
  firstStroke : Nat
  lastStroke : Nat
  /-- Its span has ended before it was final (10/R308). -/
  spanOver : Bool
  /-- The objects of the RESUMEs that wait for its end: heat and object (06/R171). -/
  resumers : List (Nat × Nat)
  /-- The trap record's index while the record is not retired (20/R431). -/
  record : Option Nat
  /-- Its trap task is still to start (20/R430). -/
  trapDue : Bool
  freed : Bool
  /-- It became final while suspended, and the trace record of that is still to be written (20/R447). -/
  traceDue : Bool
  /-- It was not final when an overrun broke its job's schedule (10/R312). -/
  overrun : Bool
deriving DecidableEq, Repr

/-- A gather record (07/R208). -/
structure GatherRec where
  n : Nat
  width : Nat
  signed : Bool
  scale : Nat
  kind : Nat
  accumulate : Nat
  operand : Nat
  tagMode : Nat
  tagPtr : Nat
  runLen : Nat
  runBase : Nat
  accFmt : Nat
deriving DecidableEq, Repr

/-- Which matrix product (08/R261). -/
inductive Product where
  | mmul | mdist
  | mtopk (k : Nat) (largest dist : Bool)
deriving DecidableEq, Repr

/-- What an engine command does, with the values it read at issue. -/
inductive CmdKind where
  | copy (src dst len : Nat) (at_ : Bool)
  | asrcpy (src dst n : Nat) (retire at_ : Bool)
  | gatr (r : GatherRec) (pb pi dst tag : TVal) (bag : Option Nat)
  | scatr (r : GatherRec) (pb pi src : TVal)
  | ldblk (tag : BitVec 4) (addr : Dword) (lines : Nat)
  | ldblkRel (tag : BitVec 4)
  | stflush (slots : List (BitVec 4)) (unmap : Bool)
  | bagopen (bag : Nat)
  | bagclose (bag : Nat)
  | coll (group seq rank n : Nat) (sig : CollSig) (src dst : Nat) (taint : Bool)
  | mwld (ring : BitVec 3) (k n : Nat) (wf : BitVec 4)
  | prod (p : Product) (src : BitVec 3) (srcQ : Bool) (dk : Nat) (dst : BitVec 3) (n off : Nat) (types : XTypes) (mw : Nat) (taint : Bool)
  | mbag (ring : BitVec 3) (bag : Nat) (acc exact : Bool) (types : XTypes) (mw : Nat)
  | mret (bag : Option Nat) (force : Bool) (kind n rows off : Nat) (types : XTypes) (taint : Bool)
  | mclr (kind n rows off : Nat)
  | copyco (src dst newCell cell : Dword) (gen : Nat)
  /-- A launch or a resumption that the engine hands to the command processor (07/R194). -/
  | hand (request : Nat)
  /-- A speculative command whose fault was found at its issue and is held; the engine it names (05/R124). -/
  | held (engine : Nat)
deriving DecidableEq, Repr

/-- Where a command stands (07/R194, 13/R385). -/
inductive CmdPhase where
  | queued
  | marked (thief since : Nat)
  | held (thief : Nat)
  | running
deriving DecidableEq, Repr

/-- The exact value of an element (03/R51, R52): a NaN, signalling or not; an infinity; or (−1)^neg × m × 2^e, a zero
keeping its sign. -/
inductive Num where
  | nan (signalling : Bool)
  | inf (neg : Bool)
  | fin (neg : Bool) (m : Nat) (e : Int)
deriving DecidableEq, Repr

/-- An operand row inside the sweep array (08/R263): the cycle from which its results are written, the results of the
chains with the conditions of forming them, its taint, and, of a tile of MBAG, its tag and whether it was poisoned. -/
structure InRow where
  due : Nat
  results : List Num
  conds : BitVec 5
  taint : Bool
  tag : Nat
  discarded : Bool
deriving DecidableEq, Repr

/-- An engine command (07/R194 to R201). -/
structure Cmd where
  id : Nat
  heat : Nat
  core : Nat
  seat : Seat
  tt : Nat
  text : Dword
  index : Nat
  op : Nat
  kind : CmdKind
  co : Option Nat
  reloc : Bool
  spec : Bool
  phase : CmdPhase
  since : Nat
  /-- Text time of the unresolved LEXIT it was issued past; suppressed when that exit was taken (05/R124). -/
  past : Option Nat
  /-- Cycle in which the array started it, the command before having read its last row (08/R255). -/
  begin_ : Option Nat
  /-- Half cycle from which the array takes the next operand row, and the rows that have entered (08/R263). -/
  nextIn : Nat
  entered : Nat
  /-- The rows inside the array, the oldest first. -/
  inside : List InRow
  /-- The array has read its last row, and the fault that the row after it met (08/R255, R264). -/
  readDone : Bool
  stopAt : Option (BitVec 8 × Dword)
  suppressed : Bool
  /-- The effect has been performed, whole or up to its fault. -/
  spent : Bool
  fault : Option (BitVec 8 × Dword)
  /-- Bytes written, rows landed, cells copied. -/
  prog : Nat
  /-- Positions of rows that have settled; of them, how many without landing, and how many as zeros (15/R389). -/
  settled : List Nat
  unlanded : Nat
  zeroed : Nat
  /-- Lowest row whose source fault its bag absorbed (18/R398). -/
  absorbed : Option Nat
  /-- Operand rows or tiles whose results are written (08/R263, R264). -/
  rows : Nat
  poisonCopied : Bool
  relocated : Bool
  relocAbort : Bool
  collAbort : Bool
  incomplete : Bool
  /-- The status word's detail and the object's command detail (07/R195, R196). -/
  extra : Nat
  report : Nat
  conds : BitVec 5
  badRow : Option Nat
  /-- Barrier object that the transfer counts against, and whether it counts as outbound (07/R206). -/
  xfer : Option (Dword × Bool)
  xferDone : Bool
  hnd : Option Dword
  /-- The victim core was reset: the completion is discarded (13/R385). -/
  orphan : Bool
  /-- Became a pending descriptor (13/R380). -/
  parked : Bool
deriving DecidableEq, Repr

/-- An arrival-handler context, or a handler that waits for one (07/R204). -/
structure Handler where
  id : Nat
  core : Nat
  heat : Nat
  target : Dword
  /-- Number of the command that it belongs to, among the heat's, and its completion object. -/
  index : Nat
  obj : Nat
  status : Dword
  progress : Dword
  running : Bool
  pc : Dword
  count : Nat
  s : Vector TVal 16
  b : Vector TBit 8
deriving DecidableEq, Repr

/-- An atomic packet (06/R154 to R156). -/
structure Packet where
  id : Nat
  core : Nat
  seq : BitVec 16
  heat : Nat
  op : BitVec 7
  form : Nat
  va : Dword
  pa : Nat
  /-- The three parts of 32 bytes of an la640 cell; otherwise the cell itself. -/
  parts : List Nat
  operand : TVal
  expected : Dword
  addrTaint : Bool
  clean : Bool
  /-- Clock that the access carries (12/R365). -/
  clock : List Nat
  applied : Bool
  /-- Sent again, for the packet or its reply was lost (06/R156). -/
  resent : Bool
  sentAt : Nat
  text : Dword
deriving DecidableEq, Repr

/-- A saved reply of an ASR home (06/R156). -/
structure Reply where
  crew : Nat
  core : Nat
  seq : BitVec 16
  value : TVal
  conds : BitVec 5
deriving DecidableEq, Repr

/-- The stationary tile of an array (08/R260): none after a grant or a failed load. -/
structure Weights where
  k : Nat
  n : Nat
  fmt : BitVec 4
  cmd : Nat
  data : BitVec 2097152
  taint : Bool
deriving DecidableEq, Repr

/-- The lease of a crew's array (08/R252 to R255, R272; 10/R306). -/
structure Lease where
  crew : Nat
  holder : Option Nat
  /-- Granted, and X has not passed its LEASE yet. -/
  granted : Bool
  left : Nat
  lastCore : Nat
  weights : Option Weights
  /-- The identifier of the last MWLD issued in the run, which provides the weights of later commands. -/
  lastMwld : Option Nat
  /-- Half cycle from which the array can start the next command (08/R255, R263). -/
  freeAt : Nat
  rows : Nat
  turn : Nat
  requests : List (Nat × Nat)
deriving DecidableEq, Repr

/-- A translation held in a TLB (20/R451): the job, the page, and the leaf. -/
structure TlbEntry where
  home : Nat
  job : Nat
  page : Nat
  big : Bool
  leaf : Dword
deriving DecidableEq, Repr

/-- The memories (12/R346, R347). Addresses are physical; scratchpad bytes stand above them (log 6). -/
structure Mem where
  cells : List Host.Cell
  /-- Tainted words, by word number, strictly rising (10/R322). -/
  taint : List Nat
  /-- Poisoned lines, and poisoned ASR words, by line and word number (07/R200). -/
  poison : List Nat
  poisonAsr : List Nat
  /-- Lines with an uncorrectable error that no access has found (18/R398). -/
  errors : List Nat
  /-- Key id under which a line was last written (21/R459). -/
  lineKey : List (Nat × Nat)
  /-- Lines written back to the underlay since they were last written, each with the key that encrypts it (21/R459, R460). -/
  sealedLines : List (Nat × BitVec 512)
deriving DecidableEq, Repr

/-- A copy of a line in a die that is not its home (12/R364). -/
structure Replica where
  die : Nat
  line : Nat
  bytes : List Byte
  taint : List Bool
  /-- Clock that the writes it shows carry (12/R365). -/
  clock : List Nat
deriving DecidableEq, Repr

/-- The word whose access a message carries (20/R426): its seat and text address and, of an engine command, its number and
its engine. -/
structure MsgWord where
  seat : Seat
  text : Dword
  cmd : Option Nat
  engine : Nat
deriving DecidableEq, Repr

/-- A write on its way to its home die or forwarded to a die that holds a copy (12/R364, R365). -/
structure Forward where
  id : Nat
  heat : Nat
  src : Nat
  dst : Nat
  toHome : Bool
  addr : Nat
  /-- Bytes written, each with the taint it carries. -/
  data : List (Byte × Bool)
  /-- Further parts of the same access in the same line (12/R361). -/
  more : List (Nat × List (Byte × Bool))
  /-- The writer's die and the write's clock. -/
  wdie : Nat
  clock : List Nat
  /-- The word that made it. -/
  word : Option MsgWord
deriving DecidableEq, Repr

/-- What a member of a collective has contributed (07/R226). -/
structure CollPart where
  job : Nat
  group : Nat
  seq : Nat
  rank : Nat
  sig : CollSig
  /-- Its words, each with the taint bit that a beat carries (10/R322). -/
  data : List (Word × Bool)
deriving DecidableEq, Repr

/-- What a message of another device brings: a write of 64 bits, an access to a cell with its source and sequence number
(06/R156), a member's contribution to a collective, the reply to an access of this device to a peer, by the access's
identifier, a cancel of a job (10/R312), or the abort of collectives (20/R452). -/
inductive BeatLoad where
  | write (addr : Nat) (val : Dword) (taint : Bool)
  | access (core : Nat) (seq : BitVec 16) (resent : Bool) (addr : Nat) (op : PeerOp) (val : TVal)
  | part (p : CollPart)
  | reply (id : Nat)
  | cancel (job : Nat)
  | abort (job group seq : Nat)
deriving DecidableEq, Repr

/-- A value that the device sends, with its taint and the clock value at which it enters the link (10/R301, R322). -/
structure OutBeat where
  val : Dword
  taint : Bool
  sent : Nat
deriving DecidableEq, Repr

/-- A beat held until its release cycle (10/R301), or until this device's dies have applied what precedes it (12/R365). -/
structure Beat where
  id : Nat
  /-- What it carries. -/
  load : BeatLoad
  due : Nat
  /-- Clock that the access carries (12/R365). -/
  clock : List Nat
  /-- The link that it came over (22/R462), and the heat of this device whose access it answers. -/
  link : Nat
  heat : Option Nat
  /-- It has been released, and its message on the draw is sent (10/R316). -/
  sent : Bool
deriving DecidableEq, Repr

/-- One ride of a message within a die: its class, the die, source and destination endpoint (10/R315, R318). -/
structure DrawLeg where
  cls : Nat
  die : Nat
  src : Nat
  dst : Nat
deriving DecidableEq, Repr

/-- A message of a coxed schedule (10/R316). -/
structure DrawMsg where
  id : Nat
  heat : Option Nat
  /-- The load, atomic or forward that waits for it. -/
  carries : Option Nat
  /-- Cycle from which it stands at the source of its next leg. -/
  ready : Nat
  legs : List DrawLeg
  /-- The cycle of its last entry, and the leg that it entered. -/
  entered : Option (Nat × DrawLeg)
  /-- The word whose access it carries (20/R426). -/
  word : Option MsgWord
deriving DecidableEq, Repr

/-- A probe held behind an outstanding reply to its line (12/R363). -/
structure Probe where
  core : Nat
  line : Nat
deriving DecidableEq, Repr

/-- A posted write to host memory (19/R400). -/
structure Posted where
  id : Nat
  heat : Nat
  addr : Nat
  bytes : List Byte
deriving DecidableEq, Repr

/-- The fabric's messages in flight. -/
structure Net where
  /-- Vector clock of each heat that has received one (12/R365): heat, one entry per die. -/
  clocks : List (Nat × List Nat)
  /-- Clock that the writes to a line carry, for lines whose writers have one: line, one entry per die. -/
  lineClocks : List (Nat × List Nat)
  /-- Clock of the last write that left each die. -/
  dieClocks : List (Nat × List Nat)
  replicas : List Replica
  forwards : List Forward
  probes : List Probe
  /-- Lines that the L1Ds hold: core and line (12/R350). -/
  l1 : List (Nat × Nat)
  beats : List Beat
  msgs : List DrawMsg
  posted : List Posted
  flushed : Bool
  parts : List CollPart
  /-- Lines that a slice holds as they were filled, each with the key id of the leaf (21/R459). -/
  fillKeys : List (Nat × Nat)
  /-- Accesses to peers, by identifier, whose reply has been released (10/R301). -/
  answered : List Nat
  /-- Replies in the holding buffer of a core's port, in the order in which they arrived: load or atomic, core (20/R438,
  R441). -/
  inBuffer : List (Nat × Nat)
  /-- Loads and atomics, by identifier, in whose on-die beat an uncorrectable error stands (10/R321). -/
  badBeats : List Nat
  /-- Aborts of collectives sent to partners (20/R452): job, group, sequence number. -/
  abortsSent : List (Nat × Nat × Nat)
  cancelsSent : List Nat
  msix : List Nat
  /-- Values that the device has sent in answer to reads by the host and by peers. -/
  outbox : List OutBeat
deriving DecidableEq, Repr

/-- A launch that its command processor has not enqueued yet, with the address of its launch record while that is unread
(19/R419). -/
structure Request where
  id : Nat
  job : Nat
  launch : Nat
  recAddr : Option Dword
  /-- The engine has handed it over, or it came from the host (07/R194). -/
  handed : Bool
deriving DecidableEq, Repr

/-- A request to place a resumed COB (06/R171, 13/R381). -/
structure ResumeReq where
  id : Nat
  job : Nat
  cob : Dword
  gen : Dword
  resumer : Nat × Nat
  die : Nat
  /-- The engine has handed it over, or it came from the host (07/R194). -/
  handed : Bool
  /-- The launch that the COB's header names (13/R380). -/
  launch : Nat
  /-- The resumer was suspended and resumed since: its object waits for its launch instead (13/R381). -/
  linked : Bool
deriving DecidableEq, Repr

/-- One dimension of a loop nest (02/R33, 19/R410). -/
structure Dim where
  start : Word
  count : Nat
  step : Word
deriving DecidableEq, Repr

/-- A launch (02/R33 to R39, R42). -/
structure Launch where
  id : Nat
  job : Nat
  graph : Nat
  phase : Nat
  type : TaskType
  /-- Dimensions, outermost first. -/
  dims : List Dim
  /-- Number of the dimension at each level, for the coordinate registers (19/R412). -/
  order : List Nat
  mask : Dword
  preds : List Nat
  die : Nat
  seq : Nat
  total : Nat
  nextIdx : Nat
  live : Nat
  enqueued : Bool
  coords : Option (List Word)
  /-- Queued heats that a cancel has discarded (02/R36). -/
  discarded : List Nat
  sms : Bool
  complete : Bool
  faulted : Bool
  cancelled : Bool
  /-- Cancelled as a whole: nothing of it is enumerated any more (02/R36). -/
  cut : Bool
  dropped : Bool
  refused : Bool
  overrun : Bool
  faultedHeats : Nat
  /-- Objects that wait for it: heat and object (06/R165, 13/R381). -/
  spawners : List (Nat × Nat)
  held : Bool
  /-- Clocks of the accesses before the launch and of those of its heats that have ended (12/R359). -/
  startClock : List Nat
  endClock : List Nat
  prof : List Nat
  tcnt : List Nat
  coxed : Bool
  /-- The heat indices that the entries of a coxed launch give (10/R305). -/
  indices : List Nat
deriving DecidableEq, Repr

/-- The heat indices of a launch: those of its entries, or 0 to total − 1 (10/R305, 02/R34). -/
def Launch.indexList (l : Launch) : List Nat := if l.coxed then l.indices else List.range l.total

/-- A graph and a phase of a job (02/R35, 19/R406). -/
structure Graph where
  id : Nat
  job : Nat
  phase : Nat
  refused : Bool
deriving DecidableEq, Repr

structure Phase where
  uid : Nat
  id : Nat
  job : Nat
  closed : Bool
deriving DecidableEq, Repr

/-- What a dispatched packet waits for (19/R406). -/
inductive PacketWait where
  | launch (job id : Nat)
  | graph (id : Nat)
  | phase (uid : Nat)
  | coxed (job : Nat)
  /-- A write that is not performed at system scope yet. -/
  | write
  | preempt (heat : Nat)
  /-- The heat of a launch has been suspended (20/R435). -/
  | suspended (launch : Nat)
deriving DecidableEq, Repr

/-- A dispatched packet that is not complete (19/R404, R408). -/
structure HostPacket where
  id : Nat
  q : Nat
  tag : BitVec 16
  signal : Bool
  intr : Bool
  sigAddr : Dword
  wait : PacketWait
deriving DecidableEq, Repr

/-- A watchpoint of a job (20/R437). -/
structure Watch where
  n : Nat
  base : Dword
  log2len : Nat
  rd : Bool
  wr : Bool
deriving DecidableEq, Repr

/-- A cancelled load in a halt record (20/R439, R440). -/
structure HaltEntry where
  text : Dword
  addr : Dword
  launch : Nat
  index : Nat
  reg : Nat
  seat : Nat
deriving DecidableEq, Repr

/-- A debug halt (20/R438, R439, R441). -/
structure Halt where
  reason : Nat
  number : Nat
  since : Nat
  entries : List HaltEntry
  step : Option (Nat × Seat × Nat)
deriving DecidableEq, Repr

/-- A job (19/R405; 20/R428, R437 to R442, R452). -/
structure Job where
  id : Nat
  descAddr : Nat
  flags : Dword
  root : Dword
  typeCount : Nat
  typeTable : Dword
  trapQ : Dword
  groupTab : Dword
  killed : Bool
  coxed : Bool
  aligned : Bool
  complete : Bool
  overrun : Bool
  cancelled : Bool
  debugger : Bool
  watch : List Watch
  halt : Option Halt
  lastHalt : Option Halt
  haltedCycles : Nat
  aborted : List Nat
  collSeq : List (Nat × Nat)
  nextLaunch : Nat
  /-- Comparator matches already released (19/R418). -/
  passedLaunch : List Nat
  /-- Cycle of the last sample (20/R446). -/
  sampled : Nat
deriving DecidableEq, Repr

/-- A heat entry of a schedule image (10/R304). -/
structure HeatEntry where
  start : Nat
  coords : List Word
  index : Nat
  launch : Nat
  type : Nat
  span : Nat
  core : Nat
  placed : Bool
deriving DecidableEq, Repr

/-- The schedule of a coxed job (10/R302 to R319). -/
structure Sched where
  job : Nat
  start : Nat
  slots : Nat
  refresh : BitVec 256
  entries : List HeatEntry
  leases : List (Nat × Nat)
  /-- Valid draw entries: die, index, word. -/
  draws : List (Nat × Nat × Word)
  live : Bool
  broken : Bool
deriving DecidableEq, Repr

/-- A device barrier of a gang (06/R161, R162). -/
structure DevBar where
  job : Nat
  launch : Nat
  id : Nat
  gen : Nat
  arrived : List Nat
  /-- Clock of what preceded the arrivals of this generation, and of the last complete one (12/R359). -/
  clock : List Nat
  doneClock : List Nat
deriving DecidableEq, Repr

/-- A slalom context (06/R175, R176, 13/R371). -/
structure Slalom where
  job : Nat
  launch : Nat
  n : Nat
  base : Dword
  k : Nat
  w : Nat
  window : Nat
  fresh : Nat
  list : List Nat
  reports : List (Nat × Bool)
  /-- Members that have executed SLWIN, and how many DBARs each has passed in the window. -/
  members : List Nat
  passed : List (Nat × Nat)
deriving DecidableEq, Repr

/-- Registers of one queue (19/R402); prod is the previous producer index of 19/R403; the packet in hand that a comparator
holds or has held, with its job; and whether it is still held (19/R418). -/
structure QueueRegs where
  q : Nat
  base : Dword
  job : Dword
  ctl : Word
  cons : Word
  poll : Dword
  stat : Dword
  prod : Word
  held : Bool
  inHand : Option (Nat × List Byte)
deriving DecidableEq, Repr

/-- A bucket move in progress (12/R352, 22/R465). -/
structure Move where
  die : Nat
  bucket : Nat
  src : Nat
  dst : Nat
deriving DecidableEq, Repr

/-- A Fjaroita link (22/R462, R464). -/
structure Link where
  n : Nat
  cabled : Bool
  up : Bool
  latency : Nat
  delay : Option Nat
deriving DecidableEq, Repr

/-- Device registers and device-wide units. -/
structure DevRegs where
  clock : Nat
  strokeLen : Nat
  ageCap : Nat
  leaseMax : Nat
  rebalCtl : Dword
  rebalPend : Option Dword
  clkAlign : Dword
  /-- Counts by which the clock still leads its parent's, whether the next cycle advances it, and the links whose other
  end is aligned (22/R464). -/
  lead : Nat
  half : Bool
  alignEnds : List Nat
  gateCtl : Dword
  winBase : Nat
  devNum : Nat
  bucket : List (Nat × Nat × Nat)
  slway : List (Nat × Nat × Word)
  cmp : List (Nat × Nat × Dword)
  moves : List Move
  /-- Way commands in progress: die, slice, command, mask; and ways emptied by the last flush (12/R354). -/
  wayCmd : List (Nat × Nat × Nat × Nat)
  emptyWays : List (Nat × Nat × Nat)
  links : List Link
  gated : List GateUnit
  /-- Cycle of the last access to a unit that may be gated; the ways of a cache as one (22/R467; log 82). -/
  touched : List (GateUnit × Nat)
  /-- Requests of the present interval: die and bucket, count; and the end of each die's last interval (22/R465). -/
  requests : List ((Nat × Nat) × Nat)
  intervalAt : List (Nat × Nat)
  /-- Cabled links whose device has a coxed job resident (22/R464). -/
  peerCoxed : List Nat
  /-- Cycle in which a core's copy engine last held a command (13/R384). -/
  engLast : List (Nat × Nat)
  scan : List (Nat × Nat × Nat)
  /-- Dies whose walker has acted in the latest cycle in which it did: die, cycle, cores claimed (19/R413). -/
  walked : List (Nat × Nat × List Nat)
  /-- Dies whose command processor has dispatched a packet: die, the queue's number in the die, the cycle (19/R404). -/
  cpTurn : List (Nat × Nat × Nat)
  computeOn : Bool
  tripped : Bool
deriving DecidableEq, Repr

/-- Lamom's power-up states (21/R453). -/
inductive Stage where
  | held | rom | verify | measure | arrays | sram | dram | links | ready | up | safe
deriving DecidableEq, Repr

/-- A loaded key slot (21/R459). -/
structure KeySlot where
  slot : Nat
  key : BitVec 512
  owner : Nat
deriving DecidableEq, Repr

/-- An entry of Lamom's error log (20/R433). -/
structure LogEntry where
  clock : Nat
  unit : Nat
  line : Nat
  job : Nat
  launch : Nat
  heat : Nat
  cmd : Nat
deriving DecidableEq, Repr

/-- Lamom's counters of one die (20/R433): soft errors corrected by SRAM, underlay, on-die beat and link; log entries;
packets resent; beats resent on links; records lost. -/
structure Counters where
  sram : Dword
  underlay : Dword
  beat : Dword
  link : Dword
  uncorrectable : Dword
  atomicRetries : Dword
  linkRetries : Dword
  lost : Dword
deriving DecidableEq, Repr

/-- An answer of the mailbox or the SPDM responder (21/R457, R458). -/
inductive Response where
  | ok
  | refused
  | unsupported
  | notInSafe
  | bytes (b : List Byte)
  | value (v : Nat)
  /-- The algorithms agreed: Falcon-1024, SHAKE256. -/
  | algorithms (falcon shake : Bool)
  | log (es : List LogEntry) (c : Vector Counters 4)
  | halt (record : List Byte) (cycles : Nat)
deriving DecidableEq, Repr

/-- How far an SPDM exchange has come (21/R458). -/
inductive Spdm where
  | idle | version | capabilities | negotiated | exchanged | session
deriving DecidableEq, Repr

/-- Lamom (21). -/
structure Lamom where
  stage : Stage
  failCode : Word
  /-- Of a failed power-up state: the counter of the free value that its report's detail shows where the model knows no
  failing unit (log 7), its cycle, and the link that failed (21/R454). -/
  failAt : Nat
  failClock : Nat
  failLink : Option Nat
  /-- Digests of the verified Lamom and command-processor images (21/R455, R456). -/
  images : BitVec 512 × BitVec 512
  measures : Vector (BitVec 512) 8
  fused : BitVec 32
  booted : BitVec 32
  spdm : Spdm
  /-- Whether the requester of the exchange offers Falcon-1024 and SHAKE256 (21/R458), and the key that the session has
  given CXL IDE (19/R399). -/
  offer : Bool × Bool
  ide : Option (BitVec 512)
  keys : List KeySlot
  log : List LogEntry
  /-- One set of counters per die. -/
  counters : Vector Counters 4
  answers : List Response
  debuggers : List Nat
deriving DecidableEq, Repr

/-- Who acts: a seat of a heat, or a running handler context. -/
structure Cursor where
  heat : Nat
  seat : Seat
  handler : Option Nat
deriving DecidableEq, Repr

/-- Where a soft error is corrected, or a beat sent again, for Lamom's counters (20/R433). -/
inductive SoftError where
  | sram | underlay | beat | link | linkRetry
deriving DecidableEq, Repr

/-- What happens next, where the manual leaves it to the outside world or to timing (log 1). -/
inductive Act where
  /-- The issue slot of a core's seat chooses a resident heat (02/R44). -/
  | slot (core : Nat) (seat : Seat)
  /-- A running handler context executes a word. -/
  | handler (id : Nat)
  /-- An event. -/
  | event (i : Instr)
  /-- The host reads a register of BAR0 (19/R401). -/
  | hostRead (offset : Nat)
  /-- Cycles in which nothing else happens. -/
  | tick (n : Nat)
  /-- A mailbox command that comes by the sideband: one of the CXL mailbox in the same cycle goes first (21/R457). -/
  | sideband (i : Instr)
  /-- NEGOTIATE_ALGORITHMS with the algorithms that the requester offers: Falcon-1024, and SHAKE256 (21/R458). -/
  | negotiate (falcon shake : Bool)
  /-- A soft error is corrected, or a beat sent again, on a die: only Lamom's counter changes (20/R433). -/
  | softError (kind : SoftError) (die : Nat)
  /-- An uncorrectable error stands in the on-die beat of a load or an atomic (10/R321). -/
  | beatError (id : Nat)
  /-- The device at the other end of a link takes up a coxed job, or is without one again (22/R464). -/
  | peerCoxed (link : Nat) (on : Bool)
  /-- A slice writes back a line of its cache to the underlay to make room (20/R432). -/
  | evict (line : Nat)
deriving DecidableEq, Repr

/-- The state of the device. -/
structure State where
  dev : DevRegs
  lamom : Lamom
  mem : Mem
  net : Net
  tlb : List TlbEntry
  queues : List QueueRegs
  packets : List HostPacket
  jobs : List Job
  phases : List Phase
  graphs : List Graph
  launches : List Launch
  requests : List Request
  resumes : List ResumeReq
  devBars : List DevBar
  slaloms : List Slalom
  sched : Option Sched
  heats : List Heat
  cmds : List Cmd
  handlers : List Handler
  stashes : List Stash
  atomics : List Packet
  replies : List Reply
  seqs : List (Nat × BitVec 16)
  leases : List Lease
  agenda : List Act
  cur : Option Cursor
  waited : Bool
  /-- The engine command whose accesses are being made: its heat and its text time (07/R221). -/
  performing : Option (Nat × Nat)
  rr : Nat
  freeCtr : Nat
  nextId : Nat
deriving DecidableEq, Repr

/-- Device registers at reset: 05/R138, 08/R252, 10/R299, R300, 12/R351, R353, 19/R401, 22/R463, R465, R467. -/
def DevRegs.reset : DevRegs :=
  { clock := 0, strokeLen := 65536, ageCap := 4096, leaseMax := 64, rebalCtl := 0x04003201#64, rebalPend := none,
    clkAlign := 0x00C00000#64, lead := 0, half := false, alignEnds := [], gateCtl := 0x00400001#64, winBase := 0, devNum := 0, bucket := [], slway := [],
    cmp := [], moves := [], wayCmd := [], emptyWays := [], links := [], gated := [], touched := [], requests := [], intervalAt := [], peerCoxed := [], engLast := [], scan := [], walked := [], cpTurn := [], computeOn := false,
    tripped := false }

/-- Lamom at reset: 21/R453, R454, R456; an empty log and zero counters (log 12). -/
def Lamom.reset : Lamom :=
  { stage := .held, failCode := 0, failAt := 0, failClock := 0, failLink := none, images := (0, 0), measures := Vector.replicate 8 0, fused := Config.fusedVersion, booted := 0,
    spdm := .idle, offer := (true, true), ide := none, keys := [], log := [],
    counters := Vector.replicate 4
      { sram := 0, underlay := 0, beat := 0, link := 0, uncorrectable := 0, atomicRetries := 0, linkRetries := 0, lost := 0 },
    answers := [], debuggers := [] }

/-- Memory with nothing listed. -/
def Mem.reset : Mem :=
  { cells := [], taint := [], poison := [], poisonAsr := [], errors := [], lineKey := [],
    sealedLines := [] }

/-- A fabric with no message in flight. -/
def Net.reset : Net :=
  { clocks := [], lineClocks := [], dieClocks := [], replicas := [], forwards := [], probes := [], l1 := [], beats := [], msgs := [], posted := [], flushed := true, parts := [], fillKeys := [], answered := [], inBuffer := [], badBeats := [],
    abortsSent := [], cancelsSent := [], msix := [], outbox := [] }

/-- The device while the board reset is held, right before its release (21/R453): no job, no heat, nothing in
memory, Lamom in no power-up state yet. -/
def State.reset : State :=
  { dev := DevRegs.reset, lamom := Lamom.reset, mem := Mem.reset, net := Net.reset, tlb := [], queues := [],
    packets := [], jobs := [], phases := [], graphs := [], launches := [], requests := [], resumes := [],
    devBars := [], slaloms := [], sched := none, heats := [], cmds := [], handlers := [], stashes := [], atomics := [],
    replies := [], seqs := [], leases := [], agenda := [], cur := none, waited := false, performing := none, rr := 0, freeCtr := 0,
    nextId := 0 }

end Sys2Proof.Machine
end

