-- ==== Sys2Proof/Machine/Memory.lean ====
section
/-!
DEFINITION. Memory: the canonical list of bytes, taint and poison, the dies' views of underlay lines, translation, and
the one read and the one write through which every access of a heat passes (03/R61, R63; 12_memory_model.md;
20/R448 to R451).
-/

namespace Sys2Proof.Machine

/-! ## Lists -/

/-- Apply f to the elements that satisfy p. -/
def mapIf {α : Type} (p : α → Bool) (f : α → α) (l : List α) : List α := l.map fun x => if p x then f x else x

/-- The value under a key. -/
def assoc {β : Type} (k : Nat) (l : List (Nat × β)) : Option β := (l.find? fun x => x.1 == k).map (·.2)

/-- Set the value under a key. -/
def assocSet {β : Type} (k : Nat) (v : β) : List (Nat × β) → List (Nat × β)
  | [] => [(k, v)]
  | (j, w) :: t => if j = k then (k, v) :: t else (j, w) :: assocSet k v t

/-- Remove a key. -/
def assocDel {β : Type} (k : Nat) (l : List (Nat × β)) : List (Nat × β) := l.filter fun x => x.1 != k

/-- Insert a number into a strictly rising list. -/
def numIns (n : Nat) : List Nat → List Nat
  | [] => [n]
  | m :: t => if n < m then n :: m :: t else if n = m then m :: t else m :: numIns n t

/-- Remove a number. -/
def numDel (n : Nat) (l : List Nat) : List Nat := l.filter (· != n)

/-- Member or not, as told. -/
def numPut (n : Nat) (b : Bool) (l : List Nat) : List Nat := if b then numIns n l else numDel n l

/-- The larger of two vector clocks, entry by entry; a missing entry is 0. -/
def clockMax : List Nat → List Nat → List Nat
  | [], b => b
  | a, [] => a
  | x :: a, y :: b => max x y :: clockMax a b

/-- Strictly rising. -/
def rising : List Nat → Bool
  | [] => true
  | [_] => true
  | a :: b :: t => decide (a < b) && rising (b :: t)

/-! ## Bytes -/

/-- The byte at an address; an address not listed reads 0 (21/R453; log 6). -/
def cellGet : List Host.Cell → Nat → Byte
  | [], _ => 0
  | (a, b) :: t, x => if a = x then b else cellGet t x

/-- Store a byte, keeping the canonical form. -/
def cellSet (a : Nat) (b : Byte) : List Host.Cell → List Host.Cell
  | [] => if b = 0 then [] else [(a, b)]
  | (c, d) :: t =>
    if c = a then (if b = 0 then t else (a, b) :: t)
    else if a < c then (if b = 0 then (c, d) :: t else (a, b) :: (c, d) :: t)
    else (c, d) :: cellSet a b t

/-- Addresses strictly rising, and no entry that reads as an unlisted address does. -/
def Mem.wf (m : Mem) : Bool := rising (m.cells.map (·.1)) && m.cells.all fun c => c.2 != 0

/-- The number whose little-endian bytes are given (00/R8). -/
def leNat : List Byte → Nat
  | [] => 0
  | b :: t => b.toNat + 256 * leNat t

/-- The n little-endian bytes of a number. -/
def leBytes : Nat → Nat → List Byte
  | 0, _ => []
  | n + 1, v => BitVec.ofNat 8 v :: leBytes n (v / 256)

/-- Whether a word is tainted (10/R322). -/
def Mem.tainted (m : Mem) (pa : Nat) : Bool := m.taint.contains (pa / 4)

/-- Data bytes with their taint: a byte list with one taint for all. -/
def withTaint (t : Bool) (bs : List Byte) : List (Byte × Bool) := bs.map fun b => (b, t)

/-- The words that data touches, each with how many of its bytes are written and the OR of their taints. -/
def touched (pa : Nat) (data : List (Byte × Bool)) : List (Nat × Nat × Bool) :=
  let n := data.length
  if n = 0 then [] else
  (List.range ((pa + n - 1) / 4 - pa / 4 + 1)).map fun k =>
    let w := pa / 4 + k
    let lo := max (4 * w) pa - pa
    let hi := min (4 * w + 4) (pa + n) - pa
    let part := (data.drop lo).take (hi - lo)
    (w, part.length, part.any (·.2))

/-- Taint after a store: a whole word takes the taint stored, a part of one adds to it (03/R63). -/
def taintAfter (pa : Nat) (data : List (Byte × Bool)) (l : List Nat) : List Nat :=
  (touched pa data).foldl (fun l w => numPut w.1 (w.2.2 || (decide (w.2.1 < 4) && l.contains w.1)) l) l

/-- Store bytes. -/
def cellsPut (pa : Nat) : List (Byte × Bool) → List Host.Cell → List Host.Cell
  | [], c => c
  | d :: t, c => cellsPut (pa + 1) t (cellSet pa d.1 c)

/-- Parts of one access cover every byte of a line. -/
def coversLine (line : Nat) (parts : List (Nat × List (Byte × Bool))) : Bool :=
  (List.range 128).all fun i => parts.any fun c => decide (c.1 ≤ line * 128 + i ∧ line * 128 + i < c.1 + c.2.length)

/-- A line written whole by one access: valid check bits, and no poison (07/R200). -/
def Mem.freshLine (m : Mem) (line : Nat) : Mem :=
  { m with poison := numDel line m.poison, errors := numDel line m.errors }

/-- A write performed at the home of its bytes: data, taint, and the poison that it clears (07/R200). -/
def Mem.put (m : Mem) (pa : Nat) (data : List (Byte × Bool)) : Mem :=
  { m with
    cells := cellsPut pa data m.cells
    taint := taintAfter pa data m.taint
    poison := if pa % 128 = 0 ∧ data.length = 128 then numDel (pa / 128) m.poison else m.poison
    errors := if pa % 128 = 0 ∧ data.length = 128 then numDel (pa / 128) m.errors else m.errors
    poisonAsr := (touched pa data).foldl (fun l w => if w.2.1 = 4 then numDel w.1 l else l) m.poisonAsr }

/-- The lines that parts of one access touch, without repeats. -/
def linesOf (parts : List (Nat × List (Byte × Bool))) : List Nat := (parts.map fun c => c.1 / 128).foldr numIns []

/-- The lines that parts of one access write whole lose their poison and their errors. -/
def Mem.freshLines (m : Mem) (parts : List (Nat × List (Byte × Bool))) : Mem :=
  if m.poison.isEmpty && m.errors.isEmpty then m
  else ((linesOf parts).filter fun l => coversLine l parts).foldl Mem.freshLine m

/-- The parts of one write, which lie in one line, performed together (12/R361). -/
def Mem.putAll (m : Mem) (parts : List (Nat × List (Byte × Bool))) : Mem :=
  (parts.foldl (fun m c => m.put c.1 c.2) m).freshLines parts

/-- n bytes from an address read zero, untainted, unpoisoned and with valid check bits. -/
def Mem.zero (m : Mem) (lo n : Nat) : Mem :=
  let out (step k : Nat) : Bool := decide (k * step + step ≤ lo ∨ lo + n ≤ k * step)
  { m with
    cells := m.cells.filter fun c => out 1 c.1
    taint := m.taint.filter (out 4), poison := m.poison.filter (out 128), poisonAsr := m.poisonAsr.filter (out 4)
    errors := m.errors.filter (out 128) }

/-! ## Where a physical address leads (12/R346, R347; log 6) -/

/-- The memories of 12/R347 and the scratchpads. -/
inductive MemKind where
  | underlay | asr | slice | peer | host | spad | table
deriving DecidableEq, Repr

/-- First address of the scratchpads, above the 48-bit physical addresses (log 6). -/
def spadBase : Nat := 2 ^ 49

/-- First physical address of this device's ASR. -/
def asrBase : Nat := 0x004000000000

/-- First physical address of host memory. -/
def hostBase : Nat := 0x800000000000

/-- Physical address of a byte of a core's scratchpad. -/
def spadAddr (core off : Nat) : Nat := spadBase + core * 2097152 + off

/-- Physical address of a byte of a crew's ASR. -/
def asrAddr (crew off : Nat) : Nat := asrBase + crew * 8388608 + off

/-- The memory that a physical address lies in; none where 12/R347 lists nothing. -/
def kindOf (pa : Nat) : Option MemKind :=
  if pa < 0x004000000000 then some .underlay
  else if pa < 0x004020000000 then some .asr
  else if 0x004040000000 ≤ pa ∧ pa < 0x004080000000 then
    (if pa / 2 ^ 27 % 2 = 1 then none else some .slice)
  else if 0x010000000000 ≤ pa ∧ pa < 0x018000000000 then some .peer
  else if hostBase ≤ pa ∧ pa < 2 ^ 48 then some .host
  else if spadBase ≤ pa ∧ pa < spadBase + 256 * 2097152 then some .spad
  else none

/-- Home die of an underlay address (12/R347). -/
def homeDie (pa : Nat) : Nat := pa / 2 ^ 36

/-- The die of a physical address, for Lamom's counters: the home die of underlay, the die of a slice, of a crew's ASR or
of a core's scratchpad; die 0 for what lies outside the device (log 12). -/
def dieOf (pa : Nat) : Nat :=
  match kindOf pa with
  | some .underlay => homeDie pa
  | some .slice => pa / 2 ^ 28 % 4
  | some .asr => (pa - asrBase) / 2 ^ 27
  | some .spad => (pa - spadBase) / 2 ^ 27
  | _ => 0

/-- A peer address of this device's own number reaches its own ASR (12/R347). -/
def localize (s : State) (pa : Nat) : Nat :=
  if kindOf pa = some .peer ∧ pa / 2 ^ 29 % 1024 = s.dev.devNum then asrBase + pa % 2 ^ 29 else pa

/-- The ways of a slice that are slice scratch (12/R353). -/
def scratchMask (s : State) (die slice : Nat) : Nat :=
  match s.dev.slway.find? fun e => e.1 == die && e.2.1 == slice with
  | some e => e.2.2.toNat % 65536
  | none => 0

/-- A slice-scratch address lies in a way that is slice scratch now (12/R353). -/
def sliceOk (s : State) (pa : Nat) : Bool :=
  let die := pa / 2 ^ 28 % 4
  let slice := pa / 2 ^ 22 % 32
  let way := pa % 2 ^ 22 / 262144
  (scratchMask s die slice).testBit way

/-- Bucket and slice of an underlay line (12/R351). -/
def bucketOf (pa : Nat) : Nat :=
  let l := pa % 2 ^ 36 / 128
  (l % 4096) ^^^ (l / 4096 % 4096) ^^^ (l / 2 ^ 24 % 32)

/-- The slice that a die's bucket table gives a line. -/
def sliceOf (s : State) (die pa : Nat) : Nat :=
  let b := bucketOf pa
  match s.dev.bucket.find? fun e => e.1 == die && e.2.1 == b with
  | some e => e.2.2
  | none => b % 32

/-! ## Dies' views (12/R362 to R366) -/

/-- A die's copy of a line. -/
def Net.replica (n : Net) (die line : Nat) : Option Replica :=
  n.replicas.find? fun r => r.die == die && r.line == line

/-- Byte i of a list of bytes with taint, if it lies inside. -/
def pick (base : Nat) (data : List (Byte × Bool)) (x : Nat) : Option (Byte × Bool) :=
  if base ≤ x then data[x - base]? else none

/-- The parts of a forwarded write, which are applied together (12/R361). -/
def Forward.parts (f : Forward) : List (Nat × List (Byte × Bool)) := (f.addr, f.data) :: f.more

/-- The last of the writes of a list that covers an address. -/
def lastWrite (x : Nat) (fs : List Forward) : Option (Byte × Bool) :=
  (fs.flatMap Forward.parts).foldl (fun acc c => match pick c.1 c.2 x with | some d => some d | none => acc) none

/-- The taint of a word after the writes of a list (03/R63). -/
def wordTaint (old : Bool) (w : Nat) (fs : List Forward) : Bool :=
  (fs.flatMap Forward.parts).foldl (fun t c => match (touched c.1 c.2).find? fun x => x.1 == w with
    | some x => x.2.2 || (decide (x.2.1 < 4) && t)
    | none => t) old

/-- The writes of a die on their way to their homes, which its own view shows already. -/
def ownForwards (s : State) (die : Nat) : List Forward := s.net.forwards.filter fun f => f.toHome && f.src == die

/-- A die's own write of a whole line that is on its way to its home: the die's parties read its data, not what stands
damaged at the home (07/R200). -/
def overwritten (s : State) (die line : Nat) : Bool :=
  (ownForwards s die).any fun f => f.addr / 128 == line && coversLine line f.parts

/-- What a party of a die reads at a physical address: the die's copy, or the home with the die's own writes that are
still on their way; host memory with the device's posted writes (12/R362, R364; log 10). -/
def viewByte (s : State) (die pa : Nat) : Byte × Bool :=
  match kindOf pa with
  | some .underlay =>
    match s.net.replica die (pa / 128) with
    | some r => (r.bytes.getD (pa % 128) 0, r.taint.getD (pa % 128 / 4) false)
    | none =>
      let own := ownForwards s die
      ((lastWrite pa own).elim (cellGet s.mem.cells pa) (·.1), wordTaint (s.mem.tainted pa) (pa / 4) own)
  | some .host =>
    match s.net.posted.foldl (fun acc p => match pick p.addr (withTaint false p.bytes) pa with
        | some d => some d | none => acc) (none : Option (Byte × Bool)) with
    | some d => (d.1, false)
    | none => (cellGet s.mem.cells pa, false)
  | _ => (cellGet s.mem.cells pa, s.mem.tainted pa)

/-- n bytes of a die's view. -/
def viewBytes (s : State) (die pa n : Nat) : List (Byte × Bool) :=
  (List.range n).map fun i => viewByte s die (pa + i)

/-- A number of n bytes of a die's view, little-endian. -/
def viewNat (s : State) (die pa n : Nat) : Nat := leNat ((viewBytes s die pa n).map (·.1))

/-- Apply a write to a replica. -/
def Replica.put (r : Replica) (pa : Nat) (data : List (Byte × Bool)) : Replica :=
  { r with
    bytes := (List.range 128).map fun i => match pick pa data (r.line * 128 + i) with
      | some d => d.1 | none => r.bytes.getD i 0
    taint := (List.range 32).map fun k => match (touched pa data).find? fun w => w.1 == r.line * 32 + k with
      | some w => w.2.2 || (decide (w.2.1 < 4) && r.taint.getD k false)
      | none => r.taint.getD k false }

/-- Apply the parts of a write, which carries a clock, to a replica. -/
def Replica.putAll (r : Replica) (parts : List (Nat × List (Byte × Bool))) (clk : List Nat) : Replica :=
  { parts.foldl (fun r c => r.put c.1 c.2) r with clock := clockMax clk r.clock }

/-- The clock that the writes shown by a die's view of a line carry (12/R365). -/
def viewClock (s : State) (die pa : Nat) : List Nat :=
  let home := (assoc (pa / 128) s.net.lineClocks).getD []
  match kindOf pa with
  | some .underlay =>
    match s.net.replica die (pa / 128) with
    | some r => r.clock
    | none => ((ownForwards s die).filter fun f => f.addr / 128 == pa / 128).foldl (fun c f => clockMax f.clock c) home
  | _ => home

/-- Make a die hold a copy of a line homed elsewhere (12/R364; when it does so is log 10). -/
def fillReplica (s : State) (die pa : Nat) : State :=
  let line := pa / 128
  if kindOf pa = some .underlay ∧ homeDie pa ≠ die ∧ s.net.replica die line = none then
    let img := viewBytes s die (line * 128) 128
    let r : Replica :=
      { die := die, line := line, bytes := img.map (·.1)
        taint := (List.range 32).map fun k => (img.getD (4 * k) (0, false)).2, clock := viewClock s die pa }
    { s with net := { s.net with replicas := s.net.replicas ++ [r] } }
  else s

/-- A heat's vector clock (12/R365). -/
def heatClock (s : State) (uid : Nat) : List Nat := (assoc uid s.net.clocks).getD []

/-- The clock of the last write that left a die; every later one includes it (log 10). -/
def dieClock (s : State) (die : Nat) : List Nat := (assoc die s.net.dieClocks).getD []

/-- Whether a clock includes a write: it is compared at the writer's die. -/
def observed (f : Forward) (clk : List Nat) : Bool :=
  decide (f.clock.getD f.wdie 0 ≤ clk.getD f.wdie 0)

/-- The dies other than the home that hold a copy of a line. -/
def holders (s : State) (pa : Nat) : List Nat :=
  (s.net.replicas.filter fun r => r.line == pa / 128).map (·.die)

/-- A die holds a line as its home or as a copy. -/
def holdsLine (s : State) (die pa : Nat) : Bool := homeDie pa == die || (holders s pa).contains die

/-- A forward that a die must have applied before a write with a clock enters the home order there: causally before
it, and on its way to a home or to a copy that the die holds (12/R362, R365; log 10). -/
def precedes (s : State) (die : Nat) (clk : List Nat) (g : Forward) : Bool :=
  observed g clk && (g.toHome || (g.dst == die && holdsLine s die g.addr))

/-- The forwards of a write from the home to every die that holds a copy (12/R364, step 3). -/
def forwardsOf (s : State) (f : Forward) (home : Nat) : List Forward :=
  (holders s f.addr).map fun d => { f with src := home, dst := d, toHome := false }

/-- Give each of a list of forwards an identifier of its own. -/
def number (n : Nat) : List Forward → List Forward
  | [] => []
  | f :: t => { f with id := n } :: number (n + 1) t

/-- Add a forward of an access to those before it: parts of one access on one way to one line travel as one write
(12/R361). -/
def joinPart (fs : List Forward) (f : Forward) : List Forward :=
  let same (g : Forward) : Bool :=
    g.src == f.src && g.dst == f.dst && g.toHome == f.toHome && g.addr / 128 == f.addr / 128
  if fs.any same then mapIf same (fun g => { g with more := g.more ++ f.parts, clock := f.clock }) fs else fs ++ [f]

/-- The forwards that an access has made since an identifier, joined line by line. -/
def joinParts (s : State) (since : Nat) : State :=
  let old (f : Forward) : Bool := decide (f.id ≤ since)
  { s with net := { s.net with
      forwards := s.net.forwards.filter old ++ (s.net.forwards.filter fun f => !old f).foldl joinPart [] } }

/-- The line stays under the key of the leaf that writes it; a line that was written back under another key is read back
under the key that holds it first (21/R459). -/
def rekey (s : State) (pa key : Nat) (m : Mem) : Mem :=
  let line := pa / 128
  let m := match assoc line m.sealedLines with
    | none => m
    | some old =>
      match s.lamom.keys.find? fun (k : KeySlot) => k.slot == (assoc line s.net.fillKeys).getD key with
      | none => m
      | some k =>
        if k.key = old then { m with sealedLines := assocDel line m.sealedLines }
        else { m with
          sealedLines := assocDel line m.sealedLines
          cells := cellsPut (line * 128) (withTaint false
            (recrypt old k.key line ((List.range 128).map fun i => cellGet m.cells (line * 128 + i)))) m.cells }
  { m with lineKey := assocSet line key m.lineKey }

/-- A slice that fills a line holds it under the key of the leaf through which it is filled, until it is written or leaves
the slice (21/R459). -/
def noteFill (s : State) (pa key : Nat) : State :=
  let line := pa / 128
  if kindOf pa = some .underlay ∧ (assoc line s.net.fillKeys).isNone ∧
      ((assoc line s.mem.lineKey).isNone ∨ (assoc line s.mem.sealedLines).isSome) then
    { s with net := { s.net with fillKeys := s.net.fillKeys ++ [(line, key)] } }
  else s

/-- A heat has observed what a clock includes (12/R359, R365). -/
def mergeClock (s : State) (heat : Nat) (clk : List Nat) : State :=
  if clk = [] then s
  else { s with net := { s.net with clocks := assocSet heat (clockMax clk (heatClock s heat)) s.net.clocks } }

/-- The writes to a line carry a clock. -/
def noteClock (n : Net) (line : Nat) (clk : List Nat) : Net :=
  if clk = [] then n
  else { n with lineClocks := assocSet line (clockMax clk ((assoc line n.lineClocks).getD [])) n.lineClocks }

/-- An access to a cell of ASR stands in the cell's home order: it observes what the accesses before it carry, and those
after it observe what it carries (12/R359). -/
def cellClock (s : State) (heat die pa : Nat) : State :=
  let s1 := mergeClock s heat (viewClock s die pa)
  { s1 with net := noteClock s1.net (pa / 128) (heatClock s heat) }

/-- A read by a party of a die brings the clock of what it returns to the reader's heat (12/R365). -/
def bringClock (s : State) (heat die pa : Nat) : State :=
  match kindOf pa with
  | some .asr | some .peer => cellClock s heat die pa
  | _ => mergeClock s heat (viewClock s die pa)

/-- The word that acts for a heat now. -/
def wordNow (s : State) (heat : Nat) : Option MsgWord :=
  match s.cur, s.heats.find? fun h => h.id.uid == heat with
  | some c, some h =>
    if c.heat ≠ heat then none
    else
      let v := match c.seat with
        | .C => h.C
        | .L => h.L
        | .X => h.X
        | .S => h.S
      let pc := match c.handler with
        | none => v.pc
        | some id => (s.handlers.find? fun k => k.id == id).elim v.pc (·.pc)
      some { seat := c.seat, text := pc &&& 0xFFFFFFFFFFFF, cmd := none, engine := 15 }
  | _, _ => none

/-- The words of data of up to 8 bytes each, little-endian, with the taint of their bytes; n bounds them. -/
def dwordsOf : Nat → List (Byte × Bool) → List TVal
  | 0, _ => []
  | n + 1, l =>
    if l.isEmpty then []
    else ⟨BitVec.ofNat 64 (leNat ((l.take 8).map (·.1))), (l.take 8).any (·.2)⟩ :: dwordsOf n (l.drop 8)

/-- Send a value to another device or the host. -/
def sendOut (s : State) (v : TVal) : State :=
  { s with net := { s.net with outbox := s.net.outbox ++ [{ val := v.v, taint := v.t, sent := s.dev.clock }] } }

/-- A write to an underlay line, by a party of a die (12/R364, R365): at home at once, and on to the copies; or on its
way to the home, applied to the die's own copy at once. A write by a party of the home that must not enter the home order
yet, behind what its heat has observed or what its clock includes of the line, is on its way, too (12/R362). -/
def writeUnderlay (s : State) (heat die pa key : Nat) (data : List (Byte × Bool)) : State :=
  let old := heatClock s heat
  let tick := s.nextId + 1
  let clk := (clockMax (clockMax old (dieClock s die)) [0, 0, 0, 0]).set die tick
  let before (g : Forward) : Bool := precedes s die old g || (g.toHome && g.addr / 128 == pa / 128 && observed g clk)
  let atHome := homeDie pa == die && !s.net.forwards.any before
  if atHome && (holders s pa).isEmpty then
    { s with
      mem := (rekey s pa key s.mem).put pa data
      net := noteClock s.net (pa / 128) old }
  else
    let f : Forward :=
      { id := tick, heat := heat, src := die, dst := homeDie pa, toHome := true, addr := pa, data := data, more := []
        wdie := die, clock := clk, word := wordNow s heat }
    let net := { s.net with
      clocks := assocSet heat clk s.net.clocks, dieClocks := assocSet die clk s.net.dieClocks }
    if atHome then
      let fs := number tick (forwardsOf s f die)
      { s with
        mem := (rekey s pa key s.mem).put pa data
        net := { noteClock net (pa / 128) clk with forwards := net.forwards ++ fs }
        nextId := tick + fs.length }
    else
      { s with
        mem := rekey s pa key s.mem
        net := { net with
          replicas := mapIf (fun r => r.die == die && r.line == pa / 128) (·.putAll f.parts clk) net.replicas
          forwards := net.forwards ++ [f] }
        nextId := tick + 1 }

/-- A write of bytes that lie in one line, by a party of a die; a write to host memory is posted and loses its taint
(10/R325, 12/R358, 19/R400), one to a peer leaves over a link (10/R301). -/
def writePhys (s : State) (heat die pa key : Nat) (data : List (Byte × Bool)) : State :=
  match kindOf pa with
  | some .underlay => writeUnderlay s heat die pa key data
  | some .host =>
    { s with
      net := { s.net with
        posted := s.net.posted ++ [{ id := s.nextId + 1, heat := heat, addr := pa, bytes := data.map (·.1) }]
        flushed := false }
      nextId := s.nextId + 1 }
  | some .asr =>
    let s1 := cellClock s heat die pa
    { s1 with mem := s1.mem.put pa data }
  | some .peer =>
    let s1 := (dwordsOf data.length data).foldl sendOut (cellClock s heat die pa)
    { s1 with mem := s1.mem.put pa data }
  | _ => { s with mem := s.mem.put pa data, net := noteClock s.net (pa / 128) (heatClock s heat) }

/-- A read waits while a write that the heat has observed is not applied in the die's view: it is on its way from another
die to the home, or from the home to the die (12/R360, R366). -/
def mustWait (s : State) (heat die pa : Nat) : Bool :=
  s.net.forwards.any fun f => f.addr / 128 == pa / 128 && observed f (heatClock s heat) &&
    (if f.toHome then f.src != die else f.dst == die)

/-! ## Translation (20/R448 to R451) -/

/-- What an access asks of a leaf. -/
inductive Access where
  | read | write | atomic | fetch
deriving DecidableEq, Repr

/-- Virtual addresses are 48 bits, sign-extended (07/R184). -/
def canonical (va : Dword) : Bool := decide (va.toNat / 2 ^ 47 = 0 ∨ va.toNat / 2 ^ 47 = 2 ^ 17 - 1)

/-- A valid pointer entry and the table it names (20/R449, R450). -/
def pointer? (e align : Nat) : Option Nat :=
  let next := e % 2 ^ 48 / 2 ^ 11 * 2 ^ 11
  if e % 4 = 1 ∧ e = next + 1 ∧ next % align = 0 then some next else none

/-- A valid, well-formed leaf (20/R449, R450). -/
def leafOk (e : Nat) (big : Bool) : Bool :=
  decide (e % 4 = 3) && !e.testBit 2 && decide (e / 2 ^ 10 % 64 = 0) && decide (e / 2 ^ 61 = 0) &&
    decide (e / 2 ^ 8 % 4 ≠ 3) && !(e.testBit 4 && e.testBit 5) && (!big || decide (e / 2 ^ 16 % 256 = 0))

/-- A walk: the leaf and whether its page is 16 MiB. -/
def walk (s : State) (die root : Nat) (va : Nat) : Option (Nat × Bool) :=
  match pointer? (viewNat s die (root + 8 * (va / 2 ^ 36 % 4096)) 8) 32768 with
  | none => none
  | some t1 =>
    let e1 := viewNat s die (t1 + 8 * (va / 2 ^ 24 % 4096)) 8
    if e1.testBit 1 then (if leafOk e1 true then some (e1, true) else none)
    else match pointer? e1 2048 with
      | none => none
      | some t2 =>
        let e2 := viewNat s die (t2 + 8 * (va / 2 ^ 16 % 256)) 8
        if leafOk e2 false then some (e2, false) else none

/-- A translation that a TLB holds. -/
def tlbFind (s : State) (home job va : Nat) : Option TlbEntry :=
  s.tlb.find? fun e => e.home == home && e.job == job &&
    (if e.big then e.page == va / 2 ^ 24 else e.page == va / 2 ^ 16)

/-- Add to a TLB of a capacity, the oldest entry going first (20/R451; log 10). -/
def tlbAdd (l : List TlbEntry) (e : TlbEntry) (cap : Nat) : List TlbEntry :=
  let mine := l.filter fun x => x.home == e.home
  if mine.length < cap then l ++ [e]
  else l.eraseP (fun x => x.home == e.home) ++ [e]

/-- The number under which a die's shared TLB is held: 256 + die; a core's micro-TLB is under its core number. -/
def sharedTlb (die : Nat) : Nat := 256 + die

/-- The leaf of a translated address and the state with the TLBs filled. -/
def lookupLeaf (s : State) (core job root va : Nat) : State × Option (Nat × Bool) :=
  let die := core / 64
  match tlbFind s core job va with
  | some e => (s, some (e.leaf.toNat, e.big))
  | none =>
    let found := match tlbFind s (sharedTlb die) job va with
      | some e => some (e.leaf.toNat, e.big, true)
      | none => (walk s die root va).map fun (l : Nat × Bool) => (l.1, l.2, false)
    match found with
    | none => (s, none)
    | some (leaf, big, shared) =>
      let e : TlbEntry :=
        { home := core, job := job, page := if big then va / 2 ^ 24 else va / 2 ^ 16, big := big
          leaf := BitVec.ofNat 64 leaf }
      let t := if shared then s.tlb else tlbAdd s.tlb { e with home := sharedTlb die } 16384
      ({ s with tlb := tlbAdd t e 64 }, some (leaf, big))

end Sys2Proof.Machine
end

