-- ==== Sys2Proof/Machine/Tracks.lean ====
section
/-!
DEFINITION. Messages of a coxed schedule between endpoints: strips, the legs of a way, and the messages that an access of a
coxed heat sends (10/R313, R316, R318; 12/R350; log 37).
-/

namespace Sys2Proof.Machine

/-- The strip of an endpoint of a die (10/R313). -/
def stripOf (die ep : Nat) : Nat :=
  if ep < 64 then 1 + 3 * (ep / 16)
  else if ep < 80 then 2 + 3 * ((ep - 64) / 4)
  else if ep < 112 then 3 * ((ep - 80) / 8)
  else if ep = 112 then (if die % 2 = 0 then 11 else 0)
  else if ep = 113 then 5
  else if ep < 117 then ep - 106
  else 4

/-- An endpoint: its die and its number there. -/
abbrev Endpoint := Nat × Nat

/-- A core's endpoint. -/
def coreEnd (core : Nat) : Endpoint := (core / 64, core % 64)

/-- The endpoint of a crew's sweep array and ASR. -/
def arrayEnd (crew : Nat) : Endpoint := (crew / 16, 64 + crew % 16)

/-- The endpoint of the slice that serves a line in a die. -/
def sliceEnd (s : State) (die pa : Nat) : Endpoint := (die, 80 + sliceOf s die pa)

/-- The endpoint at which a party of a die has an access to a physical address performed: the crew of an ASR cell, the
slice of slice scratch, the slice of the die's copy of a line or of its home; none for what rides no track. -/
def performer (s : State) (die pa : Nat) : Option Endpoint :=
  match kindOf pa with
  | some .asr => some (arrayEnd ((pa - asrBase) / 8388608))
  | some .slice => some (pa / 2 ^ 28 % 4, 80 + pa / 2 ^ 22 % 32)
  | some .underlay => some (sliceEnd s (if (s.net.replica die (pa / 128)).isSome then die else homeDie pa) pa)
  | _ => none

/-- The legs of a message of a class between two endpoints, horizontal boundary first (10/R318); n bounds the legs. -/
def legsTo : Nat → Nat → Endpoint → Endpoint → List DrawLeg
  | 0, _, _, _ => []
  | n + 1, cls, src, dst =>
    let leg (port : Nat) : DrawLeg := { cls := cls, die := src.1, src := src.2, dst := port }
    if src.1 % 2 ≠ dst.1 % 2 then leg 112 :: legsTo n cls (src.1 ^^^ 1, 112) dst
    else if src.1 ≠ dst.1 then leg 113 :: legsTo n cls (src.1 ^^^ 2, 113) dst
    else [leg dst.2]

/-- The way of a message: at most two boundaries. -/
def route (cls : Nat) (src dst : Endpoint) : List DrawLeg := legsTo 3 cls src dst

/-- Send a message that carries an access of a heat; what it carries is claimed later. -/
def sendMsg (s : State) (heat : Option Nat) (carries : Option Nat) (legs : List DrawLeg) : State :=
  { s with
    net := { s.net with
      msgs := s.net.msgs ++
        [{ id := s.nextId, heat := heat, carries := carries, ready := s.dev.clock, legs := legs, entered := none
           word := heat.bind (wordNow s) }] }
    nextId := s.nextId + 1 }

/-- The messages sent since an identifier carry the load, atomic or forward of a number, which waits for them. -/
def claim (s : State) (since id : Nat) : State :=
  { s with net := { s.net with
      msgs := mapIf (fun m => decide (since ≤ m.id) && m.carries.isNone) (fun m => { m with carries := some id }) s.net.msgs } }

/-- What a number names is still on its way. -/
def riding (s : State) (id : Nat) : Bool :=
  s.net.msgs.any fun m => m.carries == some id && (!m.legs.isEmpty || decide (s.dev.clock < m.ready))

/-- The messages and forwards made since an identifier are those of a word. -/
def nameWord (since : Nat) (w : MsgWord) (s : State) : State :=
  { s with net := { s.net with
      msgs := mapIf (fun m => decide (since ≤ m.id) && m.heat.isSome) (fun m => { m with word := some w }) s.net.msgs
      forwards := mapIf (fun f => decide (since ≤ f.id)) (fun f => { f with word := some w }) s.net.forwards } }

/-- The lines that blocks of a core's heats hold. -/
def pinnedAt (s : State) (core : Nat) : List Nat :=
  (s.heats.filter fun h => h.core == core).flatMap fun h => h.blocks.flatMap (·.pins)

/-- Lines of an L1D of 640 KiB (00/R3). -/
def l1Lines : Nat := 5120

/-- A core takes a line of global memory into its L1D (12/R350); when that is full, the oldest line that no block holds
leaves it. DESIGN CHOICE (log 10): the spec gives no order of replacement. -/
def fillL1 (s : State) (core line : Nat) : State :=
  let full := decide (l1Lines ≤ (s.net.l1.filter fun c => c.1 == core).length)
  let kept := if full then s.net.l1.eraseP fun c => c.1 == core && !(pinnedAt s core).contains c.2 else s.net.l1
  { s with net := { s.net with l1 := kept ++ [(core, line)] } }

/-- A coxed heat's read through a core: a request and its reply, unless the line stands in the core's L1D; pages of class
2 and what is not global memory are not held there (12/R350, 20/R450). -/
def rideRead (s : State) (h : Heat) (core pa cls : Nat) : State :=
  if !h.id.coxed then s else
  let held := decide (cls < 2) && (kindOf pa == some .underlay || kindOf pa == some .host)
  if held && s.net.l1.contains (core, pa / 128) then s
  else
    let s1 := if held then fillL1 s core (pa / 128) else s
    match performer s (core / 64) pa with
    | none => s1
    | some e => sendMsg s1 (some h.id.uid) none (route 0 (coreEnd core) e ++ route 1 e (coreEnd core))

/-- The cores whose L1D holds a line lose it, each by a probe from the slice that serves it (12/R350, R363). -/
def probeCopies (s : State) (h : Heat) (pa : Nat) : State :=
  let holders := (s.net.l1.filter fun c => c.2 == pa / 128).map (·.1)
  holders.foldl (fun s c => sendMsg s (some h.id.uid) none (route 2 (sliceEnd s (c / 64) pa) (coreEnd c)))
    { s with net := { s.net with l1 := s.net.l1.filter fun c => c.2 != pa / 128 } }

/-- A forward's message: from the slice of the line in the die that it leaves to the one in the die that it is for. -/
def rideForward (s : State) (uid : Nat) (f : Forward) : State :=
  let s1 := sendMsg s (some uid) (some f.id) (route 0 (sliceEnd s f.src f.addr) (sliceEnd s f.dst f.addr))
  f.word.elim s1 fun w => nameWord s.nextId w s1

/-- An operand row or tile of a coxed heat comes from its core to the array: a request and its reply (10/R316). -/
def streamIn (s : State) (h : Heat) : State :=
  let core := coreEnd h.core
  let array := arrayEnd (h.core / 4)
  if h.id.coxed then sendMsg s (some h.id.uid) none (route 0 array core ++ route 1 core array) else s

/-- An output row of a coxed heat goes from the array to its core. -/
def streamOut (s : State) (h : Heat) : State :=
  if h.id.coxed then sendMsg s (some h.id.uid) none (route 0 (arrayEnd (h.core / 4)) (coreEnd h.core)) else s

/-- A coxed heat's write through a core, which has made the forwards with identifiers above a number: a request to where
its die applies it, the forwards' messages, and the probes of the L1D copies. -/
def rideWrite (s : State) (h : Heat) (core pa since : Nat) : State :=
  if !h.id.coxed then s else
  let fs := s.net.forwards.filter fun f => decide (since < f.id)
  let s1 := match performer s (core / 64) pa with
    | none => s
    | some e => sendMsg s (some h.id.uid) ((fs.find? (·.toHome)).map (·.id)) (route 0 (coreEnd core) e)
  let onward (f : Forward) : Bool := !f.toHome || (s.net.replica f.src (f.addr / 128)).isSome
  probeCopies ((fs.filter onward).foldl (fun s f => rideForward s h.id.uid f) s1) h pa

end Sys2Proof.Machine
end

