-- ==== Sys2Proof/Machine/Ops.lean ====
section
/-!
DEFINITION. The named operations over heats, registers and memory that every meaning uses: heats and seats, text time,
resolving an address, loads and stores, completion objects, stopping a heat, cancelling, and TAKING A FAULT
(raiseFault, 20/R421 to R427) with the retirement of its record beside it (20/R431).
-/

namespace Sys2Proof.Machine

/-! ## Fault classes (20/R421) -/

def clsIllegal : BitVec 8 := 0x01
def clsPrivilege : BitVec 8 := 0x02
def clsAlignment : BitVec 8 := 0x03
def clsTranslation : BitVec 8 := 0x04
def clsProtection : BitVec 8 := 0x05
def clsAtomicTarget : BitVec 8 := 0x06
def clsOverrun : BitVec 8 := 0x07
def clsToken : BitVec 8 := 0x08
def clsUncorrectable : BitVec 8 := 0x09
def clsPoison : BitVec 8 := 0x0A
def clsDoubleResume : BitVec 8 := 0x0B
def clsContVersion : BitVec 8 := 0x0C
def clsContRights : BitVec 8 := 0x0D
def clsBagDuplicate : BitVec 8 := 0x0E
def clsBagPoison : BitVec 8 := 0x0F
def clsTaintedStore : BitVec 8 := 0x10
def clsNoLease : BitVec 8 := 0x11
def clsRing : BitVec 8 := 0x12
def clsBreakpoint : BitVec 8 := 0x13
def clsTrap : BitVec 8 := 0x14
def clsWatch : BitVec 8 := 0x16
def clsCollAbort : BitVec 8 := 0x17
def clsRelocAbort : BitVec 8 := 0x18

/-- What keeps a word from ending: a wait (its class, the seats it waits for, the overrun cause of 10/R311 that the
wait is at a stamped word, 0 for a wait that is no issue condition), a wait that has begun to act (an arrival, a count that runs), a fault (class, address,
engine status of 20/R427), or the overrun of a stamped word held behind the word that waits (08/R254: its text address
and stamp). -/
inductive Stay where
  | wait (kind : WaitKind) (on : List Seat) (cause : Nat)
  | park (s : State) (h : Heat) (kind : WaitKind)
  | fault (cls : BitVec 8) (addr : Dword) (status : Dword)
  | heldBehind (text : Dword) (stamp : Nat)
deriving DecidableEq, Repr

/-- A computation that may stay. -/
abbrev Run (α : Type) := Except Stay α

/-- A fault without engine status. -/
def faultAt {α : Type} (cls : BitVec 8) (addr : Dword) : Run α := .error (.fault cls addr 0)

/-- A fault without an address. -/
def raise {α : Type} (cls : BitVec 8) : Run α := .error (.fault cls 0 0)

/-- Go on when a condition holds; otherwise stay. -/
def need (c : Bool) (e : Stay) : Run Unit := if c then .ok () else .error e

/-- The illegal fault with no address. -/
def Stay.illegal : Stay := .fault clsIllegal 0 0

/-! ## Heats and seats -/

/-- The four seats in the order of 20/R424. -/
def seats : List Seat := [.C, .L, .X, .S]

/-- Seat codes of 20/R426. -/
def seatNum : Seat → Nat
  | .C => 0 | .L => 1 | .X => 2 | .S => 3

/-- The heat with a number. -/
def State.heat? (s : State) (uid : Nat) : Option Heat := s.heats.find? fun h => h.id.uid == uid

/-- Store a heat under its number. -/
def State.putHeat (s : State) (h : Heat) : State :=
  { s with heats := mapIf (fun k => k.id.uid == h.id.uid) (fun _ => h) s.heats }

/-- Change the heat with a number. -/
def State.onHeat (s : State) (uid : Nat) (f : Heat → Heat) : State :=
  { s with heats := mapIf (fun k => k.id.uid == uid) f s.heats }

def Heat.seat (h : Heat) : Seat → SeatState
  | .C => h.C | .L => h.L | .X => h.X | .S => h.S

def Heat.setSeat (h : Heat) (p : Seat) (v : SeatState) : Heat :=
  match p with
  | .C => { h with C := v } | .L => { h with L := v } | .X => { h with X := v } | .S => { h with S := v }

/-- Change one seat. -/
def Heat.onSeat (h : Heat) (p : Seat) (f : SeatState → SeatState) : Heat := h.setSeat p (f (h.seat p))

/-- A seat's text time (02/R15). -/
def Heat.tt (h : Heat) (p : Seat) : Nat := (h.seat p).tt

def Heat.die (h : Heat) : Nat := h.core / 64
def Heat.crew (h : Heat) : Nat := h.core / 4

/-- Whether a heat holds its core's resources: resident or stopping (02/R32). -/
def Heat.onCore (h : Heat) : Bool := h.status == .resident || h.status == .stopping

/-- A final state of 02/R32; DROPCO gives ENDED with status dropped. -/
def HeatStatus.final : HeatStatus → Bool
  | .ended | .dropped | .faulted | .cancelled => true
  | _ => false

/-- The job of a number. -/
def State.job? (s : State) (id : Nat) : Option Job := s.jobs.find? fun j => j.id == id

/-- The job descriptor's privilege bit (20/R422). -/
def State.privileged (s : State) (h : Heat) : Bool :=
  match s.job? h.id.job with
  | some j => j.flags.getLsbD 0
  | none => false

/-- Cycles of the clock of 10/R299. -/
def State.now (s : State) : Nat := s.dev.clock

/-- The stroke of a cycle (10/R300). -/
def State.stroke (s : State) : Nat := s.dev.clock / s.dev.strokeLen

/-! ## Scalar registers and text time (02/R18, R19; 05/R127) -/

/-- s0 reads 0, untainted (04/R91). -/
def Heat.s (h : Heat) (n : BitVec 6) : TVal := if n = 0 then ⟨0, false⟩ else h.c.s[n.toNat]

/-- b0 reads true, untainted (04/R91). -/
def Heat.b (h : Heat) (n : BitVec 3) : TBit := if n = 0 then ⟨true, false⟩ else h.c.b[n.toNat]

def Heat.k (h : Heat) (n : BitVec 3) : TVal := h.x.k[n.toNat]
def Heat.v (h : Heat) (n : BitVec 4) : VReg := h.x.v[n.toNat]
def Heat.p (h : Heat) (p : Seat) (n : BitVec 4) : TVal := if p = .S then h.pS[n.toNat] else h.pL[n.toNat]

def Heat.setP (h : Heat) (p : Seat) (n : BitVec 4) (v : TVal) : Heat :=
  if p = .S then { h with pS := h.pS.set n.toNat v } else { h with pL := h.pL.set n.toNat v }

/-- The seats of a list that have not passed HEND. -/
def Heat.live (h : Heat) (ps : List Seat) : List Seat := ps.filter fun p => !(h.seat p).ended

/-- Text time of the trailing seat of a list; none when all have ended. -/
def Heat.trail (h : Heat) (ps : List Seat) : Option Nat :=
  (h.live ps).foldl (fun acc p => match acc with | none => some (h.tt p) | some t => some (min t (h.tt p))) none

/-- An outstanding load or atomic of C that will write a register and whose value has not come. -/
def Heat.pendingOn (h : Heat) (n : BitVec 6) (before : Nat) : Bool :=
  h.pend.any fun q => q.dst == some n && q.ctx.isNone && !q.cancelled && decide (q.tt < before)

/-- Versions still needed: a reader has not passed the superseding write, or an earlier load is outstanding
(02/R19). -/
def keepVersions (h : Heat) (readers : List Seat) (vs : List Version) : List Version :=
  vs.filter fun v => (h.live readers).any (fun p => decide (h.tt p ≤ v.tt)) ||
    (match v.reg with
     | .s n => h.pendingOn n v.tt
     | .k _ => false
     | .xferbar => false)

/-- Outstanding loads and atomics of C whose landing will take an entry of the version buffer. -/
def Heat.landings (h : Heat) : Nat := (h.pend.filter fun q => q.dst.isSome && q.ctx.isNone && !q.cancelled).length

/-- Whether a version buffer of 32 entries is full; an outstanding load of C has its entry reserved (02/R19). -/
def Heat.versionsFull (h : Heat) (p : Seat) : Bool :=
  if p = .X then decide (32 ≤ (keepVersions h [.L, .S] h.versX).length)
  else decide (32 ≤ (keepVersions h [.L, .X, .S] h.versC).length + h.landings)

/-- Write a scalar register at C's text time, keeping the superseded value; s0 discards the write (04/R91). -/
def Heat.setS (h : Heat) (n : BitVec 6) (v : TVal) : Heat :=
  if n = 0 then h
  else { h with
    versC := keepVersions h [.L, .X, .S] h.versC ++ [{ reg := .s n, tt := h.tt .C, old := h.c.s[n.toNat] }]
    c := { h.c with s := h.c.s.set n.toNat v } }

/-- The value of a load or atomic lands: the register's write at text time tt (02/R18). -/
def Heat.landS (h : Heat) (n : BitVec 6) (tt : Nat) (v : TVal) : Heat :=
  if n = 0 then h
  else
    let later := h.versC.filter fun (x : Version) => x.reg == .s n && decide (tt < x.tt)
    match later.foldl (fun (acc : Option Nat) x => match acc with
        | none => some x.tt | some t => some (min t x.tt)) none with
    | some t =>
      let mine : Version → Bool := fun x => x.reg == .s n && x.tt == t
      let before : TVal := (h.versC.find? mine).elim ⟨0, false⟩ (·.old)
      { h with
        versC := keepVersions h [.L, .X, .S]
          ({ reg := .s n, tt := tt, old := before } :: mapIf mine (fun x => { x with old := v }) h.versC) }
    | none =>
      { h with
        versC := keepVersions h [.L, .X, .S] h.versC ++ [{ reg := .s n, tt := tt, old := h.c.s[n.toNat] }]
        c := { h.c with s := h.c.s.set n.toNat v } }

/-- Write a predicate of C; b0 discards the write (04/R91). -/
def Heat.setB (h : Heat) (n : BitVec 3) (v : TBit) : Heat :=
  if n = 0 then h else { h with c := { h.c with b := h.c.b.set n.toNat v } }

/-- Write a lane predicate at X's text time, keeping the superseded value; k0 is all ones and discards the write
(08/R231). -/
def Heat.setK (h : Heat) (n : BitVec 3) (v : TVal) : Heat :=
  if n = 0 then h
  else { h with
    versX := keepVersions h [.L, .S] h.versX ++ [{ reg := .k n, tt := h.tt .X, old := h.x.k[n.toNat] }]
    x := { h.x with k := h.x.k.set n.toNat v } }

/-- The value a register had for a reader of text time tt: the oldest version superseded at or after tt, or the
current value. -/
def versionAt (vs : List Version) (r : SharedReg) (tt : Nat) (cur : TVal) : TVal :=
  ((vs.filter fun v => v.reg == r && decide (tt ≤ v.tt)).foldl (fun (acc : Option Version) v => match acc with
    | none => some v
    | some w => if v.tt < w.tt then some v else some w) none).elim cur (·.old)

/-- A word that a seat has passed and that its owner has not (02/R18, 07/R197). -/
def Heat.owes (h : Heat) (e : Seen) : Bool := decide (h.tt e.owner ≤ e.tt) && !(h.seat e.owner).ended

/-- The first word of a kind that a seat has passed before its text time and its owner has not. -/
def Heat.ahead (h : Heat) (p : Seat) (k : SeenKind → Bool) : Option Seen :=
  (h.seat p).seen.find? fun e => k e.kind && h.owes e

/-- C's scalar as of a reader's text time (02/R18): C itself waits for a pending register, another seat also until C
has completed every earlier write of it. -/
def readS (h : Heat) (p : Seat) (n : BitVec 6) : Run TVal :=
  if p = .C then
    (if h.pendingOn n (h.tt .C + 1) then .error (.wait .empty [.C] 4) else .ok (h.s n))
  else if n = 0 then .ok ⟨0, false⟩
  else if (h.ahead p (· == .scalar n)).isSome || h.pendingOn n (h.tt p) then .error (.wait .empty [.C] 3)
  else .ok (versionAt h.versC (.s n) (h.tt p) (h.s n))

/-- A result of X that is not readable yet (08/R250). -/
def Heat.xBusy (h : Heat) (n : XName) : Bool := h.x.busy.any fun e => e.1 == n

/-- A write of earlier text time whose result is not readable yet. -/
def Heat.xBusyBefore (h : Heat) (n : XName) (tt : Nat) : Bool := h.x.busy.any fun e => e.1 == n && decide (e.2.2 < tt)

/-- X's lane predicate as of a reader's text time (02/R14, R18), once every earlier write of it is readable (08/R250). -/
def readK (h : Heat) (p : Seat) (n : BitVec 3) : Run TVal :=
  if n = 0 then .ok (h.k n)
  else if h.xBusyBefore (.k n) (h.tt p) then .error (.wait .empty [] 4)
  else if p = .X then .ok (h.k n)
  else if (h.ahead p (· == .lanes n)).isSome then .error (.wait .empty [.X] 3)
  else .ok (versionAt h.versX (.k n) (h.tt p) (h.k n))

/-! ## Kernel-iteration boundaries (02/R30) -/

/-- Whether the kernel loop is active on a seat. -/
def inKernel (h : Heat) (v : SeatState) : Bool := v.loops.any fun l => l.loopAddr == h.type.kernel

/-- A seat comes to an address: at the kernel address, outside the kernel loop, it stands at a boundary. -/
def arrive (h : Heat) (v : SeatState) : SeatState :=
  if v.pc = h.type.kernel && !inKernel h v then { v with atBoundary := true, atFinal := false } else v

/-- A seat has passed an instance: the boundary at it, if any, is passed, and text time goes on. -/
def passOne (v : SeatState) : SeatState :=
  { v with
    tt := v.tt + 1
    passed := if v.atBoundary then v.passed + 1 else v.passed
    atBoundary := false
    wait := none
    readySince := none
    agedAt := none }

/-- A seat leaves the kernel loop: it stands at the final boundary. -/
def atExit (h : Heat) (l : Level) (v : SeatState) : SeatState :=
  if l.loopAddr = h.type.kernel then { v with atBoundary := true, atFinal := true } else v

/-- Whether every seat has passed the final boundary (02/R30). -/
def pastFinal (h : Heat) : Bool :=
  seats.all fun p => (h.seat p).ended || ((h.seat p).atFinal && !(h.seat p).atBoundary)

/-- Boundaries that a seat has reached. -/
def reached (v : SeatState) : Nat := if v.atBoundary then v.passed + 1 else v.passed

/-- A seat at the final boundary waits for the seats that have not reached it (02/R30). -/
def behindFinal (h : Heat) (p : Seat) : List Seat :=
  if (h.seat p).atBoundary && (h.seat p).atFinal then
    (h.live seats).filter fun q => decide (reached (h.seat q) < reached (h.seat p))
  else []

/-- Whether a stop in force holds a seat where it stands (02/R30, 20/R423). -/
def stopsHere (h : Heat) (p : Seat) : Bool :=
  match h.stop with
  | none => false
  | some st =>
    (h.seat p).stopped ||
      (match st.cause with
       | .fault => (h.seat p).atBoundary
       | _ => (h.seat p).atBoundary && decide (st.upTo ≤ (h.seat p).passed))

/-! ## Resolving an address (07/R184, R185; 12/R346, R347; 20/R448 to R450) -/

/-- Where an access leads. -/
structure Frame where
  pa : Nat
  kind : MemKind
  key : Nat
  clean : Bool
  cls : Nat
deriving DecidableEq, Repr

/-- The window addresses of 12/R346. -/
def localBase : Nat := 0x7FFF00000000
def asrWindow : Nat := 0x7FFF00800000
def crewWindow : Nat := 0x7FFF01000000

/-- First address of the completion table (07/R195; log 8). -/
def cowin : Nat := 0x7FFF02000000 + 4096 * (Config.cowinPage % 65536)

/-- The heat that holds a unit of a core's scratchpad. -/
def spadOwner (s : State) (core unit : Nat) : Option Heat :=
  s.heats.find? fun h => h.core == core && h.spad.contains unit && !h.freed

/-- The stash range of a heat that covers a byte of its own scratchpad (07/R221). -/
def stashAt (s : State) (uid off : Nat) : Option Stash :=
  s.stashes.find? fun t => t.heat == uid && decide (t.spad ≤ off ∧ off < t.spad + 128 * t.lines)

/-- A translated address in a job, without the windows. -/
def leafFrame (s : State) (leaf : Nat) (big : Bool) (va : Nat) (acc : Access) (group : Nat → Bool) :
    Except (BitVec 8) Frame :=
  let off := if big then va % 2 ^ 24 else va % 2 ^ 16
  let raw := leaf % 2 ^ 48 / 2 ^ 16 * 2 ^ 16 + off
  let pa := localize s raw
  let asrPage := leaf.testBit 7
  let key := leaf / 2 ^ 48 % 2 ^ 13
  match kindOf pa with
  | none => .error clsTranslation
  | some kind =>
    if kind = .spad ∨ kind = .table then .error clsTranslation
    else if kind = .peer ∧ !group (pa / 2 ^ 29 % 1024) then .error clsTranslation
    else if acc = .read ∧ !leaf.testBit 3 then .error clsProtection
    else if (acc = .write ∨ acc = .atomic) ∧ !leaf.testBit 4 then .error clsProtection
    else if acc = .fetch ∧ !leaf.testBit 5 then .error clsProtection
    else if asrPage != (kind == .asr || kind == .peer) then .error clsProtection
    else if kind = .slice ∧ !sliceOk s pa then .error clsProtection
    else if kind = .underlay ∧ (s.lamom.keys.all fun k => k.slot != key) then
      .error clsProtection
    else .ok { pa := pa, kind := kind, key := key, clean := leaf.testBit 6, cls := leaf / 2 ^ 8 % 4 }

/-- A command processor's or record's address of a job, read through the page tables without a TLB; the devices whose
peer pages it may use are given. -/
def groupFrame (group : Nat → Bool) (s : State) (j : Job) (die : Nat) (va : Dword) (acc : Access) :
    Except (BitVec 8) Frame :=
  if !canonical va ∨ (localBase ≤ va.toNat ∧ va.toNat < 2 ^ 47) then .error clsTranslation
  else match walk s die j.root.toNat (va.toNat % 2 ^ 48) with
    | none => .error clsTranslation
    | some (leaf, big) => leafFrame s leaf big (va.toNat % 2 ^ 48) acc group

/-- A number of n bytes of the job's group table, which lies in no peer's memory (log 6). -/
def tableNat (s : State) (j : Job) (die : Nat) (va : Dword) (n : Nat) : Except (BitVec 8) Nat :=
  match groupFrame (fun _ => false) s j die va .read with
  | .error e => .error e
  | .ok f => .ok (viewNat s die f.pa n)

/-- The member devices of an entry of the group table, in rank order; none when the entry is unconfigured
(19/R407). -/
def groupMembers (s : State) (j : Job) (die g : Nat) : Option (List Nat) :=
  if j.groupTab = 0 then none else
  let e := j.groupTab + BitVec.ofNat 64 (16 * g)
  match tableNat s j die e 8, tableNat s j die (e + 8) 8 with
  | .ok n, .ok list =>
    if n = 0 ∨ 1024 < n then none
    else some ((List.range n).map fun i =>
      match tableNat s j die (BitVec.ofNat 64 (list + 2 * i)) 2 with
      | .ok d => d
      | .error _ => 0)
  | _, _ => none

/-- A device stands in the job's group table (12/R347). -/
def inGroups (s : State) (j : Job) (die dev : Nat) : Bool :=
  (List.range 256).any fun g => ((groupMembers s j die g).getD []).contains dev

/-- A command processor's or record's address of a job (12/R347; 19/R405, R406). -/
def jobFrame (s : State) (j : Job) (die : Nat) (va : Dword) (acc : Access) : Except (BitVec 8) Frame :=
  groupFrame (inGroups s j die) s j die va acc

/-- n bytes, which lie in one 64 KiB page, at a job's address. -/
def jobRead (s : State) (j : Job) (die : Nat) (va : Dword) (n : Nat) : Except (BitVec 8) (List Byte) :=
  match jobFrame s j die va .read with
  | .error e => .error e
  | .ok f => .ok ((viewBytes s die f.pa n).map (·.1))

/-- A number of n bytes at a job's address. -/
def jobNat (s : State) (j : Job) (die : Nat) (va : Dword) (n : Nat) : Except (BitVec 8) Nat :=
  match jobRead s j die va n with
  | .error e => .error e
  | .ok bs => .ok (leNat bs)

/-- Where a translated address of a heat leads, with the TLBs of a core. -/
def translate (s : State) (h : Heat) (core : Nat) (va : Dword) (acc : Access) : Except (BitVec 8) (State × Frame) :=
  match s.job? h.id.job with
  | none => .error clsTranslation
  | some j =>
    let a := va.toNat % 2 ^ 48
    match lookupLeaf s core j.id j.root.toNat a with
    | (_, none) => .error clsTranslation
    | (s', some (leaf, big)) =>
      match leafFrame s' leaf big a acc (inGroups s' j (core / 64)) with
      | .error e => .error e
      | .ok f => .ok (s', f)

/-- Mark a stash line filled, and dirty when it is written (07/R222). -/
def touchStash (s : State) (t : Stash) (line : Nat) (wr : Bool) : State :=
  let mark : Stash → Stash := fun x =>
    { x with filled := numIns line x.filled, dirty := if wr then numIns line x.dirty else x.dirty }
  { s with stashes := mapIf (fun x => x.heat == t.heat && x.slot == t.slot) mark s.stashes }

/-- The text time of the access that is being made, where it is one of a heat's own seats or commands. -/
def accessTT (s : State) (uid : Nat) : Option Nat :=
  match s.performing, s.cur with
  | some (u, tt), _ => if u = uid then some tt else none
  | none, some ⟨u, p, none⟩ => if u = uid then (s.heat? uid).map (·.tt p) else none
  | none, _ => none

/-- The stash range through which an access to a byte of a heat's own scratchpad goes: one of an earlier text time than
the STMAP sees plain scratchpad (07/R221). -/
def stashFor (s : State) (uid off : Nat) : Option Stash :=
  (stashAt s uid off).filter fun t => (accessTT s uid).all fun tt => decide (t.since ≤ tt)

/-- A byte of a heat's own scratchpad: its unit, or the global line that a stash range stands for
(02/R28, 07/R221, R222). -/
def localFrame (s : State) (o : Heat) (core off : Nat) (acc : Access) : Except (BitVec 8) (State × Frame) :=
  match stashFor s o.id.uid off with
  | some t =>
    match translate s o core (t.global + BitVec.ofNat 64 (off - t.spad)) acc with
    | .error e => .error e
    | .ok (s', f) =>
      .ok (touchStash (fillReplica s' (o.core / 64) f.pa) t ((off - t.spad) / 128) (acc == .write), f)
  | none =>
    match o.spad[off / 4096]? with
    | none => .error clsProtection
    | some u => .ok (s, { pa := spadAddr o.core (u * 4096 + off % 4096), kind := .spad, key := 0, clean := false, cls := 0 })

/-- Where an address of a heat leads, for an access from a core (the heat's own, or a relocated command's). -/
def resolve (s : State) (h : Heat) (core : Nat) (va : Dword) (acc : Access) : Except (BitVec 8) (State × Frame) :=
  let a := va.toNat
  if !canonical va then .error clsTranslation
  else if a < localBase ∨ 2 ^ 47 ≤ a then translate s h core va acc
  else if a < localBase + 2097152 then
    (if acc = .fetch then .error clsProtection else localFrame s h core (a - localBase) acc)
  else if asrWindow ≤ a ∧ a < asrWindow + 8388608 then
    if acc = .fetch then .error clsProtection else
    let off := a - asrWindow
    match h.asr[off / 4096]? with
    | none => .error clsProtection
    | some u => .ok (s,
        { pa := asrAddr h.crew (u * 4096 + off % 4096), kind := .asr, key := 0, clean := false, cls := 0 })
  else if crewWindow ≤ a ∧ a < crewWindow + 8388608 then
    if acc = .fetch then .error clsProtection else
    let c := h.crew * 4 + (a - crewWindow) / 2097152
    let off := (a - crewWindow) % 2097152
    match spadOwner s c (off / 4096) with
    | none => .error clsProtection
    | some o =>
      if o.id.job ≠ h.id.job then .error clsProtection
      else localFrame s o core (o.spad.findIdx (· == off / 4096) * 4096 + off % 4096) acc
  else if cowin ≤ a ∧ a < cowin + 4096 then
    if acc = .read then .ok (s, { pa := a - cowin, kind := .table, key := 0, clean := false, cls := 0 })
    else .error clsProtection
  else .error clsTranslation

/-! ## Completion objects (07/R195, R196) -/

/-- The bytes of a completion object. -/
def CObj.bytes (o : CObj) : List Byte :=
  leBytes 8 o.status.toNat ++ leBytes 8 o.progress.toNat ++ leBytes 8 o.faultAddr.toNat ++ leBytes 40 o.detail.toNat

/-- State of an object: 0 idle, 1 busy, 2 done. -/
def CObj.state (o : CObj) : Nat := o.status.toNat % 4

/-- A busy object's words read tainted (07/R197). -/
def CObj.byte (o : CObj) (i : Nat) : Byte × Bool := (o.bytes.getD i 0, o.state == 1)

/-! ## Watchpoints (20/R437) -/

/-- The watchpoint of a job that an access overlaps. -/
def watchHit (s : State) (job va n : Nat) (rd wr : Bool) : Option (Nat × Bool) :=
  match s.job? job with
  | none => none
  | some j =>
    (j.watch.find? fun w => decide (va < w.base.toNat + 2 ^ w.log2len ∧ w.base.toNat < va + n) &&
      ((w.rd && rd) || (w.wr && wr))).map fun w => (w.n, j.debugger)

/-- A heat that cannot halt: it is STOPPING or runs an arrival handler (20/R437). -/
def cannotHalt (s : State) (h : Heat) : Bool :=
  h.status == .stopping || s.handlers.any fun k => k.heat == h.id.uid && k.running

/-- A halt does not hold a heat that cannot halt, nor one marked halt-pending. -/
def haltExempt (s : State) (h : Heat) : Bool := cannotHalt s h || h.haltPending

/-- A halt holds a heat's messages at their destinations until its release (20/R438, R441). -/
def messagesHeld (s : State) (h : Heat) : Bool :=
  !haltExempt s h && ((s.job? h.id.job).bind (·.halt)).elim false fun x => x.step.isNone

/-- A halt holds the messages of the heat with a number. -/
def messageHeld (s : State) (uid : Nat) : Bool := (s.heat? uid).elim false (messagesHeld s)

/-- A job enters the debug halt, also from a step release; heats that cannot halt are marked halt-pending
(20/R437, R438, R441). -/
def haltJob (s : State) (job reason number : Nat) : State :=
  let halt : Halt :=
    { reason := reason, number := number, since := s.now, entries := [], step := none }
  let free (j : Job) : Bool := j.id == job && j.halt.all fun x => x.step.isSome
  if s.jobs.any free then
    { s with
      jobs := mapIf free (fun j => { j with halt := some halt }) s.jobs
      heats := mapIf (fun h => h.id.job == job && cannotHalt s h) (fun h => { h with haltPending := true }) s.heats }
  else s

/-- An access passes the watchpoints, halts its job, or raises the watch fault. -/
def watch (s : State) (job : Nat) (va : Dword) (n : Nat) (rd wr : Bool) : Run State :=
  match watchHit s job va.toNat n rd wr with
  | none => .ok s
  | some (k, true) => .ok (haltJob s job 2 k)
  | some (k, false) => .error (.fault clsWatch va (BitVec.ofNat 64 (k + if wr then 4 else 0)))

/-! ## Reads and writes -/

/-- Change Lamom's counters of a die (20/R433). -/
def State.onCounters (s : State) (die : Nat) (f : Counters → Counters) : State :=
  { s with lamom := { s.lamom with
      counters := if h : die < 4 then s.lamom.counters.set die (f s.lamom.counters[die]) else s.lamom.counters } }

/-- Enter an error in Lamom's log of 1,024 entries, and count it on its die (20/R433). -/
def logError (s : State) (die : Nat) (e : LogEntry) : State :=
  State.onCounters { s with lamom := { s.lamom with log := (s.lamom.log ++ [e]).drop (s.lamom.log.length + 1 - 1024) } } die
    fun c => { c with uncorrectable := c.uncorrectable + 1 }

/-- The command of a log entry that no engine command found (log 12). -/
def noCommand : Nat := 2 ^ 32 - 1

/-- Poison a line: the words of it in ASR, which a write of a whole cell clears, or the line (07/R200). -/
def Mem.poisonLine (m : Mem) (line : Nat) : Mem :=
  match kindOf (line * 128) with
  | some .asr | some .peer =>
    { m with poisonAsr := (List.range 32).foldl (fun l i => numIns (line * 32 + i) l) m.poisonAsr }
  | _ => { m with poison := numIns line m.poison }

/-- An uncorrectable error found for the first time: the line is poisoned and Lamom's log takes it
(07/R200, 20/R433). -/
def discover (s : State) (line job launch heat cmd unit : Nat) : State :=
  if s.mem.errors.contains line then
    let entry : LogEntry :=
      { clock := s.now, unit := unit, line := line * 128, job := job, launch := launch, heat := heat, cmd := cmd }
    let m := s.mem.poisonLine line
    logError { s with mem := { m with errors := numDel line s.mem.errors } } (dieOf (line * 128)) entry
  else s

/-- Whether a byte lies in poisoned data (07/R200). -/
def Mem.poisoned (m : Mem) (pa : Nat) : Bool := m.poison.contains (pa / 128) || m.poisonAsr.contains (pa / 4)

/-- An uncorrectable error that a party of a die meets at an address, and poison in n bytes from it. -/
def errorAt (s : State) (die pa : Nat) : Bool := s.mem.errors.contains (pa / 128) && !overwritten s die (pa / 128)

def poisonSeen (s : State) (die pa n : Nat) : Bool :=
  ((List.range n).any fun i => s.mem.poisoned (pa + i)) && !overwritten s die (pa / 128)

/-- n bytes at a frame, which do not cross a line. -/
def frameBytes (s : State) (h : Heat) (core : Nat) (f : Frame) (n : Nat) : List (Byte × Bool) :=
  if f.kind = .table then
    (List.range n).map fun i => (h.co[(f.pa + i) / 64]?).elim (0, false) fun o => o.byte ((f.pa + i) % 64)
  else
    let raw := viewBytes s (core / 64) f.pa n
    let line := f.pa / 128
    let slot := (assoc line s.net.fillKeys).getD f.key
    match f.kind, assoc line s.mem.sealedLines, s.lamom.keys.find? fun k => k.slot == slot with
    | .underlay, some old, some k =>
      if k.key = old then raw
      else
        let shown := recrypt old k.key line ((viewBytes s (core / 64) (line * 128) 128).map (·.1))
        (List.range n).map fun i => (shown.getD (f.pa % 128 + i) 0, (raw.getD i (0, false)).2)
    | _, _, _ => raw

/-- The die whose slice serves a party of a die that accesses a line: its own when it holds a copy, else the home. -/
def servingDie (s : State) (die pa : Nat) : Nat :=
  if (s.net.replica die (pa / 128)).isSome then die else homeDie pa

/-- The units that may be power-gated and that an access through a core needs: a scratchpad bank, a way of slice scratch,
and of caches, where the spec does not say which way holds a line, the whole as its way 0 (log 82). -/
def unitsOf (s : State) (core pa : Nat) : List GateUnit :=
  match kindOf pa with
  | some .spad => [.spadBank ((pa - spadBase) / 2097152) ((pa - spadBase) % 2097152 / 131072)]
  | some .slice => [.scratchWay (pa / 2 ^ 28 % 4) (pa / 2 ^ 22 % 32) (pa % 2 ^ 22 / 262144)]
  | some .underlay =>
    let d := servingDie s (core / 64) pa
    [.l1dWay core 0, .cacheWay d (sliceOf s d pa) 0]
  | some .host => [.l1dWay core 0]
  | _ => []

/-- The unit as which an access touches a unit. -/
def wholeUnit : GateUnit → GateUnit
  | .l1dWay core _ => .l1dWay core 0
  | .cacheWay die slice _ => .cacheWay die slice 0
  | u => u

/-- An access of a line is a request to the slice that serves it (22/R465; log 7). -/
def countRequest (s : State) (core pa : Nat) : List ((Nat × Nat) × Nat) :=
  if kindOf pa = some .underlay then
    let key := (servingDie s (core / 64) pa, bucketOf pa)
    match s.dev.requests.find? fun e => e.1 == key with
    | some e => (key, e.2 + 1) :: s.dev.requests.filter fun e => e.1 != key
    | none => (key, 1) :: s.dev.requests
  else s.dev.requests

/-- An access through a core wakes the gated units that it needs (12/R356), which are touched (22/R467); how long it waits
is timing (log 2). -/
def wake (s : State) (core pa : Nat) : State :=
  let us := unitsOf s core pa
  { s with dev := { s.dev with
    gated := s.dev.gated.filter fun u => !us.contains (wholeUnit u)
    touched := us.map (fun u => (u, s.now)) ++ s.dev.touched.filter fun e => !us.contains e.1
    requests := countRequest s core pa } }

/-- The offset of an address in the scratchpad of a heat itself, through either window. -/
def ownOffset (s : State) (h : Heat) (va : Dword) : Option Nat :=
  let a := va.toNat
  if localBase ≤ a ∧ a < localBase + 2097152 then some (a - localBase)
  else if crewWindow ≤ a ∧ a < crewWindow + 8388608 ∧ h.crew * 4 + (a - crewWindow) / 2097152 = h.core then
    let off := (a - crewWindow) % 2097152
    if (spadOwner s h.core (off / 4096)).elim false (·.id.uid == h.id.uid) then
      some (h.spad.findIdx (· == off / 4096) * 4096 + off % 4096)
    else none
  else none

/-- An STUNMAP of earlier text time that is not done, over bytes of the heat's scratchpad (07/R223). -/
def unmapPending (s : State) (h : Heat) (tt off n : Nat) : Bool :=
  s.cmds.any fun c => c.heat == h.id.uid && decide (c.tt < tt) && (match c.kind with
    | .stflush slots true => s.stashes.any fun t => t.heat == h.id.uid && slots.contains t.slot &&
        decide (t.spad < off + n ∧ off < t.spad + 128 * t.lines)
    | _ => false)

/-- A seat's access to its own scratchpad waits for a STMAP or STUNMAP of earlier text time that L has not issued yet, and
for an STUNMAP of its bytes that is not done (07/R221, R223). -/
def stashWait (s : State) (h : Heat) (va : Dword) (n : Nat) : Option Stay :=
  match s.cur, ownOffset s h va with
  | some ⟨uid, p, none⟩, some off =>
    if uid ≠ h.id.uid then none
    else if (h.ahead p (· == .stash)).isSome then some (.wait .empty [.L] 0)
    else if unmapPending s h (h.tt p) off n then some (.wait .engine [] 0)
    else none
  | _, _ => none

/-- Read n bytes at a virtual address; the bytes do not cross a line. Order of the checks: 07/R191. -/
def loadAt (s : State) (h : Heat) (core : Nat) (va : Dword) (n : Nat) : Run (State × List (Byte × Bool)) :=
  match stashWait s h va n with
  | some e => .error e
  | none =>
  match resolve s h core va .read with
  | .error e => faultAt e va
  | .ok (s1, f) =>
    if f.kind ≠ .table ∧ mustWait s1 h.id.uid (core / 64) f.pa then .error (.wait .empty [] 0)
    else if f.kind ≠ .table ∧ errorAt s1 (core / 64) f.pa then faultAt clsUncorrectable va
    else if f.kind ≠ .table ∧ poisonSeen s1 (core / 64) f.pa n then faultAt clsPoison va
    else
      match watch s1 h.id.job va n true false with
      | .error e => .error e
      | .ok s2 =>
        if f.kind = .table then .ok (s2, frameBytes s2 h core f n)
        else
          let s3 := noteFill (if f.cls = 0 ∧ f.kind = .underlay then fillReplica s2 (core / 64) f.pa else s2) f.pa f.key
          let s4 := rideRead (wake (bringClock s3 h.id.uid (core / 64) f.pa) core f.pa) h core f.pa f.cls
          .ok (s4, frameBytes s3 h core f n)

/-- The frame of a store, with its faults: translation, protection (text pages too, 05/R115), tainted store. -/
def storeFrame (s : State) (h : Heat) (core : Nat) (va : Dword) (tainted : Bool) : Run (State × Frame) :=
  match resolve s h core va .write with
  | .error e => faultAt e va
  | .ok (s1, f) =>
    if f.clean && tainted then faultAt clsTaintedStore va else .ok (s1, f)

/-- Write bytes at a virtual address; they do not cross a line. -/
def storeAt (s : State) (h : Heat) (core : Nat) (va : Dword) (data : List (Byte × Bool)) : Run State :=
  match stashWait s h va data.length with
  | some e => .error e
  | none =>
  match storeFrame s h core va (data.any (·.2)) with
  | .error e => .error e
  | .ok (s1, f) =>
    match watch s1 h.id.job va data.length false true with
    | .error e => .error e
    | .ok s2 =>
      let s3 := writePhys (wake s2 core f.pa) h.id.uid (core / 64) f.pa f.key data
      .ok (rideWrite s3 h core f.pa s2.nextId)

/-- A coxed heat's access to a peer whose reply has not been released (10/R301). -/
def unanswered (s : State) (uid pa id : Nat) : Bool :=
  decide (kindOf pa = some .peer) && (s.heat? uid).elim false (·.id.coxed) && s.sched.elim false (·.live) &&
    !s.net.answered.contains id

/-- Add to a taint counter, saturating (06/R180). -/
def satAdd (a n : Nat) : Nat := min (a + n) (2 ^ 32 - 1)

/-- Words that data of n bytes at a virtual address stores tainted. -/
def taintedWords (va : Nat) (data : List (Byte × Bool)) : Nat := ((touched va data).filter (·.2.2)).length

/-- Add to a seat's counter, saturating (20/R443). -/
def addProf (l : List (Nat × Nat)) (k n : Nat) : List (Nat × Nat) :=
  if n = 0 then l else assocSet k (satAdd ((assoc k l).getD 0) n) l

/-- A seat's counters as of a text time: with the cycles kept apart that it spent at earlier ones (20/R443). -/
def SeatState.profAt (v : SeatState) (tt : Nat) : List (Nat × Nat) :=
  (v.profAhead.filter fun e => decide (e.1 < tt)).foldl (fun l e => addProf l e.2.1 e.2.2) v.prof

/-- All of a seat's counters. -/
def SeatState.profAll (v : SeatState) : List (Nat × Nat) := v.profAhead.foldl (fun l e => addProf l e.2.1 e.2.2) v.prof

/-! ## Engine commands in flight -/

/-- The accesses that follow are a command's. -/
def State.performs (s : State) (c : Cmd) : State := { s with performing := some (c.heat, c.tt) }

/-- The accesses of a command are made. -/
def State.performed (s : State) : State := { s with performing := none }


/-- Commands of a heat that have not completed. -/
def State.cmdsOf (s : State) (uid : Nat) : List Cmd := s.cmds.filter fun c => c.heat == uid && !c.orphan && !c.parked

/-- Commands of a heat's seat that have not completed. -/
def State.cmdsOfSeat (s : State) (uid : Nat) (p : Seat) : List Cmd := (s.cmdsOf uid).filter fun c => c.seat == p

/-- A command that stands in a copy engine's queue or runs there: every one of C, L and S that names an object, none of
the array's (07/R194). -/
def Cmd.copies (c : Cmd) : Bool := c.seat != .X && !c.parked

/-- The core whose engine performs a command: its own, or a thief's (13/R385). -/
def Cmd.performer (c : Cmd) : Nat :=
  match c.phase with
  | .held t => t
  | _ => c.core

/-- Atomics of a heat without a reply. -/
def State.atomicsOf (s : State) (uid : Nat) : List Packet := s.atomics.filter fun a => a.heat == uid

/-- Handlers of a heat that wait or run (07/R204). -/
def State.handlersOf (s : State) (uid : Nat) : List Handler := s.handlers.filter fun a => a.heat == uid

/-- A thief finishes what it holds before its own heat stops (13/R385). -/
def holdsStolen (s : State) (h : Heat) : Bool := s.cmds.any fun c => c.phase == .held h.core

/-- Every command, load and atomic of a heat has drained (02/R31). -/
def drained (s : State) (h : Heat) : Bool :=
  (s.cmdsOf h.id.uid).isEmpty && h.pend.isEmpty && (s.atomicsOf h.id.uid).isEmpty && (s.handlersOf h.id.uid).isEmpty

/-! ## Stopping a heat (02/R30, R32) -/

/-- The first boundary that no seat has passed. -/
def commonBoundary (h : Heat) : Nat := seats.foldl (fun m p => max m (h.seat p).passed) 0

/-- Put a heat into STOPPING for a cancel, SUSPEND or pre-emption. -/
def stopFor (s : State) (cause : StopCause) (h : Heat) : Heat :=
  { h with
    status := .stopping
    stop := some { cause := cause, since := s.now, upTo := commonBoundary h, cancelAfter := false } }

/-- Cancel one heat as 02/R36 gives. -/
def cancelOne (s : State) (h : Heat) : Heat :=
  match h.status with
  | .resident => stopFor s .cancel h
  | .stopping =>
    (match h.stop with
     | some st => if st.cause = .suspend ∨ st.cause = .preempt then
         { h with stop := some { st with cancelAfter := true } } else h
     | none => h)
  | .suspended => { h with status := .cancelled }
  | _ => h

/-- Launch of a number and job. -/
def State.launch? (s : State) (job id : Nat) : Option Launch := s.launches.find? fun l => l.job == job && l.id == id

/-- Change the launch of a number and job. -/
def State.onLaunch (s : State) (job id : Nat) (f : Launch → Launch) : State :=
  { s with launches := mapIf (fun l => l.job == job && l.id == id) f s.launches }

/-- A heat of a launch that was counted has reached a final state (02/R35). -/
def countFinal (s : State) (h : Heat) (f : Launch → Launch) : State :=
  if h.id.detached then s else s.onLaunch h.id.job h.id.launch fun l =>
    f { l with live := l.live - 1, endClock := clockMax l.endClock (heatClock s h.id.uid) }

/-- The taint counters of a heat that reaches a final state join its launch's profile (06/R180). -/
def addTaints (s : State) (h : Heat) : State :=
  if h.id.detached then s
  else s.onLaunch h.id.job h.id.launch fun l =>
    { l with tcnt := List.zipWith (· + ·) l.tcnt [h.ctl.tStored, h.ctl.tControl, h.ctl.tCleared, h.ctl.tRead] }

/-- A suspended heat is final: its launch counts it and takes its taint counters, and its trace record is due
(20/R447). -/
def endSuspended (s : State) (h : Heat) (f : Launch → Launch) : State :=
  let s1 := countFinal (addTaints s h) h f
  let own (k : Heat) : Bool := k.id.uid == h.id.uid && k.id.job == h.id.job
  { s1 with heats := mapIf own (fun k => { k with traceDue := true }) s1.heats }

/-- Cancel the heats that satisfy p; a suspended one leaves its launch at once. -/
def cancelHeats (s : State) (p : Heat → Bool) : State :=
  let out := s.heats.filter fun h => p h && h.status == .suspended
  let s := { s with heats := mapIf p (cancelOne s) s.heats }
  out.foldl (fun s h => endSuspended s h fun l => { l with cancelled := true }) s

/-! ## Taking a fault (20/R421 to R427) -/

/-- Where a seat stands, for the record: text, loop word, iteration (20/R426). -/
def loopWord (h : Heat) (v : SeatState) (handler : Bool) : Dword :=
  let stage : Nat := if handler then 3
    else if v.atFinal then 2
    else if inKernel h v then 1 else 0
  match v.loops with
  | [] => BitVec.ofNat 64 (7 * 2 ^ 48 + stage * 2 ^ 51)
  | l :: t => BitVec.ofNat 64 (l.loopAddr.toNat % 2 ^ 48 + t.length * 2 ^ 48 + stage * 2 ^ 51)

/-- The record of a fault that a seat raises now. -/
def faultInfo (s : State) (h : Heat) (p : Seat) (cls : BitVec 8) (addr status text : Dword) (cmd : Option Nat)
    (handler : Bool) (engine : Nat) : FaultInfo :=
  let v := h.seat p
  { cls := cls, addr := addr, engStatus := status, clock := s.now, text := text &&& 0xFFFFFFFFFFFF
    loop := loopWord h v handler
    iter := (v.loops.head?).elim 0 (·.iter)
    cmdIndex := cmd, seat := p, handler := handler, engine := engine }

/-- A heat takes a fault: it enters STOPPING with the record of the fault; a fault while it is STOPPING for a fault only
counts, but one of the same cycle raised by an earlier seat takes the record; a heat STOPPING for a cancel records
nothing unless the cancel came in this cycle; one STOPPING for SUSPEND or pre-emption becomes FAULTED
(20/R423, R424, R435; 19/R416). -/
def takeFault (s : State) (h : Heat) (info : FaultInfo) : Heat :=
  let fresh : Heat :=
    { h with
      status := .stopping, fault := some info
      stop := some { cause := .fault, since := s.now, upTo := commonBoundary h, cancelAfter := false } }
  match h.stop with
  | none => fresh
  | some st =>
    match st.cause with
    | .fault =>
      let first := (h.fault.map fun f => decide (f.clock = s.now ∧ seatNum info.seat < seatNum f.seat)).getD false
      { h with secondary := min (h.secondary + 1) 255, fault := if first then some info else h.fault }
    | .cancel => if st.since = s.now then fresh else h
    | _ => fresh

/-- An overrun of a coxed job breaks its schedule; the cancel follows in the next cycle, and what is not complete ends by
the overrun (10/R312, 06/R167). -/
def breakSchedule (s : State) (job : Nat) : State :=
  { s with
    sched := s.sched.map fun c => if c.job = job then { c with broken := true } else c
    launches := mapIf (fun l => l.job == job && !l.complete) (fun l => { l with overrun := true }) s.launches
    heats := mapIf (fun h => h.id.job == job && !h.status.final) (fun h => { h with overrun := true }) s.heats
    jobs := mapIf (fun j => j.id == job) (fun j => { j with overrun := true }) s.jobs }

/-- A heat STOPPING under a cancel of an earlier cycle records no further fault (10/R312, 20/R424). -/
def underCancel (s : State) (h : Heat) : Bool :=
  h.stop.elim false fun st => st.cause == .cancel && st.since != s.now

/-- A recorded fault of a heat whose launch records the cancelled bit too: the heats of a gang are cancelled with it
(20/R425), or a cancel came in the same cycle (19/R416). -/
def recordsBoth (h : Heat) : Bool :=
  !h.id.detached && (h.type.gang || h.stop.elim false fun st => st.cause == .cancel)

/-- THE fault entry: the heat stops with its record, the raising seat issues nothing further, the other heats of a gang
are cancelled in this cycle, those of a coxed gang that are not placed yet among them (10/R305, 20/R425), and an overrun of a coxed heat breaks the schedule. -/
def raiseFault (s : State) (h : Heat) (p : Option Seat) (info : FaultInfo) : State :=
  let h1 := takeFault s h info
  let h2 := match p with
    | some q => h1.onSeat q fun v => { v with stopped := true }
    | none => h1
  let s1 := s.putHeat h2
  let recorded := h2.fault == some info
  let s2 := if h.type.gang && !h.id.detached && recorded then
      cancelHeats s1 fun k => k.id.uid != h.id.uid && k.id.job == h.id.job && k.id.launch == h.id.launch &&
        !k.id.detached
    else s1
  let s3 := if recorded && recordsBoth h then
      s2.onLaunch h.id.job h.id.launch fun l => { l with cancelled := true, cut := l.cut || (l.coxed && h.type.gang) }
    else s2
  if info.cls = clsOverrun && h.id.coxed && !underCancel s h then breakSchedule s3 h.id.job else s3

/-- Free what a heat holds of its core (02/R31, 20/R431). -/
def freeHeat (h : Heat) : Heat := { h with spad := [], asr := [], freed := true }

/-- Return from a fault: the retirement of its record frees the faulted heat's allocation (20/R431). -/
def retireRecord (s : State) (uid : Nat) : State := s.onHeat uid fun h => { freeHeat h with record := none }

end Sys2Proof.Machine
end

