-- ==== Sys2Proof/Machine/Objects.lean ====
section
/-!
DEFINITION. Completion objects: the status word, and an object's turning busy and done (07/R195, R196; 04/R101; 05/R143).
-/

namespace Sys2Proof.Machine

/-- An idle completion object. -/
def idleObj : CObj := { status := 0, progress := 0, faultAddr := 0, detail := 0 }

/-- The object of a number. -/
def Heat.obj (h : Heat) (j : Nat) : CObj := h.co.toList.getD j idleObj

/-- Whether an object is busy. -/
def Heat.busy (h : Heat) (j : Nat) : Bool := (h.obj j).state == 1

/-- The commands that have named an object, the latest first: text time, and the error bit that the object showed
before. -/
def Heat.named (h : Heat) (j : Nat) : List (Nat × Bool) := ((h.coTT.filter fun e => e.1 == j).map (·.2)).reverse

/-- Whether an object is busy for a word of a seat: with a command of an earlier text time, since a word observes an
object as of its own text time (07/R197). -/
def Heat.busyFor (h : Heat) (p : Seat) (j : Nat) : Bool :=
  h.busy j && ((h.named j).head?).elim true fun e => decide (e.1 < h.tt p)

/-- The error bit of an object as of a text time, from the one that it shows now. -/
def errorAsOf (tt : Nat) : List (Nat × Bool) → Bool → Bool
  | [], now => now
  | e :: t, now => if tt ≤ e.1 then errorAsOf tt t e.2 else now

/-- The error bit of an object as a word of a seat observes it. -/
def Heat.errorFor (h : Heat) (p : Seat) (j : Nat) : Bool :=
  errorAsOf (h.tt p) (h.named j) ((h.obj j).status.getLsbD 4)

/-- Change an object. -/
def Heat.setObj (h : Heat) (j : Nat) (o : CObj) : Heat :=
  if hj : j < 64 then { h with co := h.co.set j o hj } else h

/-- The fields of a status word (07/R196). -/
structure Status where
  state : Nat
  seat : Nat
  refused : Bool
  suppressed : Bool
  collAbort : Bool
  relocAbort : Bool
  poisonCopied : Bool
  incomplete : Bool
  relocated : Bool
  engine : Nat
  opcode : Nat
  cls : Nat
  detail : Nat

/-- The status of a command that has just issued. -/
def Status.start (seat : Seat) (engine opcode : Nat) : Status :=
  { state := 1, seat := seatNum seat, refused := false, suppressed := false, collAbort := false, relocAbort := false,
    poisonCopied := false, incomplete := false, relocated := false, engine := engine, opcode := opcode, cls := 0,
    detail := 0 }

/-- The error bit goes with the bits that 07/R196 names and with a fault class. -/
def Status.error (t : Status) : Bool :=
  t.suppressed || t.refused || t.collAbort || t.poisonCopied || t.incomplete || decide (t.cls ≠ 0)

/-- The status word. -/
def Status.word (t : Status) : Dword :=
  let b (v : Bool) (k : Nat) : Nat := if v then 2 ^ k else 0
  BitVec.ofNat 64 (t.state + 4 * t.seat + b t.error 4 + b t.suppressed 5 + b t.refused 6 + b t.collAbort 7 +
    b t.relocAbort 8 + b t.poisonCopied 9 + b t.incomplete 10 + b t.relocated 11 + t.engine % 16 * 2 ^ 12 +
    t.opcode % 256 * 2 ^ 16 + t.cls % 256 * 2 ^ 24 + t.detail % 2 ^ 32 * 2 ^ 32)

/-- An object turns busy at its command's issue. -/
def Heat.begin (h : Heat) (j : Nat) (seat : Seat) (engine opcode : Nat) : Heat :=
  { h.setObj j { status := (Status.start seat engine opcode).word, progress := 0, faultAddr := 0, detail := 0 } with
    coTT := (h.coTT.filter fun e => (h.trail [.C, .L, .X, .S]).any fun t => decide (t ≤ e.2.1)) ++
      [(j, h.tt seat, (h.obj j).status.getLsbD 4)] }

/-- An object becomes done with a status and its other fields, and sets the event latch (05/R143). -/
def Heat.finish (h : Heat) (j : Nat) (t : Status) (progress : Nat) (faultAddr : Dword) (detail : Nat) : Heat :=
  { h.setObj j
      { status := { t with state := 2 }.word, progress := BitVec.ofNat 64 progress, faultAddr := faultAddr
        detail := BitVec.ofNat 320 detail } with
    ctl := { h.ctl with latch := true } }

/-- The command detail of a launch or a resumed heat: a completion status word, then an id (07/R195, 19/R415). -/
def launchDetail (status id : Nat) : Nat := status % 2 ^ 64 + id % 2 ^ 64 * 2 ^ 64

end Sys2Proof.Machine
end

