-- ==== Sys2Proof/Machine/Issue.lean ====
section
/-!
DEFINITION. Issuing a word on a seat: the conditions that every word shares (02/R16, R17, R19, R22, R23, R28, R30;
04/R94, R95, R107, R108; 05/R123; 06/R174; 07/R183; 08/R231; 10/R310, R311), then its own effect, then the seat goes on.
A word that must wait leaves the machine as it is but for the record of the wait; one that faults takes the fault.
-/

namespace Sys2Proof.Machine

/-- What the shared conditions must know of a word. -/
structure Issue where
  /-- Length in words. -/
  len : Nat
  slot : Option Slot
  stamp : Option (BitVec 16)
  /-- Scalar registers named, against the heat's demand (02/R28). -/
  names : List (BitVec 6)
  /-- Vector registers named. -/
  vnames : List (BitVec 4)
  /-- C scalars that the word reads: a false slot waits for them too (07/R183). -/
  reads : List (BitVec 6)
  /-- Registers of X that the word reads: a false slot waits for their results too (08/R231, R250). -/
  xreads : List XName
  /-- Writes a register that other seats read: needs a free version (02/R19). -/
  version : Bool
  /-- Never a false slot (08/R244). -/
  always : Bool
  /-- Engine code of 07/R196 when the word is an engine command. -/
  engine : Option Nat
  /-- Object and opcode of a seat's own engine command with the speculative bit and no token bit (05/R122). -/
  spec : Option (Nat × Nat)
  /-- An arrival handler may execute it (07/R204). -/
  handler : Bool
  /-- Its fields break an encoding check (04/R107). -/
  bad : Bool

/-- A C word of one or two words without anything else to say. -/
def Issue.c (len : Nat) (names reads : List (BitVec 6)) (version : Bool) : Issue :=
  { len := len, slot := none, stamp := none, names := names, vnames := [], reads := reads, xreads := [],
    version := version, always := false, engine := none, spec := none, handler := true, bad := false }

/-- A short L, X or S word. -/
def Issue.short (w : Slot) (names : List (BitVec 6)) : Issue :=
  { len := 1, slot := some w, stamp := none, names := names, vnames := [], reads := names, xreads := [],
    version := false, always := false, engine := none, spec := none, handler := false, bad := false }

/-- A long L, X or S word. -/
def Issue.long (w : Slot) (stamp : BitVec 16) (names : List (BitVec 6)) : Issue :=
  { Issue.short w names with len := 2, stamp := some stamp }

/-- The word with the encoding check of its instruction. -/
def Issue.of (w : Issue) (i : Instr) : Issue := { w with bad := !WellFormed i }

/-- The word as an engine command: the engine's code, and what the issue past an unresolved exit must know. -/
def Issue.command (w : Issue) (engine op : Nat) (c : Ctl) : Issue :=
  { w with
    engine := some engine
    spec := match w.slot with
      | some sl => if c.spec && !(sl.popUp || sl.popDn || sl.pushUp || sl.pushDn) then some (c.co.toNat, op) else none
      | none => none }

/-- The effect of a word that the seat executes: new state, new heat, and where the seat goes. -/
abbrev Effect := Run (State × Heat × (SeatState → SeatState))

/-! ## Tokens (02/R21, R22) -/

/-- FIFO popped from upstream and from downstream, pushed to upstream and to downstream, by seat. -/
def fifos : Seat → Fin 6 × Fin 6 × Fin 6 × Fin 6
  | .L => (2, 3, 5, 0)
  | .X => (0, 4, 3, 1)
  | .S => (1, 5, 4, 2)
  | .C => (0, 0, 0, 0)

/-- The seat that pushes a FIFO, and the seat that pops it. -/
def fifoEnds : Fin 6 → Seat × Seat
  | 0 => (.L, .X) | 1 => (.X, .S) | 2 => (.S, .L) | 3 => (.X, .L) | 4 => (.S, .X) | 5 => (.L, .S)

/-- FIFOs that a word pops. -/
def pops (p : Seat) (w : Slot) : List (Fin 6) :=
  (if w.popUp then [(fifos p).1] else []) ++ (if w.popDn then [(fifos p).2.1] else [])

/-- FIFOs that a word pushes. -/
def pushes (p : Seat) (w : Slot) : List (Fin 6) :=
  (if w.pushUp then [(fifos p).2.2.1] else []) ++ (if w.pushDn then [(fifos p).2.2.2] else [])

/-- A word with token bits. -/
def hasToken (w : Slot) : Bool := w.popUp || w.popDn || w.pushUp || w.pushDn

/-- Reserved places of a FIFO whose tokens are not visible yet; a reserved place counts as full (02/R22). -/
def Heat.reserved (h : Heat) (f : Fin 6) : Nat := h.hidden.countP fun t => t.1 == f.val

/-- A token that is absent, or a place that is not free. -/
def tokenWait (h : Heat) (p : Seat) (w : Slot) : Option Stay :=
  match (pops p w).find? (fun f => h.fifo[f] == 0) with
  | some f => some (.wait (.token f) [(fifoEnds f).1] 2)
  | none =>
    match (pushes p w).find? (fun f => decide (16 ≤ h.fifo[f] + h.reserved f)) with
    | some f => some (.wait (.token f) [(fifoEnds f).2] 2)
    | none => none

/-- The place of a token whose word ends with an event of its own, not in a cycle (07/R224). -/
def openEnd : Nat := 2 ^ 64

/-- The cycle in which the results of a word are written: the latest of the registers and of the stream entries that it
has made wait (08/R250), or the end of the INVM that it is (07/R224); 0 when all of them are there at once. -/
def writtenAt (h h' : Heat) : Nat :=
  if h'.invm.isSome && h.invm.isNone then openEnd else
  let regs := (h'.x.busy.filter fun e => !h.x.busy.contains e).map (·.2.1)
  let rows := (h.q.toList.zip h'.q.toList).flatMap fun q => q.2.due.drop q.1.due.length
  (regs ++ rows).foldl max 0

/-- Pop and push the tokens of an executed word: a token is visible when the word's results are written (02/R22). -/
def moveTokens (now : Nat) (h : Heat) (p : Seat) (w : Slot) (h' : Heat) : Heat :=
  if !hasToken w then h' else
  let popped := (pops p w).foldl (fun q (f : Fin 6) => q.set f (q[f] - 1)) h'.fifo
  let at_ := writtenAt h h'
  if at_ ≤ now then { h' with fifo := (pushes p w).foldl (fun q (f : Fin 6) => q.set f (q[f] + 1)) popped }
  else { h' with fifo := popped, hidden := h'.hidden ++ (pushes p w).map fun f => (f.val, at_) }

/-! ## Conditions -/

/-- A register beyond the heat's demand (02/R28). -/
def beyond (h : Heat) (w : Issue) : Bool :=
  w.names.any (fun n => decide (8 * h.type.sGroups ≤ n.toNat)) || w.vnames.any (fun n => decide (4 * h.type.vGroups ≤ n.toNat))

/-- In coxed mode a stamp of 0xFFFF or not below STROKELEN is no encoding (04/R107). -/
def badStamp (s : State) (h : Heat) (w : Issue) : Bool :=
  match w.stamp with
  | some t => h.id.coxed && decide (t = 0xFFFF ∨ s.dev.strokeLen ≤ t.toNat)
  | none => false

/-- The checks of 04/R107 and 02/R28 that apply whether or not the word executes (04/R108). -/
def misfit (s : State) (h : Heat) (w : Issue) : Bool := w.bad || beyond h w || badStamp s h w

/-- A first-only or last-only flag that skips the word (04/R94, 05/R118). -/
def flagSkips (v : SeatState) (w : Slot) : Bool :=
  match v.loops with
  | [] => false
  | l :: _ => (w.first && decide (l.iter ≠ 1)) || (w.last && decide (l.remain ≠ 1))

/-- A word of text. -/
def fetchWord (s : State) (h : Heat) (va : Dword) : Except (BitVec 8) (State × Nat) :=
  match resolve s h h.core va .fetch with
  | .error e => .error e
  | .ok (s', f) => .ok (s', leNat ((frameBytes s' h h.core f 4).map (·.1)))

/-- Addresses of the LEXIT words of a loop body that end its own level, from an address on; n bounds the words read. -/
def exitsFrom (s : State) (h : Heat) (stop : Dword) : Nat → Dword → List Dword
  | 0, _ => []
  | n + 1, va =>
    if stop.toNat ≤ va.toNat then []
    else match fetchWord s h va with
      | .error _ => []
      | .ok (_, w) =>
        let next := va + (if isLong w then 8 else 4)
        match decodeWords w 0 with
        | .ok (.lexit _ _) => va :: exitsFrom s h stop n next
        | .ok (.loopLc _ body) | .ok (.loopImm _ body) => exitsFrom s h stop n (va + 4 + BitVec.ofNat 64 (4 * body.toNat))
        | _ => exitsFrom s h stop n next

/-- What C's outcomes from a text time on say of the exits of a level: taken, or the level begun anew, or neither yet. -/
def exitTaken (l : Level) (exits : List Dword) : List OutcomeEntry → Option Bool
  | [] => none
  | e :: t =>
    if e.text = l.loopAddr then some false
    else if exits.contains e.text && e.taken then some true
    else exitTaken l exits t

/-- Where a seat that goes on at an address stands in the body of a level: in a subroutine that the body called, at the
return address there. -/
def bodyPc (l : Level) (ret : List Dword) (next : Dword) : Dword :=
  if ret.length ≤ l.depth then next else ret.getD (ret.length - l.depth - 1) next

/-- A branch or jump of a body, from an address on, may go back to an address or before it; n bounds the words read. -/
def wayBack (s : State) (h : Heat) (stop limit : Dword) : Nat → Dword → Bool
  | 0, _ => true
  | n + 1, va =>
    if stop.toNat ≤ va.toNat then false
    else match fetchWord s h va with
      | .error _ => false
      | .ok (_, w) =>
        let next := va + (if isLong w then 8 else 4)
        let back (target : Dword) : Bool := decide (target.toNat ≤ limit.toNat) || wayBack s h stop limit n next
        match decodeWords w 0 with
        | .ok (.br _ _ d) => back (va + d.signExtend 64 * 4)
        | .ok (.jmp d) => back (va + d.signExtend 64 * 4)
        | _ => wayBack s h stop limit n next

/-- C has passed the LEXITs of a body and no branch after where it stands leads back to one. -/
def exitsPassed (s : State) (h : Heat) (l : Level) (exits : List Dword) : Bool :=
  let pc := bodyPc l h.C.ret h.C.pc
  decide (l.depth ≤ h.C.ret.length) && exits.all (fun a => decide (a.toNat < pc.toNat) && !wayBack s h l.stop a 4096 pc)

/-- Whether an iteration that may be the last is the last for a word: not when a LEXIT after the word is taken; none
while C has not resolved every LEXIT after it (05/R118). -/
def lastHere (s : State) (h : Heat) (p : Seat) (len : Nat) (l : Level) : Option Bool :=
  let v := h.seat p
  match exitsFrom s h l.stop 4096 (bodyPc l v.ret (v.pc + BitVec.ofNat 64 (4 * len))) with
  | [] => some true
  | exits =>
    if h.tt .C ≤ h.tt p && !h.C.ended then none
    else match exitTaken l exits (h.outcomes.filter fun e => decide (h.tt p ≤ e.tt)) with
      | some taken => some (!taken)
      | none =>
        if h.C.ended || !(h.C.loops.any fun k => k.loopAddr == l.loopAddr && k.depth == l.depth) then some true
        else if exitsPassed s h l exits then some true
        else none

/-- The seat's slip, at most SLIPW after it passes one instance (02/R16). -/
def slipWait (h : Heat) (p : Seat) : Option Stay :=
  match h.trail (seats.filter (· != p)) with
  | none => none
  | some t =>
    if h.ctl.slipw < h.tt p + 1 - t then
      some (.wait .empty ((h.live (seats.filter (· != p))).filter fun q => h.tt q == t) 3) else none

/-- Waits that hold every instance of a seat, its own or another seat's: a yielding heat, the final boundary, slip. -/
def passWait (h : Heat) (p : Seat) : Option Stay :=
  match h.hold with
  | .yielded _ _ => some (.wait .empty [] 3)
  | _ =>
    match behindFinal h p with
    | q :: qs => some (.wait .empty (q :: qs) 3)
    | [] => slipWait h p

/-- Commands that a seat issued before a taken exit and that have not completed (05/R123, step 2). -/
def undrained (s : State) (h : Heat) (p : Seat) : List Cmd :=
  match (h.seat p).exits.getLast? with
  | none => []
  | some e => (s.cmdsOfSeat h.id.uid p).filter fun c => decide (c.id < e.last)

/-- Waits that hold every word that a seat issues: those of every instance, an INVM's, and the drain of a taken LEXIT:
of the seat's own commands for every word, of all four seats for one with a token bit (05/R123). -/
def holdWait (s : State) (h : Heat) (p : Seat) (w : Issue) : Option Stay :=
  if p = .L && h.invm.isSome then some (.wait .engine [] 3) else
  match passWait h p with
  | some e => some e
  | none =>
    if !(undrained s h p).isEmpty then some (.wait .empty [] 3)
    else if !(h.seat p).exits.isEmpty && w.slot.elim false hasToken then
      some (.wait .empty (seats.filter (· != p)) 3)
    else none

/-- Whether the flags of a word let the seat execute it, or its wait for the exits that decide it (04/R94, 05/R118). -/
def flagsAllow (s : State) (h : Heat) (p : Seat) (w : Issue) (sl : Slot) : Run Bool :=
  if flagSkips (h.seat p) sl then .ok false
  else match (h.seat p).loops with
    | [] => .ok true
    | l :: _ =>
      if !sl.last then .ok true
      else match lastHere s h p w.len l with
        | some last => .ok last
        | none => .error (.wait .empty [.C] 3)

/-- Whether the seat executes the word (02/R13, R23), after the waits for what decides it. -/
def executes (s : State) (h : Heat) (p : Seat) (w : Issue) : Run Bool :=
  match w.slot with
  | none => .ok true
  | some sl =>
    match flagsAllow s h p w sl with
    | .error e => .error e
    | .ok false => .ok false
    | .ok true =>
      match readK h p sl.pred with
      | .error e => .error e
      | .ok k =>
        if w.always || sl.pred = 0 || k.v != 0 then .ok true
        else
          match w.reads.mapM (readS h p) with
          | .error e => .error e
          | .ok _ => if w.xreads.any h.xBusy then .error (.wait .empty [] 4) else .ok false

/-- The version buffer has no free entry (02/R19). -/
def versionWait (h : Heat) (p : Seat) (w : Issue) : Option Stay :=
  if w.version && h.versionsFull p then
    some (.wait .empty (h.live (if p = .X then [.L, .S] else [.L, .X, .S])) 3) else none

/-- The seat goes to the next word of the text. -/
def nextWord (h : Heat) (len : Nat) (v : SeatState) : SeatState :=
  arrive h { v with pc := v.pc + BitVec.ofNat 64 (4 * len) }

/-- The word's conditions and its effect. -/
def attempt (w : Issue) (p : Seat) (body : State → Heat → Effect) (s : State) (h : Heat) : Effect :=
  if misfit s h w then .error Stay.illegal
  else
    match holdWait s h p w with
    | some e => .error e
    | none =>
      match executes s h p w with
      | .error e => .error e
      | .ok false => .ok (s, h, nextWord h w.len)
      | .ok true =>
        match w.slot.bind (tokenWait h p) with
        | some e => .error e
        | none =>
          match versionWait h p w with
          | some e => .error e
          | none =>
            match body s h with
            | .error e => .error e
            | .ok (s', h', go) => .ok (s', w.slot.elim h' fun sl => moveTokens s.now h p sl h', go)

/-- Where a stamped word of a coxed heat stands against its cycle (10/R310): not yet, now, or late by some cycles. -/
inductive Due where
  | free | early | now | late (n : Nat)
deriving DecidableEq, Repr

def due (s : State) (h : Heat) (p : Seat) (w : Issue) : Due :=
  match w.stamp with
  | some t =>
    if h.id.coxed then
      let at_ := (h.seat p).strokeBase + t.toNat
      if s.now < at_ then .early else if s.now = at_ then .now else .late (s.now - at_)
    else .free
  | none => .free

/-- Cycles by which a stamped word stands after its cycle, in it or beyond it. -/
def Due.lateness : Due → Option Nat
  | .free | .early => none
  | .now => some 0
  | .late n => some n

/-- Engine-status field of an overrun (10/R311). -/
def overrunStatus (stamp cause late : Nat) : Dword :=
  BitVec.ofNat 64 (stamp + cause * 2 ^ 16 + min late (2 ^ 32 - 1) * 2 ^ 24)

/-- A wait for a token, which is one wait of a word at whichever of its FIFOs (02/R24). -/
def WaitKind.isToken : WaitKind → Bool
  | .token _ => true
  | _ => false

/-- Record that a seat waits, and for how long it has. -/
def noteWait (s : State) (h : Heat) (p : Seat) (kind : WaitKind) : Heat :=
  let new : Wait := { kind := kind, since := s.now }
  h.onSeat p fun v =>
    { v with wait := some (match v.wait with
        | some w => if w.kind = kind then w else if w.kind.isToken && kind.isToken then { w with kind := kind } else new
        | none => new) }

/-- A seat that waits for a seat stopped by the fault stops too (20/R423). -/
def waitsOnStopped (h : Heat) (on : List Seat) : Bool :=
  match h.stop with
  | some st => st.cause == .fault && on.any fun q => (h.seat q).stopped
  | none => false

/-- Whether the bag of a command has a faulted gather. -/
def bagFailed (h : Heat) (b : Nat) : Bool := (h.bags.find? fun x => x.id == b).elim false fun x => x.phase == .failed

/-- A retirement of a bag with a faulted gather. -/
def retiresFailed (h : Heat) (k : Cmd) : Bool :=
  match k.kind with
  | .mret (some b) _ _ _ _ _ _ _ => bagFailed h b
  | _ => false

/-- The array's commands end only once every seat of the stopping heat has stopped. -/
def arrayStuck (s : State) (h : Heat) : Bool := (s.cmdsOf h.id.uid).any (retiresFailed h)

/-- Commands that take tiles from a ring. -/
def CmdKind.takes (k : CmdKind) (g : BitVec 3) : Bool :=
  match k with
  | .scatr r _ _ _ => r.kind == 0 && r.operand == g.toNat
  | .mwld x _ _ _ => x == g
  | .mbag x _ _ _ _ _ => x == g
  | .prod _ src q _ _ _ _ _ _ _ => !q && src == g
  | _ => false

/-- A seat frees no tile any more: it is over, or it waits for an object itself. -/
def takesNone (v : SeatState) : Bool :=
  v.ended || v.stopped || (match v.wait with
    | some ⟨.cobj _, _⟩ | some ⟨.cobjStuck _, _⟩ => true
    | _ => false)

/-- A gather at a ring whose tiles are all filled, which no command frees and no seat of the stopping heat will
(11/R340). -/
def starved (s : State) (h : Heat) (c : Cmd) : Bool :=
  match c.kind with
  | .gatr r _ _ _ _ _ =>
    let g := BitVec.ofNat 3 r.operand
    r.kind == 0 && (h.g[g.toNat]).elim false (fun k => decide (2 ^ k.c ≤ k.tiles.length)) &&
      !((s.cmdsOf h.id.uid).any fun k => k.kind.takes g) && (h.X.ended || h.X.stopped) && takesNone h.S
  | _ => false

/-- A starved gather of a bag. -/
def bagStarved (s : State) (h : Heat) (b : Nat) : Bool :=
  (s.cmdsOf h.id.uid).any fun c => starved s h c && (match c.kind with
    | .gatr _ _ _ _ _ x => x == some b
    | _ => false)

/-- An object that is done only once every seat of the heat has stopped, so that a seat that waits for it waits on the
faulting seat (11/R340, R343, 20/R423): its command is a starved gather, the BAGCLOSE of a bag with a starved or faulted
one, a retirement of a bag with a faulted gather, or an array command behind one. -/
def hopeless (s : State) (h : Heat) (co : Nat) : Bool :=
  let blocked (id : Nat) : Bool := (s.cmdsOf h.id.uid).any fun k => retiresFailed h k && decide (k.id ≤ id)
  (s.cmdsOf h.id.uid).any fun c => c.co == some co && (match c.kind with
    | .gatr .. => starved s h c
    | .bagclose b => bagFailed h b || bagStarved s h b
    | .mwld .. | .prod .. | .mbag .. | .mret .. | .mclr .. => blocked c.id
    | _ => false)

/-- The wait of a command whose object is busy (04/R101); of one that is never done while a seat of the heat goes on, it is
a wait on the stopped seats. -/
def busyWait (s : State) (h : Heat) (j : Nat) : Option Stay :=
  if h.busy j then some (.wait .engine (if hopeless s h j then seats else []) 5) else none

/-- A wait that the heat's fault never lets end. -/
def stopsForFault (h : Heat) (kind : WaitKind) (on : List Seat) : Bool :=
  waitsOnStopped h on || (match h.stop, kind with
    | some st, .cobjStuck _ => st.cause == .fault
    | _, _ => false)

/-- The common boundary of a stop lies behind no seat: a word that stops its own heat passes the boundary at which it
stands (02/R30). -/
def keepAhead (h : Heat) (p : Seat) : Heat :=
  { h with stop := h.stop.map fun st => { st with upTo := max st.upTo (h.seat p).passed } }

/-- The seat goes on after an instance. -/
def goOn (h : Heat) (p : Seat) (go : SeatState → SeatState) (now : Nat) : Heat :=
  keepAhead (h.onSeat p fun v => { go (passOne v) with lastIssue := some now, lastTT := v.tt, slack := 0 }) p

/-- A command of a seat as it stands at its issue, with nothing done of it. -/
def blankCmd (s : State) (h : Heat) (p : Seat) (op : Nat) (kind : CmdKind) (co : Option Nat) : Cmd :=
  { id := s.nextId, heat := h.id.uid, core := h.core, seat := p, tt := h.tt p, text := (h.seat p).pc, index := h.cmdCount,
    op := op, kind := kind, co := co, reloc := false, spec := false, phase := .queued, since := s.now,
    past := (h.seat p).check.map (·.tt), begin_ := none, nextIn := 0, entered := 0, inside := [], readDone := false,
    stopAt := none, suppressed := false, spent := false, fault := none, prog := 0,
    settled := [], unlanded := 0, zeroed := 0, absorbed := none, rows := 0, poisonCopied := false, relocated := false,
    relocAbort := false, collAbort := false, incomplete := false, extra := 0, report := 0, conds := 0, badRow := none,
    xfer := none, xferDone := false, hnd := none, orphan := false, parked := false }

/-- A speculative command past an unresolved exit has a fault found at its issue: the command issues with its effect over
and the fault held, to be raised or suppressed when the exit is resolved; the seat goes on (05/R124; log 29). -/
def holdFault (w : Issue) (p : Seat) (s : State) (h : Heat) (co op : Nat) (cls : BitVec 8) (addr : Dword) : State :=
  if h.busy co then { s.putHeat (noteWait s h p .engine) with waited := true }
  else
    let k := { blankCmd s h p op (.held (w.engine.getD 15)) (some co) with
      spec := true, phase := .running, spent := true, fault := some (cls, addr) }
    let h1 := { h.begin co p (w.engine.getD 15) op with
      cmdCount := h.cmdCount + 1, hnd := if p = .L then none else h.hnd }
    { s.putHeat (goOn h1 p (nextWord h1 w.len) s.now) with
      cmds := s.cmds ++ [k], nextId := s.nextId + 1, waited := false }

/-- A fault of the uncorrectable class found by a word: the error is poisoned and logged (07/R200, 20/R433). -/
def foundBy (s : State) (h : Heat) (cls : BitVec 8) (addr : Dword) (cmd : Nat) : State :=
  if cls = clsUncorrectable then
    match resolve s h h.core addr .read with
    | .ok (s1, f) => discover s1 (f.pa / 128) h.id.job h.id.launch h.id.index cmd 8
    | .error _ => s
  else s

/-- The machine when a word stays. -/
def stay (w : Issue) (p : Seat) (s : State) (h : Heat) (e : Stay) : State :=
  let stamp := (w.stamp.getD 0xFFFF).toNat
  let cmd := w.engine.map fun _ => h.cmdCount
  let fault (s : State) (cls : BitVec 8) (addr status : Dword) : State :=
    match (h.seat p).check, w.spec with
    | some _, some (co, op) => holdFault w p s h co op cls addr
    | _, _ =>
      let info := faultInfo s h p cls addr status (h.seat p).pc cmd false (w.engine.getD 15)
      { raiseFault s h (some p) info with waited := false }
  match e with
  | .fault cls addr status => fault (foundBy s h cls addr (cmd.getD noCommand)) cls addr status
  | .wait kind on cause =>
    let late := (due s h p w).lateness
    if late.isSome && cause != 0 then fault s clsOverrun 0 (overrunStatus stamp cause 0)
    else
      let h1 := noteWait s h p kind
      let h2 := if stopsForFault h kind on then h1.onSeat p fun v => { v with stopped := true } else h1
      { s.putHeat (late.elim h2 fun n => h2.onSeat p fun v => { v with slack := n + 1 }) with waited := true }
  | .park s' h' kind => { s'.putHeat (noteWait s' h' p kind) with waited := true }
  | .heldBehind text stamp =>
    { raiseFault s h (some p) (faultInfo s h p clsOverrun 0 (overrunStatus stamp 7 0) text none false 15) with
      waited := false }

/-- A debug halt holds the heat's seat (20/R438, R441). -/
def debugHeld (s : State) (h : Heat) (p : Seat) : Bool :=
  match s.job? h.id.job with
  | none => false
  | some j =>
    match j.halt with
    | none => false
    | some hl =>
      match hl.step with
      | some (uid, q, n) => !(uid == h.id.uid && q == p && decide (0 < n)) && !haltExempt s h
      | none => !haltExempt s h

/-- A step release counts the words of its seat, and the job halts again after the last (20/R441). -/
def countStep (s : State) (h : Heat) (p : Seat) : State :=
  let f (j : Job) : Job :=
    match j.halt with
    | some hl =>
      (match hl.step with
       | some (uid, q, n) =>
         if uid = h.id.uid ∧ q = p then
           (if n ≤ 1 then
             { j with halt := some { hl with reason := 4, number := 0, since := s.now, entries := [], step := none } }
            else { j with halt := some { hl with step := some (uid, q, n - 1) } })
         else j
       | none => j)
    | none => j
  { s with jobs := mapIf (fun j => j.id == h.id.job) f s.jobs }

/-- A seat that a stop holds at a boundary has stopped. -/
def markStopped (s : State) (h : Heat) (p : Seat) : State :=
  { s.putHeat (h.onSeat p fun v => { v with stopped := true }) with waited := true }

/-- A seat past an exit that C has not resolved waits for the outcome at every word but a speculative command
(05/R122). -/
def unresolved (w : Issue) (h : Heat) (p : Seat) : Bool := (h.seat p).check.isSome && w.spec.isNone

/-- The machine after a seat of a heat meets a word. A word that comes after its cycle because an access waited for what
memory order puts before it, which is no condition of 10/R310, is not late by that wait (log 76). -/
def issueSeat (w : Issue) (p : Seat) (body : State → Heat → Effect) (s : State) (h : Heat) : State :=
  if stopsHere h p then markStopped s h p
  else if debugHeld s h p then { s with waited := true }
  else if unresolved w h p then stay w p s h (.wait .empty [.C] 3)
  else
    match due s h p w with
    | .early => if misfit s h w then stay w p s h Stay.illegal else stay w p s h (.wait .empty [] 1)
    | .late n =>
      if misfit s h w then stay w p s h Stay.illegal
      else if n ≤ (h.seat p).slack then
        match attempt w p body s h with
        | .error e => stay w p s h e
        | .ok (s', h', go) =>
          let h1 := (goOn h' p go s.now).onSeat p fun v => { v with slack := n }
          { countStep (s'.putHeat h1) h p with waited := false }
      else stay w p s h (.fault clsOverrun 0 (overrunStatus (w.stamp.getD 0xFFFF).toNat 1 n))
    | _ =>
      match attempt w p body s h with
      | .error e => stay w p s h e
      | .ok (s', h', go) => { countStep (s'.putHeat (goOn h' p go s.now)) h p with waited := false }

/-! ## Arrival handlers (07/R204) -/

/-- The heat as a handler context sees it: its own sixteen scalars and its predicates. -/
def contextHeat (h : Heat) (k : Handler) : Heat :=
  { h with
    c := { h.c with
      s := (List.range 16).foldl (fun v i => if hi : i < 64 then v.set i (k.s.toList.getD i ⟨0, false⟩) hi else v)
        (Vector.replicate 64 ⟨0, false⟩)
      b := k.b }
    C := { h.C with pc := k.pc, loops := [], ret := [], ended := false, stopped := false, check := none }
    versC := []
    stop := none
    pend := (h.pend.filter fun q => q.ctx == some k.id).map fun q => { q with ctx := none } }

/-- The handler and its heat after a word of the handler. -/
def contextBack (h : Heat) (k : Handler) (after : Heat) (pc : Dword) : Heat × Handler :=
  ({ h with
      pend := (h.pend.filter fun q => q.ctx != some k.id) ++ after.pend.map fun q => { q with ctx := some k.id }
      ctl := after.ctl },
   { k with
      pc := pc
      count := k.count + 1
      s := (List.range 16).foldl (fun v i => if hi : i < 16 then v.set i (after.c.s.toList.getD i ⟨0, false⟩) hi else v) k.s
      b := after.c.b })

/-- The machine after a handler context meets a word. A fault is charged to the heat with seat C, the command's index
and its engine (07/R204, 20/R426). -/
def issueHandler (w : Issue) (body : State → Heat → Effect) (s : State) (h : Heat) (k : Handler) : State :=
  let fault (cls : BitVec 8) (addr status : Dword) : State :=
    let s := foundBy s (contextHeat h k) cls addr noCommand
    { raiseFault { s with handlers := s.handlers.filter fun x => x.id != k.id } h none
        { faultInfo s h .C cls addr status k.pc (some k.index) true (k.status.toNat / 2 ^ 12 % 16) with
          loop := loopWord h h.C true } with
      waited := false }
  if w.bad || !w.handler || w.names.any (fun n => decide (16 ≤ n.toNat)) || decide (256 ≤ k.count) then fault clsIllegal 0 0
  else
    match body s (contextHeat h k) with
    | .error (.fault cls addr status) => fault cls addr status
    | .error (.wait _ _ _) => { s with waited := true }
    | .error (.park _ _ _) | .error (.heldBehind _ _) => { s with waited := true }
    | .ok (s', h', go) =>
      let r := contextBack h k h' (go { h'.C with atBoundary := false }).pc
      { s'.putHeat r.1 with handlers := mapIf (fun x => x.id == k.id) (fun _ => r.2) s'.handlers, waited := false }

/-! ## exec of a word -/

/-- The heat that acts. -/
def State.acting (s : State) : Option (Heat × Cursor) :=
  match s.cur with
  | none => none
  | some c => (s.heat? c.heat).map fun h => (h, c)

/-- A word met by the acting heat on a seat. -/
def issueG (w : Issue) (p : Seat) (body : State → Heat → Effect) (s : State) : Host.Outcome State Fault Refusal :=
  match s.acting with
  | none => .refused .noCurrentHeat
  | some (h, c) =>
    match c.handler with
    | none => .next (issueSeat w p body s h)
    | some id =>
      match s.handlers.find? fun k => k.id == id with
      | none => .refused .noCurrentHeat
      | some k => .next (issueHandler w body s h k)

/-- A word that goes on to the next one. -/
def issue (w : Issue) (p : Seat) (body : State → Heat → Run (State × Heat)) (s : State) :
    Host.Outcome State Fault Refusal :=
  issueG w p (fun s h => match body s h with
    | .error e => .error e
    | .ok (s', h') => .ok (s', h', nextWord h' w.len)) s

/-- A C word that computes new registers of the heat and touches nothing else. -/
def issueC (w : Issue) (f : Heat → Run Heat) (s : State) : Host.Outcome State Fault Refusal :=
  issue w .C (fun s h => match f h with
    | .error e => .error e
    | .ok h' => .ok (s, h')) s

end Sys2Proof.Machine
end

