-- ==== Sys2Proof/Machine/Operands.lean ====
section
/-!
DEFINITION. Operand forms: immediates, offsets, scalars read under text time, address forms, shifts and bit fields
(04/R88 to R92; 05/R129 to R135; 06/R147).
-/

namespace Sys2Proof.Machine

/-- Two scalars of C. -/
def readS2 (h : Heat) (a b : BitVec 6) : Run (TVal × TVal) :=
  match readS h .C a with
  | .error e => .error e
  | .ok x =>
    match readS h .C b with
    | .error e => .error e
    | .ok y => .ok (x, y)

/-- A signed immediate extended to a scalar (04/R90). -/
def simm {n : Nat} (i : BitVec n) : Dword := i.signExtend 64

/-- The low w bits of a scalar, zero- or sign-extended. -/
def extend (signed : Bool) (w : Nat) (v : Dword) : Dword :=
  if signed then (v.setWidth w).signExtend 64 else (v.setWidth w).setWidth 64

/-- Width codes of SEXT and ZEXT (04/R92). -/
def widthCode (w : BitVec 4) : Nat := 8 * 2 ^ w.toNat

/-- Width in bits and signedness of LDS and STS (05/R135). -/
def loadWidth (w : BitVec 3) : Nat × Bool :=
  match w.toNat with
  | 0 => (8, false) | 1 => (8, true) | 2 => (16, false) | 3 => (16, true)
  | 4 => (32, false) | 5 => (32, true) | _ => (64, true)

/-- Field position and width of BFX and BFI (05/R131). -/
def fieldOf (b : Dword) : Nat × Nat := (b.toNat % 64, b.toNat / 256 % 64 + 1)

/-- The mask of a field; bits beyond 63 are dropped. -/
def fieldMask (lo n : Nat) : Dword := (BitVec.ofNat 64 (2 ^ n - 1)) <<< lo

/-- BFX (05/R131). -/
def bitExtract (signed : Bool) (a b : Dword) : Dword :=
  let (lo, n) := fieldOf b
  extend signed n (a >>> lo)

/-- BFI (05/R131). -/
def bitInsert (old a b : Dword) : Dword :=
  let (lo, n) := fieldOf b
  let m := fieldMask lo n
  (old &&& ~~~m) ||| ((a <<< lo) &&& m)

/-- Leading zero bits, 64 for zero. -/
def clz64 (a : Dword) : Dword := if a = 0 then 64 else BitVec.ofNat 64 (63 - Nat.log2 a.toNat)

/-- Number of one bits. -/
def popc64 (a : Dword) : Dword := BitVec.ofNat 64 ((List.range 64).countP a.getLsbD)

/-- Division rounded toward zero; by zero all ones (05/R130). -/
def divS (a b : Dword) : Dword := if b = 0 then BitVec.allOnes 64 else BitVec.sdiv a b
def divN (a b : Dword) : Dword := if b = 0 then BitVec.allOnes 64 else a / b

/-- Remainder with the sign of the dividend; by zero the dividend (05/R130). -/
def remS (a b : Dword) : Dword := if b = 0 then a else BitVec.srem a b
def remN (a b : Dword) : Dword := if b = 0 then a else a % b

/-- High halves of products. -/
def mulHigh (a b : Dword) : Dword := BitVec.ofInt 64 (a.toInt * b.toInt / 2 ^ 64)
def mulHighN (a b : Dword) : Dword := BitVec.ofNat 64 (a.toNat * b.toNat / 2 ^ 64)

/-- A signed value clamped to a range. -/
def clampS (v : Dword) (lo hi : Int) : Nat := (max lo (min hi v.toInt)).toNat

/-- The value of a lane or flag as a number. -/
def boolNat (b : Bool) : Nat := if b then 1 else 0

end Sys2Proof.Machine
end

