-- ==== Sys2Proof/Machine/Flags.lean ====
section
/-!
DEFINITION. Predicates and sticky conditions. The machine has no flags that integer words set (05/R127); its flag
computations are the comparisons of CMP and CMPI (04/R92, 05/R132), the lane predicates of KOP (08/R243), and the
sticky condition bits of ASRSTAT and XSTAT (06/R153, 08/R230).
-/

namespace Sys2Proof.Machine

/-- The conditions of 04/R92; a code above 5 is no condition. -/
def holds (cond : Nat) (a b : Dword) : Bool :=
  match cond with
  | 0 => a == b
  | 1 => a != b
  | 2 => a.slt b
  | 3 => b.sle a
  | 4 => a.ult b
  | 5 => b.ule a
  | _ => false

/-- Combining a comparison with the predicate's old value (05/R132): write, AND, OR. -/
def combine (comb : BitVec 3) (old : TBit) (c : TBit) : TBit :=
  match comb.toNat with
  | 0 => c
  | 1 => ⟨old.v && c.v, old.t || c.t⟩
  | _ => ⟨old.v || c.v, old.t || c.t⟩

/-- KOP's operations on lane predicates (08/R243). -/
def lanesOp (op : BitVec 3) (a b : Dword) : Dword :=
  match op.toNat with
  | 0 => a &&& b
  | 1 => a ||| b
  | 2 => a ^^^ b
  | 3 => a &&& ~~~b
  | _ => ~~~a

/-- Condition bits: 0 invalid, 1 divide-by-zero, 2 overflow, 3 underflow, 4 inexact (06/R153, 08/R230). -/
structure Conds where
  invalid : Bool
  divZero : Bool
  overflow : Bool
  underflow : Bool
  inexact : Bool
deriving DecidableEq, Repr

def Conds.none : Conds := ⟨false, false, false, false, false⟩

def Conds.or (a b : Conds) : Conds :=
  ⟨a.invalid || b.invalid, a.divZero || b.divZero, a.overflow || b.overflow, a.underflow || b.underflow,
    a.inexact || b.inexact⟩

/-- The condition bits as the CSRs hold them. -/
def Conds.bits (c : Conds) : BitVec 5 :=
  BitVec.ofNat 5 (boolNat c.invalid + 2 * boolNat c.divZero + 4 * boolNat c.overflow + 8 * boolNat c.underflow +
    16 * boolNat c.inexact)

/-- Conditions add to the sticky bits. -/
def stick (old : BitVec 5) (c : Conds) : BitVec 5 := old ||| c.bits

/-- The heat's counter of control taint (05/R128). -/
def countControl (h : Heat) (tainted : Bool) : Heat :=
  if tainted then { h with ctl := { h.ctl with tControl := satAdd h.ctl.tControl 1 } } else h

end Sys2Proof.Machine
end

