-- ==== Sys2Proof/Machine/Shared.lean ====
section
/-!
DEFINITION. The shared control words, which every seat executes (05/R110 to R126), the end of a loop iteration
(05/R117), the drain of a taken exit (05/R123), and the faults of a word that is no instruction or cannot be fetched
(04/R107, 05/R114).
-/

namespace Sys2Proof.Machine

/-- A shared word met by the acting seat. -/
def issueShared (w : Issue) (body : Seat → State → Heat → Effect) (s : State) : Host.Outcome State Fault Refusal :=
  let p := (s.cur.elim Seat.C fun c => c.seat)
  issueG w p (body p) s

/-- A shared word without registers. -/
def sharedIssue (handler : Bool) : Issue := { Issue.c 1 [] [] false with handler := handler }

/-- Address of a word displaced by a signed number of words (04/R85). -/
def displace {n : Nat} (pc : Dword) (d : BitVec n) : Dword := pc + d.signExtend 64 * 4

/-- A seat goes to an address. -/
def goTo (h : Heat) (pc : Dword) (v : SeatState) : SeatState := arrive h { v with pc := pc }

/-- The acting seat's number of unfinished calls. -/
def SeatState.depth (v : SeatState) : Nat := v.ret.length

/-- The innermost level, if it was opened at the current call depth. -/
def SeatState.inner (v : SeatState) : Option Level :=
  match v.loops with
  | [] => none
  | l :: _ => if l.depth = v.depth then some l else none

/-- A BR or JMP may target only the innermost loop of the current call depth (05/R113). -/
def targetOk (v : SeatState) (t : Dword) : Bool :=
  match v.inner with
  | none => true
  | some l => decide (l.start.toNat ≤ t.toNat ∧ t.toNat ≤ l.stop.toNat)

/-! ## The outcome queue (02/R20) -/

/-- Whether every other seat has taken an entry. -/
def OutcomeEntry.taken_ (h : Heat) (e : OutcomeEntry) : Bool :=
  (e.seenL || h.L.ended) && (e.seenX || h.X.ended) && (e.seenS || h.S.ended)

/-- C appends an outcome, or waits while the queue holds sixteen. -/
def appendOutcome (h : Heat) (taken : Bool) (count : Nat) (strides : List StrideSlot) : Run Heat :=
  let q := h.outcomes.filter fun e => !e.taken_ h
  if 16 ≤ q.length then .error (.wait .empty (h.live [.L, .X, .S]) 3)
  else
    let e : OutcomeEntry :=
      { tt := h.tt .C, text := h.C.pc, taken := taken, count := count, strides := strides, seenL := false, seenX := false
        seenS := false }
    .ok { h with outcomes := q ++ [e] }

/-- The outcome of the instance with a text time. -/
def outcomeAt (h : Heat) (tt : Nat) : Option OutcomeEntry := h.outcomes.find? fun e => e.tt == tt

/-- A seat takes the outcome of an instance. -/
def takeOutcome (h : Heat) (p : Seat) (tt : Nat) : Heat :=
  let mark (e : OutcomeEntry) : OutcomeEntry :=
    match p with
    | .L => { e with seenL := true }
    | .X => { e with seenX := true }
    | .S => { e with seenS := true }
    | .C => e
  { h with outcomes := (mapIf (fun e => e.tt == tt) mark h.outcomes).filter fun e => !e.taken_ h }

/-- The outcome that a seat other than C follows, or its wait for C. -/
def followOutcome (h : Heat) (p : Seat) : Run (OutcomeEntry × Heat) :=
  match outcomeAt h (h.tt p) with
  | none => .error (.wait .empty [.C] 3)
  | some e => .ok (e, takeOutcome h p (h.tt p))

/-! ## Words -/

/-- NOPA (05/R111). -/
def execNopa (s : State) : Host.Outcome State Fault Refusal :=
  issueShared (sharedIssue true) (fun _ s h => .ok (s, h, nextWord h 1)) s

/-- BR (05/R111, R113, R128). b0 needs no register; a tainted predicate counts as control taint. -/
def execBr (bp : BitVec 3) (neg : Bool) (disp : BitVec 20) (s : State) : Host.Outcome State Fault Refusal :=
  issueShared (sharedIssue true) (fun p s h =>
    let v := h.seat p
    let target := displace v.pc disp
    let inHandler := s.cur.elim false fun c => c.handler.isSome
    if p = .C then
      let b := h.b bp
      let taken := b.v != neg
      if taken && !targetOk v target then .error Stay.illegal
      else
        let go := if taken then goTo h target else nextWord h 1
        if inHandler then .ok (s, countControl h b.t, go)
        else match appendOutcome h taken 0 [] with
          | .error e => .error e
          | .ok h' => .ok (s, countControl h' b.t, go)
    else match followOutcome h p with
      | .error e => .error e
      | .ok (e, h') => .ok (s, h', if e.taken then goTo h target else nextWord h 1)) s

/-- JMP (05/R111, R113): a target outside the loop is C's fault; another seat waits for it. -/
def execJmp (disp : BitVec 24) (s : State) : Host.Outcome State Fault Refusal :=
  issueShared (sharedIssue true) (fun p s h =>
    let v := h.seat p
    let target := displace v.pc disp
    if targetOk v target then .ok (s, h, goTo h target)
    else if p = .C then .error Stay.illegal
    else .error (.wait .empty [.C] 3)) s

/-- CALL (05/R111, R112). -/
def execCall (disp : BitVec 24) (s : State) : Host.Outcome State Fault Refusal :=
  issueShared (sharedIssue false) (fun p s h =>
    let v := h.seat p
    if 16 ≤ v.ret.length then .error Stay.illegal
    else .ok (s, h, fun u => goTo h (displace v.pc disp) { u with ret := (v.pc + 4) :: v.ret })) s

/-- RET (05/R111, R112, R113). -/
def execRet (s : State) : Host.Outcome State Fault Refusal :=
  issueShared (sharedIssue false) (fun p s h =>
    let v := h.seat p
    match v.ret with
    | [] => .error Stay.illegal
    | a :: t =>
      if v.inner.isSome then .error Stay.illegal
      else .ok (s, h, fun u => goTo h a { u with ret := t })) s

/-- A seat enters a loop of n iterations at its LOOP word, or skips it (05/R116). -/
def enterLoop (h : Heat) (body n : Nat) (strides : List StrideSlot) (v : SeatState) : SeatState :=
  let stop := v.pc + 4 + BitVec.ofNat 64 (4 * body)
  let l : Level :=
    { loopAddr := v.pc, start := v.pc + 4, stop := stop, remain := n, iter := 1, depth := v.depth, strides := strides }
  if n = 0 then atExit h l (goTo h stop v)
  else arrive h { v with pc := v.pc + 4, loops := l :: v.loops }

/-- The stride slots of a level number (05/R119). -/
def stridesOf (h : Heat) (level : Nat) : List StrideSlot := (h.c.strides.toList.drop (4 * level)).take 4

/-- A body that ends beyond the end of the body of the enclosing active loop, at whatever call depth that loop was
opened (04/R87). -/
def endsBeyond (v : SeatState) (body : Nat) : Bool :=
  match v.loops with
  | [] => false
  | l :: _ => decide (l.stop.toNat < v.pc.toNat + 4 + 4 * body)

/-- LOOP with a count that C resolves (05/R110, R116, R128; 04/R87). The first seat to reach an illegal one raises the
fault (04/R107). DESIGN CHOICE (log 34): a count of 0 raises it too, where 05/R116 would push no level. -/
def loopBody (n : Heat → Nat × Bool) (body : Nat) (p : Seat) (s : State) (h : Heat) : Effect :=
  let v := h.seat p
  if 6 ≤ v.loops.length ∨ endsBeyond v body then .error Stay.illegal
  else if p = .C then
    let strides := stridesOf h v.loops.length
    match appendOutcome h false (n h).1 strides with
    | .error e => .error e
    | .ok h' => .ok (s, countControl h' (n h).2, enterLoop h body (n h).1 strides)
  else match followOutcome h p with
    | .error e => .error e
    | .ok (e, h') => .ok (s, h', enterLoop h body e.count e.strides)

/-- LOOP lcN (05/R116). -/
def execLoopLc (lc : BitVec 3) (body : BitVec 12) (s : State) : Host.Outcome State Fault Refusal :=
  issueShared ((sharedIssue false).of (.loopLc lc body))
    (loopBody (fun h => let c := h.c.lc.toList.getD lc.toNat ⟨0, false⟩; (c.v.toNat, c.t)) body.toNat) s

/-- LOOP n (05/R116). -/
def execLoopImm (count : BitVec 11) (body : BitVec 12) (s : State) : Host.Outcome State Fault Refusal :=
  issueShared ((sharedIssue false).of (.loopImm count body))
    (loopBody (fun _ => (count.toNat, false)) body.toNat) s

/-- Add a stride to a pointer, with its taint (05/R119, R120). -/
def applyStride (p : Seat) (h : Heat) (x : StrideSlot) : Heat :=
  if x.en && (if p = .L then !x.seatS else x.seatS) then
    let q := h.p p x.p
    h.setP p x.p ⟨q.v + x.stride.v, q.t || x.stride.t⟩
  else h

/-- A seat ends an iteration of its innermost loop (05/R117). -/
def endIteration (h : Heat) (p : Seat) (l : Level) : Heat :=
  let h1 := if p = .L ∨ p = .S then l.strides.foldl (applyStride p) h else h
  h1.onSeat p fun v =>
    if 1 < l.remain then
      let l' := { l with remain := l.remain - 1, iter := l.iter + 1 }
      let v' := { v with pc := l.start, loops := l' :: v.loops.tail }
      if l.loopAddr = h.type.kernel then { v' with atBoundary := true, atFinal := false } else v'
    else atExit h l (arrive h { v with pc := l.stop, loops := v.loops.tail })

/-- Whether a seat stands at the end of its innermost loop (05/R117). -/
def atIterationEnd (v : SeatState) : Option Level :=
  match v.inner with
  | some l => if v.pc = l.stop then some l else none
  | none => none

/-- ITERATION_END (05/R117): a step of its own, which takes no issue cycle. -/
def execIterationEnd (s : State) : Host.Outcome State Fault Refusal :=
  match s.acting with
  | none => .next s
  | some (h, c) =>
    match atIterationEnd (h.seat c.seat) with
    | none => .next s
    | some l => .next { s.putHeat (endIteration h c.seat l) with waited := false }

/-- A taken exit: the innermost level ends with no strides, and the seat's drain of the commands before next begins
(05/R121, R123). -/
def leaveLoop (h : Heat) (l : Level) (tt next : Nat) (v : SeatState) : SeatState :=
  { atExit h l (arrive h { v with pc := l.stop, loops := v.loops.tail }) with
    exits := v.exits ++ [{ tt := tt, last := next }], check := none }

/-- The state that a seat returns to if the exit it ran past proves taken (05/R122). -/
def checkpoint (h : Heat) (p : Seat) : Checkpoint :=
  let v := h.seat p
  { tt := v.tt, stop := v.pc, loops := v.loops, ptrs := if p = .S then h.pS else h.pL, passed := v.passed,
    atBoundary := v.atBoundary, atFinal := v.atFinal }

/-- An exit resolves: the faults of commands issued past it are suppressed or stand (05/R124). -/
def resolvePast (s : State) (uid tt : Nat) (taken : Bool) : State :=
  { s with
    cmds := mapIf (fun c => c.heat == uid && c.past == some tt)
      (fun c => { c with past := none, suppressed := c.suppressed || taken }) s.cmds }

/-- LEXIT (05/R121 to R124, R128). -/
def execLexit (bp : BitVec 3) (neg : Bool) (s : State) : Host.Outcome State Fault Refusal :=
  issueShared (sharedIssue false) (fun p s h =>
    let v := h.seat p
    match v.inner with
    | none => .error Stay.illegal
    | some l =>
      if p = .C then
        let b := h.b bp
        let taken := b.v != neg
        match appendOutcome h taken 0 [] with
        | .error e => .error e
        | .ok h' => .ok (resolvePast s h.id.uid v.tt taken, countControl h' b.t,
            if taken then leaveLoop h l v.tt s.nextId else nextWord h 1)
      else match followOutcome h p with
        | .ok (e, h') => .ok (s, h', if e.taken then leaveLoop h l v.tt s.nextId else nextWord h 1)
        | .error _ => .ok (s, h, fun u => { nextWord h 1 u with check := some (checkpoint h p) })) s

/-- The outcome of an exit that a seat ran past has come: back to the exit, or on with no change (05/R122). -/
def settleCheck (next : Nat) (h : Heat) (p : Seat) (c : Checkpoint) : Option Heat :=
  (outcomeAt h c.tt).map fun e =>
    let h1 := takeOutcome h p c.tt
    if e.taken then
      let h2 := if p = .S then { h1 with pS := c.ptrs } else if p = .L then { h1 with pL := c.ptrs } else h1
      h2.onSeat p fun v =>
        let back := { v with
          tt := c.tt, pc := c.stop, loops := c.loops, passed := c.passed, atBoundary := c.atBoundary
          atFinal := c.atFinal, seen := v.seen.filter fun e => decide (e.tt < c.tt) }
        match c.loops with
        | [] => { passOne back with check := none }
        | l :: _ => leaveLoop h l c.tt next (passOne back)
    else h1.onSeat p fun v => { v with check := none }

/-- Whether every seat of a heat has passed its oldest taken exit and drained the commands before it (05/R123,
step 3). The seats pass the exits in one order. -/
def exitDrained (s : State) (h : Heat) : Bool :=
  (h.live seats).all (fun p => match (h.seat p).exits with
    | [] => false
    | e :: _ => (s.cmdsOfSeat h.id.uid p).all fun c => decide (e.last ≤ c.id)) &&
    !(h.live seats).isEmpty

/-- LEXIT_DRAIN (05/R123): the token FIFOs are emptied, with the tokens that are not visible yet, and the exit is
over. -/
def execLexitDrain (heat : Nat) (s : State) : Host.Outcome State Fault Refusal :=
  match s.heat? heat with
  | none => .next s
  | some h =>
    if exitDrained s h then
      let spent (v : SeatState) : SeatState := { v with exits := v.exits.tail }
      .next (s.putHeat { h with
        fifo := Vector.replicate 6 0, hidden := [], C := spent h.C, L := spent h.L, X := spent h.X, S := spent h.S })
    else .next s

/-- The stroke whose first cycle a seat's next STROKE is passed in (05/R125). -/
def nextStroke (h : Heat) (v : SeatState) : Nat := if v.strokeSeen then v.strokeNo + 1 else h.firstStroke

/-- STROKE (05/R125): NOPA in uncoxed mode. -/
def execStroke (s : State) : Host.Outcome State Fault Refusal :=
  issueShared (sharedIssue false) (fun p s h =>
    let v := h.seat p
    let n := nextStroke h v
    if !h.id.coxed then .ok (s, h, nextWord h 1)
    else if s.now < n * s.dev.strokeLen then .error (.wait .empty [] 9)
    else if s.now = n * s.dev.strokeLen then
      .ok (s, h, fun u => nextWord h 1 { u with strokeBase := s.now, strokeNo := n, strokeSeen := true })
    else .error (.fault clsOverrun 0 (overrunStatus 0xFFFF 9 0))) s

/-- HEND (05/R126): the seat discards its loops and return stack and fetches nothing further. -/
def execHend (s : State) : Host.Outcome State Fault Refusal :=
  issueShared (sharedIssue false) (fun _ s h =>
    .ok (s, h, fun u => { u with ended := true, loops := [], ret := [], check := none, exits := [] })) s

/-- ILLEGAL_ENCODING (04/R107): the acting seat meets a word that is no instruction. -/
def execIllegalEncoding (s : State) : Host.Outcome State Fault Refusal :=
  let p := (s.cur.elim Seat.C fun c => c.seat)
  match s.acting with
  | none => .next s
  | some _ => issueG { sharedIssue true with bad := true } p (fun _ _ => .error Stay.illegal) s

/-- FETCH_FAILURE (05/R114): the acting seat's next word cannot be fetched; the fault address is the word's. -/
def execFetchFailure (protection : Bool) (s : State) : Host.Outcome State Fault Refusal :=
  let p := (s.cur.elim Seat.C fun c => c.seat)
  match s.acting with
  | none => .next s
  | some _ => issueG (sharedIssue true) p (fun _ h =>
      faultAt (if protection then clsProtection else clsTranslation) (h.seat p).pc) s

/-! ## Walking the text (02/R13, R15; 04/R84, R108) -/

/-- What stands at a seat's next address. -/
inductive Head where
  /-- An instruction that the seat executes. -/
  | own (i : Instr)
  /-- A word of another seat, of a length in words. -/
  | foreign (owner : Seat) (len : Nat) (i : Option Instr)
deriving DecidableEq, Repr

/-- Read the word at a seat's next address, whole if the seat executes it. -/
def headAt (s : State) (h : Heat) (p : Seat) : State × Head :=
  let pc := (h.seat p).pc
  match fetchWord s h pc with
  | .error e => (s, .own (.fetchFailure (e == clsProtection)))
  | .ok (s1, w0) =>
    let long := isLong w0
    let cut := long && (h.seat p).inner.elim false (fun l => pc + 4 == l.stop)
    let owner := (ownerOf w0).getD p
    let mine := owner == p
    if cut then (s1, .own .illegalEncoding)
    else if mine then
      (if long then
        match fetchWord s1 h (pc + 4) with
        | .error e => (s1, .own (.fetchFailure (e == clsProtection)))
        | .ok (s2, w1) => (s2, .own (match decodeWords w0 w1 with | .ok i => i | .error _ => .illegalEncoding))
      else (s1, .own (match decodeWords w0 0 with | .ok i => i | .error _ => .illegalEncoding)))
    else if long then
      match fetchWord s1 h (pc + 4) with
      | .error _ => (s1, .foreign owner 2 none)
      | .ok (s2, w1) => (s2, .foreign owner 2 (decodeWords w0 w1).toOption)
    else (s1, .foreign owner 1 (decodeWords w0 0).toOption)

/-- C words at whose text time another seat waits: fences above seat scope and WPV (06/R157, 14/R386), and the words
after whose return every access of the heat is ordered (06/R161, R163; 12/R359, R368). An arrival at a barrier object
orders only the writes after it (12/R368), which are S's. -/
def holdsAll (p : Seat) : Option Instr → Bool
  | some (.fence sc) => sc != 0
  | some (.fencea sc) => sc != 0
  | some (.fencer sc) => sc != 0
  | some .wpv => true
  | some (.bararr _ _) => p == .S
  | some (.barwait _ _) => true
  | some (.dbar _) => true
  | some (.waitcoAll _ _) => true
  | some (.waitcoAny _ _) => true
  | some (.testco _ _) => true
  | some (.waitc _ _ _ _) => true
  | _ => false

/-- The slot and the control fields of an engine command; C's commands have no slot (04/R98, R101). -/
def commandOf : Instr → Option (Option Slot × Ctl)
  | .spawn _ _ c => some (none, c)
  | .spawnt _ _ _ _ c => some (none, c)
  | .resume _ _ c => some (none, c)
  | .copyco _ _ _ c => some (none, c)
  | .cpyin w _ _ _ c => some (some w, c)
  | .gatr w _ _ _ c => some (some w, c)
  | .ldblk w _ _ _ c => some (some w, c)
  | .ldblkRel w _ c => some (some w, c)
  | .stunmap w _ c => some (some w, c)
  | .stflush w _ _ c => some (some w, c)
  | .bagopen w _ c => some (some w, c)
  | .cpyout w _ _ _ c => some (some w, c)
  | .scatr w _ _ _ c => some (some w, c)
  | .bagclose w _ c => some (some w, c)
  | .asrcpy w _ _ _ _ c => some (some w, c)
  | .coll w _ c => some (some w, c)
  | .mbag w _ _ _ _ c => some (some w, c)
  | .mmul w _ _ _ _ _ c => some (some w, c)
  | .mdist w _ _ _ _ _ c => some (some w, c)
  | .mtopk w _ _ _ _ _ _ _ _ c => some (some w, c)
  | .mret w _ _ c => some (some w, c)
  | .mretRegion w _ _ _ c => some (some w, c)
  | .mclr w _ _ _ c => some (some w, c)
  | _ => none

/-- The scalar register that a C word writes. -/
def scalarOut : Instr → Option (BitVec 6)
  | .add d _ _ | .sub d _ _ | .and d _ _ | .or d _ _ | .xor d _ _ | .shl d _ _ | .shr d _ _ | .sar d _ _
  | .mul d _ _ | .mulh d _ _ | .mulhn d _ _ | .div d _ _ | .divn d _ _ | .rem d _ _ | .remn d _ _
  | .min d _ _ | .max d _ _ | .minn d _ _ | .maxn d _ _ | .clz d _ | .popc d _ | .bfx d _ _ _ | .bfi d _ _
  | .sel d _ _ _ _ | .sext d _ _ | .zext d _ _ | .lea d _ _ _ | .addi d _ _ | .andi d _ _ | .ori d _ _
  | .xori d _ _ | .shli d _ _ | .shri d _ _ | .sari d _ _ | .movi d _ _ | .movhi d _ _ | .lds d _ _ _ _
  | .csrr d _ | .rdclk d | .rdstroke d | .wfe d _ | .aadd d _ _ _ _ _ | .amin d _ _ _ _ _ | .amax d _ _ _ _ _
  | .aminn d _ _ _ _ _ | .amaxn d _ _ _ _ _ | .aand d _ _ _ _ _ | .aor d _ _ _ _ _ | .axor d _ _ _ _ _
  | .axchg d _ _ _ _ _ | .acas d _ _ _ _ _ | .faadd d _ _ _ _ | .famin d _ _ _ _ | .famax d _ _ _ _
  | .ald d _ _ _ _ | .bararr d _ | .waitcoAll d _ | .waitcoAny d _ | .testco d _ | .spawn d _ _
  | .spawnt d _ _ _ _ | .cancel d _ _ _ | .waitc d _ _ _ | .resume d _ _ | .dropco d _ | .self d _ | .slnext d
  | .taintq d _ | .taintqMem d _ | .tclr d _ | .tcnt d _ _ => some d
  | _ => none

/-- What a word of another seat, at an address, may make a later word wait for. -/
def seenOf (pc : Dword) (i : Instr) : List SeenKind :=
  (match scalarOut i with
   | some d => [.scalar d]
   | none => []) ++
  (match commandOf i with
   | some (_, c) => [.cmd c.co]
   | none => []) ++
  (match i with
   | .vcmp _ kd _ _ _ => [.lanes kd]
   | .kop _ kd _ _ _ => [.lanes kd]
   | .csrw _ n => if n = 0x042 then [.xferbar] else []
   | .rset _ f _ => [.ring ((f >>> 27).setWidth 3)]
   | .stmap .. | .stunmap .. => [.stash]
   | .lQset _ q _ _ _ _ _ _ => [.stream q]
   | .sQset _ q _ _ _ _ _ _ => [.stream q]
   | .bagopen _ disp _ => [.opens (displace pc disp)]
   | .bagclose w disp _ => [.close (displace pc disp) (w.pred == 0 && !w.first && !w.last)]
   | _ => [])

/-- The slot of a word that a first-only or last-only flag may skip. -/
def slotOf : Instr → Option Slot
  | .vcmp w _ _ _ _ | .kop w _ _ _ _ | .rset w _ _ | .stmap w _ _ _ _ _ | .lQset w _ _ _ _ _ _ _ | .sQset w _ _ _ _ _ _ _ => some w
  | i => (commandOf i).bind (·.1)

/-- The class of a seat's wait at a C word that holds it: a fence counts as engine busy (18/R396). -/
def holdKind : Option Instr → WaitKind
  | some (.fence _) | some (.fencea _) | some (.fencer _) => .engine
  | _ => .empty

/-- Words of other seats that a seat has passed in a cycle; it passes at most eight (02/R13). -/
def SeatState.skipped (v : SeatState) (now : Nat) : Nat := if v.skips.1 = now then v.skips.2 else 0

/-- A seat passes a word of another seat in a cycle. -/
def passForeign (now : Nat) (h : Heat) (p owner : Seat) (len : Nat) (i : Option Instr) : Heat :=
  h.onSeat p fun v =>
    let new := match i with
      | some i => if (slotOf i).elim false (flagSkips v) then []
          else (seenOf v.pc i).map fun k => ({ tt := v.tt, owner := owner, kind := k } : Seen)
      | none => []
    nextWord h len (passOne { v with seen := v.seen.filter h.owes ++ new, skips := (now, v.skipped now + 1) })

/-- What a seat does next. -/
inductive Walk where
  | run (i : Instr)
  | idle
deriving DecidableEq, Repr

/-- A seat passes words of other seats, at most eight in a cycle, and iteration ends, which take no issue cycle (02/R13,
05/R117), and comes to what it does next: an instruction of its own, or nothing yet; n bounds the steps of the walk. -/
def walkSeat : Nat → State → Heat → Seat → State × Heat × Walk
  | n, s, h, p =>
    let v := h.seat p
    if v.ended || v.stopped then (s, h, .idle)
    else if stopsHere h p then (s, h.onSeat p fun v => { v with stopped := true }, .idle)
    else
      match n with
      | 0 => (s, noteWait s h p .empty, .idle)
      | n + 1 =>
        match v.check.bind fun c => settleCheck s.nextId h p c with
        | some h' => walkSeat n s h' p
        | none =>
          match atIterationEnd v with
          | some l => walkSeat n s (endIteration h p l) p
          | none =>
            match headAt s h p with
            | (s1, .own i) => (s1, h, .run i)
            | (s1, .foreign owner len i) =>
              let held := holdsAll p i && decide (h.tt .C ≤ v.tt)
              if held && h.C.stopped then (s1, h.onSeat p fun v => { v with stopped := true }, .idle)
              else if held && !h.C.ended then (s1, noteWait s1 h p (holdKind i), .idle)
              else if (passWait h p).isSome || debugHeld s1 h p || decide (8 ≤ v.skipped s1.now) then
                (s1, noteWait s1 h p .empty, .idle)
              else walkSeat n s1 (passForeign s1.now h p owner len i) p

end Sys2Proof.Machine
end

