-- ==== Sys2Proof/Machine/Scalar.lean ====
section
/-!
DEFINITION. The integer words of C: register form, immediates and long immediates (05/R127 to R134).
-/

namespace Sys2Proof.Machine

/-- A word sd := f(sa, sb) whose result carries both taints (05/R127). -/
def binary (f : Dword → Dword → Dword) (d a b : BitVec 6) (s : State) : Host.Outcome State Fault Refusal :=
  issueC (Issue.c 1 [d, a, b] [a, b] true) (fun h =>
    match readS2 h a b with
    | .error e => .error e
    | .ok (x, y) => .ok (h.setS d ⟨f x.v y.v, x.t || y.t⟩)) s

/-- A word sd := f(sa). -/
def unary (w : Issue) (f : Dword → Dword) (d a : BitVec 6) (s : State) : Host.Outcome State Fault Refusal :=
  issueC w (fun h =>
    match readS h .C a with
    | .error e => .error e
    | .ok x => .ok (h.setS d ⟨f x.v, x.t⟩)) s

/-- NOP (05/R129). -/
def execNop (s : State) : Host.Outcome State Fault Refusal :=
  issueC (Issue.c 1 [] [] false) (fun h => .ok h) s

/-- ADD (05/R129). -/
def execAdd (d a b : BitVec 6) (s : State) : Host.Outcome State Fault Refusal := binary (fun x y => x + y) d a b s

/-- SUB (05/R129). -/
def execSub (d a b : BitVec 6) (s : State) : Host.Outcome State Fault Refusal := binary (fun x y => x - y) d a b s

/-- AND (05/R129). -/
def execAnd (d a b : BitVec 6) (s : State) : Host.Outcome State Fault Refusal := binary (fun x y => x &&& y) d a b s

/-- OR (05/R129). -/
def execOr (d a b : BitVec 6) (s : State) : Host.Outcome State Fault Refusal := binary (fun x y => x ||| y) d a b s

/-- XOR (05/R129). -/
def execXor (d a b : BitVec 6) (s : State) : Host.Outcome State Fault Refusal := binary (fun x y => x ^^^ y) d a b s

/-- SHL (05/R129). -/
def execShl (d a b : BitVec 6) (s : State) : Host.Outcome State Fault Refusal := binary (fun x y => x <<< (y.toNat % 64)) d a b s

/-- SHR (05/R129). -/
def execShr (d a b : BitVec 6) (s : State) : Host.Outcome State Fault Refusal := binary (fun x y => x >>> (y.toNat % 64)) d a b s

/-- SAR (05/R129). -/
def execSar (d a b : BitVec 6) (s : State) : Host.Outcome State Fault Refusal := binary (fun x y => x.sshiftRight (y.toNat % 64)) d a b s

/-- MUL (05/R129). -/
def execMul (d a b : BitVec 6) (s : State) : Host.Outcome State Fault Refusal := binary (fun x y => x * y) d a b s

/-- MULH (05/R129). -/
def execMulh (d a b : BitVec 6) (s : State) : Host.Outcome State Fault Refusal := binary mulHigh d a b s

/-- MULHN (05/R129). -/
def execMulhn (d a b : BitVec 6) (s : State) : Host.Outcome State Fault Refusal := binary mulHighN d a b s

/-- DIV (05/R130). -/
def execDiv (d a b : BitVec 6) (s : State) : Host.Outcome State Fault Refusal := binary divS d a b s

/-- DIVN (05/R130). -/
def execDivn (d a b : BitVec 6) (s : State) : Host.Outcome State Fault Refusal := binary divN d a b s

/-- REM (05/R130). -/
def execRem (d a b : BitVec 6) (s : State) : Host.Outcome State Fault Refusal := binary remS d a b s

/-- REMN (05/R130). -/
def execRemn (d a b : BitVec 6) (s : State) : Host.Outcome State Fault Refusal := binary remN d a b s

/-- MIN (05/R129). -/
def execMin (d a b : BitVec 6) (s : State) : Host.Outcome State Fault Refusal := binary (fun x y => if y.slt x then y else x) d a b s

/-- MAX (05/R129). -/
def execMax (d a b : BitVec 6) (s : State) : Host.Outcome State Fault Refusal := binary (fun x y => if x.slt y then y else x) d a b s

/-- MINN (05/R129). -/
def execMinn (d a b : BitVec 6) (s : State) : Host.Outcome State Fault Refusal := binary (fun x y => if y.ult x then y else x) d a b s

/-- MAXN (05/R129). -/
def execMaxn (d a b : BitVec 6) (s : State) : Host.Outcome State Fault Refusal := binary (fun x y => if x.ult y then y else x) d a b s

/-- CLZ (05/R129). -/
def execClz (d a : BitVec 6) (s : State) : Host.Outcome State Fault Refusal :=
  unary (Issue.c 1 [d, a] [a] true) clz64 d a s

/-- POPC (05/R129). -/
def execPopc (d a : BitVec 6) (s : State) : Host.Outcome State Fault Refusal :=
  unary (Issue.c 1 [d, a] [a] true) popc64 d a s

/-- BFX (05/R131). -/
def execBfx (d a b : BitVec 6) (sgn : Bool) (s : State) : Host.Outcome State Fault Refusal :=
  binary (bitExtract sgn) d a b s

/-- BFI (05/R131): reads the old sd, whose taint the result carries too. -/
def execBfi (d a b : BitVec 6) (s : State) : Host.Outcome State Fault Refusal :=
  issueC (Issue.c 1 [d, a, b] [d, a, b] true) (fun h =>
    match readS h .C d with
    | .error e => .error e
    | .ok o =>
      match readS2 h a b with
      | .error e => .error e
      | .ok (x, y) => .ok (h.setS d ⟨bitInsert o.v x.v y.v, o.t || x.t || y.t⟩)) s

/-- SEL (05/R129): the taint includes that of the predicate. -/
def execSel (d a b : BitVec 6) (neg : Bool) (bp : BitVec 3) (s : State) : Host.Outcome State Fault Refusal :=
  issueC (Issue.c 1 [d, a, b] [a, b] true) (fun h =>
    match readS2 h a b with
    | .error e => .error e
    | .ok (x, y) =>
      let p := h.b bp
      .ok (h.setS d ⟨if p.v != neg then x.v else y.v, x.t || y.t || p.t⟩)) s

/-- CMP (05/R132). -/
def execCmp (comb bp : BitVec 3) (a b : BitVec 6) (cond : BitVec 4) (s : State) : Host.Outcome State Fault Refusal :=
  issueC ((Issue.c 1 [a, b] [a, b] false).of (.cmp comb bp a b cond)) (fun h =>
    match readS2 h a b with
    | .error e => .error e
    | .ok (x, y) => .ok (h.setB bp (combine comb (h.b bp) ⟨holds cond.toNat x.v y.v, x.t || y.t⟩))) s

/-- SEXT (05/R129). -/
def execSext (d a : BitVec 6) (w : BitVec 4) (s : State) : Host.Outcome State Fault Refusal :=
  unary ((Issue.c 1 [d, a] [a] true).of (.sext d a w)) (extend true (widthCode w)) d a s

/-- ZEXT (05/R129). -/
def execZext (d a : BitVec 6) (w : BitVec 4) (s : State) : Host.Outcome State Fault Refusal :=
  unary ((Issue.c 1 [d, a] [a] true).of (.zext d a w)) (extend false (widthCode w)) d a s

/-- LEA (05/R129). -/
def execLea (d a b : BitVec 6) (sh : BitVec 4) (s : State) : Host.Outcome State Fault Refusal :=
  binary (fun x y => x + (y <<< sh.toNat)) d a b s

/-- ADDI (05/R133). -/
def execAddi (d a : BitVec 6) (imm : BitVec 10) (s : State) : Host.Outcome State Fault Refusal :=
  unary (Issue.c 1 [d, a] [a] true) (fun x => x + simm imm) d a s

/-- ANDI (05/R133). -/
def execAndi (d a : BitVec 6) (imm : BitVec 10) (s : State) : Host.Outcome State Fault Refusal :=
  unary (Issue.c 1 [d, a] [a] true) (fun x => x &&& simm imm) d a s

/-- ORI (05/R133). -/
def execOri (d a : BitVec 6) (imm : BitVec 10) (s : State) : Host.Outcome State Fault Refusal :=
  unary (Issue.c 1 [d, a] [a] true) (fun x => x ||| simm imm) d a s

/-- XORI (05/R133). -/
def execXori (d a : BitVec 6) (imm : BitVec 10) (s : State) : Host.Outcome State Fault Refusal :=
  unary (Issue.c 1 [d, a] [a] true) (fun x => x ^^^ simm imm) d a s

/-- SHLI (05/R133). -/
def execShli (d a sh : BitVec 6) (s : State) : Host.Outcome State Fault Refusal :=
  unary (Issue.c 1 [d, a] [a] true) (fun x => x <<< sh.toNat) d a s

/-- SHRI (05/R133). -/
def execShri (d a sh : BitVec 6) (s : State) : Host.Outcome State Fault Refusal :=
  unary (Issue.c 1 [d, a] [a] true) (fun x => x >>> sh.toNat) d a s

/-- SARI (05/R133). -/
def execSari (d a sh : BitVec 6) (s : State) : Host.Outcome State Fault Refusal :=
  unary (Issue.c 1 [d, a] [a] true) (fun x => x.sshiftRight sh.toNat) d a s

/-- CMPI (05/R132): the immediate is sign-extended under either kind of comparison. -/
def execCmpi (cond bp : BitVec 3) (a : BitVec 6) (imm : BitVec 10) (s : State) : Host.Outcome State Fault Refusal :=
  issueC ((Issue.c 1 [a] [a] false).of (.cmpi cond bp a imm)) (fun h =>
    match readS h .C a with
    | .error e => .error e
    | .ok x => .ok (h.setB bp ⟨holds cond.toNat x.v (simm imm), x.t⟩)) s

/-- A long C word with a stamp. -/
def Issue.cLong (names reads : List (BitVec 6)) (version : Bool) (stamp : BitVec 16) : Issue :=
  { Issue.c 2 names reads version with stamp := some stamp }

/-- MOVI (05/R134). -/
def execMovi (d : BitVec 6) (imm : BitVec 32) (stamp : BitVec 16) (s : State) : Host.Outcome State Fault Refusal :=
  issueC (Issue.cLong [d] [] true stamp) (fun h => .ok (h.setS d ⟨simm imm, false⟩)) s

/-- MOVHI (05/R134): keeps the low half and the taint of the old sd. -/
def execMovhi (d : BitVec 6) (imm : BitVec 32) (stamp : BitVec 16) (s : State) : Host.Outcome State Fault Refusal :=
  issueC (Issue.cLong [d] [d] true stamp) (fun h =>
    match readS h .C d with
    | .error e => .error e
    | .ok o => .ok (h.setS d ⟨imm ++ o.v.setWidth 32, o.t⟩)) s

end Sys2Proof.Machine
end

