-- ==== Sys2Proof/Machine/System.lean ====
section
/-!
DEFINITION. C's loads and stores, CSRs, traps, loop counts, clocks and waits (05/R135 to R145), with the CSRs of every
chapter (06/R153, 07/R195, R206, 08/R230, R252, 13/R379, 20/R443, 22/R463 to R467), and the return of a load (02/R18).
-/

namespace Sys2Proof.Machine

/-! ## Scalar loads and stores (05/R135, R136) -/

/-- Whether an atomic of the core to bytes at pa has not been applied: C's accesses to one cell keep their order
(06/R154, 12/R368). -/
def cellBusy (s : State) (uid pa n : Nat) : Bool :=
  s.atomics.any fun a => a.heat == uid && !a.applied && (a.parts.any fun q => decide (q < pa + n ∧ pa < q + 32))

/-- C waits for its own atomics to the cell that an access names. -/
def cellWait (s : State) (h : Heat) (va : Dword) (n : Nat) (acc : Access) : Run Unit :=
  match resolve s h h.core va acc with
  | .ok (s1, f) => if f.kind != .table && cellBusy s1 h.id.uid f.pa n then .error (.wait .empty [.C] 0) else .ok ()
  | .error _ => .ok ()

/-- The taint of data read, and the heat's count of tainted words read (06/R180). -/
def countRead (h : Heat) (va : Nat) (data : List (Byte × Bool)) : Heat :=
  { h with ctl := { h.ctl with tRead := satAdd h.ctl.tRead (taintedWords va data) } }

/-- The heat's count of tainted words stored (06/R180). -/
def countStored (h : Heat) (va : Nat) (data : List (Byte × Bool)) : Heat :=
  { h with ctl := { h.ctl with tStored := satAdd h.ctl.tStored (taintedWords va data) } }

/-- A load is outstanding: its value is known and its register is pending. -/
def outstanding (s : State) (h : Heat) (d : BitVec 6) (v : TVal) (va : Dword) : State × Heat :=
  let q : Pending :=
    { id := s.nextId, dst := if d = 0 then none else some d, tt := h.tt .C, value := some v, text := h.C.pc, addr := va
      ctx := none, cancelled := false }
  ({ s with nextId := s.nextId + 1 }, { h with pend := h.pend ++ [q] })

/-- LDS's effect. -/
def loadScalar (d a : BitVec 6) (off : BitVec 23) (w : BitVec 3) (s : State) (h : Heat) : Run (State × Heat) :=
  match readS h .C a with
  | .error e => .error e
  | .ok base =>
    let va := base.v + simm off
    let (bits, signed) := loadWidth w
    let n := bits / 8
    if va.toNat % n ≠ 0 then faultAt clsAlignment va
    else match cellWait s h va n .read with
      | .error e => .error e
      | .ok () =>
        match loadAt s h h.core va n with
        | .error e => .error e
        | .ok (s1, data) =>
          let v := extend signed bits (BitVec.ofNat 64 (leNat (data.map (·.1))))
          .ok (outstanding (claim s1 s.nextId s1.nextId) (countRead h va.toNat data) d ⟨v, base.t || data.any (·.2)⟩ va)

/-- LDS (05/R135, R136). -/
def execLds (d a : BitVec 6) (off : BitVec 23) (w : BitVec 3) (stamp : BitVec 16) (s : State) :
    Host.Outcome State Fault Refusal :=
  issue ((Issue.cLong [d, a] [a] true stamp).of (.lds d a off w stamp)) .C (loadScalar d a off w) s

/-- STS's effect. -/
def storeScalar (d a : BitVec 6) (off : BitVec 23) (w : BitVec 3) (s : State) (h : Heat) : Run (State × Heat) :=
  match readS2 h d a with
  | .error e => .error e
  | .ok (x, base) =>
    let va := base.v + simm off
    let n := (loadWidth w).1 / 8
    if va.toNat % n ≠ 0 then faultAt clsAlignment va
    else match cellWait s h va n .write with
      | .error e => .error e
      | .ok () =>
        let data := withTaint (x.t || base.t) (leBytes n x.v.toNat)
        match storeAt s h h.core va data with
        | .error e => .error e
        | .ok s1 => .ok (s1, countStored h va.toNat data)

/-- STS (05/R135, R136). -/
def execSts (d a : BitVec 6) (off : BitVec 23) (w : BitVec 3) (stamp : BitVec 16) (s : State) :
    Host.Outcome State Fault Refusal :=
  issue ((Issue.cLong [d, a] [d, a] false stamp).of (.sts d a off w stamp)) .C (storeScalar d a off w) s

/-- A load of a peer's memory whose reply has not been released (10/R301). -/
def loadUnanswered (s : State) (h : Heat) (q : Pending) : Bool :=
  h.id.coxed && (match resolve s h h.core q.addr .read with
    | .ok (_, f) => unanswered s h.id.uid f.pa q.id
    | .error _ => false)

/-- The value of a load or an atomic comes in a beat with an uncorrectable error: the fault of its word (05/R136, 10/R321),
in the log too (20/R433). -/
def beatFault (s : State) (h : Heat) (q : Pending) : State :=
  let e : LogEntry :=
    { clock := s.now, unit := 8, line := match resolve s h h.core q.addr .read with
        | .ok (_, f) => f.pa / 128 * 128
        | .error _ => 0
      job := h.id.job, launch := h.id.launch, heat := h.id.index, cmd := noCommand }
  let h1 := { h with pend := h.pend.filter fun x => x.id != q.id }
  let s1 := { s with
    atomics := s.atomics.filter fun a => a.id != q.id, net := { s.net with badBeats := s.net.badBeats.filter (· != q.id) } }
  raiseFault (logError (s1.putHeat h1) h.die e) h1 (some .C) (faultInfo s1 h1 .C clsUncorrectable q.addr 0 (q.text &&& 0xFFFFFFFFFFFF) none false 15)

/-- A buffered reply whose load or atomic still waits for it. -/
def replyWaits (s : State) (e : Nat × Nat) : Bool := s.heats.any fun h => h.pend.any fun q => q.id == e.1

/-- A reply drains into the holding buffer of its core's port (20/R438). -/
def bufferReply (s : State) (h : Heat) (id : Nat) : State :=
  if s.net.inBuffer.contains (id, h.core) then s
  else { s with net := { s.net with inBuffer := s.net.inBuffer.filter (replyWaits s) ++ [(id, h.core)] } }

/-- Another reply stands before one in the buffer of its core's port (20/R441). -/
def buffered (s : State) (h : Heat) (id : Nat) : Bool :=
  (s.net.inBuffer.find? fun e => e.2 == h.core && replyWaits s e).elim false fun e => e.1 != id

/-- LOAD_RETURN (02/R18): the value of an outstanding load or atomic lands in its register, or in the register of the
handler context that issued it; a cancelled write-back is discarded (20/R440). A halted job takes it at release, in the
order of arrival (20/R441). -/
def execLoadReturn (id : Nat) (s : State) : Host.Outcome State Fault Refusal :=
  match s.heats.find? fun h => h.pend.any fun q => q.id == id with
  | none => .next s
  | some h =>
    match h.pend.find? (fun q => q.id == id) with
    | none => .next s
    | some q =>
      match q.value with
      | none => .next s
      | some v =>
        if riding s id then .next s
        else if messagesHeld s h then .next (bufferReply s h id)
        else if buffered s h id then .next s
        else if loadUnanswered s h q then .next s
        else if s.net.badBeats.contains id then .next (beatFault s h q)
        else
          let h1 := { h with pend := h.pend.filter fun x => x.id != id }
          let s := { s with atomics := s.atomics.filter fun a => a.id != id }
          match q.ctx, q.dst with
          | none, some d => .next (s.putHeat (if q.cancelled then h1 else h1.landS d q.tt v))
          | none, none => .next (s.putHeat h1)
          | some k, some d =>
            .next { s.putHeat h1 with
              handlers := mapIf (fun x => x.id == k)
                (fun x => if hd : d.toNat < 16 then { x with s := x.s.set d.toNat v hd } else x) s.handlers }
          | some _, none => .next (s.putHeat h1)

/-! ## Effective class (02/R45) -/

/-- Generation field of a barrier object (06/R158). -/
def barGen (s : State) (pa : Nat) : Nat := (cellGet s.mem.cells pa).toNat % 16

/-- Whether a heat has arrived where another one waits. -/
def arrivedAt (s : State) (w h : Heat) : Bool :=
  match w.C.wait with
  | some ⟨.barrier pa, _⟩ => assoc pa h.ctl.arrived == some (barGen s pa)
  | some ⟨.deviceBarrier id, _⟩ =>
    s.devBars.any fun b => b.job == h.id.job && b.launch == h.id.launch && b.id == id && b.arrived.contains h.id.index
  | _ => true

/-- Whether a heat lends its class to another: it waits where the other, of the same launch, has not arrived. -/
def lends (s : State) (w h : Heat) : Bool :=
  w.onCore && w.id.uid != h.id.uid && w.id.job == h.id.job && w.id.launch == h.id.launch && !h.id.detached &&
    !w.id.detached && !arrivedAt s w h

/-- One round of lending over the classes that the heats have: each takes the highest class lent to it. -/
def lendRound (s : State) (cs : List (Heat × Nat)) : List (Heat × Nat) :=
  cs.map fun x => (x.1, (cs.filter fun w => lends s w.1 x.1).foldl (fun m w => max m w.2) x.2)

/-- The classes of the heats after n rounds; as many rounds as there are heats reach along every chain of lenders. -/
def lendRounds (s : State) : Nat → List (Heat × Nat) → List (Heat × Nat)
  | 0, cs => cs
  | n + 1, cs => lendRounds s n (lendRound s cs)

/-- A heat's effective class: its own class, or the highest that it inherits, also through heats that have inherited
theirs (02/R45). -/
def Heat.effective (s : State) (h : Heat) : Nat :=
  if s.heats.any fun w => lends s w h then
    ((lendRounds s s.heats.length (s.heats.map fun k => (k, k.ctl.prio))).find? fun x => x.1.id.uid == h.id.uid).elim
      h.ctl.prio (·.2)
  else h.ctl.prio

/-! ## CSRs -/

/-- XSTAT as of C's text time, once X has passed every earlier word (08/R230). -/
def xstatCut (h : Heat) : Run (BitVec 5 × List (Nat × BitVec 5)) :=
  if h.tt .X < h.tt .C && !h.X.ended then .error (.wait .empty [.X] 3)
  else
    let early := h.x.statLog.filter fun e => decide (e.1 < h.tt .C)
    .ok (early.foldl (fun a e => a ||| e.2) h.x.stat, h.x.statLog.filter fun e => !decide (e.1 < h.tt .C))

/-- The seat of PROFSEL. -/
def profSeatOf (sel : Nat) : Seat := match sel % 4 with | 0 => .C | 1 => .L | 2 => .X | _ => .S

/-- A counter of PROFSEL's seat as of C's text time (20/R443; log 80). -/
def profCount (h : Heat) (sel : Nat) : Nat :=
  (assoc (sel / 256 % 256) (if profSeatOf sel = .C then h.C.profAll else (h.seat (profSeatOf sel)).profAt (h.tt .C))).getD 0

/-- PROFCNT waits for its seat, while that has not passed every earlier word. -/
def profWait (h : Heat) (sel : Nat) : Option Stay :=
  let p := profSeatOf sel
  if h.tt p < h.tt .C && !(h.seat p).ended then some (.wait .empty [p] 3) else none

/-- CSRs read as a plain value: number, value, tainted. -/
def csrPlain (s : State) (h : Heat) (n : Nat) : Option (Dword × Bool) :=
  match n with
  | 0x000 => some (BitVec.ofNat 64 (h.slot % 4 + 4 * (h.core % 256)), !h.id.coxed)
  | 0x001 => some (BitVec.ofNat 64 h.ctl.slipw, false)
  | 0x002 => some (BitVec.ofNat 64 h.ctl.tokwdog, false)
  | 0x003 => some (BitVec.ofNat 64 (h.ctl.prio % 4 + 4 * (h.effective s % 4)), !h.id.coxed)
  | 0x004 => some (BitVec.ofNat 64 h.ctl.specsup, false)
  | 0x010 => some (BitVec.ofNat 64 s.dev.strokeLen, false)
  | 0x011 => some (BitVec.ofNat 64 (boolNat h.id.coxed), false)
  | 0x012 => some (BitVec.ofNat 64 Config.timingVersion, false)
  | 0x020 => some (BitVec.ofNat 64 s.dev.ageCap, false)
  | 0x040 => some (h.ctl.asrstat.setWidth 64, false)
  | 0x041 => some (BitVec.ofNat 64 cowin, false)
  | 0x042 => some (h.ctl.xferbar, false)
  | 0x044 => some (BitVec.ofNat 64 s.dev.leaseMax, false)
  | 0x045 => some (BitVec.ofNat 64 h.ctl.cobRights, false)
  | 0x046 => some (h.ctl.cobImg, false)
  | 0x047 => some (BitVec.ofNat 64 h.ctl.profSel, false)
  | 0x048 => some (BitVec.ofNat 64 (profCount h h.ctl.profSel), !h.id.coxed)
  | 0x049 => some (s.dev.rebalCtl, false)
  | 0x04A => some (s.dev.clkAlign, false)
  | 0x04B => some (s.dev.gateCtl, false)
  | _ => none

/-- CSRR's effect (05/R137). -/
def readCsr (d : BitVec 6) (n : BitVec 10) (s : State) (h : Heat) : Run (State × Heat) :=
  if n = 0x043 then
    match xstatCut h with
    | .error e => .error e
    | .ok (v, rest) =>
      .ok (s, { h with x := { h.x with stat := v, statLog := rest } }.setS d ⟨v.setWidth 64, false⟩)
  else match csrPlain s h n.toNat, (if n = 0x048 then profWait h h.ctl.profSel else none) with
    | none, _ => .error Stay.illegal
    | some _, some e => .error e
    | some (v, t), none => .ok (s, h.setS d ⟨v, t⟩)

/-- CSRR (05/R137, R138). -/
def execCsrr (d : BitVec 6) (n : BitVec 10) (s : State) : Host.Outcome State Fault Refusal :=
  issue { Issue.c 1 [d] [] true with handler := false } .C (readCsr d n) s

/-- A write of CLKALIGN (22/R463, R464): ignored while busy, or with start while a coxed job is resident here or
on a device at the other end of a cabled link; a margin out
of range leaves the margin; a reference device is aligned at once, any other one begins its probes. -/
def writeClkAlign (s : State) (v : Dword) : State :=
  let r := s.dev.clkAlign
  let start := v.getLsbD 8
  if r.getLsbD 63 || (start && (s.sched.elim false (·.live) || !s.dev.peerCoxed.isEmpty)) then s
  else
    let margin := v.toNat / 2 ^ 16 % 2 ^ 16
    let margin := if 64 ≤ margin ∧ margin ≤ 4096 then margin else r.toNat / 2 ^ 16 % 2 ^ 16
    let ref := v.getLsbD 4
    let delay := ((s.dev.links.find? fun k => k.n == v.toNat % 16).elim 0 (·.latency)) % 2 ^ 16
    let aligned := if start then ref else r.getLsbD 62
    let reg := v.toNat % 32 + margin * 2 ^ 16 + delay * 2 ^ 32 + boolNat aligned * 2 ^ 62 +
      boolNat (start && !ref) * 2 ^ 63
    { s with dev := { s.dev with clkAlign := BitVec.ofNat 64 reg } }

/-- A write of REBALCTL (22/R465), held while a coxed job is resident; none when it is out of range. -/
def writeRebal (s : State) (v : Dword) : Option State :=
  let th := v.toNat / 2 ^ 8 % 2 ^ 8
  let iv := v.toNat / 2 ^ 16 % 2 ^ 16
  if th < 10 ∨ 200 < th ∨ iv = 0 then none
  else
    let v := BitVec.ofNat 64 (v.toNat % 2 + th * 2 ^ 8 + iv * 2 ^ 16)
    if s.sched.elim false (·.live) then some { s with dev := { s.dev with rebalPend := some v } }
    else some { s with dev := { s.dev with rebalCtl := v } }

/-- A write of GATECTL (22/R467), ignored while a coxed job is resident; a threshold of 0 leaves the threshold. -/
def writeGate (s : State) (v : Dword) : State :=
  if s.sched.elim false (·.live) then s
  else
    let th := v.toNat / 2 ^ 16 % 2 ^ 16
    let th := if th = 0 then s.dev.gateCtl.toNat / 2 ^ 16 % 2 ^ 16 else th
    { s with dev := { s.dev with gateCtl := BitVec.ofNat 64 (v.toNat % 2 + th * 2 ^ 16) } }

/-- CSRs that only a privileged heat writes. -/
def csrPrivileged (n : Nat) : Bool := n == 0x020 || n == 0x044 || n == 0x049 || n == 0x04A || n == 0x04B

/-- The effect of a CSR write; none for an unassigned or read-only number and for a value out of range. -/
def csrStore (s : State) (h : Heat) (n : Nat) (v : Dword) : Option (State × Heat) :=
  match n with
  | 0x002 => some (s, { h with ctl := { h.ctl with tokwdog := v.toNat % 2 ^ 32 } })
  | 0x004 => some (s, { h with ctl := { h.ctl with specsup := min v.toNat (2 ^ 32 - 1) } })
  | 0x020 =>
    if 256 ≤ v.toNat ∧ v.toNat ≤ 65535 then some ({ s with dev := { s.dev with ageCap := v.toNat } }, h) else none
  | 0x040 => some (s, { h with ctl := { h.ctl with asrstat := v.setWidth 5 } })
  | 0x042 =>
    let old : Version := { reg := .xferbar, tt := h.tt .C, old := ⟨h.ctl.xferbar, false⟩ }
    some (s, { h with
      versC := keepVersions h [.L, .X, .S] h.versC ++ [old]
      ctl := { h.ctl with xferbar := v &&& 0xFFFFFFFFFFFFFFF1 } })
  | 0x044 =>
    if 1 ≤ v.toNat ∧ v.toNat ≤ 256 then some ({ s with dev := { s.dev with leaseMax := v.toNat } }, h) else none
  | 0x045 => some (s, { h with ctl := { h.ctl with cobRights := v.toNat % 8 } })
  | 0x046 => some (s, { h with ctl := { h.ctl with cobImg := v &&& 0xFFFFFFFFFFFFF000 } })
  | 0x047 =>
    if v.toNat / 256 % 256 ≤ 137 then
      some (s, { h with ctl := { h.ctl with profSel := v.toNat % 4 + 256 * (v.toNat / 256 % 256) } })
    else none
  | 0x049 => (writeRebal s v).map fun s' => (s', h)
  | 0x04A => some (writeClkAlign s v, h)
  | 0x04B => some (writeGate s v, h)
  | _ => none

/-- CSRW's effect (05/R137): a privileged CSR needs privilege before its value is looked at. -/
def writeCsr (a : BitVec 6) (n : BitVec 10) (s : State) (h : Heat) : Run (State × Heat) :=
  match readS h .C a with
  | .error e => .error e
  | .ok x =>
    if csrPrivileged n.toNat && !s.privileged h then raise clsPrivilege
    else if n = 0x043 then
      match xstatCut h with
      | .error e => .error e
      | .ok (_, rest) => .ok (s, { h with x := { h.x with stat := x.v.setWidth 5, statLog := rest } })
    else match csrStore s h n.toNat x.v with
      | none => .error Stay.illegal
      | some r => .ok r

/-- CSRW (05/R137, R138). -/
def execCsrw (a : BitVec 6) (n : BitVec 10) (s : State) : Host.Outcome State Fault Refusal :=
  issue { Issue.c 1 [a] [a] (n == 0x042) with handler := false } .C (writeCsr a n) s

/-! ## Traps, loop counts, slip, priority, clocks -/

/-- A short C word that no handler may execute. -/
def Issue.seatOnly (names reads : List (BitVec 6)) (version : Bool) : Issue :=
  { Issue.c 1 names reads version with handler := false }

/-- TRAP (05/R139): the trap-instruction fault with its code. -/
def execTrap (code : BitVec 10) (s : State) : Host.Outcome State Fault Refusal :=
  issue (Issue.seatOnly [] [] false) .C (fun _ _ => .error (.fault clsTrap 0 (code.setWidth 64))) s

/-- BKPT (05/R139, 20/R437): the breakpoint fault, or a debug halt of the job while a debugger is attached. -/
def execBkpt (code : BitVec 10) (s : State) : Host.Outcome State Fault Refusal :=
  issue (Issue.seatOnly [] [] false) .C (fun s h =>
    if (s.job? h.id.job).elim false (·.debugger) then .ok (haltJob s h.id.job 1 0, h)
    else .error (.fault clsBreakpoint 0 (code.setWidth 64))) s

/-- SETLC (05/R140). -/
def execSetlc (lc : BitVec 3) (a : BitVec 6) (s : State) : Host.Outcome State Fault Refusal :=
  issueC ((Issue.seatOnly [a] [a] false).of (.setlc lc a)) (fun h =>
    match readS h .C a with
    | .error e => .error e
    | .ok x =>
      if hl : lc.toNat < 6 then
        .ok { h with c := { h.c with
          lc := h.c.lc.set lc.toNat ⟨BitVec.ofNat 64 (clampS x.v 0 (2 ^ 32 - 1)), x.t⟩ hl } }
      else .error Stay.illegal) s

/-- SETSTRD (05/R120). -/
def execSetstrd (lvl : BitVec 3) (a : BitVec 6) (seatS en : Bool) (slot : BitVec 2) (p : BitVec 4)
    (stamp : BitVec 16) (s : State) : Host.Outcome State Fault Refusal :=
  issueC ({ (Issue.cLong [a] [a] false stamp).of (.setstrd lvl a seatS en slot p stamp) with handler := false })
    (fun h =>
      match readS h .C a with
      | .error e => .error e
      | .ok x =>
        if hl : 4 * lvl.toNat + slot.toNat < 24 then
          .ok { h with c := { h.c with
            strides := h.c.strides.set (4 * lvl.toNat + slot.toNat) { seatS := seatS, en := en, p := p, stride := x } hl } }
        else .error Stay.illegal) s

/-- SETSLIP (05/R141, 02/R16). -/
def execSetslip (a : BitVec 6) (s : State) : Host.Outcome State Fault Refusal :=
  issueC (Issue.seatOnly [a] [a] false) (fun h =>
    match readS h .C a with
    | .error e => .error e
    | .ok x => .ok { h with ctl := { h.ctl with slipw := clampS x.v 4 256 } }) s

/-- PRIO (05/R141, 02/R45). DESIGN CHOICE (log 24): sa is clamped as a signed number, as SETSLIP's is; the manual says
that it is clamped and not how it is read. -/
def execPrio (a : BitVec 6) (s : State) : Host.Outcome State Fault Refusal :=
  issueC (Issue.seatOnly [a] [a] false) (fun h =>
    match readS h .C a with
    | .error e => .error e
    | .ok x => .ok { h with ctl := { h.ctl with prio := clampS x.v 0 3 } }) s

/-- RDCLK (05/R142): always tainted. -/
def execRdclk (d : BitVec 6) (s : State) : Host.Outcome State Fault Refusal :=
  issue (Issue.seatOnly [d] [] true) .C (fun s h => .ok (s, h.setS d ⟨BitVec.ofNat 64 s.now, true⟩)) s

/-- RDSTROKE (05/R142). -/
def execRdstroke (d : BitVec 6) (s : State) : Host.Outcome State Fault Refusal :=
  issue (Issue.seatOnly [d] [] true) .C (fun s h =>
    let n := if h.id.coxed then (if h.C.strokeSeen then h.C.strokeNo else h.firstStroke - 1) else s.stroke
    .ok (s, h.setS d ⟨BitVec.ofNat 64 n, !h.id.coxed⟩)) s

/-- WFE (05/R143): 1 when the latch is set, 0 when its count has expired first; the wait is counted from its first
cycle. -/
def execWfe (d a : BitVec 6) (s : State) : Host.Outcome State Fault Refusal :=
  issue (Issue.seatOnly [d, a] [a] true) .C (fun s h =>
    if h.id.coxed then .error Stay.illegal
    else
      match readS h .C a with
      | .error e => .error e
      | .ok x =>
        match h.hold with
        | .wfeOver => .ok (s, { h with hold := .none }.setS d ⟨0, true⟩)
        | hold =>
          if h.ctl.latch then
            .ok (s, { h with hold := .none, ctl := { h.ctl with latch := false } }.setS d ⟨1, true⟩)
          else
            match hold with
            | .wfe _ _ => .error (.wait .empty [] 3)
            | _ => .error (.park s { h with hold := .wfe s.now x.v.toNat } .empty)) s

/-- WFE_TIMEOUT (05/R143): the count of a waiting WFE has expired. -/
def execWfeTimeout (heat : Nat) (s : State) : Host.Outcome State Fault Refusal :=
  match s.heat? heat with
  | none => .next s
  | some h =>
    match h.hold with
    | .wfe since limit =>
      if limit ≠ 0 ∧ limit ≤ s.now - since ∧ !h.ctl.latch then .next (s.putHeat { h with hold := .wfeOver }) else .next s
    | _ => .next s

/-- SMS (05/R144, 02/R42): early start for the whole launch. -/
def execSms (s : State) : Host.Outcome State Fault Refusal :=
  issue (Issue.seatOnly [] [] false) .C (fun s h =>
    .ok (if h.id.detached then s else s.onLaunch h.id.job h.id.launch fun l => { l with sms := true }, h)) s

/-- Every predecessor launch of a heat's launch has ended and its writes are visible at device scope (02/R43). -/
def predecessorsVisible (s : State) (h : Heat) : Bool :=
  match s.launch? h.id.job h.id.launch with
  | none => true
  | some l => h.id.detached || l.preds.all fun p =>
      ((s.launch? h.id.job p).elim true (·.complete)) &&
        s.net.forwards.all fun f => (s.heat? f.heat).elim true fun k => k.id.job != h.id.job || k.id.launch != p

/-- Whether a launch's status records a failure (14/R388). -/
def Launch.failed (l : Launch) : Bool := l.faulted || l.cancelled || l.dropped || l.refused

/-- A predecessor of the heat's launch is complete with a failure (14/R388). -/
def predecessorFailed (s : State) (h : Heat) : Bool :=
  (s.launch? h.id.job h.id.launch).elim false fun l => !h.id.detached &&
    l.preds.any fun p => (s.launch? h.id.job p).elim false fun k => k.complete && k.failed

/-- What the ended heats of a heat's predecessor launches had observed reaches the heat (12/R359). -/
def joinPredecessors (s : State) (h : Heat) : State :=
  match s.launch? h.id.job h.id.launch with
  | none => s
  | some l => if h.id.detached then s else
      l.preds.foldl (fun t p => mergeClock t h.id.uid ((s.launch? h.id.job p).elim [] (·.endClock))) s

/-- A heat stopping at a WPV that it will never pass: C stops there. A stop for SUSPEND or pre-emption becomes the cancel
of 14/R388, since no later boundary is reached (log 45). -/
def stopAtWpv (s : State) (h : Heat) : Heat :=
  let h1 := h.onSeat .C fun v => { v with stopped := true }
  { h1 with stop := h1.stop.map fun st =>
      if st.cause = .suspend ∨ st.cause = .preempt then
        { st with cause := .cancel, since := s.now, cancelAfter := false }
      else st }

/-- WPV (05/R144, 02/R43, 14/R386). After a failed predecessor it is not passed: the heat stops at it (14/R388). -/
def execWpv (s : State) : Host.Outcome State Fault Refusal :=
  issue (Issue.seatOnly [] [] false) .C (fun s h =>
    if predecessorFailed s h then
      (if h.stop.isSome then .error (.park s (stopAtWpv s h) .empty) else .error (.wait .empty [] 3))
    else if predecessorsVisible s h then .ok (joinPredecessors s h, h) else .error (.wait .empty [] 3)) s

/-- HRET (05/R145): the handler that executes it ends; on a seat it is illegal. -/
def execHret (s : State) : Host.Outcome State Fault Refusal :=
  issue (Issue.c 1 [] [] false) .C (fun s h =>
    match s.cur.bind (·.handler) with
    | none => .error Stay.illegal
    | some id =>
      .ok ({ s with handlers := s.handlers.filter fun k => k.id != id }, { h with ctl := { h.ctl with latch := true } })) s

end Sys2Proof.Machine
end

