-- ==== Sys2Proof/Machine/Records.lean ====
section
/-!
DEFINITION. What the command processors write into a job's memory: the trap and profile descriptor's fields, and sample,
trace and launch-profile records with their losses (20/R428, R429, R432, R445, R447).
-/

namespace Sys2Proof.Machine

/-- Number of the party that is no heat, for writes of command processors and the host. -/
def noHeat : Nat := 0

/-- Write bytes at a job's address, line by line, for a command processor; n bounds the number of lines. -/
def jobWrite : Nat → State → Job → Nat → Dword → List Byte → Except (BitVec 8) State
  | 0, s, _, _, _, _ => .ok s
  | n + 1, s, j, die, va, bs =>
    if bs = [] then .ok s
    else
      let k := 128 - va.toNat % 128
      match jobFrame s j die va .write with
      | .error e => .error e
      | .ok f =>
        let s1 := writePhys s noHeat die f.pa f.key (withTaint false (bs.take k))
        jobWrite n s1 j die (va + BitVec.ofNat 64 k) (bs.drop k)

/-- Write a number of n bytes at a job's address; a failure writes nothing. -/
def jobPut (s : State) (j : Job) (die : Nat) (va : Dword) (n v : Nat) : State :=
  match jobWrite 2 s j die va (leBytes n v) with
  | .ok s' => s'
  | .error _ => s

/-- A 32-bit field of a job's trap and profile descriptor (20/R428). -/
def trapField (s : State) (j : Job) (die off : Nat) : Nat :=
  match jobNat s j die (j.trapQ + BitVec.ofNat 64 off) 4 with
  | .ok v => v
  | .error _ => 0

/-- An address of the descriptor. -/
def trapAddr (s : State) (j : Job) (die off : Nat) : Dword :=
  match jobNat s j die (j.trapQ + BitVec.ofNat 64 off) 8 with
  | .ok v => BitVec.ofNat 64 v
  | .error _ => 0

/-- Set a 32-bit field of the descriptor. -/
def setTrapField (s : State) (j : Job) (die off v : Nat) : State :=
  jobPut s j die (j.trapQ + BitVec.ofNat 64 off) 4 (v % 2 ^ 32)

/-- A sample, trace or trap record is lost: Lamom counts it over all jobs, on the die whose command processor lost it
(20/R433). -/
def countLost (s : State) (die : Nat) : State := s.onCounters die fun c => { c with lost := c.lost + 1 }

/-- A header word (20/R445). -/
def recordHeader (type len : Nat) : Word := BitVec.ofNat 32 (0x5C + type * 256 + len * 65536)

/-- Write the words of a record at the producer index. -/
def putWords (j : Job) (buf : Dword) (size : Nat) : Nat → List Word → State → State
  | _, [], s => s
  | i, w :: t, s =>
    putWords j buf size (i + 1) t (jobPut s j 0 (buf + BitVec.ofNat 64 (4 * (i % size))) 4 w.toNat)

/-- Die 0's command processor reserves and writes one record, or counts its loss and marks it (20/R428, R445). Lamom
counts the loss of a sample or trace record, and not that of a launch profile (20/R433). -/
def emitRecord (s : State) (job : Nat) (ws : List Word) : State :=
  match s.job? job with
  | none => s
  | some j =>
    if j.trapQ = 0 then s
    else
      let ctl := trapField s j 0 48
      let lose (s : State) : State :=
        let s1 := setTrapField s j 0 60 (trapField s j 0 60 + 1)
        if ws.head? == some (recordHeader 4 22) then s1 else countLost s1 0
      let lg := ctl % 32
      if lg < 10 ∨ 24 < lg then lose s
      else
        let size := 2 ^ lg
        let prod := trapField s j 0 52
        let used := (prod + 2 ^ 32 - trapField s j 0 56) % 2 ^ 32
        let buf := trapAddr s j 0 40
        if used + ws.length ≤ size then
          setTrapField (putWords j buf size prod ws s) j 0 52 (prod + ws.length)
        else
          let s1 := lose s
          let last := (prod + 2 ^ 32 - 1) % 2 ^ 32
          let lastWord := match jobNat s j 0 (buf + BitVec.ofNat 64 (4 * (last % size))) 4 with
            | .ok v => v
            | .error _ => 0
          if used + 1 ≤ size ∧ lastWord ≠ (recordHeader 6 1).toNat then
            setTrapField (putWords j buf size prod [recordHeader 6 1] s1) j 0 52 (prod + 1)
          else s1

/-- A trace record of event e (20/R447); none in coxed mode (20/R445). -/
def trace (s : State) (job e launch index : Nat) (d0 d1 : Nat) : State :=
  match s.job? job with
  | none => s
  | some j =>
    if j.trapQ = 0 || j.coxed || !(trapField s j 0 48 / 256).testBit e then s
    else
      let w (v : Nat) : Word := BitVec.ofNat 32 v
      emitRecord s job
        [recordHeader 5 8, w e, w s.now, w (s.now / 2 ^ 32), w launch, w index, w d0, w d1]

/-- A trace record of a heat. -/
def traceHeat (s : State) (h : Heat) (e d0 d1 : Nat) : State := trace s h.id.job e h.id.launch h.id.index d0 d1

/-! ## Trap records (20/R428, R429, R432) -/

/-- Raise an MSI-X vector. -/
def raiseVector (s : State) (v : Nat) : State := { s with net := { s.net with msix := s.net.msix ++ [v] } }

/-- The command processor of a die writes a trap record, or counts its loss; the record's index when it is kept. -/
def writeTrap (s : State) (job die launch index : Nat) (bytes : List Byte) : State × Option Nat :=
  match s.job? job with
  | none => (s, none)
  | some j =>
    if j.trapQ = 0 then (s, none)
    else
      let ctl := trapField s j die 24
      let prod := trapField s j die 28
      let entries := 2 ^ (ctl % 32)
      let interrupt (s : State) : State := if ctl.testBit 9 then raiseVector s (ctl / 2 ^ 16 % 64) else s
      let lost (s : State) : State := interrupt (countLost (setTrapField s j die 36 (trapField s j die 36 + 1)) die)
      if ctl % 32 < 4 ∨ 16 < ctl % 32 ∨ entries ≤ (prod + 2 ^ 32 - trapField s j die 32) % 2 ^ 32 then (lost s, none)
      else match jobWrite 2 s j die (trapAddr s j die 0 + BitVec.ofNat 64 (64 * (prod % entries))) bytes with
        | .error _ => (lost s, none)
        | .ok s1 =>
          let s2 := interrupt (setTrapField s1 j die 28 (prod + 1))
          (trace s2 job 7 launch index prod 0, some prod)

/-- A trap record of a job with its heat fields zero (10/R312, 20/R432). -/
def jobTrap (s : State) (job die : Nat) (cls : BitVec 8) (addr status : Dword) (engine : Nat) : State :=
  let cause := cls.toNat + engine % 16 * 2 ^ 12
  (writeTrap s job die 0 0 (leBytes 4 (recordHeader 1 16).toNat ++ leBytes 4 cause ++ leBytes 8 0 ++
    leBytes 4 (2 ^ 32 - 1) ++ leBytes 4 0 ++ leBytes 16 0 ++ leBytes 8 s.now ++ leBytes 8 status.toNat ++
    leBytes 8 addr.toNat)).1

/-- Key id under which a line is held (21/R459). -/
def keyOf (s : State) (line : Nat) : Nat :=
  (assoc line s.net.fillKeys).getD ((assoc line s.mem.lineKey).getD 0)

/-- A line is written back to the underlay under the key id that holds it, and leaves the slice; one that has not been
written since it was filled stands there as before (21/R459). -/
def sealLine (s : State) (line : Nat) : State :=
  let s1 := { s with net := { s.net with fillKeys := assocDel line s.net.fillKeys } }
  match assoc line s.mem.lineKey, assoc line s.mem.sealedLines with
  | some slot, none =>
    match s.lamom.keys.find? fun k => k.slot == slot with
    | some k => { s1 with mem := { s.mem with sealedLines := assocSet line k.key s.mem.sealedLines } }
    | none => s1
  | _, _ => s1

/-- A line that is written back to the underlay turns out to have an uncorrectable error: the line is poisoned, and the
job bound to its key is charged; without one only the log takes it (20/R432). -/
def chargeError (s : State) (line : Nat) : State :=
  if s.mem.errors.contains line then
    let owner := ((s.lamom.keys.find? fun k => k.slot == keyOf s line).map (·.owner)).getD 0
    match s.jobs.find? fun j => j.id == owner && !j.complete with
    | none => discover s line 0 0 0 noCommand 8
    | some j =>
      jobTrap (discover s line j.id 0 0 noCommand 8) j.id (homeDie (line * 128)) clsUncorrectable
        (BitVec.ofNat 64 (line * 128)) 0 8
  else s

/-- The write-back of a line to the underlay. -/
def chargeWriteBack (s : State) (line : Nat) : State := sealLine (chargeError s line) line

/-- Underlay lines that slices may hold, or that have errors. -/
def linesHeld (s : State) : List Nat :=
  (s.mem.lineKey.map (·.1) ++ s.net.fillKeys.map (·.1) ++
    s.mem.errors.filter fun l => kindOf (l * 128) == some .underlay).foldr numIns []

end Sys2Proof.Machine
end

