-- ==== Sys2Proof/Machine/Draw.lean ====
section
/-!
DEFINITION. The draw: the positions that a schedule gives a message, and its entry into one (10/R313 to R318).
-/

namespace Sys2Proof.Machine

/-- A valid draw entry's class, source and destination (10/R315). -/
def drawEntry (w : Word) : Nat × Nat × Nat := (w.toNat / 2 ^ 29 % 4, w.toNat / 2 ^ 16 % 256, w.toNat / 2 ^ 8 % 256)

/-- Draw entries that a leg owns: their index in its die's table. -/
def owned (c : Sched) (l : DrawLeg) : List Nat :=
  (c.draws.filter fun e => e.1 == l.die && drawEntry e.2.2 == (l.cls, l.src, l.dst)).map (·.2.1)

/-- The slot that stands at a leg's source strip in a cycle, on an east or a west chain (10/R314). -/
def slotAt (c : Sched) (l : DrawLeg) (now : Nat) (west : Bool) : Nat :=
  let x := stripOf l.die l.src
  (now + 12 * c.slots - (if west then 11 - x else x)) % c.slots

/-- The positions of a leg that pass its source strip in a cycle. -/
def passing (c : Sched) (l : DrawLeg) (now : Nat) : Nat :=
  (owned c l).countP fun i => i / 16 == slotAt c l now (i % 2 == 1)

/-- The strips of a leg's two ends. -/
def legStrips (l : DrawLeg) : Nat × Nat := (stripOf l.die l.src, stripOf l.die l.dst)

/-- Cycles of a leg: one per strip travelled, and those of the die boundary when the next leg is on another die
(10/R316, R318). -/
def legCycles (l : DrawLeg) (rest : List DrawLeg) : Nat :=
  let (a, b) := legStrips l
  (a - b) + (b - a) + (if rest.any fun x => x.die != l.die then 24 else 0)

/-- The first cycle from one on that stands in no refresh slot; n bounds the search. -/
def pastRefresh (c : Sched) : Nat → Nat → Nat
  | 0, t => t
  | n + 1, t => if c.refresh.getLsbD (t % c.slots) then pastRefresh c n (t + 1) else t

/-- The cycle from which what a leg brings to its end goes on: a slice access that would start in a refresh slot starts in
the next cycle that is none (10/R319). -/
def startsAt (c : Sched) (l : DrawLeg) (t : Nat) : Nat := if 80 ≤ l.dst ∧ l.dst < 112 then pastRefresh c c.slots t else t

/-- A leg may be entered in this cycle: a position of it passes that no other message has taken; a leg within one strip
rides the strip bus and needs none (10/R318; the turn of the bus is timing, log 2). -/
def mayEnter (s : State) (c : Sched) (l : DrawLeg) : Bool :=
  let (a, b) := legStrips l
  a == b || decide ((s.net.msgs.countP fun m => m.entered == some (s.now, l)) < passing c l s.now)

/-- The message with an identifier changes. -/
def onMsg (s : State) (id : Nat) (f : DrawMsg → DrawMsg) : State :=
  { s with net := { s.net with msgs := mapIf (fun m => m.id == id) f s.net.msgs } }

/-- A message is gone. -/
def dropMsg (s : State) (id : Nat) : State :=
  { s with net := { s.net with msgs := s.net.msgs.filter fun m => m.id != id } }

/-- What a discarded message carried is gone with it: the load or atomic, or the forwarded write. -/
def dropCarried (s : State) (id : Nat) : State :=
  { s with
    atomics := s.atomics.filter fun a => a.id != id
    net := { s.net with
      forwards := s.net.forwards.filter fun f => f.id != id, beats := s.net.beats.filter fun b => b.id != id }
    heats := mapIf (fun h => h.pend.any fun q => q.id == id)
      (fun h => { h with pend := h.pend.filter fun q => q.id != id }) s.heats }

/-- The engine-status field of an overrun that no stamp names. -/
def looseOverrun (cause : Nat) : Dword := overrunStatus 0xFFFF cause 0

/-- The overrun of an access's message, charged to its heat with the word whose access it is (10/R312, 20/R426). -/
def messageFault (s : State) (h : Heat) (w : MsgWord) (cause : Nat) : State :=
  raiseFault s h none (faultInfo s h w.seat clsOverrun 0 (looseOverrun cause) w.text w.cmd false w.engine)

/-- A fault that no seat's word raises: charged to the heat with seat C and no text address (10/R308, R312). -/
def looseFault (s : State) (h : Heat) (cls : BitVec 8) (status : Dword) (engine : Nat) : State :=
  raiseFault s h none { faultInfo s h .C cls 0 status 0 none false engine with loop := 7#64 <<< 48, iter := 0 }

/-- The track of a source's messages that own no position: the home track of its crew (10/R313, R317). -/
def homeTrack (ep : Nat) : Nat := if ep < 64 then ep / 4 % 8 else if ep < 80 then (ep - 64) % 8 else 0

/-- An overrun of a message or a beat: charged to the heat whose access it carries, else to the job, with the engine that
names the track or link (10/R312). -/
def messageOverrun (s : State) (job die : Nat) (heat : Option Nat) (word : Option MsgWord) (cause engine : Nat) : State :=
  match (heat.bind s.heat?).filter fun h => !h.status.final with
  | some h => word.elim (looseFault s h clsOverrun (looseOverrun cause) 15) fun w => messageFault s h w cause
  | none => breakSchedule (jobTrap s job die clsOverrun 0 (looseOverrun cause) engine) job

/-- A message enters an owned position and leaves the track one cycle per strip later; one that owns none is discarded with
the overrun fault of cause 0x0B. With no schedule in force it arrives (10/R316). -/
def enterMsg (s : State) (msg : Nat) : State :=
  match s.net.msgs.find? fun m => m.id == msg with
  | none => s
  | some m =>
    match s.sched, m.legs with
    | none, _ => dropMsg s msg
    | some c, [] => if !c.live || decide (m.ready ≤ s.now) then dropMsg s msg else s
    | some c, l :: rest =>
      if !c.live then dropMsg s msg
      else if (legStrips l).1 ≠ (legStrips l).2 ∧ owned c l = [] then
        let gone := m.carries.elim (dropMsg s msg) (dropCarried (dropMsg s msg))
        messageOverrun gone c.job l.die m.heat m.word 0x0B (homeTrack l.src)
      else if m.ready ≤ s.now ∧ mayEnter s c l then
        onMsg s msg fun x =>
          { x with ready := startsAt c l (s.now + legCycles l rest), legs := rest, entered := some (s.now, l) }
      else s

/-- DRAW_MESSAGE_ENTRY (10/R316). -/
def execDrawMessageEntry (msg : Nat) (s : State) : Host.Outcome State Fault Refusal := .next (enterMsg s msg)

/-- Every message that may do so enters in this cycle, in the order of sending. -/
def enterMessages (s : State) : State := (s.net.msgs.map (·.id)).foldl enterMsg s

end Sys2Proof.Machine
end

