-- ==== Sys2Proof/Machine/Numbers.lean ====
section
/-!
DEFINITION. The number formats and their arithmetic (03_numbers.md): every operand is taken apart into an exact value,
the operation is computed exactly, and the result is rounded once.
-/

namespace Sys2Proof.Machine

/-- A floating format (03/R51): exponent and fraction widths, bias, whether the all-ones exponent is special, largest
finite code, canonical NaN. -/
structure Fmt where
  ebits : Nat
  fbits : Nat
  bias : Nat
  special : Bool
  maxFinite : Nat
  nan : Nat
deriving DecidableEq, Repr

def f32 : Fmt := { ebits := 8, fbits := 23, bias := 127, special := true, maxFinite := 0x7F7FFFFF, nan := 0x7FC00000 }
def f16 : Fmt := { ebits := 5, fbits := 10, bias := 15, special := true, maxFinite := 0x7BFF, nan := 0x7E00 }
def bf16 : Fmt := { ebits := 8, fbits := 7, bias := 127, special := true, maxFinite := 0x7F7F, nan := 0x7FC0 }
def e4m3 : Fmt := { ebits := 4, fbits := 3, bias := 7, special := false, maxFinite := 0x7E, nan := 0x7F }
def e5m2 : Fmt := { ebits := 5, fbits := 2, bias := 15, special := true, maxFinite := 0x7B, nan := 0x7E }

/-- Container width of a float. -/
def Fmt.width (f : Fmt) : Nat := 1 + f.ebits + f.fbits

/-- Floats that saturate on overflow (03/R58). -/
def Fmt.saturates (f : Fmt) : Bool := f.width == 8

/-- Exponent of the smallest normal. -/
def Fmt.emin (f : Fmt) : Int := 1 - (f.bias : Int)

/-- Decode a float (03/R51, R52). -/
def Fmt.decode (f : Fmt) (bits : Nat) : Num :=
  let neg := decide (bits / 2 ^ (f.ebits + f.fbits) % 2 = 1)
  let e := bits / 2 ^ f.fbits % 2 ^ f.ebits
  let m := bits % 2 ^ f.fbits
  if f.special then
    if e = 2 ^ f.ebits - 1 then (if m = 0 then .inf neg else .nan (decide (m < 2 ^ (f.fbits - 1))))
    else if e = 0 then .fin neg m (f.emin - f.fbits)
    else .fin neg (2 ^ f.fbits + m) ((e : Int) - f.bias - f.fbits)
  else if e = 2 ^ f.ebits - 1 ∧ m = 2 ^ f.fbits - 1 then .nan false
  else if e = 0 then .fin neg m (f.emin - f.fbits)
  else .fin neg (2 ^ f.fbits + m) ((e : Int) - f.bias - f.fbits)

/-! ## Rounding (03/R56 to R58) -/

/-- Rounding modes by code: RNE, RTZ, RUP, RDN, RNA. -/
abbrev Mode := BitVec 3

def rne : Mode := 0
def rdn : Mode := 3

/-- Whether a magnitude with quotient n, remainder r of 2^k, is rounded up. -/
def roundsUp (mode : Mode) (neg : Bool) (n r k : Nat) : Bool :=
  if r = 0 then false
  else match mode.toNat with
    | 0 => decide (2 ^ k < 2 * r ∨ (2 * r = 2 ^ k ∧ n % 2 = 1))
    | 1 => false
    | 2 => !neg
    | 3 => neg
    | _ => decide (2 ^ k ≤ 2 * r)

/-- A magnitude m × 2^e rounded to a multiple of 2^q: the multiple and whether it is inexact. -/
def roundTo (mode : Mode) (neg : Bool) (m : Nat) (e q : Int) : Nat × Bool :=
  if q ≤ e then (m * 2 ^ (e - q).toNat, false)
  else
    let k := (q - e).toNat
    let n := m / 2 ^ k
    let r := m % 2 ^ k
    (if roundsUp mode neg n r k then n + 1 else n, decide (r ≠ 0))

/-- Number of bits of a magnitude. -/
def bitLen (m : Nat) : Nat := if m = 0 then 0 else Nat.log2 m + 1

/-- Exponent of the last place of a precision of fbits + 1 bits, with gradual underflow at emin. -/
def lastPlace (fbits : Nat) (emin : Int) (m : Nat) (e : Int) : Int :=
  max (e + bitLen m - 1 - fbits) (emin - fbits)

/-- What an overflow delivers (03/R58). -/
def overflowTo (f : Fmt) (mode : Mode) (neg : Bool) : Nat :=
  let inf := f.maxFinite + 1
  if f.saturates then f.maxFinite
  else match mode.toNat with
    | 1 => f.maxFinite
    | 2 => if neg then f.maxFinite else inf
    | 3 => if neg then inf else f.maxFinite
    | _ => inf

/-- Sign bit and magnitude code of a float. -/
def Fmt.pack (f : Fmt) (neg : Bool) (mag : Nat) : Nat := mag + boolNat neg * 2 ^ (f.ebits + f.fbits)

/-- Round a finite nonzero value once; tininess is detected after rounding (03/R53, R55). -/
def Fmt.round (f : Fmt) (mode : Mode) (neg : Bool) (m : Nat) (e : Int) : Nat × Conds :=
  if m = 0 then (f.pack neg 0, Conds.none)
  else
    let q := lastPlace f.fbits f.emin m e
    let (n, inexact) := roundTo mode neg m e q
    let mag := if n < 2 ^ f.fbits then n
      else (q - (f.emin - f.fbits) + 1).toNat * 2 ^ f.fbits + (n - 2 ^ f.fbits)
    if f.maxFinite < mag then
      (f.pack neg (overflowTo f mode neg), { Conds.none with overflow := true, inexact := true })
    else
      let q' := e + bitLen m - 1 - f.fbits
      let n' := (roundTo mode neg m e q').1
      let tiny := decide (q' + bitLen n' - 1 < f.emin)
      (f.pack neg mag, { Conds.none with inexact := inexact, underflow := tiny && inexact })

/-- Deliver a value in a format (03/R54, R58, R59): a NaN is canonical; an infinity into e4m3 is its NaN, and
invalid. -/
def Fmt.deliver (f : Fmt) (mode : Mode) : Num → Nat × Conds
  | .nan s => (f.nan, { Conds.none with invalid := s })
  | .inf neg =>
    if f.special then (f.pack neg ((2 ^ f.ebits - 1) * 2 ^ f.fbits), Conds.none)
    else (f.nan, { Conds.none with invalid := true })
  | .fin neg m e => f.round mode neg m e

/-! ## Exact operations -/

/-- Signed integer of a sign and magnitude. -/
def signed (neg : Bool) (m : Nat) : Int := if neg then -(m : Int) else m

/-- The exact sum of two finite values; an exact zero sum of unlike signs is +0, or −0 under RDN. -/
def addFin (mode : Mode) (n1 : Bool) (m1 : Nat) (e1 : Int) (n2 : Bool) (m2 : Nat) (e2 : Int) : Num :=
  if m1 = 0 ∧ m2 = 0 then .fin (if n1 = n2 then n1 else mode == rdn) 0 0
  else if m1 = 0 then .fin n2 m2 e2
  else if m2 = 0 then .fin n1 m1 e1
  else
    let e := min e1 e2
    let v := signed n1 (m1 * 2 ^ (e1 - e).toNat) + signed n2 (m2 * 2 ^ (e2 - e).toNat)
    if v = 0 then .fin (mode == rdn) 0 0 else .fin (decide (v < 0)) v.natAbs e

/-- Whether a value is a signalling NaN. -/
def Num.signals : Num → Bool
  | .nan s => s
  | _ => false

/-- Exact addition, with IEEE 754's special values; ∞ − ∞ is invalid. -/
def Num.add (mode : Mode) (a b : Num) : Num :=
  match a, b with
  | .nan s, y => .nan (s || y.signals)
  | x, .nan s => .nan (s || x.signals)
  | .inf n, .inf k => if n = k then .inf n else .nan true
  | .inf n, _ => .inf n
  | _, .inf n => .inf n
  | .fin n1 m1 e1, .fin n2 m2 e2 => addFin mode n1 m1 e1 n2 m2 e2

def Num.neg : Num → Num
  | .nan s => .nan s
  | .inf n => .inf !n
  | .fin n m e => .fin (!n) m e

/-- Exact multiplication; 0 × ∞ is invalid. -/
def Num.mul (a b : Num) : Num :=
  match a, b with
  | .nan s, y => .nan (s || y.signals)
  | x, .nan s => .nan (s || x.signals)
  | .inf n, .inf k => .inf (n != k)
  | .inf n, .fin k m _ => if m = 0 then .nan true else .inf (n != k)
  | .fin k m _, .inf n => if m = 0 then .nan true else .inf (n != k)
  | .fin n1 m1 e1, .fin n2 m2 e2 => .fin (n1 != n2) (m1 * m2) (e1 + e2)

/-- Exact a × b + c. -/
def Num.fma (mode : Mode) (a b c : Num) : Num := (a.mul b).add mode c

/-- Numeric order of two values that are no NaN. -/
def Num.lt (a b : Num) : Bool :=
  match a, b with
  | .nan _, _ => false
  | _, .nan _ => false
  | .inf n, .inf k => n && !k
  | .inf n, _ => n
  | _, .inf n => !n
  | .fin n1 m1 e1, .fin n2 m2 e2 =>
    let e := min e1 e2
    decide (signed n1 (m1 * 2 ^ (e1 - e).toNat) < signed n2 (m2 * 2 ^ (e2 - e).toNat))

/-- Numeric equality; zeros of either sign are equal. -/
def Num.eq (a b : Num) : Bool :=
  match a, b with
  | .nan _, _ => false
  | _, .nan _ => false
  | _, _ => !a.lt b && !b.lt a

/-- A value with a negative sign. -/
def Num.isNeg : Num → Bool
  | .nan _ => false
  | .inf n => n
  | .fin n _ _ => n

/-- IEEE 754-2019 minimum or maximum of two codes of a format, with −0 below +0; a NaN gives the canonical NaN
(06/R151, 08/R235). -/
def Fmt.minMax (f : Fmt) (largest : Bool) (x y : Nat) : Nat × Conds :=
  let a := f.decode x
  let b := f.decode y
  match a, b with
  | .nan s, _ => (f.nan, { Conds.none with invalid := s || b.signals })
  | _, .nan s => (f.nan, { Conds.none with invalid := s })
  | _, _ =>
    let less := a.lt b || (a.eq b && a.isNeg && !b.isNeg)
    (if less != largest then x else y, Conds.none)

/-! ## Integer formats and conversions (03/R50, R60) -/

/-- The value of an integer element of w bits. -/
def intOf (sgn : Bool) (w bits : Nat) : Int :=
  let v := bits % 2 ^ w
  if sgn ∧ 2 ^ (w - 1) ≤ v then (v : Int) - 2 ^ w else v

/-- The bits of an integer in w bits, wrapping. -/
def intBits (w : Nat) (v : Int) : Nat := (v % 2 ^ w).toNat

/-- Range of an integer format. -/
def intMin (sgn : Bool) (w : Nat) : Int := if sgn then -(2 ^ (w - 1)) else 0
def intMax (sgn : Bool) (w : Nat) : Int := if sgn then 2 ^ (w - 1) - 1 else 2 ^ w - 1

/-- Saturate an integer to a format's range. -/
def saturate (sgn : Bool) (w : Nat) (v : Int) : Int := max (intMin sgn w) (min (intMax sgn w) v)

/-- A floating value to an integer format: rounded, then saturated; saturation and NaN are invalid alone. -/
def toInt (mode : Mode) (sgn : Bool) (w : Nat) : Num → Nat × Conds
  | .nan _ => (0, { Conds.none with invalid := true })
  | .inf neg => (intBits w (if neg then intMin sgn w else intMax sgn w), { Conds.none with invalid := true })
  | .fin neg m e =>
    let (n, inexact) := roundTo mode neg m e 0
    let v := signed neg n
    if v < intMin sgn w ∨ intMax sgn w < v then (intBits w (saturate sgn w v), { Conds.none with invalid := true })
    else (intBits w v, { Conds.none with inexact := inexact })

/-- An integer as an exact value. -/
def ofInt (v : Int) : Num := .fin (decide (v < 0)) v.natAbs 0

/-- A format code of 03/R49. -/
inductive Kind where
  | float (f : Fmt)
  | int (sgn : Bool) (w : Nat)
  | cb (p w block : Nat)
deriving DecidableEq, Repr

/-- The formats by code (03/R49, R64). -/
def kindCode (c : BitVec 4) : Kind :=
  match c.toNat with
  | 0 => .float f32 | 1 => .float f16 | 2 => .float bf16 | 3 => .float e4m3 | 4 => .float e5m2
  | 5 => .int true 32 | 6 => .int true 16 | 7 => .int true 8 | 8 => .int true 4
  | 9 => .int false 32 | 10 => .int false 16 | 11 => .int false 8 | 12 => .int false 4
  | 13 => .cb 2 3 14 | 14 => .cb 4 5 22 | _ => .cb 7 8 34

/-- Container width in bits; a cb element's container. -/
def Kind.width : Kind → Nat
  | .float f => f.width
  | .int _ w => w
  | .cb _ w _ => w

/-- The exact value of an element's bits, for a format other than cb. -/
def Kind.value (k : Kind) (bits : Nat) : Num :=
  match k with
  | .float f => f.decode bits
  | .int sgn w => ofInt (intOf sgn w bits)
  | .cb _ _ _ => .fin false 0 0

/-- Deliver an exact value in a format other than cb. -/
def Kind.deliver (k : Kind) (mode : Mode) (v : Num) : Nat × Conds :=
  match k with
  | .float f => f.deliver mode v
  | .int sgn w => toInt mode sgn w v
  | .cb _ _ _ => (0, Conds.none)

/-- Convert an element between formats other than cb (03/R59, R60); integer to integer raises nothing. -/
def convert (src dst : Kind) (mode : Mode) (bits : Nat) : Nat × Conds :=
  match src, dst with
  | .int s w, .int s' w' => (intBits w' (saturate s' w' (intOf s w bits)), Conds.none)
  | _, _ => dst.deliver mode (src.value bits)

/-! ## cb blocks (03/R64 to R67) -/

/-- Bits lo + n − 1 : lo of a byte string read as one little-endian number. -/
def fieldAt (v lo n : Nat) : Nat := v / 2 ^ lo % 2 ^ n

/-- Element i of a block, whose bytes are the number v, as an exact value; a NaN block gives NaNs. -/
def cbValue (p w v i : Nat) : Num :=
  let ex := fieldAt v 0 8
  let el := fieldAt v (16 + w * i) w
  let sigma := fieldAt v (8 + 2 * (i / 8)) 2
  if ex = 255 then .nan false
  else .fin (decide (el / 2 ^ p = 1)) (el % 2 ^ p) ((ex : Int) - 127 - sigma - p)

/-- Whether the magnitude of a value lies below a power of two; an infinity never does. -/
def below (x : Num) (e : Int) : Bool :=
  match x with
  | .fin _ m k => Num.lt (.fin false m k) (.fin false 1 e)
  | _ => false

/-- The shared exponent of a block; an infinity leaves 254 (03/R67). -/
def cbExponent (xs : List Num) : Nat :=
  ((List.range 255).find? fun (n : Nat) => xs.all fun x => below x ((n : Int) - 127)).getD 254

/-- The step code of a group (03/R67). -/
def cbStep (ex : Nat) (xs : List Num) : Nat :=
  (([3, 2, 1, 0] : List Nat).find? fun (t : Nat) => xs.all fun x => below x ((ex : Int) - 127 - t)).getD 0

/-- One element of a block: its container and its conditions. -/
def cbElement (p ex sigma : Nat) (x : Num) : Nat × Conds :=
  let top := 2 ^ p - 1
  match x with
  | .nan s => (0, { Conds.none with invalid := s })
  | .inf neg => (top + boolNat neg * 2 ^ p, { Conds.none with invalid := true })
  | .fin neg m e =>
    let (n, inexact) := roundTo rne false m e ((ex : Int) - 127 - sigma - p)
    if top < n then (top + boolNat neg * 2 ^ p, { Conds.none with overflow := true, inexact := true })
    else (n + boolNat neg * 2 ^ p, { Conds.none with inexact := inexact })

/-- Quantize 32 values into a block, as a little-endian number (03/R67). -/
def cbBlock (p w : Nat) (xs : List Num) : Nat × Conds :=
  if xs.any (fun x => match x with | .nan _ => true | _ => false) then
    (255, { Conds.none with invalid := xs.any (·.signals) })
  else
    let ex := cbExponent xs
    let steps := (List.range 4).map fun g => cbStep ex ((xs.drop (8 * g)).take 8)
    let els := (List.range 32).map fun i => cbElement p ex (steps.getD (i / 8) 0) (xs.getD i (.fin false 0 0))
    let body := (els.map (·.1)).foldr (fun x acc => x + 2 ^ w * acc) 0
    let codes := steps.foldr (fun x acc => x + 4 * acc) 0
    (ex + 256 * codes + 65536 * body, els.foldl (fun c e => c.or e.2) Conds.none)

/-! ## la640 (03/R68 to R70) -/

/-- An la640 cell: its value in units of 2^−300 modulo 2^640, and its flags. -/
structure Acc where
  value : Nat
  flags : Nat
deriving DecidableEq, Repr

/-- Signed value of an la640. -/
def Acc.int (a : Acc) : Int := intOf true 640 a.value

/-- A flags word with a bit set. -/
def setFlag (flags bit : Nat) : Nat := flags ||| 2 ^ bit

/-- Add one exact contribution (03/R69). -/
def Acc.add (a : Acc) : Num → Acc
  | .nan _ => { a with flags := setFlag a.flags 0 }
  | .inf neg => { a with flags := setFlag a.flags (if neg then 2 else 1) }
  | .fin neg m e =>
    let v := a.int + signed neg (if -300 ≤ e then m * 2 ^ (e + 300).toNat else m / 2 ^ (-300 - e).toNat)
    let out := decide (v < -(2 ^ 639) ∨ 2 ^ 639 ≤ v)
    { value := intBits 640 v, flags := if out then setFlag a.flags 3 else a.flags }

/-- The exact value that an la640 retires as, before rounding (03/R70), and whether invalid is raised. DESIGN CHOICE
(log 68): a NaN flag beside exactly one infinity flag raises no invalid. -/
def Acc.retired (mode : Mode) (a : Acc) : Num × Bool :=
  let nan := a.flags.testBit 0
  let pinf := a.flags.testBit 1
  let ninf := a.flags.testBit 2
  let spent := a.flags.testBit 3
  if nan || (pinf && ninf) || spent then (.nan false, (pinf && ninf) || spent)
  else if pinf then (.inf false, false)
  else if ninf then (.inf true, false)
  else if a.int = 0 then (.fin (mode == rdn) 0 0, false)
  else (.fin (decide (a.int < 0)) a.int.natAbs (-300), false)

/-- Retirement to a format. -/
def Acc.retire (k : Kind) (mode : Mode) (a : Acc) : Nat × Conds :=
  let (v, bad) := a.retired mode
  let (r, c) := k.deliver mode v
  (r, { c with invalid := c.invalid || bad })

/-! ## The chain format of the sweep array (03/R72, R73) -/

/-- One cell step: the exact sum of the partial sum and a product, rounded to 34 bits. -/
def chainStep (acc x : Num) : Num × Conds :=
  match acc.add rne x with
  | .fin neg m e =>
    if m = 0 then (.fin neg 0 0, Conds.none)
    else
      let q := lastPlace 33 (-510) m e
      let (n, inexact) := roundTo rne neg m e q
      (.fin neg n q, { Conds.none with inexact := inexact })
  | v => (v, { Conds.none with invalid := v.signals })

/-- f32 addition with one rounding, on codes. -/
def f32Add (mode : Mode) (x y : Nat) : Nat × Conds := f32.deliver mode ((f32.decode x).add mode (f32.decode y))

end Sys2Proof.Machine
end

