-- ==== Sys2Proof/Machine/Atomics.lean ====
section
/-!
DEFINITION. ASR atomics: their packets, their application at the cell's home, the reply cache (06/R147 to R156), and what
messages of other devices bring (10/R301; 12/R355, R365).
-/

namespace Sys2Proof.Machine

/-! ## What an operation does to a cell (06/R149 to R152) -/

/-- Width in bits of an atomic's cell. -/
def atomicWidth (op form : Nat) : Nat := if 0x4A ≤ op ∧ op ≤ 0x4C then 32 else if form = 0 then 32 else 64

/-- Bytes of the cell that an atomic names, and its alignment: la640 operations use 96-byte cells aligned to 32. -/
def atomicCell (op form : Nat) : Nat × Nat :=
  if op = 0x4D ∨ (op = 0x4E ∧ 2 ≤ form) then (96, 32)
  else (atomicWidth op form / 8, atomicWidth op form / 8)

/-- New contents of a 32- or 64-bit cell, none when it is left as it is, and the conditions raised. -/
def atomicNew (op w old x expected : Nat) : Option Nat × Conds :=
  let so := intOf true w old
  let sx := intOf true w x
  match op with
  | 0x40 => (some ((old + x) % 2 ^ w), Conds.none)
  | 0x41 => (some (if sx < so then x else old), Conds.none)
  | 0x42 => (some (if so < sx then x else old), Conds.none)
  | 0x43 => (some (min old x), Conds.none)
  | 0x44 => (some (max old x), Conds.none)
  | 0x45 => (some (old &&& x), Conds.none)
  | 0x46 => (some (old ||| x), Conds.none)
  | 0x47 => (some (old ^^^ x), Conds.none)
  | 0x48 => (some x, Conds.none)
  | 0x49 => (if old = expected then some x else none, Conds.none)
  | 0x4A => let r := f32Add rne old x; (some r.1, r.2)
  | 0x4B => let r := f32.minMax false old x; (some r.1, r.2)
  | 0x4C => let r := f32.minMax true old x; (some r.1, r.2)
  | 0x4F => (some x, Conds.none)
  | _ => (none, Conds.none)

/-- Whether the register receives the old value sign-extended. -/
def atomicSigned (op : Nat) : Bool := decide (op ≤ 0x42)

/-- Taint of a cell word after an operation that writes it. -/
def atomicTaint (op : Nat) (oldT t : Bool) : Bool :=
  if op = 0x48 ∨ op = 0x49 ∨ op = 0x4F then t
  else if 0x4A ≤ op ∧ op ≤ 0x4C then true
  else oldT || t

/-- An la640 cell, at the physical addresses of its parts of 32 bytes (03/R68). -/
def readAcc (s : State) (parts : List Nat) : Acc :=
  let bs := parts.flatMap fun p => (List.range 32).map fun i => cellGet s.mem.cells (p + i)
  { value := leNat (bs.take 80), flags := leNat ((bs.drop 80).take 4) }

/-- Write an la640 cell, which is never tainted (03/R68); the bytes past the flags stay. -/
def writeAcc (s : State) (parts : List Nat) (a : Acc) : State :=
  let bs := leBytes 80 a.value ++ leBytes 4 a.flags
  { s with mem := (parts.zipIdx).foldl (fun m p => m.put p.1 (withTaint false ((bs.drop (32 * p.2)).take 32))) s.mem }

/-- The contribution of an LAADD (06/R152). -/
def laaddValue (form : Nat) (x : Dword) : Num :=
  match form with
  | 0 => f32.decode (x.toNat % 2 ^ 32)
  | 1 => ofInt x.toInt
  | _ => ofInt x.toNat

/-- Whether the register receives anything. -/
def atomicReturns (op : Nat) : Bool := op != 0x4D && op != 0x4F

/-- The bytes of a packet's cell. -/
def Packet.cell (p : Packet) : List Nat :=
  p.parts.flatMap fun a => (List.range (min 32 (atomicCell p.op.toNat p.form).1)).map (a + ·)

/-- What the application of a packet gives: the state, the reply and its conditions, and how many tainted words it stores
and reads (06/R180). -/
structure Applied where
  state : State
  reply : TVal
  conds : Conds
  stored : Nat
  read : Nat

/-- The application of a packet; or a fault, which changes nothing: a cell that would become tainted in a CLEAN page
(10/R326), or returned data that is poisoned or in error (07/R200). -/
def applyAtomic (s : State) (p : Packet) : Except (BitVec 8) Applied :=
  let op := p.op.toNat
  let cell := p.cell
  let bad := cell.any s.mem.poisoned
  if atomicReturns op && cell.any (fun a => s.mem.errors.contains (a / 128)) then
    .error clsUncorrectable
  else if atomicReturns op && bad then .error clsPoison
  else if op = 0x4D then
    let v := laaddValue p.form p.operand.v
    let s1 := if bad then s else writeAcc s p.parts ((readAcc s p.parts).add v)
    .ok { state := s1, reply := ⟨0, false⟩, conds := { Conds.none with invalid := v.signals }, stored := 0, read := 0 }
  else if op = 0x4E ∧ p.form = 2 then
    let r := (readAcc s p.parts).retire (.float f32) rne
    .ok { state := s, reply := ⟨BitVec.ofNat 64 r.1, false⟩, conds := r.2, stored := 0, read := 0 }
  else if op = 0x4E ∧ p.form = 3 then
    .ok { state := s, reply := ⟨BitVec.ofNat 64 (readAcc s p.parts).flags, false⟩, conds := Conds.none, stored := 0
          read := 0 }
  else
    let w := atomicWidth op p.form
    let n := w / 8
    let old := leNat ((List.range n).map fun i => cellGet s.mem.cells (p.pa + i))
    let oldT := (List.range (n / 4)).any fun i => s.mem.tainted (p.pa + 4 * i)
    let x := p.operand.v.toNat % 2 ^ w
    let (new, conds) := atomicNew op w old x (p.expected.toNat % 2 ^ w)
    let reply : TVal := ⟨extend (atomicSigned op) w (BitVec.ofNat 64 old), oldT || p.addrTaint⟩
    let read := if atomicReturns op then
        (List.range (n / 4)).countP fun i => s.mem.tainted (p.pa + 4 * i)
      else 0
    match new with
    | none => .ok { state := s, reply := reply, conds := conds, stored := 0, read := read }
    | some v =>
      let bs := leBytes n v
      let data := (List.range n).map fun i =>
        (bs.getD i 0, atomicTaint op (s.mem.tainted (p.pa + i)) p.operand.t)
      if p.clean && data.any (·.2) then .error clsTaintedStore
      else
        .ok { state := { s with mem := s.mem.put p.pa data }, reply := reply, conds := conds
              stored := taintedWords p.pa data, read := read }

/-! ## Issue -/

/-- The next sequence number of a core (06/R156). -/
def nextSeq (s : State) (core : Nat) : BitVec 16 := (assoc core s.seqs).getD 0

/-- The three parts of 32 bytes of an la640 cell at an address, for an access. -/
def accParts (s : State) (h : Heat) (va : Dword) (acc : Access) : Run (State × List Nat) :=
  (List.range 3).foldl (fun r k => match r with
    | .error e => .error e
    | .ok (s, l) =>
      let a := va + BitVec.ofNat 64 (32 * k)
      match resolve s h h.core a acc with
      | .error e => faultAt e a
      | .ok (s', f) =>
        if f.kind = .asr ∨ f.kind = .peer then .ok (s', l ++ [f.pa]) else faultAt clsAtomicTarget a) (.ok (s, []))

/-- The parts of the cell that an atomic names. -/
def cellParts (s : State) (h : Heat) (va : Dword) (acc : Access) (size pa : Nat) : Run (State × List Nat) :=
  if size = 96 then accParts s h va acc else .ok (s, [pa])

/-- Crew that holds an ASR address; peers' cells count as one home. -/
def homeCrew (pa : Nat) : Nat := if pa < 0x010000000000 then (pa - asrBase) / 8388608 else 64

/-- The message of a coxed heat's atomic step at a home of this device, and what it carries (10/R316). -/
def rideAtomic (s : State) (h : Heat) (pa : Nat) (carries : Option Nat) : State :=
  match performer s h.die pa with
  | some e => if h.id.coxed then sendMsg s (some h.id.uid) carries (route 3 (coreEnd h.core) e) else s
  | none => s

/-- Send an atomic: its checks in the order of 06/R147, then the window of 06/R155, then the packet. -/
def sendAtomic (op : BitVec 7) (form : Nat) (d : BitVec 6) (va : Dword) (addrT : Bool) (operand : TVal)
    (expected : Dword) (s : State) (h : Heat) : Run (State × Heat) :=
  let acc : Access := if op = 0x4E then .read else if op = 0x4F then .write else .atomic
  let (size, align) := atomicCell op.toNat form
  match resolve s h h.core va acc with
  | .error e => faultAt e va
  | .ok (s1, f) =>
    if f.kind ≠ .asr ∧ f.kind ≠ .peer then faultAt clsAtomicTarget va
    else if va.toNat % align ≠ 0 then faultAt clsAlignment va
    else match cellParts s1 h va acc size f.pa with
      | .error e => .error e
      | .ok (s2, parts) =>
        if 64 ≤ (s.atomics.filter fun a => a.core == h.core).length then .error (.wait .engine [] 8)
        else match watch s2 h.id.job va size true (op != 0x4E) with
          | .error e => .error e
          | .ok s3 =>
            let seq := nextSeq s3 h.core
            let s4 := rideAtomic s3 h f.pa (some (s3.nextId + 1))
            let p : Packet :=
              { id := s4.nextId, core := h.core, seq := seq, heat := h.id.uid, op := op, form := form, va := va
                pa := f.pa, parts := parts, operand := operand, expected := expected, addrTaint := addrT
                clean := f.clean, clock := heatClock s4 h.id.uid, applied := false, resent := false, sentAt := s4.now, text := h.C.pc }
            let q : Pending :=
              { id := s4.nextId, dst := if d = 0 then none else some d, tt := h.tt .C, value := none, text := h.C.pc
                addr := va, ctx := none, cancelled := false }
            let s4 := if f.kind = .peer then sendOut s4 operand else s4
            .ok ({ s4 with
                atomics := s4.atomics ++ [p], seqs := assocSet h.core (seq + 1) s4.seqs, nextId := s4.nextId + 1 },
              { h with pend := h.pend ++ [q] })

/-- An atomic word: base sa, operand sb, and for ACAS the expected value in sd. -/
def atomicWord (op : BitVec 7) (form : Nat) (i : Instr) (d a b : BitVec 6) (off stamp : BitVec 16) (s : State) :
    Host.Outcome State Fault Refusal :=
  let old : BitVec 6 := if op = 0x49 then d else 0
  issue ((Issue.cLong [d, a, b] [a, b, old] true stamp).of i) .C (fun s h =>
    match readS2 h a b with
    | .error e => .error e
    | .ok (base, x) =>
      match readS h .C old with
      | .error e => .error e
      | .ok ex => sendAtomic op form d (base.v + simm off) base.t x ex.v s h) s

/-- AADD (06/R149). -/
def execAadd (d a b : BitVec 6) (wide : Bool) (off stamp : BitVec 16) (s : State) : Host.Outcome State Fault Refusal :=
  atomicWord 0x40 (boolNat wide) (.aadd d a b wide off stamp) d a b off stamp s

/-- AMIN (06/R149). -/
def execAmin (d a b : BitVec 6) (wide : Bool) (off stamp : BitVec 16) (s : State) : Host.Outcome State Fault Refusal :=
  atomicWord 0x41 (boolNat wide) (.amin d a b wide off stamp) d a b off stamp s

/-- AMAX (06/R149). -/
def execAmax (d a b : BitVec 6) (wide : Bool) (off stamp : BitVec 16) (s : State) : Host.Outcome State Fault Refusal :=
  atomicWord 0x42 (boolNat wide) (.amax d a b wide off stamp) d a b off stamp s

/-- AMINN (06/R149). -/
def execAminn (d a b : BitVec 6) (wide : Bool) (off stamp : BitVec 16) (s : State) : Host.Outcome State Fault Refusal :=
  atomicWord 0x43 (boolNat wide) (.aminn d a b wide off stamp) d a b off stamp s

/-- AMAXN (06/R149). -/
def execAmaxn (d a b : BitVec 6) (wide : Bool) (off stamp : BitVec 16) (s : State) : Host.Outcome State Fault Refusal :=
  atomicWord 0x44 (boolNat wide) (.amaxn d a b wide off stamp) d a b off stamp s

/-- AAND (06/R149). -/
def execAand (d a b : BitVec 6) (wide : Bool) (off stamp : BitVec 16) (s : State) : Host.Outcome State Fault Refusal :=
  atomicWord 0x45 (boolNat wide) (.aand d a b wide off stamp) d a b off stamp s

/-- AOR (06/R149). -/
def execAor (d a b : BitVec 6) (wide : Bool) (off stamp : BitVec 16) (s : State) : Host.Outcome State Fault Refusal :=
  atomicWord 0x46 (boolNat wide) (.aor d a b wide off stamp) d a b off stamp s

/-- AXOR (06/R149). -/
def execAxor (d a b : BitVec 6) (wide : Bool) (off stamp : BitVec 16) (s : State) : Host.Outcome State Fault Refusal :=
  atomicWord 0x47 (boolNat wide) (.axor d a b wide off stamp) d a b off stamp s

/-- AXCHG (06/R149). -/
def execAxchg (d a b : BitVec 6) (wide : Bool) (off stamp : BitVec 16) (s : State) : Host.Outcome State Fault Refusal :=
  atomicWord 0x48 (boolNat wide) (.axchg d a b wide off stamp) d a b off stamp s

/-- ACAS (06/R149). -/
def execAcas (d a b : BitVec 6) (wide : Bool) (off stamp : BitVec 16) (s : State) : Host.Outcome State Fault Refusal :=
  atomicWord 0x49 (boolNat wide) (.acas d a b wide off stamp) d a b off stamp s

/-- FAADD (06/R150, R151). -/
def execFaadd (d a b : BitVec 6) (off stamp : BitVec 16) (s : State) : Host.Outcome State Fault Refusal :=
  atomicWord 0x4A 0 (.faadd d a b off stamp) d a b off stamp s

/-- FAMIN (06/R150, R151). -/
def execFamin (d a b : BitVec 6) (off stamp : BitVec 16) (s : State) : Host.Outcome State Fault Refusal :=
  atomicWord 0x4B 0 (.famin d a b off stamp) d a b off stamp s

/-- FAMAX (06/R150, R151). -/
def execFamax (d a b : BitVec 6) (off stamp : BitVec 16) (s : State) : Host.Outcome State Fault Refusal :=
  atomicWord 0x4C 0 (.famax d a b off stamp) d a b off stamp s

/-- LAADD (06/R152). -/
def execLaadd (a b : BitVec 6) (form : BitVec 2) (off stamp : BitVec 16) (s : State) :
    Host.Outcome State Fault Refusal :=
  atomicWord 0x4D form.toNat (.laadd a b form off stamp) 0 a b off stamp s

/-- ALD (06/R152). -/
def execAld (d a : BitVec 6) (form : BitVec 2) (off stamp : BitVec 16) (s : State) : Host.Outcome State Fault Refusal :=
  atomicWord 0x4E form.toNat (.ald d a form off stamp) d a 0 off stamp s

/-- AST (06/R149). -/
def execAst (a b : BitVec 6) (wide : Bool) (off stamp : BitVec 16) (s : State) : Host.Outcome State Fault Refusal :=
  atomicWord 0x4F (boolNat wide) (.ast a b wide off stamp) 0 a b off stamp s

/-! ## At the home (06/R154, R156) -/

/-- A packet must wait: for its peer's reply in coxed mode, for one of the same core to the same crew (06/R154, 12/R368 note c), for its message
(10/R316), for the end of its job's halt (20/R438), or until the cell's die has applied what precedes the access
(12/R365). -/
def mustHold (s : State) (p : Packet) : Bool :=
  unanswered s p.heat p.pa p.id ||
  (s.atomics.any fun q => decide (q.id < p.id) && !q.applied && q.core == p.core && homeCrew q.pa == homeCrew p.pa) ||
    riding s p.id || messageHeld s p.heat || s.net.forwards.any (precedes s (dieOf p.pa) p.clock)

/-- The value of an outstanding atomic is known, with its conditions and its tainted words (06/R153, R180). -/
def Heat.replied (h : Heat) (id : Nat) (v : TVal) (c : BitVec 5) (stored read : Nat) : Heat :=
  { h with
    pend := mapIf (fun q => q.id == id) (fun q => { q with value := some v }) h.pend
    ctl := { h.ctl with
      asrstat := h.ctl.asrstat ||| c, tStored := satAdd h.ctl.tStored stored, tRead := satAdd h.ctl.tRead read } }

/-- The saved reply of a packet that is sent again, at its home (06/R156). -/
def savedReply (s : State) (p : Packet) : Option Reply :=
  if p.resent then s.replies.find? fun r => r.crew == homeCrew p.pa && r.core == p.core && r.seq == p.seq else none

/-- Keep the 64 most recent replies of a source core at a home. -/
def saveReply (s : State) (r : Reply) : State :=
  let mine := s.replies.filter fun x => x.crew == r.crew && x.core == r.core
  let l := if mine.length < 64 then s.replies else s.replies.eraseP fun x => x.crew == r.crew && x.core == r.core
  { s with replies := l ++ [r] }

/-- An error found by an access of a heat that is no engine command, or of none. -/
def discoverBy (s : State) (line uid : Nat) : State :=
  let who := (s.heat? uid).map (·.id)
  discover s line (who.elim 0 (·.job)) (who.elim 0 (·.launch)) (who.elim 0 (·.index)) noCommand 8

/-- What an applied packet has observed precedes each launch that its heat spawned after it and the engine still keeps
(12/R359). -/
def launchesAfter (s : State) (p : Packet) : State :=
  let later := s.cmds.filterMap fun k => match k.kind with
    | .hand r => if k.heat == p.heat && decide (p.id < k.id) then some r else none
    | _ => none
  let mine := s.requests.filter fun r => later.contains r.id
  { s with
    launches := mapIf (fun l => mine.any fun r => r.job == l.job && r.launch == l.id)
      (fun l => { l with startClock := clockMax (viewClock s (p.core / 64) p.pa) l.startClock }) s.launches }
/-- A packet has been applied, and a coxed heat's reply is on its way (10/R316). -/
def packetDone (s : State) (p : Packet) : State :=
  let s1 := { s with atomics := mapIf (fun q => q.id == p.id) (fun q => { q with applied := true }) s.atomics }
  match performer s (p.core / 64) p.pa with
  | some e =>
    if (s.heat? p.heat).elim false (·.id.coxed) then
      sendMsg s1 (some p.heat) (some p.id) (route 1 e (coreEnd p.core))
    else s1
  | none => s1

/-- ATOMIC_APPLY (06/R154, R156): the access takes its place in the cell's home order (12/R359). -/
def execAtomicApply (id : Nat) (s : State) : Host.Outcome State Fault Refusal :=
  match s.atomics.find? fun p => p.id == id && !p.applied with
  | none => .next s
  | some p =>
    if mustHold s p then .next s
    else
      let crew := homeCrew p.pa
      match savedReply s p with
      | some r => .next (packetDone (s.onHeat p.heat fun h => h.replied id r.value 0 0 0) p)
      | none =>
        match applyAtomic s p with
        | .ok r =>
          let s1 := launchesAfter (cellClock r.state p.heat (p.core / 64) p.pa) p
          let s2 := saveReply s1 { crew := crew, core := p.core, seq := p.seq, value := r.reply, conds := r.conds.bits }
          .next (packetDone (s2.onHeat p.heat fun h => h.replied id r.reply r.conds.bits r.stored r.read) p)
        | .error e =>
          let s1 := if e = clsUncorrectable then discoverBy s (p.pa / 128) p.heat else s
          let s2 := { s1 with atomics := s1.atomics.filter fun q => q.id != id }
          match s2.heat? p.heat with
          | none => .next s2
          | some h =>
            let h1 := { h with pend := h.pend.filter fun q => q.id != id }
            .next (raiseFault (s2.putHeat h1) h1 (some .C) (faultInfo s2 h1 .C e p.va 0 p.text none false 15))

/-- ATOMIC_RETRY (06/R156): the packet or its reply was lost; it is sent again with the same number. -/
def execAtomicRetry (id : Nat) (s : State) : Host.Outcome State Fault Refusal :=
  match s.atomics.find? fun p => p.id == id with
  | none => .next s
  | some p =>
    let lost (h : Heat) : Heat :=
      { h with pend := mapIf (fun q => q.id == id) (fun q => { q with value := none }) h.pend }
    .next (State.onCounters { s.onHeat p.heat lost with
      atomics := mapIf (fun q => q.id == id) (fun q => { q with applied := false, resent := true }) s.atomics } (p.core / 64)
      fun c => { c with atomicRetries := c.atomicRetries + 1 })

/-! ## Peers (10/R301; 12/R355, R365) -/

/-- The number under which a peer's source core stands in reply caches: this device's own cores come first. -/
def peerCore (core : Nat) : Nat := 256 + core

/-- A peer's access as a packet; an access of no listed operation writes and returns nothing. -/
def peerPacket (core : Nat) (seq : BitVec 16) (resent : Bool) (addr : Nat) (op : PeerOp) (val : TVal) (clock : List Nat) : Packet :=
  let (code, form, expected) : BitVec 7 × Nat × BitVec 64 := match op with
    | .load w => (0x4E, boolNat w, 0)
    | .store w => (0x4F, boolNat w, 0)
    | .atomic o w e => (o, boolNat w, e)
    | .accumulate f => (0x4D, f.toNat, 0)
    | .readAccumulator fl => (0x4E, 2 + boolNat fl, 0)
  { id := 0, core := peerCore core, seq := seq, heat := noHeat, op := code, form := form, va := 0, pa := addr
    parts := if (atomicCell code.toNat form).1 = 96 then [addr, addr + 32, addr + 64] else [addr]
    operand := val, expected := expected, addrTaint := false, clean := false, clock := clock, applied := false, resent := resent
    sentAt := 0, text := 0 }

/-- A peer's access to a cell of this device, in its home order, once; one outside this device's ASR is none of it
(06/R156, 12/R355). -/
def applyPeer (s : State) (p : Packet) : State :=
  if kindOf p.pa ≠ some .asr ∨ p.pa % (atomicCell p.op.toNat p.form).2 ≠ 0 then s
  else match savedReply s p with
    | some r => sendOut s r.value
    | none =>
      match applyAtomic s p with
      | .ok r =>
        let s1 := { r.state with net := noteClock r.state.net (p.pa / 128) p.clock }
        sendOut (saveReply s1
          { crew := homeCrew p.pa, core := p.core, seq := p.seq, value := r.reply, conds := r.conds.bits }) r.reply
      | .error e => if e = clsUncorrectable then discoverBy s (p.pa / 128) noHeat else s

/-- A 64-bit write of a peer is performed at this device's ASR. -/
def landBeat (s : State) (addr : Nat) (val : Dword) (taint : Bool) (clock : List Nat) : State :=
  if kindOf addr = some .asr ∧ addr % 8 = 0 then
    { s with
      mem := s.mem.put addr (withTaint taint (leBytes 8 val.toNat)), net := noteClock s.net (addr / 128) clock }
  else s

/-- A member's contribution to a collective arrives (07/R226). -/
def addPart (s : State) (p : CollPart) : State :=
  match s.job? p.job with
  | none => s
  | some _ =>
    if s.net.parts.any fun x => x.job == p.job && x.group == p.group && x.seq == p.seq && x.rank == p.rank then s
    else { s with net := { s.net with parts := s.net.parts ++ [p] } }

end Sys2Proof.Machine
end

