-- ==== Sys2Proof/Machine/Heats.lean ====
section
/-!
DEFINITION. The state in which a heat starts (02/R29), and the room it needs on a core (02/R28).
-/

namespace Sys2Proof.Machine

/-- A seat at the first word of its text. -/
def startSeat (pc : Dword) (kernel : Dword) : SeatState :=
  { pc := pc, tt := 0, ended := false, stopped := false, ret := [], loops := [], passed := 0,
    atBoundary := pc == kernel, atFinal := false, strokeBase := 0, strokeNo := 0, strokeSeen := false,
    lastIssue := none, slack := 0, seen := [], wait := none, check := none, exits := [], skips := (0, 0), mark := 1, lastTT := 0, prof := [], profAhead := [], readySince := none,
    agedAt := none }

/-- A stream with no descriptor; q12 to q15 have 64 i32 elements from heat start (07/R187). -/
def startStream (n : Nat) : QStream :=
  { desc := if n < 12 then none
      else some { fmt := 5, elems := 64, rowStride := 256, elemStride := 4, ring := none, taint := false }
    entries := [], buf := [], taken := 0, due := [] }

/-- The type state of X at heat start (08/R228). -/
def startTypes : XTypes := { t := 0, rm := 0, af := 2, asg := true, wf := 2, wsg := true, out := 0 }

/-- The CSRs and counters of a heat at its start. -/
def startCtl (prio : Nat) : HeatCtl :=
  { slipw := 64, tokwdog := 1048576, prio := prio, arrived := [], latch := false, specsup := 0, asrstat := 0,
    xferbar := 0, cobRights := 0, cobImg := 0, profSel := 0, tStored := 0, tControl := 0, tCleared := 0, tRead := 0 }

/-- A coordinate as a scalar: 32 bits, sign-extended. -/
def coord (cs : List Word) (i : Nat) : TVal := ⟨(cs.getD i 0).signExtend 64, false⟩

/-- The trip count placed in lc0: the immediate, or a coordinate saturated as by SETLC (02/R29, 05/R140). -/
def startTrip (t : TaskType) (cs : List Word) : Dword :=
  if t.tripSrc = 0 then BitVec.ofNat 64 t.trip
  else BitVec.ofNat 64 (clampS (coord cs (t.tripSrc - 1)).v 0 (2 ^ 32 - 1))

/-- A heat in its start state (02/R29). -/
def startHeat (id : HeatId) (t : TaskType) (cs : List Word) (core slot now : Nat) (spad asr : List Nat)
    (first last : Nat) : Heat :=
  let z : TVal := ⟨0, false⟩
  let seat := startSeat t.prologue t.kernel
  { id := id, type := t, core := core, slot := slot, since := now, spad := spad, asr := asr, status := .resident,
    stop := none, fault := none, secondary := 0, C := seat, L := seat, X := seat, S := seat,
    c :=
      { s := ((Vector.replicate 64 z).set 1 (coord cs 0)).set 2 (coord cs 1) |>.set 3 (coord cs 2)
          |>.set 4 (coord cs 3) |>.set 5 ⟨BitVec.ofNat 64 (id.launch % 2 ^ 32), false⟩
          |>.set 6 ⟨BitVec.ofNat 64 id.index, false⟩
        b := (Vector.replicate 8 ⟨false, false⟩).set 0 ⟨true, false⟩
        lc := (Vector.replicate 6 z).set 0 ⟨startTrip t cs, false⟩
        strides := Vector.replicate 24 { seatS := false, en := false, p := 0, stride := z } }
    pL := Vector.replicate 16 z, pS := Vector.replicate 16 z
    x :=
      { v := Vector.replicate 16 { bits := 0, taint := 0 }
        k := (Vector.replicate 8 z).set 0 ⟨BitVec.allOnes 64, false⟩
        types := startTypes, stat := 0, statLog := [], busy := [] }
    q := ((Vector.replicate 16 (startStream 0)).set 12 (startStream 12)).set 13 (startStream 13)
      |>.set 14 (startStream 14) |>.set 15 (startStream 15)
    g := Vector.replicate 8 none
    co := Vector.replicate 64 idleObj
    coTT := []
    fifo := Vector.replicate 6 0
    hidden := []
    outcomes := [], versC := [], versX := [], pend := [], ctl := startCtl t.prio, hold := .none, invm := none, marker := none, bags := [],
    blocks := [], hnd := none, claim := none, susp := none, cursor := none, cmdCount := 0, haltPending := false,
    firstStroke := first, lastStroke := last, spanOver := false, resumers := [], record := none, trapDue := false, freed := false, traceDue := false, overrun := false }

/-- A trap task that stands in the slot of a faulted heat whose allocation it takes over (20/R430). -/
def shadowed (s : State) (h : Heat) : Bool :=
  h.id.trapTask && s.heats.any fun k => k.core == h.core && k.slot == h.slot && !k.freed && k.status == .faulted &&
    k.id.uid != h.id.uid

/-- Heats that hold a core. -/
def onCoreOf (s : State) (core : Nat) : List Heat := s.heats.filter fun h => h.core == core && !h.freed && !shadowed s h

/-- A resident slot of a core that no heat holds. -/
def freeSlot (s : State) (core : Nat) : Option Nat :=
  (List.range 4).find? fun k => (onCoreOf s core).all fun h => h.slot != k

/-- Free 4 KiB units of a core's scratchpad, and of its crew's ASR (02/R28). -/
def freeSpad (s : State) (core : Nat) : List Nat :=
  (List.range 512).filter fun u => (onCoreOf s core).all fun h => !h.spad.contains u

def freeAsr (s : State) (core : Nat) : List Nat :=
  (List.range 2048).filter fun u => s.heats.all fun h => h.freed || h.crew != core / 4 || !h.asr.contains u

/-- A core has room for a task type's demand (02/R28). -/
def hasRoom (s : State) (core : Nat) (t : TaskType) : Bool :=
  let hs := onCoreOf s core
  (freeSlot s core).isSome &&
    decide (t.sGroups + (hs.map fun h => h.type.sGroups).sum ≤ 32) &&
    decide (t.vGroups + (hs.map fun h => h.type.vGroups).sum ≤ 16) &&
    decide (t.spadUnits ≤ (freeSpad s core).length) && decide (t.asrUnits ≤ (freeAsr s core).length)

end Sys2Proof.Machine
end

