-- ==== Sys2Proof/Machine/Schedule.lean ====
section
/-!
DEFINITION. What happens next where nothing outside says so (log 1): the order in which an issue slot tries its heats
(02/R44), the passing of cycles (10/R299; 20/R438, R442, R443), and the steps that the device can take of itself.
-/

namespace Sys2Proof.Machine

/-! ## The issue slot (02/R44) -/

/-- Whether heat a is chosen before heat b on a seat's slot: aged first, the longest aged, then the class, then
residence. DESIGN CHOICE (log 25): of two heats that have aged, or become resident, in the same cycle the one resident
longer, then the one in the lower slot, is chosen; the manual gives no tie break. -/
def before (s : State) (p : Seat) (a b : Heat) : Bool :=
  match (a.seat p).agedAt, (b.seat p).agedAt with
  | some x, some y => decide (x < y ∨ (x = y ∧ a.since < b.since) ∨ (x = y ∧ a.since = b.since ∧ a.slot < b.slot))
  | some _, none => true
  | none, some _ => false
  | none, none =>
    let ca := a.effective s
    let cb := b.effective s
    decide (cb < ca ∨ (ca = cb ∧ (a.since < b.since ∨ (a.since = b.since ∧ a.slot < b.slot))))

/-- Insert a heat into a list in the slot's order. -/
def insertHeat (s : State) (p : Seat) (h : Heat) : List Heat → List Heat
  | [] => [h]
  | k :: t => if before s p h k then h :: k :: t else k :: insertHeat s p h t

/-- The slot of a core's seat has issued a word in this cycle: it issues at most one (02/R12, R44). -/
def slotUsed (s : State) (core : Nat) (p : Seat) : Bool :=
  s.heats.any fun h => h.core == core && (h.seat p).lastIssue == some s.now

/-- The heats that a core's slot may serve in this cycle, in its order. -/
def candidates (s : State) (core : Nat) (p : Seat) : List Heat :=
  if slotUsed s core p then []
  else
    (s.heats.filter fun h => h.core == core && h.onCore && !(h.seat p).ended && !(h.seat p).stopped).foldr
      (insertHeat s p) []

/-- A heat not chosen was ready, or waits for what is given: ageing counts consecutive ready cycles (02/R44), and the
head's class is its wait's (18/R396). -/
def noteReady (s : State) (uid : Nat) (p : Seat) (ready : Bool) (wait : Option Wait) : State :=
  s.onHeat uid fun h => h.onSeat p fun v =>
    if ready then { v with readySince := some (v.readySince.getD s.now), wait := none }
    else { v with readySince := none, agedAt := none, wait := wait }

/-- A seat has been ready for AGECAP − 4 consecutive cycles without issuing (02/R44). -/
def ripe (ageCap now : Nat) (v : SeatState) : Bool :=
  v.agedAt.isNone && v.readySince.elim false fun t => decide (ageCap - 4 ≤ now - t)

/-- A ripe seat is aged from now on. -/
def ageSeat (ageCap now : Nat) (v : SeatState) : SeatState := if ripe ageCap now v then { v with agedAt := some now } else v

/-- HEAT_AGED (02/R44). -/
def execHeatAged (heat : Nat) (seat : Seat) (s : State) : Host.Outcome State Fault Refusal :=
  match s.heat? heat with
  | none => .next s
  | some h =>
    if h.onCore then .next (s.putHeat (h.onSeat seat (ageSeat s.dev.ageCap s.now))) else .next s

/-- TOKEN_WATCHDOG (02/R24): a token wait longer than TOKWDOG cycles raises the token fault at the seat. -/
def execTokenWatchdog (heat : Nat) (seat : Seat) (s : State) : Host.Outcome State Fault Refusal :=
  match s.heat? heat with
  | none => .next s
  | some h =>
    match (h.seat seat).wait with
    | some ⟨.token _, since⟩ =>
      if h.onCore && !(h.seat seat).stopped && !(h.seat seat).ended && decide (h.ctl.tokwdog ≠ 0) &&
          decide (h.ctl.tokwdog < s.now - since) then
        .next (raiseFault s h (some seat) (faultInfo s h seat clsToken 0 0 (h.seat seat).pc none false 15))
      else .next s
    | _ => .next s

/-! ## Cycles -/

/-- The counter of a wait (20/R443): token FIFOs from 3, objects from 9, barrier objects 73, device barriers from 74. -/
def waitIndex : Option Wait → Nat
  | none => 2
  | some w =>
    match w.kind with
    | .token f => 3 + f
    | .cobj n | .cobjStuck n => 9 + n
    | .barrier _ => 73
    | .deviceBarrier id => 74 + id
    | .engine => 1
    | .empty => 2

/-- Cycles that a seat spent at a text time: C, which stands at a text time of its own, has reached it or not. -/
def noteProf (reached tt k n : Nat) (v : SeatState) : SeatState :=
  if n = 0 then v
  else if tt < reached then { v with prof := addProf v.prof k n }
  else match v.profAhead with
    | (t, j, m) :: rest => if t = tt ∧ j = k then { v with profAhead := (t, j, m + n) :: rest }
      else { v with profAhead := (tt, k, n) :: v.profAhead }
    | [] => { v with profAhead := [(tt, k, n)] }

/-- A seat's head in n cycles from now on (18/R396): the first is issuing when the seat issued in it. A cycle belongs to the
text time of the word that is issued or waited at; C has reached the text times below `reached`. -/
def profSeat (now n reached : Nat) (v : SeatState) : SeatState :=
  let issued := v.lastIssue == some now
  let k := if v.ended then 2 else waitIndex v.wait
  let v1 := { v with
    prof := v.profAt reached, profAhead := v.profAhead.filter fun e => !decide (e.1 < reached) }
  noteProf reached v.tt k (if issued then n - 1 else n)
    (noteProf reached v.lastTT 0 (if issued then min n 1 else 0) v1)

/-- Counts that stand still in a debug halt go on from the release (20/R438). -/
def shiftSeat (n : Nat) (v : SeatState) : SeatState :=
  { v with
    wait := v.wait.map fun w => { w with since := w.since + n }
    readySince := v.readySince.map (· + n) }

def shiftHold (n : Nat) : Holding → Holding
  | .wfe t l => .wfe (t + n) l
  | .yielded t l => .yielded (t + n) l
  | x => x

/-- Whether a job stands in a debug halt with no step release running. -/
def jobHalted (s : State) (job : Nat) : Bool :=
  (s.job? job).elim false fun j => j.halt.elim false fun x => x.step.isNone

/-- Tokens whose words' results are written by a cycle are visible (02/R22). -/
def showTokens (now : Nat) (h : Heat) : Heat :=
  { h with
    fifo := Vector.ofFn fun (f : Fin 6) => h.fifo[f] + h.hidden.countP fun t => t.1 == f.val && decide (t.2 ≤ now)
    hidden := h.hidden.filter fun t => decide (now < t.2) }

/-- Results of X that are readable by a cycle, and entries that are visible, wait no more (08/R250). -/
def settleX (now : Nat) (h : Heat) : Heat :=
  let x := { h.x with busy := h.x.busy.filter fun e => decide (now < e.2.1) }
  let q := if h.q.toList.all (·.due.isEmpty) then h.q
    else h.q.map fun st => { st with due := st.due.dropWhile fun t => decide (t ≤ now) }
  showTokens now { h with x := x, q := q }

/-- n cycles pass over a heat. -/
def tickHeat (s : State) (n : Nat) (h : Heat) : Heat :=
  if !h.onCore then h
  else
    let halted := jobHalted s h.id.job
    let f (v : SeatState) : SeatState :=
      if halted then shiftSeat n v else ageSeat s.dev.ageCap (s.now + n) (profSeat s.now n (h.C.tt) v)
    let h := settleX (s.now + n) { h with C := f h.C, L := f h.L, X := f h.X, S := f h.S }
    if halted then { h with hold := shiftHold n h.hold } else h

/-- When each core's engine last held a command, n cycles later (13/R384); of a core whose heat's job is halted this
time stands still (20/R438). -/
def engineHeldAt (s : State) (n : Nat) : List (Nat × Nat) :=
  let still := (s.heats.filter fun h => h.onCore && jobHalted s h.id.job).map (·.core)
  let moved := still.foldl (fun l c => assocSet c ((assoc c l).getD 0 + n) l) s.dev.engLast
  (s.cmds.filter (·.copies)).foldl (fun l c => assocSet c.core (s.now + n) (assocSet c.performer (s.now + n) l)) moved

/-- n cycles of the regatta clock pass (10/R299; 20/R442, R443). -/
def passCycles (s : State) (n : Nat) : State :=
  { s with
    heats := s.heats.map (tickHeat s n)
    jobs := s.jobs.map fun j => if jobHalted s j.id then { j with haltedCycles := j.haltedCycles + n } else j
    cmds := s.cmds.map fun c => if (s.heat? c.heat).elim false fun h => jobHalted s h.id.job then
      { c with since := c.since + n } else c
    dev := { s.dev with clock := s.dev.clock + n, engLast := engineHeldAt s n } }

end Sys2Proof.Machine
end

