-- ==== Sys2Proof/Machine/Sync.lean ====
section
/-!
DEFINITION. Fences, barrier objects, device barriers and the words that test completion objects
(06/R157 to R163, 07/R197, 12/R358, R368; 13/R372 for the rounds that a device barrier ends).
-/

namespace Sys2Proof.Machine

/-! ## Fences (06/R157) -/

/-- What a fence waits for. -/
structure FenceNeed where
  /-- Every covered access is performed at the scope. -/
  performed : Bool
  /-- Every read and atomic has returned. -/
  returned : Bool

/-- Writes of a heat that are not yet performed at a scope (12/R358). -/
def unperformed (s : State) (uid scope : Nat) : Bool :=
  (decide (4 ≤ scope) && s.net.forwards.any fun f => f.heat == uid) ||
    (decide (5 ≤ scope) && s.net.posted.any fun p => p.heat == uid)

/-- The seats of a heat whose text time lies before C's. -/
def trailing (h : Heat) : List Seat := (h.live [.L, .X, .S]).filter fun p => decide (h.tt p < h.tt .C)

/-- What a fence of a scope still waits for; a fence of seat scope orders what each seat keeps in order anyway. A handler
has no seats beside it. -/
def fenceWait (s : State) (h : Heat) (scope : Nat) (n : FenceNeed) (kind : WaitKind) : Option Stay :=
  if scope = 0 then none
  else if (s.cur.bind (·.handler)).isNone && !(trailing h).isEmpty then some (.wait kind (trailing h) 3)
  else if n.performed && ((s.atomicsOf h.id.uid).any (!·.applied) || unperformed s h.id.uid scope) then
    some (.wait kind [] 8)
  else if n.returned && !h.pend.isEmpty then some (.wait kind [] 8)
  else none

/-- A fence of either kind. -/
def fenceWord (i : Instr) (scope : BitVec 4) (n : FenceNeed) (s : State) : Host.Outcome State Fault Refusal :=
  issue ((Issue.c 1 [] [] false).of i) .C (fun s h =>
    match fenceWait s h scope.toNat n .engine with
    | some e => .error e
    | none => .ok (s, h)) s

/-- FENCE (06/R157). -/
def execFence (scope : BitVec 4) (s : State) : Host.Outcome State Fault Refusal :=
  fenceWord (.fence scope) scope ⟨true, true⟩ s

/-- FENCEA (06/R157). -/
def execFencea (scope : BitVec 4) (s : State) : Host.Outcome State Fault Refusal :=
  fenceWord (.fencea scope) scope ⟨false, true⟩ s

/-- FENCER (06/R157). -/
def execFencer (scope : BitVec 4) (s : State) : Host.Outcome State Fault Refusal :=
  fenceWord (.fencer scope) scope ⟨true, false⟩ s

/-! ## Barrier objects (06/R158 to R160) -/

/-- A barrier object. -/
structure BarObj where
  gen : Nat
  expected : Nat
  arrivals : Nat
  inbound : Nat
  outbound : Nat
deriving DecidableEq, Repr

/-- An address of the local or the crew window. -/
def inScratchpad (va : Dword) : Bool :=
  decide (localBase ≤ va.toNat ∧ va.toNat < localBase + 2097152) ||
    decide (crewWindow ≤ va.toNat ∧ va.toNat < crewWindow + 8388608)

/-- Where a barrier object lies; one outside scratchpad and slice scratch, or misaligned, faults (06/R158). The access
passes the watchpoints (20/R437). DESIGN CHOICE (log 75): the translation and protection faults come before the
atomic-target fault, and that before the alignment fault; the manual gives no order. -/
def barrierFrame (s : State) (h : Heat) (va : Dword) (acc : Access) : Run (State × Frame) :=
  match resolve s h h.core va acc with
  | .error e => faultAt e va
  | .ok (s1, f) =>
    if f.kind ≠ .slice ∧ !inScratchpad va then faultAt clsAtomicTarget va
    else if va.toNat % 16 ≠ 0 then faultAt clsAlignment va
    else if errorAt s1 h.die f.pa then faultAt clsUncorrectable va
    else if poisonSeen s1 h.die f.pa 16 then faultAt clsPoison va
    else match watch s1 h.id.job va 16 true (acc != .read) with
      | .error e => .error e
      | .ok s2 => .ok (wake s2 h.core f.pa, f)

/-- Scope of a barrier object: crew in scratchpad, die in slice scratch (06/R158). -/
def barrierScope (f : Frame) : Nat := if f.kind = .slice then 3 else 2

/-- The object at a physical address, as a die sees it. -/
def readBar (s : State) (die pa : Nat) : BarObj :=
  let v := viewNat s die pa 16
  { gen := v % 16, expected := v / 2 ^ 4 % 2 ^ 28, arrivals := v / 2 ^ 32 % 2 ^ 32, inbound := v / 2 ^ 64 % 2 ^ 32
    outbound := v / 2 ^ 96 % 2 ^ 32 }

/-- The object as a number of 128 bits. -/
def BarObj.bits (b : BarObj) : Nat :=
  b.gen % 16 + b.expected * 2 ^ 4 + b.arrivals * 2 ^ 32 + b.inbound * 2 ^ 64 + b.outbound * 2 ^ 96

/-- The bytes of an object as changed, each word with its taint and the taint of the step. -/
def barBytes (s : State) (h : Heat) (f : Frame) (b : BarObj) (t : Bool) : List (Byte × Bool) :=
  let old := viewBytes s h.die f.pa 16
  (List.range 16).map fun i => ((leBytes 16 b.bits).getD i 0, t || (old.getD (i / 4 * 4) (0, false)).2)

/-- No arrival of a heat stands at an object whose generation has changed (02/R45). -/
def Heat.forgetBar (h : Heat) (pa : Nat) : Heat := { h with ctl := { h.ctl with arrived := assocDel pa h.ctl.arrived } }

/-- One atomic step at the object's home. -/
def writeBar (s : State) (h : Heat) (f : Frame) (b : BarObj) (t : Bool) : State :=
  let s1 := writePhys (rideAtomic s h f.pa none) h.id.uid h.die f.pa f.key (barBytes s h f b t)
  if b.gen = (readBar s h.die f.pa).gen then s1 else { s1 with heats := s1.heats.map (·.forgetBar f.pa) }

/-- The heat after a step of its own, whose tainted words count (06/R180): it has arrived at the object's generation while
that stands. -/
def Heat.stepped (h : Heat) (s : State) (f : Frame) (va : Dword) (b : BarObj) (t : Bool) : Heat :=
  let gen := (readBar s h.die f.pa).gen
  let h1 := if b.gen = gen then { h with ctl := { h.ctl with arrived := assocSet f.pa gen h.ctl.arrived } } else h.forgetBar f.pa
  countStored (countRead h1 va.toNat (viewBytes s h.die f.pa 16)) va.toNat (barBytes s h f b t)

/-- complete_if_ready of 06/R160. -/
def BarObj.settle (b : BarObj) : BarObj :=
  if b.arrivals = 0 ∧ b.inbound = 0 ∧ b.outbound = 0 then
    { b with gen := (b.gen + 1) % 16, arrivals := b.expected }
  else b

/-- Write the object after its completion test, and trace a completion (20/R447, event 2). -/
def stepBar (s : State) (h : Heat) (f : Frame) (va : Dword) (b : BarObj) (t : Bool) : State :=
  let done := b.settle
  let s1 := writeBar s h f done t
  if done.gen ≠ b.gen then traceHeat s1 h 2 va.toNat (va.toNat / 2 ^ 32) else s1

/-- The object that a barrier word names: the heat's later words wait for its STMAPs and STUNMAPs (07/R221, R223). -/
def barrierWord (s : State) (h : Heat) (va : Dword) (acc : Access) : Run (State × Frame) :=
  match stashWait s h va 16 with
  | some e => .error e
  | none => barrierFrame s h va acc

/-- BARINIT (06/R159). -/
def execBarinit (a b : BitVec 6) (off stamp : BitVec 16) (s : State) : Host.Outcome State Fault Refusal :=
  issue { (Issue.cLong [a, b] [a, b] false stamp).of (.barinit a b off stamp) with handler := false } .C (fun s h =>
    match readS2 h a b with
    | .error e => .error e
    | .ok (base, n) =>
      if n.v.toNat = 0 ∨ 2 ^ 28 ≤ n.v.toNat then .error Stay.illegal
      else
        let va := base.v + simm off
        match barrierWord s h va .write with
        | .error e => .error e
        | .ok (s1, f) =>
          let t := n.t || base.t
          if f.clean && t then faultAt clsTaintedStore va
          else
            let b : BarObj :=
              { gen := ((readBar s1 h.die f.pa).gen + 1) % 16, expected := n.v.toNat, arrivals := n.v.toNat, inbound := 0
                outbound := 0 }
            .ok (writeBar s1 h f b t, h.stepped s1 f va b t)) s

/-- BARARR (06/R160): a release, then one arrival; while no arrival is owed it waits. -/
def execBararr (d a : BitVec 6) (s : State) : Host.Outcome State Fault Refusal :=
  issue (Issue.seatOnly [d, a] [a] true) .C (fun s h =>
    match readS h .C a with
    | .error e => .error e
    | .ok x =>
      match barrierWord s h x.v .write with
      | .error e => .error e
      | .ok (s1, f) =>
        if f.clean && x.t then faultAt clsTaintedStore x.v
        else match fenceWait s h (barrierScope f) ⟨true, false⟩ (.barrier f.pa) with
          | some e => .error e
          | none =>
            let b := readBar s1 h.die f.pa
            if b.arrivals = 0 then .error (.wait (.barrier f.pa) [] 3)
            else
              let b' : BarObj := { b with arrivals := b.arrivals - 1 }
              let s2 := bringClock s1 h.id.uid h.die f.pa
              .ok (stepBar s2 h f x.v b' x.t,
                (h.stepped s1 f x.v b'.settle x.t).setS d ⟨BitVec.ofNat 64 b.gen, false⟩)) s

/-- BARWAIT (06/R159, R160): until the generation differs from the low bits of sb; the return is an acquire. -/
def execBarwait (a b : BitVec 6) (s : State) : Host.Outcome State Fault Refusal :=
  issue (Issue.seatOnly [a, b] [a, b] false) .C (fun s h =>
    match readS2 h a b with
    | .error e => .error e
    | .ok (x, g) =>
      match barrierWord s h x.v .read with
      | .error e => .error e
      | .ok (s1, f) =>
        if (readBar s1 h.die f.pa).gen = g.v.toNat % 16 then .error (.wait (.barrier f.pa) [] 3)
        else .ok (rideRead (bringClock s1 h.id.uid h.die f.pa) h h.core f.pa 2,
          countRead h x.v.toNat (viewBytes s1 h.die f.pa 16))) s

/-! ## Device barriers (06/R161, R162) -/

/-- The barrier of a launch with an id. -/
def State.devBar? (s : State) (job launch id : Nat) : Option DevBar :=
  s.devBars.find? fun b => b.job == job && b.launch == launch && b.id == id

/-- Change the barrier of a launch with an id. -/
def State.onDevBar (s : State) (job launch id : Nat) (f : DevBar → DevBar) : State :=
  { s with devBars := mapIf (fun b => b.job == job && b.launch == launch && b.id == id) f s.devBars }

/-- The counted heats of a launch. -/
def State.members (s : State) (job launch : Nat) : List Heat :=
  s.heats.filter fun k => k.id.job == job && k.id.launch == launch && !k.id.detached

/-- Every member has arrived at the generation, or has ended; one that is not placed yet, or is suspended, has not
(06/R161, 10/R305, 17/R395). -/
def allArrived (s : State) (b : DevBar) : Bool :=
  ((s.launch? b.job b.launch).elim true fun l => decide (l.total ≤ l.nextIdx)) &&
    (s.members b.job b.launch).all fun k => k.status.final || (k.onCore && b.arrived.contains k.id.index)

/-- The generation completes when every member has arrived; the trace record names the heat that sees it
(20/R447, event 3). -/
def settleDevBar (s : State) (h : Heat) (id : Nat) : State :=
  match s.devBar? h.id.job h.id.launch id with
  | none => s
  | some b =>
    if b.arrived ≠ [] ∧ allArrived s b then
      traceHeat (s.onDevBar h.id.job h.id.launch id fun b =>
        { b with gen := b.gen + 1, arrived := [], doneClock := b.clock }) h 3 id b.gen
    else s

/-- The slalom context of a launch. -/
def State.slalom? (s : State) (job launch : Nat) : Option Slalom :=
  s.slaloms.find? fun c => c.job == job && c.launch == launch

/-- Change the slalom context of a launch. -/
def State.onSlalom (s : State) (job launch : Nat) (f : Slalom → Slalom) : State :=
  { s with slaloms := mapIf (fun c => c.job == job && c.launch == launch) f s.slaloms }

/-- The indices of a window: the retry list, then fresh indices, up to W (06/R176). -/
def fillWindow (n w fresh : Nat) (retry : List Nat) : List Nat × Nat :=
  let more := min (w - retry.length) (n - fresh)
  (retry ++ (List.range more).map (fresh + ·), fresh + more)

/-- The indices that a window leaves to be tried again, ascending (06/R179). -/
def retryOf (c : Slalom) : List Nat :=
  (c.list.filter fun i => !(c.reports.any fun r => r.1 == i && r.2)).foldr numIns []

/-- The next window of a context (06/R176, 13/R371). -/
def nextWindow (c : Slalom) : Slalom :=
  let next := fillWindow c.n c.w c.fresh (retryOf c)
  { c with
    window := c.window + 1, list := next.1, fresh := next.2, reports := []
    passed := (c.passed.map fun p => (p.1, p.2 - 2)).filter fun p => p.2 != 0 }

/-- The next window starts when every member has passed two DBARs in this one, or has ended (06/R161, R176). -/
def settleWindow (s : State) (job launch : Nat) : State :=
  match s.slalom? job launch, s.launch? job launch with
  | some c, some l =>
    let spent (m : Nat) : Bool := decide (2 ≤ (assoc m c.passed).getD 0) ||
      (s.members job launch).any fun k => k.id.index == m && k.status.final
    if l.indexList.all spent then s.onSlalom job launch nextWindow else s
  | _, _ => s

/-- A member that has executed SLWIN passes a DBAR (06/R176). -/
def passRound (s : State) (h : Heat) : State :=
  let one (c : Slalom) : Slalom :=
    if c.members.contains h.id.index then
      { c with passed := assocSet h.id.index ((assoc h.id.index c.passed).getD 0 + 1) c.passed }
    else c
  settleWindow (s.onSlalom h.id.job h.id.launch one) h.id.job h.id.launch

/-- DBAR (06/R161, R162): one arrival, at most once, and the wait for its generation's end. -/
def execDbar (id : BitVec 6) (s : State) : Host.Outcome State Fault Refusal :=
  issue (Issue.seatOnly [] [] false) .C (fun s h =>
    let kind := WaitKind.deviceBarrier id.toNat
    match s.launch? h.id.job h.id.launch with
    | none => .error Stay.illegal
    | some l =>
      if !h.type.gang || h.id.detached || !l.mask.getLsbD id.toNat then .error Stay.illegal
      else match s.devBar? h.id.job l.id id.toNat with
        | none => .error Stay.illegal
        | some b =>
          let done (s : State) (i : Nat) : State × Heat :=
            let clk := (s.devBar? h.id.job l.id i).elim [] (·.doneClock)
            (passRound (mergeClock s h.id.uid clk) h, { h with hold := .none })
          match h.hold with
          | .dbar i g =>
            let s1 := settleDevBar s h i
            if ((s1.devBar? h.id.job l.id i).elim g (·.gen)) ≠ g then .ok (done s1 i) else .error (.wait kind [] 3)
          | _ =>
            match fenceWait s h 4 ⟨true, false⟩ kind with
            | some e => .error e
            | none =>
              let s1 := s.onDevBar h.id.job l.id id.toNat fun b =>
                { b with arrived := numIns h.id.index b.arrived, clock := clockMax (heatClock s h.id.uid) b.clock }
              let s2 := settleDevBar s1 h id.toNat
              if ((s2.devBar? h.id.job l.id id.toNat).elim b.gen (·.gen)) ≠ b.gen then .ok (done s2 id.toNat)
              else .error (.park s2 { h with hold := .dbar id.toNat b.gen } kind)) s

/-! ## Completion objects (06/R163, 07/R197) -/

/-- Objects of a mask, ascending. -/
def objects (mask : Dword) : List Nat := (List.range 64).filter mask.getLsbD

/-- A command that names one of the objects, earlier in the text, that its seat has not issued yet (07/R197). -/
def lateCommand (h : Heat) (p : Seat) (js : List Nat) : Option Seen :=
  h.ahead p fun k => match k with | .cmd c => js.contains c.toNat | _ => false

/-- The class of a wait for objects (18/R396): the lowest that is busy, or text time when none is; such a wait never ends
once the heat has faulted when objects that it needs are never done otherwise (11/R343). -/
def waitKind (s : State) (h : Heat) (p : Seat) (js : List Nat) (needs : List Nat → (Nat → Bool) → Bool) : WaitKind :=
  let busy := js.filter (h.busyFor p)
  match busy with
  | [] => .empty
  | j :: _ => if needs busy (hopeless s h) then .cobjStuck j else .cobj j

/-- A word that looks at the objects of a mask: it waits in a class until every earlier command that names one has
issued. -/
def coWord (d a : BitVec 6) (late : State → Heat → List Nat → WaitKind) (f : State → Heat → List Nat → Run TVal)
    (s : State) : Host.Outcome State Fault Refusal :=
  issueC (Issue.seatOnly [d, a] [a] true) (fun h =>
    match readS h .C a with
    | .error e => .error e
    | .ok x =>
      let js := objects x.v
      match lateCommand h .C js with
      | some e => .error (.wait (late s h js) [e.owner] 3)
      | none =>
        match f s h js with
        | .error e => .error e
        | .ok v => .ok (h.setS d v)) s

/-- WAITCO all (06/R163): the number of objects whose status holds an error. -/
def execWaitcoAll (d a : BitVec 6) (s : State) : Host.Outcome State Fault Refusal :=
  let kind (s : State) (h : Heat) (js : List Nat) : WaitKind := waitKind s h .C js List.any
  coWord d a kind (fun s h js =>
    if js.any (h.busyFor .C) then .error (.wait (kind s h js) [] 8)
    else .ok ⟨BitVec.ofNat 64 (js.countP (h.errorFor .C)), false⟩) s

/-- WAITCO any (06/R163): the lowest object that is not busy; all ones for an empty mask. Its result is untainted for
a mask of one bit. -/
def execWaitcoAny (d a : BitVec 6) (s : State) : Host.Outcome State Fault Refusal :=
  let kind (s : State) (h : Heat) (js : List Nat) : WaitKind := waitKind s h .C js List.all
  coWord d a kind (fun s h js =>
    if js = [] then .ok ⟨BitVec.allOnes 64, true⟩
    else match js.find? fun i => !h.busyFor .C i with
      | none => .error (.wait (kind s h js) [] 8)
      | some i => .ok ⟨BitVec.ofNat 64 i, js.length != 1⟩) s

/-- TESTCO (06/R163): the objects that are not busy. -/
def execTestco (d a : BitVec 6) (s : State) : Host.Outcome State Fault Refusal :=
  coWord d a (fun _ _ _ => .empty) (fun _ h js =>
    .ok ⟨BitVec.ofNat 64 (js.foldl (fun m j => if h.busyFor .C j then m else m + 2 ^ j) 0), true⟩) s

end Sys2Proof.Machine
end

