-- ==== Sys2Proof/Machine/Engine.lean ====
section
/-!
DEFINITION. The copy engine: the command queue, the issue and the end of commands, arrival handlers, transfer counts,
and the copies, blocks, stash ranges and translation markers (07/R194 to R207, R219 to R224; 20/R449 to R451).
-/

namespace Sys2Proof.Machine

/-! ## An engine's accesses (07/R199, R200) -/

/-- The pieces of a range that lie in one 128-byte line each: offset and length. -/
def pieces (start n : Nat) : List (Nat × Nat) :=
  if n = 0 then [] else
  (List.range ((start % 128 + n + 127) / 128)).map fun k =>
    let lo := 128 * k - start % 128
    (lo, min (128 * (k + 1) - start % 128) n - lo)

/-- An engine's read within a line: data, and whether it met poison or an uncorrectable error. -/
def engineRead (s : State) (h : Heat) (cmd : Nat) (va : Dword) (n : Nat) : Run (State × List (Byte × Bool) × Bool) :=
  match resolve s h h.core va .read with
  | .error e => faultAt e va
  | .ok (s1, f) =>
    if f.kind ≠ .table ∧ mustWait s1 h.id.uid h.die f.pa then .error (.wait .engine [] 5)
    else match watch s1 h.id.job va n true false with
      | .error e => .error e
      | .ok s2 =>
        let data := frameBytes s2 h h.core f n
        if f.kind = .table then .ok (s2, data, false)
        else
          let s3 := if overwritten s2 h.die (f.pa / 128) then s2
            else discover s2 (f.pa / 128) h.id.job h.id.launch h.id.index cmd 8
          let bad := poisonSeen s3 h.die f.pa n
          let s4 := noteFill (if f.cls = 0 ∧ f.kind = .underlay then fillReplica s3 h.die f.pa else s3) f.pa f.key
          let s5 := rideRead (bringClock (wake s4 h.core f.pa) h.id.uid h.die f.pa) h h.core f.pa f.cls
          .ok (s5.onHeat h.id.uid fun k => countRead k va.toNat data, data, bad)

/-- An engine's read of a range, piece by piece. -/
def engineSpan (s : State) (h : Heat) (cmd : Nat) (va : Dword) (n : Nat) : Run (State × List (Byte × Bool) × Bool) :=
  (pieces va.toNat n).foldl (fun acc p => match acc with
    | .error e => .error e
    | .ok (s, d, b) =>
      match engineRead s h cmd (va + BitVec.ofNat 64 p.1) p.2 with
      | .error e => .error e
      | .ok (s', d', b') => .ok (s', d ++ d', b || b')) (.ok (s, [], false))

/-- Poison in place of a write: the words of an ASR frame, the line of another. -/
def poisonAt (s : State) (f : Frame) (n : Nat) : State :=
  if f.kind = .asr ∨ f.kind = .peer then
    { s with mem := { s.mem with
        poisonAsr := (List.range ((n + 3) / 4)).foldl (fun l i => numIns (f.pa / 4 + i) l) s.mem.poisonAsr } }
  else { s with mem := { s.mem with poison := numIns (f.pa / 128) s.mem.poison } }

/-- An engine's write of one destination unit: the data, or poison in its place. -/
def engineWrite (s : State) (h : Heat) (va : Dword) (data : List (Byte × Bool)) (bad : Bool) : Run State :=
  match storeFrame s h h.core va (!bad && data.any (·.2)) with
  | .error e => .error e
  | .ok (s1, f) =>
    match watch s1 h.id.job va data.length false true with
    | .error e => .error e
    | .ok s2 =>
      let s3 := wake s2 h.core f.pa
      if bad then .ok (rideWrite (poisonAt s3 f data.length) h h.core f.pa s3.nextId)
      else
        let s4 := rideWrite (writePhys s3 h.id.uid h.die f.pa f.key data) h h.core f.pa s3.nextId
        .ok (s4.onHeat h.id.uid fun k => countStored k va.toNat data)

/-! ## Performing a command -/

/-- A command that waits for something outside it is none; otherwise the state and the command with its outcome, or with
what it has done so far. -/
abbrev Performed := Option (State × Cmd)

/-- A debug halt holds the engines of a job; in a step release they serve the commands of the named seat alone
(20/R438, R441). -/
def engineHeld (s : State) (c : Cmd) : Bool :=
  match s.heat? c.heat with
  | none => false
  | some h =>
    match (s.job? h.id.job).bind (·.halt) with
    | none => false
    | some k => k.step.elim true fun x => x.1 != h.id.uid || x.2.1 != c.seat

/-- A command whose effect is over, as far as it went. -/
def Cmd.done (c : Cmd) (prog : Nat) (fault : Option (BitVec 8 × Dword)) : Cmd :=
  { c with spent := true, prog := prog, fault := fault }

/-- Copy by ascending destination units; each unit's data comes from its offset and length (07/R199). Units that it has
moved already are done; a debug halt lets it finish the unit in hand and start no other (20/R438). -/
def copyUnits (dst : Dword) (step : Nat) (h : Heat) (get : State → Nat → Nat → Run (State × List (Byte × Bool) × Bool)) :
    List (Nat × Nat) → State → Cmd → Performed
  | [], s, c => some (s, { c with spent := true })
  | (off, n) :: t, s, c =>
    if off + n ≤ c.prog * step then copyUnits dst step h get t s c
    else if engineHeld s c then some (s, c)
    else
    let put : Run (State × Bool) := match get s off n with
      | .error e => .error e
      | .ok (s1, d, bad) =>
        match engineWrite s1 h (dst + BitVec.ofNat 64 off) d bad with
        | .error e => .error e
        | .ok s2 => .ok (s2, bad)
    match put with
    | .error (.fault cls addr _) => some (s, c.done c.prog (some (cls, addr)))
    | .error _ => none
    | .ok (s2, bad) =>
      copyUnits dst step h get t s2 { c with prog := (off + n) / step, poisonCopied := c.poisonCopied || bad }

/-- CPYIN and CPYOUT (07/R205). -/
def performCopy (s : State) (h : Heat) (c : Cmd) (src dst n : Nat) (t : Bool) : Performed :=
  copyUnits (BitVec.ofNat 64 dst) 1 h (fun s off k =>
    match engineSpan s h c.index (BitVec.ofNat 64 (src + off)) k with
    | .error e => .error e
    | .ok (s', d, b) => .ok (s', d.map fun x => (x.1, x.2 || t), b)) (pieces dst n) s c

/-- A destination unit of ASRCPY in ASR is refused (07/R207). -/
def notAsr (s : State) (h : Heat) (va : Dword) : Run Unit :=
  match resolve s h h.core va .write with
  | .ok (_, f) => if f.kind = .asr ∨ f.kind = .peer then faultAt clsProtection va else .ok ()
  | .error e => faultAt e va

/-- A source word of ASRCPY outside ASR is refused (07/R207). -/
def mustAsr (s : State) (h : Heat) (va : Dword) : Run Unit :=
  match resolve s h h.core va .read with
  | .ok (_, f) => if f.kind = .asr ∨ f.kind = .peer then .ok () else faultAt clsAtomicTarget va
  | .error e => faultAt e va

/-- Cells first to first + n − 1 of an ASRCPY in retire mode, which pass the watchpoints (20/R437), as f32 words;
conditions; poison. -/
def retireCells (s : State) (h : Heat) (cmd src : Nat) (t : Bool) (first n : Nat) :
    Run (State × List (Byte × Bool) × Bool × Conds) :=
  (List.range n).foldl (fun r k => match r with
    | .error e => .error e
    | .ok (s, d, b, c) =>
      let va : Dword := BitVec.ofNat 64 (src + 96 * (first + k))
      match (accParts s h va .read).bind fun r => (watch r.1 h.id.job va 96 true false).map fun s1 => (s1, r.2) with
      | .error e => .error e
      | .ok (s', ps) =>
        let s2 := ps.foldl (fun s p => discover s (p / 128) h.id.job h.id.launch h.id.index cmd 8) s'
        let bad := ps.any fun p => (List.range 32).any fun i => s2.mem.poisoned (p + i)
        let v := (readAcc s2 ps).retire (.float f32) rne
        let s3 := ps.foldl (fun s p => rideRead (cellClock s h.id.uid h.die p) h h.core p 2) s2
        .ok (s3, d ++ withTaint t (leBytes 4 v.1), b || bad, c.or v.2)) (.ok (s, [], false, Conds.none))

/-- Conditions that the cells of a whole ASRCPY raise. -/
def retireConds (s : State) (h : Heat) (cmd src n : Nat) : Conds :=
  match retireCells s h cmd src false 0 n with
  | .ok (_, _, _, c) => c
  | .error _ => Conds.none

/-- ASRCPY (07/R207). -/
def performAsrcpy (s : State) (h : Heat) (c : Cmd) (src dst n : Nat) (retire t : Bool) : Performed :=
  let get (s : State) (off k : Nat) : Run (State × List (Byte × Bool) × Bool) :=
    match notAsr s h (BitVec.ofNat 64 (dst + off)) with
    | .error e => .error e
    | .ok () =>
      if retire then
        match retireCells s h c.index src t (off / 4) (k / 4) with
        | .error e => .error e
        | .ok (s', d, b, _) => .ok (s', d, b)
      else
        match mustAsr s h (BitVec.ofNat 64 (src + off)) with
        | .error e => .error e
        | .ok () =>
          match engineSpan s h c.index (BitVec.ofNat 64 (src + off)) k with
          | .error e => .error e
          | .ok (s', d, b) => .ok (s', d.map fun x => (x.1, x.2 || t), b)
  match copyUnits (BitVec.ofNat 64 dst) 4 h get (pieces dst (4 * n)) s c with
  | none => none
  | some (s', c') =>
    if retire then some (s', { c' with extra := (retireConds s h c.index src c'.prog).bits.toNat }) else some (s', c')

/-- Pinned lines of a heat. -/
def pinned (bs : List Block) : Nat := (bs.map (·.lines)).sum

/-- Release the oldest blocks until some lines fit under 512 (07/R219). -/
def releaseOldest (lines : Nat) : List Block → List Block
  | [] => []
  | b :: t => if 512 < pinned (b :: t) + lines then releaseOldest lines t else b :: t

/-- Fill one line of a block (07/R219). -/
def fillLine (s : State) (h : Heat) (cmd : Nat) (va : Dword) : Run State :=
  match resolve s h h.core va .read with
  | .error e => faultAt e va
  | .ok (s1, f) =>
    if f.kind = .asr ∨ f.kind = .peer ∨ f.kind = .spad ∨ inScratchpad va then faultAt clsProtection va
    else match watch s1 h.id.job va 128 true false with
      | .error e => .error e
      | .ok s2 =>
        let s3 := discover s2 (f.pa / 128) h.id.job h.id.launch h.id.index cmd 8
        .ok (rideRead (noteFill (if f.cls = 0 then fillReplica s3 h.die f.pa else s3) f.pa f.key) h h.core f.pa f.cls)

/-- Fill lines k, k + 1, … of a block: the state and how many are filled, with the fault of the first that cannot be. A
debug halt lets the line in hand be filled and begins no other (20/R438). -/
def fillLines (h : Heat) (c : Cmd) (addr : Dword) : Nat → Nat → State → State × Nat × Option (BitVec 8 × Dword)
  | 0, k, s => (s, k, none)
  | n + 1, k, s =>
    if engineHeld s c then (s, k, none)
    else match fillLine s h c.index (addr + BitVec.ofNat 64 (128 * k)) with
      | .error (.fault cls va _) => (s, k, some (cls, va))
      | .error _ => (s, k, none)
      | .ok s1 => fillLines h c addr n (k + 1) s1

/-- LDBLK (07/R219): blocks are released first; then the lines are pinned and filled in order. -/
def performBlock (s : State) (h : Heat) (c : Cmd) (tag : BitVec 4) (addr : Dword) (lines : Nat) : Performed :=
  let free (k : Heat) : Heat := { k with blocks := releaseOldest lines (k.blocks.filter fun b => b.tag != tag) }
  match fillLines h c addr (lines - c.prog / 128) (c.prog / 128) (s.onHeat h.id.uid free) with
  | (s1, n, some f) => some (s1, c.done (128 * n) (some f))
  | (s1, n, none) =>
    if n < lines then some (s1, { c with prog := 128 * n })
    else
    let pins := if h.id.coxed then (List.range lines).filterMap fun i =>
        match resolve s1 h h.core (addr + BitVec.ofNat 64 (128 * i)) .read with
        | .ok (_, f) => some (f.pa / 128)
        | .error _ => none
      else []
    let hold (k : Heat) : Heat := { k with blocks := k.blocks ++ [{ tag := tag, addr := addr, lines := lines, pins := pins }] }
    some (s1.onHeat h.id.uid hold, c.done (128 * n) none)

/-- The physical line for which a line of a stash range stands. -/
def stashLine (s : State) (h : Heat) (t : Stash) (line : Nat) : Option Nat :=
  let va := t.global + BitVec.ofNat 64 (128 * line)
  match translate s h h.core va .read, translate s h h.core va .write with
  | .ok (_, f), _ => some (f.pa / 128)
  | _, .ok (_, f) => some (f.pa / 128)
  | _, _ => none

/-- Lines of a stash range, cleaned ones too, that are on their way to their homes. -/
def stashInFlight (s : State) (h : Heat) (slots : List (BitVec 4)) : Bool :=
  let away := (s.net.forwards.filter fun f => f.heat == h.id.uid && f.toHome).map (·.addr / 128)
  !away.isEmpty && s.stashes.any fun t => t.heat == h.id.uid && slots.contains t.slot &&
    t.filled.any fun k => (stashLine s h t k).elim false away.contains

/-- The first filled line of a range that cannot be read any more. -/
def lostLine (s : State) (h : Heat) (t : Stash) : Option (BitVec 8 × Dword) :=
  let va (k : Nat) : Dword := t.global + BitVec.ofNat 64 (128 * k)
  (t.filled.find? fun k => (stashLine s h t k).isNone).map fun k =>
    ((match translate s h h.core (va k) .read with | .error e => e | .ok _ => clsTranslation), va k)

/-- The bytes of a stash range copied into the scratchpad that stays: filled lines with their poison, and zeros elsewhere
(07/R223). -/
def unmapStash (s : State) (h : Heat) (t : Stash) : State :=
  (List.range t.lines).foldl (fun s k =>
    match h.spad[(t.spad + 128 * k) / 4096]? with
    | none => s
    | some u =>
      let pa := spadAddr h.core (u * 4096 + (t.spad + 128 * k) % 4096)
      let va : Dword := t.global + BitVec.ofNat 64 (128 * k)
      let zeros : List (Byte × Bool) := List.replicate 128 (0, false)
      let line : Option Frame := match translate s h h.core va .read, translate s h h.core va .write with
        | .ok (_, f), _ => some f
        | _, .ok (_, f) => some f
        | _, _ => none
      match (if t.filled.contains k then line else none) with
      | none => { s with mem := s.mem.put pa zeros }
      | some f =>
        let s1 := { s with mem := s.mem.put pa (frameBytes s h h.core f 128) }
        if poisonSeen s h.die f.pa 128 then { s1 with mem := { s1.mem with poison := numIns (pa / 128) s1.mem.poison } }
        else s1) { s with stashes := s.stashes.filter fun x => x.heat != t.heat || x.slot != t.slot }

/-- A line of a stash range is written back (07/R222, 20/R432, R437), or cannot be: the fault and its address. -/
def stashCharge (s : State) (h : Heat) (t : Stash) (line : Nat) : Except (BitVec 8 × Dword) State :=
  let va := t.global + BitVec.ofNat 64 (128 * line)
  match translate s h h.core va .write with
  | .error e => .error (e, va)
  | .ok (s1, f) =>
    match watch s1 h.id.job va 128 false true with
    | .ok s2 => .ok (chargeWriteBack s2 (f.pa / 128))
    | .error _ => .error (clsWatch, va)

/-- A stash line is clean. -/
def cleanLine (s : State) (t : Stash) (line : Nat) : State :=
  let same (x : Stash) : Bool := x.heat == t.heat && x.slot == t.slot
  { s with stashes := mapIf same (fun x => { x with dirty := numDel line x.dirty }) s.stashes }

/-- Write back dirty lines in order: the state and how many went, with the fault of the first that cannot (07/R199). -/
def writeBackLines (h : Heat) : List (Stash × Nat) → Nat → State → State × Nat × Option (BitVec 8 × Dword)
  | [], n, s => (s, n, none)
  | (t, k) :: rest, n, s =>
    match stashCharge s h t k with
    | .error e => (s, n, some e)
    | .ok s1 => writeBackLines h rest (n + 1) (cleanLine s1 t k)

/-- STFLUSH and STUNMAP (07/R223): done when their write-backs are performed at their homes; a mapping goes only without
a fault, which a filled line meets too that cannot be read any more. -/
def performFlush (s : State) (h : Heat) (c : Cmd) (slots : List (BitVec 4)) (unmap : Bool) : Performed :=
  if stashInFlight s h slots then none
  else
    let mine := s.stashes.filter fun t => t.heat == h.id.uid && slots.contains t.slot
    match writeBackLines h (mine.flatMap fun t => t.dirty.map fun k => (t, k)) 0 s with
    | (s1, n, some f) => some (s1, c.done (128 * n) (some f))
    | (s1, n, none) =>
      match (if unmap then mine.findSome? (lostLine s1 h) else none) with
      | some f => some (s1, c.done (128 * n) (some f))
      | none => some (if unmap then mine.foldl (fun s t => unmapStash s h t) s1 else s1, c.done (128 * n) none)

/-! ## Transfer counts (07/R206) -/

/-- XFERBAR as of a seat's text time. -/
def xferbarAt (h : Heat) (p : Seat) : Run Dword :=
  match h.ahead p (· == .xferbar) with
  | some e => .error (.wait .empty [e.owner] 3)
  | none => .ok (versionAt h.versC .xferbar (h.tt p) ⟨h.ctl.xferbar, false⟩).v

/-- Change a transfer count of a barrier object by one. -/
def countTransfer (s : State) (h : Heat) (va : Dword) (outbound up : Bool) : Run State :=
  match barrierFrame s h va .write with
  | .error e => .error e
  | .ok (s1, f) =>
    let b := readBar s1 h.die f.pa
    let step (n : Nat) : Nat := if up then (n + 1) % 2 ^ 32 else n - 1
    let b' := if outbound then { b with outbound := step b.outbound } else { b with inbound := step b.inbound }
    .ok (if up then writeBar s1 h f b' false else stepBar s1 h f va b' false)

/-- Whether a transfer command counts, and as outbound or not. -/
def transferKind : CmdKind → Nat → Option Bool
  | .copy .., op => some (op == 0x70)
  | .gatr .., _ => some false
  | .scatr .., _ => some true
  | .asrcpy .., _ => some true
  | _, _ => none

/-- A transfer adds one to its barrier object at issue. -/
def startTransfer (s : State) (h : Heat) (p : Seat) (outbound : Option Bool) : Run (State × Option (Dword × Bool)) :=
  match outbound with
  | none => .ok (s, none)
  | some out =>
    match xferbarAt h p with
    | .error e => .error e
    | .ok x =>
      if x.getLsbD 0 then
        let va := x &&& 0xFFFFFFFFFFFFFFF0
        match (stashWait s h va 16).elim (countTransfer s h va out true) .error with
        | .error e => .error e
        | .ok s1 => .ok (s1, some (va, out))
      else .ok (s, none)

/-- A transfer subtracts one. -/
def endTransfer (s : State) (c : Cmd) : State × Cmd :=
  match c.xfer, s.heat? c.heat with
  | some (va, out), some h =>
    if c.xferDone then (s, c)
    else ((match countTransfer (s.performs c) h va out false with | .ok s1 => s1.performed | .error _ => s), { c with xferDone := true })
  | _, _ => (s, c)

/-! ## Issue and end -/

/-- A command as it issues. -/
def newCmd (s : State) (h : Heat) (p : Seat) (c : Ctl) (op : Nat) (kind : CmdKind) (co : Option Nat)
    (xfer : Option (Dword × Bool)) : Cmd :=
  { blankCmd s h p op kind co with
    reloc := c.reloc && !h.id.coxed, spec := c.spec, xfer := xfer, hnd := if p = .L then h.hnd else none }

/-- The engine that a command names in its status word (07/R196). -/
def engineOf : CmdKind → Nat
  | .copy .. | .asrcpy .. => 1
  | .gatr .. | .scatr .. => 2
  | .bagopen .. | .bagclose .. | .mbag .. => 3
  | .mwld .. | .prod .. | .mret .. | .mclr .. => 4
  | .coll .. => 5
  | .stflush .. => 6
  | .ldblk .. | .ldblkRel .. => 7
  | .copyco .. | .hand .. => 0
  | .held e => e

/-- Commands of a core that stand in its copy engine's queue, and those that run. -/
def queued (s : State) (core : Nat) : List Cmd := s.cmds.filter fun c => c.core == core && c.copies && c.phase != .running
def running (s : State) (core : Nat) : List Cmd := s.cmds.filter fun c => c.core == core && c.copies && c.phase == .running

/-- A full queue of 32 entries (07/R194). -/
def queueWait (s : State) (h : Heat) : Option Stay :=
  if 32 ≤ (queued s h.core).length then some (.wait .engine [] 5) else none

/-- The status word of an ended command. -/
def Cmd.status (c : Cmd) : Status :=
  { state := 2, seat := seatNum c.seat, refused := false, suppressed := c.suppressed && c.fault.isSome
    collAbort := c.collAbort, relocAbort := c.relocAbort, poisonCopied := c.poisonCopied, incomplete := c.incomplete
    relocated := c.relocated, engine := engineOf c.kind, opcode := c.op
    cls := (c.fault.map fun f => f.1.toNat).getD 0, detail := c.extra }

/-- Handlers of a core that wait (07/R204). -/
def waitingHandlers (s : State) (core : Nat) : Nat := (s.handlers.filter fun k => k.core == core && !k.running).length

/-- An arrival handler waits for a context. -/
def addHandler (s : State) (c : Cmd) (target : Dword) : State :=
  let k : Handler :=
    { id := s.nextId, core := c.core, heat := c.heat, target := target, index := c.index, obj := c.co.getD 0
      status := c.status.word, progress := BitVec.ofNat 64 c.prog, running := false, pc := target, count := 0
      s := Vector.replicate 16 ⟨0, false⟩, b := (Vector.replicate 8 ⟨false, false⟩).set 0 ⟨true, false⟩ }
  { s with handlers := s.handlers ++ [k], nextId := s.nextId + 1 }

/-- A command ends: its transfer count, its object, its handler, and its fault, which the issuing seat raises unless it
is suppressed (05/R124; 07/R196, R199, R204; 20/R423, R427). -/
def finishCmd (s : State) (c : Cmd) : State :=
  let (s1, c) := endTransfer { s with
    cmds := s.cmds.filter fun x => x.id != c.id
    dev := if c.copies then { s.dev with engLast := assocSet c.core s.now (assocSet c.performer s.now s.dev.engLast) } else s.dev } c
  if c.orphan then s1
  else
    let t := c.status
    let addr := match c.fault with
      | some f => f.2
      | none => (c.absorbed.map (BitVec.ofNat 64 ·)).getD 0
    let s2 := s1.onHeat c.heat fun h => match c.co with
      | some j => h.finish j t c.prog addr c.report
      | none => h
    match s2.heat? c.heat with
    | none => s2
    | some h =>
      match c.fault with
      | none => (match c.hnd with
          | some target => addHandler s2 c target
          | none => s2)
      | some (cls, a) =>
        if c.suppressed then s2.putHeat { h with ctl := { h.ctl with specsup := satAdd h.ctl.specsup 1 } }
        else
          let info := faultInfo s2 h c.seat cls a t.word c.text (some c.index) false (engineOf c.kind)
          raiseFault s2 h (some c.seat) info

/-- Places for waiting handlers on a core (07/R204). -/
def handlerRoom (s : State) (core : Nat) : Bool := decide (waitingHandlers s core < 8)

/-- The taint of the predicate joins the address taint of a command (08/R234). -/
def CmdKind.taint (t : Bool) : CmdKind → CmdKind
  | .copy src dst n t0 => .copy src dst n (t0 || t)
  | .asrcpy src dst n r t0 => .asrcpy src dst n r (t0 || t)
  | .gatr r pb pi dst tag bag => .gatr r { pb with t := pb.t || t } pi dst tag bag
  | .scatr r pb pi src => .scatr r { pb with t := pb.t || t } pi src
  | .coll g q rank n sig src dst t0 => .coll g q rank n sig src dst (t0 || t)
  | k => k

/-- A command issues: its checks, its object, its place, its transfer count; then it is queued, or done at once when its
handler, if it has one, finds a place. DESIGN CHOICE (log 62): a command that fails a check raises its fault before it
waits for its object. -/
def commandBody (p : Seat) (c : Ctl) (op : Nat) (prep : State → Heat → Run (State × CmdKind × Bool)) (s : State)
    (h : Heat) : Run (State × Heat) :=
  match prep s h with
  | .error e => .error e
  | .ok (s1, kind, now) =>
    match busyWait s h c.co.toNat, queueWait s1 h with
    | some e, _ => .error e
    | none, some e => .error e
    | none, none =>
      match startTransfer s1 h p (transferKind kind (if p = .S then 0x70 else 0)) with
      | .error e => .error e
      | .ok (s2, xfer) =>
        let k := newCmd s2 h p c op kind (some c.co.toNat) xfer
        let h1 := { h.begin c.co.toNat p (engineOf kind) op with
          cmdCount := h.cmdCount + 1, hnd := if p = .L then none else h.hnd }
        let s3 := { s2 with cmds := s2.cmds ++ [k], nextId := s2.nextId + 1 }
        if now && (k.hnd.isNone || handlerRoom s3 h.core) then
          let s4 := finishCmd (s3.putHeat h1) { k with spent := true }
          .ok (s4, (s4.heat? h.id.uid).getD h1)
        else if now then
          .ok ({ s3 with cmds := mapIf (fun x => x.id == k.id) (fun x => { x with spent := true, phase := .running }) s3.cmds },
            h1)
        else .ok (s3, h1)

/-- An L or S command, under its predicate's taint; S waits for L's STMAP and STUNMAP of earlier text time
(07/R221, R223). -/
def commandWord (w : Slot) (p : Seat) (c : Ctl) (op engine : Nat) (i : Instr) (names : List (BitVec 6))
    (prep : State → Heat → Run (State × CmdKind × Bool)) (s : State) : Host.Outcome State Fault Refusal :=
  issue (((Issue.long w c.stamp names).of i).command engine op c) p (commandBody p c op fun s h =>
    if (h.ahead p (· == .stash)).isSome then .error (.wait .empty [.L] 3) else
    match readK h p w.pred, prep s h with
    | .error e, _ => .error e
    | _, .error e => .error e
    | .ok k, .ok (s1, kind, now) => .ok (s1, kind.taint k.t, now)) s

/-- A command that an engine performs now: its own core's, or a thief's. -/
def Cmd.works (c : Cmd) : Bool :=
  match c.phase with
  | .running => !c.parked
  | .held _ => !c.parked
  | _ => false

/-- A command behind an INVM's marker waits until the marker has passed (07/R224). -/
def behindMarker (s : State) (c : Cmd) : Bool :=
  s.heats.any fun h => ((s.heat? c.heat).elim false fun k => k.id.job == h.id.job) &&
    h.invm.elim false fun ids => !ids.contains c.id

/-- A command as the word whose messages it sends. -/
def Cmd.word (c : Cmd) : MsgWord :=
  { seat := c.seat, text := c.text &&& 0xFFFFFFFFFFFF, cmd := some c.index, engine := engineOf c.kind }

/-- A command of later text time waits for an STUNMAP of its heat (07/R223; log 67). -/
def unmapHeld (s : State) (c : Cmd) : Bool :=
  s.cmds.any fun k => k.heat == c.heat && decide (k.tt < c.tt) && (match k.kind with
    | .stflush _ true => true
    | _ => false)

/-- What the engine hands to the command processor has reached it (07/R194). -/
def handOver (s : State) (request : Nat) : State :=
  { s with
    requests := mapIf (fun r => r.id == request) (fun r => { r with handed := true }) s.requests
    resumes := mapIf (fun r => r.id == request) (fun r => { r with handed := true }) s.resumes }

/-- ENGINE_COMMAND_START (07/R194, R224): the first queued command starts when fewer than sixteen run; a stolen or
marked one is passed over, a halted job's command waits, and one behind an INVM marker waits for the marker. A launch or
a resumption is handed to the command processor once the atomics that its heat issued before it are applied, for they
precede what it starts (12/R359). -/
def execEngineCommandStart (core : Nat) (s : State) : Host.Outcome State Fault Refusal :=
  match (queued s core).find? fun c => c.phase == .queued && !engineHeld s c with
  | none => .next s
  | some c =>
    if 16 ≤ (running s core).length ∨ behindMarker s c then .next s
    else match c.kind with
      | .hand r =>
        if s.atomics.any fun p => p.heat == c.heat && decide (p.id < c.id) && !p.applied then .next s
        else .next (handOver { s with cmds := s.cmds.filter fun x => x.id != c.id } r)
      | _ => .next { s with
          cmds := mapIf (fun x => x.id == c.id) (fun x => { x with phase := .running, since := s.now }) s.cmds }

/-- Whether a debug halt holds a heat's handlers (20/R437, R438). -/
def handlerHeld (s : State) (uid : Nat) : Bool :=
  (s.heat? uid).elim false fun h => jobHalted s h.id.job && !haltExempt s h

/-- HANDLER_START (07/R204): one of the two contexts of a core starts the oldest waiting handler. -/
def execHandlerStart (core : Nat) (s : State) : Host.Outcome State Fault Refusal :=
  if 2 ≤ (s.handlers.filter fun k => k.core == core && k.running).length then .next s
  else match s.handlers.find? fun k => k.core == core && !k.running && !handlerHeld s k.heat with
    | none => .next s
    | some k =>
      let z : TVal := ⟨0, false⟩
      let regs : Vector TVal 16 := ((Vector.replicate 16 z).set 1 ⟨BitVec.ofNat 64 k.obj, false⟩).set 2 ⟨k.status, false⟩
        |>.set 3 ⟨k.progress, false⟩
      .next { s with
        handlers := mapIf (fun x => x.id == k.id)
          (fun x => { x with running := true, pc := x.target, count := 0, s := regs }) s.handlers }

/-! ## Copies (07/R205, R207) -/

/-- The length that L12 gives, and the scalar that it names. -/
def lengthScalar (l : BitVec 12) : List (BitVec 6) := if l.toNat < 2048 then [] else [l.setWidth 6]

def lengthOf (h : Heat) (p : Seat) (l : BitVec 12) : Run Nat :=
  if l = 0 then .error Stay.illegal
  else if l.toNat < 2048 then .ok (4 * l.toNat)
  else match readS h p (l.setWidth 6) with
    | .error e => .error e
    | .ok v => .ok v.v.toNat

/-- Whether two virtual ranges of n bytes overlap. -/
def overlap (a b n : Nat) : Bool := decide (a < b + n ∧ b < a + n)

/-- The checks of 07/R205. -/
def copyChecks (src dst n : Nat) : Run Unit :=
  if 2 ^ 32 ≤ n then .error Stay.illegal
  else if src % 4 ≠ 0 then faultAt clsAlignment (BitVec.ofNat 64 src)
  else if dst % 4 ≠ 0 ∨ n % 4 ≠ 0 then faultAt clsAlignment (BitVec.ofNat 64 dst)
  else if n ≠ 0 ∧ overlap src dst n then .error Stay.illegal
  else .ok ()

/-- CPYIN and CPYOUT at issue. -/
def copyPrep (p : Seat) (ptr : BitVec 4) (sa : BitVec 6) (len : BitVec 12) (s : State) (h : Heat) :
    Run (State × CmdKind × Bool) :=
  match readS h p sa with
  | .error e => .error e
  | .ok x =>
    match lengthOf h p len with
    | .error e => .error e
    | .ok n =>
      let q := h.p p ptr
      let (src, dst) := if p = .L then (x.v.toNat, q.v.toNat) else (q.v.toNat, x.v.toNat)
      match copyChecks src dst n with
      | .error e => .error e
      | .ok () => .ok (s, .copy src dst n (x.t || q.t), n = 0)

/-- CPYIN (07/R205). -/
def execCpyin (w : Slot) (p : BitVec 4) (sa : BitVec 6) (len : BitVec 12) (c : Ctl) (s : State) :
    Host.Outcome State Fault Refusal :=
  commandWord w .L c 0x07 1 (.cpyin w p sa len c) (sa :: lengthScalar len) (copyPrep .L p sa len) s

/-- CPYOUT (07/R205). -/
def execCpyout (w : Slot) (p : BitVec 4) (sa : BitVec 6) (len : BitVec 12) (c : Ctl) (s : State) :
    Host.Outcome State Fault Refusal :=
  commandWord w .S c 0x07 1 (.cpyout w p sa len c) (sa :: lengthScalar len) (copyPrep .S p sa len) s

/-- ASRCPY (07/R207). -/
def execAsrcpy (w : Slot) (p : BitVec 4) (sa : BitVec 6) (n : BitVec 11) (retire : Bool) (c : Ctl) (s : State) :
    Host.Outcome State Fault Refusal :=
  commandWord w .S c 0x0A 1 (.asrcpy w p sa n retire c) [sa] (fun s h =>
    match readS h .S sa with
    | .error e => .error e
    | .ok x =>
      let q := h.p .S p
      if x.v.toNat % (if retire then 32 else 4) ≠ 0 then faultAt clsAlignment x.v
      else if q.v.toNat % 4 ≠ 0 then faultAt clsAlignment q.v
      else if n = 0 then .error Stay.illegal
      else .ok (s, .asrcpy x.v.toNat q.v.toNat n.toNat retire (x.t || q.t), false)) s

/-! ## Blocks, prefetch, stash ranges, markers (07/R219 to R224) -/

/-- LDBLK (07/R219). -/
def execLdblk (w : Slot) (tag : BitVec 4) (sa lines1 : BitVec 6) (c : Ctl) (s : State) :
    Host.Outcome State Fault Refusal :=
  commandWord w .L c 0x09 7 (.ldblk w tag sa lines1 c) [sa] (fun s h =>
    match readS h .L sa with
    | .error e => .error e
    | .ok x =>
      if x.v.toNat % 128 ≠ 0 then faultAt clsAlignment x.v
      else .ok (s, .ldblk tag x.v (lines1.toNat + 1), false)) s

/-- LDBLK.rel (07/R219): the block is unpinned and the object done at once. -/
def execLdblkRel (w : Slot) (tag : BitVec 4) (c : Ctl) (s : State) : Host.Outcome State Fault Refusal :=
  issue (((Issue.long w c.stamp []).of (.ldblkRel w tag c)).command 7 0x09 c) .L (fun s h =>
    commandBody .L c 0x09 (fun s _ => .ok (s, .ldblkRel tag, true)) s
      { h with blocks := h.blocks.filter fun b => b.tag != tag }) s

/-- PREF (07/R220): it changes nothing that a program sees; a failure is discarded. -/
def execPref (w : Slot) (sa : BitVec 6) (level : BitVec 2) (lines1 : BitVec 8) (stamp : BitVec 16) (s : State) :
    Host.Outcome State Fault Refusal :=
  issue ((Issue.long w stamp [sa]).of (.pref w sa level lines1 stamp)) .L (fun s h =>
    match readS h .L sa with
    | .error e => .error e
    | .ok _ => .ok (s, h)) s

/-- Bytes of a mapped range overlap bytes of the scratchpad. -/
def mappedOver (s : State) (uid off n : Nat) : Bool :=
  s.stashes.any fun t => t.heat == uid && decide (t.spad < off + n ∧ off < t.spad + 128 * t.lines)

/-- An address of the heat's ASR window. -/
def inAsrWindow (va : Dword) : Bool := decide (asrWindow ≤ va.toNat ∧ va.toNat < asrWindow + 8388608)

/-- A page of a global range lies in scratchpad or ASR (07/R221); what cannot be translated is left to its accesses. -/
def localPage (s : State) (h : Heat) (va : Dword) : Bool :=
  inScratchpad va || inAsrWindow va || (match resolve s h h.core va .read with
    | .error _ => false
    | .ok (_, f) => f.kind == .asr || f.kind == .peer || f.kind == .spad || f.kind == .table)

/-- Some line of a global range is no global memory. -/
def localRange (s : State) (h : Heat) (va : Dword) (lines : Nat) : Bool :=
  (List.range ((va.toNat % 4096 + 128 * lines + 4095) / 4096)).any fun k =>
    localPage s h (if k = 0 then va else va + BitVec.ofNat 64 (4096 * k - va.toNat % 4096))

/-- STMAP (07/R221): the range's earlier contents are discarded; no line is filled. -/
def execStmap (w : Slot) (p : BitVec 4) (sa : BitVec 6) (slot : BitVec 4) (lines stamp : BitVec 16) (s : State) :
    Host.Outcome State Fault Refusal :=
  issue ((Issue.long w stamp [sa]).of (.stmap w p sa slot lines stamp)) .L (fun s h =>
    match readS h .L sa with
    | .error e => .error e
    | .ok x =>
      let q := (h.p .L p).v
      let off := q.toNat - localBase
      let n := 128 * lines.toNat
      if lines = 0 ∨ 16384 < lines.toNat then .error Stay.illegal
      else if q.toNat % 128 ≠ 0 then faultAt clsAlignment q
      else if x.v.toNat % 128 ≠ 0 then faultAt clsAlignment x.v
      else if s.stashes.any (fun t => t.heat == h.id.uid && t.slot == slot) then .error Stay.illegal
      else if q.toNat < localBase ∨ 4096 * h.spad.length < off + n then faultAt clsProtection q
      else if mappedOver s h.id.uid off n then .error Stay.illegal
      else if localRange s h x.v lines.toNat then faultAt clsProtection x.v
      else
          .ok ({ s with stashes := s.stashes ++
            [{ heat := h.id.uid, since := h.tt .L + 1, slot := slot, spad := off, global := x.v, lines := lines.toNat, filled := [], dirty := [] }] },
            h)) s

/-- The slots of a heat that are mapped. -/
def mappedSlots (s : State) (uid : Nat) : List (BitVec 4) := (s.stashes.filter fun t => t.heat == uid).map (·.slot)

/-- STUNMAP (07/R223). -/
def execStunmap (w : Slot) (slot : BitVec 4) (c : Ctl) (s : State) : Host.Outcome State Fault Refusal :=
  commandWord w .L c 0x0C 6 (.stunmap w slot c) [] (fun s h =>
    if (mappedSlots s h.id.uid).contains slot then .ok (s, .stflush [slot] true, false) else .error Stay.illegal) s

/-- STFLUSH (07/R223): of one slot, or of every mapped one. -/
def execStflush (w : Slot) (all : Bool) (slot : BitVec 4) (c : Ctl) (s : State) : Host.Outcome State Fault Refusal :=
  commandWord w .L c 0x0D 6 (.stflush w all slot c) [] (fun s h =>
    let ms := mappedSlots s h.id.uid
    if all then .ok (s, .stflush ms false, false)
    else if ms.contains slot then .ok (s, .stflush [slot] false, false) else .error Stay.illegal) s

/-- The commands of a job that stand ahead of a marker in its cores' queues. -/
def aheadOfMarker (s : State) (job : Nat) : List Nat :=
  (s.cmds.filter fun c => c.seat != .X && (s.heat? c.heat).elim false fun h => h.id.job == job).map (·.id)

/-- What an INVM invalidates: pages of 64 KiB or of 16 MiB from an address, or every entry of the job. -/
structure Marker where
  base : Dword
  pages : Nat
  size : Nat

/-- Whether a TLB entry lies in a marker's range (07/R224, 20/R451). DESIGN CHOICE (log 77): an address that is not on a
page boundary counts from its page, and bits 63:48 of it do not count. -/
def Marker.covers (m : Marker) (job : Nat) (e : TlbEntry) : Bool :=
  e.job == job &&
    (m.size == 2 ||
      (let unit := if m.size = 0 then 65536 else 16777216
       let lo := m.base.toNat % 2 ^ 48 / unit * unit
       let hi := lo + m.pages * unit
       let pg := if e.big then 16777216 else 65536
       decide (e.page * pg < hi ∧ lo < (e.page + 1) * pg)))

/-- Remove the entries of a marker. -/
def invalidate (s : State) (job : Nat) (m : Marker) : State := { s with tlb := s.tlb.filter fun e => !m.covers job e }

/-- INVM (07/R224): L issues nothing further until the queues have passed the marker. -/
def execInvm (w : Slot) (sa : BitVec 6) (size : BitVec 2) (pages1 : BitVec 14) (stamp : BitVec 16) (s : State) :
    Host.Outcome State Fault Refusal :=
  issue ((Issue.long w stamp [sa]).of (.invm w sa size pages1 stamp)) .L (fun s h =>
    if !s.privileged h then raise clsPrivilege
    else match readS h .L sa with
      | .error e => .error e
      | .ok x =>
        let m : Marker := { base := x.v, pages := pages1.toNat + 1, size := size.toNat }
        .ok (s, { h with invm := some (aheadOfMarker s h.id.job), marker := some (x.v, m.pages, m.size) })) s

/-- The tokens of a word whose end has come are visible (02/R22). -/
def showOpen (h : Heat) : Heat :=
  { h with
    fifo := Vector.ofFn fun (f : Fin 6) => h.fifo[f] + h.hidden.countP fun t => t == (f.val, openEnd)
    hidden := h.hidden.filter fun t => t.2 != openEnd }

/-- INVM_COMPLETE (07/R224). -/
def execInvmComplete (heat : Nat) (s : State) : Host.Outcome State Fault Refusal :=
  match s.heat? heat with
  | none => .next s
  | some h =>
    match h.invm, h.marker with
    | some ids, some (b, n, z) =>
      if s.cmds.any fun c => ids.contains c.id then .next s
      else .next (invalidate (s.putHeat (showOpen { h with invm := none, marker := none })) h.id.job { base := b, pages := n, size := z })
    | _, _ => .next s

/-- HND (07/R204): the handler of L's next engine command. -/
def execHnd (w : Slot) (disp : BitVec 30) (stamp : BitVec 16) (s : State) : Host.Outcome State Fault Refusal :=
  issue ((Issue.long w stamp []).of (.hnd w disp stamp)) .L (fun s h =>
    if h.id.coxed then .error Stay.illegal
    else .ok (s, { h with hnd := some (displace h.L.pc disp) })) s

/-- STASH_LINE_WRITE_BACK (07/R222, 20/R432): under pressure a clean line is dropped and a dirty one written back. -/
def execStashLineWriteBack (heat slot line : Nat) (s : State) : Host.Outcome State Fault Refusal :=
  let mine (t : Stash) : Bool := t.heat == heat && t.slot == BitVec.ofNat 4 slot
  match s.stashes.find? mine with
  | none => .next s
  | some t =>
    if t.dirty.contains line then
      .next (match s.heat? heat with
        | none => cleanLine s t line
        | some h => match stashCharge s h t line with
          | .error _ => s
          | .ok s1 => cleanLine s1 t line)
    else .next { s with stashes := mapIf mine (fun t => { t with filled := numDel line t.filled }) s.stashes }

end Sys2Proof.Machine
end

