-- ==== Sys2Proof/Machine/Hier.lean ====
section
/-!
DEFINITION. The five levels of work: the records that make a launch, the levels' completion and status, and cancelling
(02/R26, R27, R33 to R40; 14/R387, R388; 19/R405 to R416; 20/R447).
-/

namespace Sys2Proof.Machine

/-! ## Records (19/R409, R410) -/

/-- n bytes at a job's address, in pieces of 16 that lie in one page each; a failure is none. -/
def jobBytes (s : State) (j : Job) (die : Nat) (va : Dword) (n : Nat) : Option (List Byte) :=
  let skip := va.toNat % 16
  ((List.range ((skip + n + 15) / 16)).mapM fun k =>
    match jobRead s j die (va - BitVec.ofNat 64 skip + BitVec.ofNat 64 (16 * k)) 16 with
    | .ok b => some b
    | .error _ => none).map fun (l : List (List Byte)) => (l.flatten.drop skip).take n

/-- The bytes from lo to hi of a record, as a number. -/
def part (bs : List Byte) (lo hi : Nat) : Nat := leNat ((bs.drop lo).take (hi + 1 - lo))

/-- The bytes from lo to hi are zero. -/
def zeros (bs : List Byte) (lo hi : Nat) : Bool := part bs lo hi == 0

/-- A text address of a task-type entry: 48 bits, a multiple of four. -/
def textAddrOk (a : Nat) : Bool := decide (a < 2 ^ 48 ∧ a % 4 = 0)

/-- A task-type entry that keeps 19/R409, from its 64 bytes. -/
def typeOf (index : Nat) (bs : List Byte) : Option TaskType :=
  let p := part bs 0 7
  let k := part bs 8 15
  let e := part bs 16 23
  let c := part bs 28 31
  let d := part bs 32 35
  let depth := part bs 36 39
  if textAddrOk p && textAddrOk k && textAddrOk e && zeros bs 24 27 && zeros bs 40 63 && decide (depth < 65536) &&
      decide (c / 2 ^ 20 % 8 ≤ 4) && !c.testBit 23 && decide (c / 2 ^ 28 = 0) && decide (d / 8 % 8 ≤ 4) &&
      decide (d / 64 % 1024 ≤ 512) && decide (d / 2 ^ 16 % 4096 ≤ 2048) && decide (d / 2 ^ 28 = 0) then
    some { index := index, prologue := BitVec.ofNat 64 p, kernel := BitVec.ofNat 64 k, epilogue := BitVec.ofNat 64 e
           trip := c % 2 ^ 20, tripSrc := c / 2 ^ 20 % 8, sGroups := d % 8 + 1, vGroups := d / 8 % 8
           spadUnits := d / 64 % 1024, asrUnits := d / 2 ^ 16 % 4096, prio := c / 2 ^ 24 % 4, depth := depth + 1
           coxed := c.testBit 26, gang := c.testBit 27 }
  else none

/-- A job's task type of an index. -/
def taskType? (s : State) (j : Job) (die index : Nat) : Option TaskType :=
  if j.typeCount ≤ index then none
  else (jobBytes s j die (j.typeTable + BitVec.ofNat 64 (64 * index)) 64).bind (typeOf index)

/-- What a launch record says. -/
structure LaunchRec where
  type : Nat
  dims : List Dim
  order : List Nat
  mask : Dword
deriving DecidableEq, Repr

/-- A launch record that keeps the limits of 19/R410 which its own 96 bytes show. -/
def launchRecOf (bs : List Byte) : Option LaunchRec :=
  let n := part bs 2 2 % 4 + 1
  let ord := part bs 3 3
  let levels := (List.range n).map fun k => ord / 4 ^ k % 4
  let dims := (List.range n).map fun j =>
    ({ start := BitVec.ofNat 32 (part bs (32 + 12 * j) (35 + 12 * j))
       step := BitVec.ofNat 32 (part bs (36 + 12 * j) (39 + 12 * j))
       count := part bs (40 + 12 * j) (43 + 12 * j) } : Dim)
  if decide (part bs 2 2 < 4) && decide (ord / 4 ^ n = 0) &&
      (List.range n).all (fun j => levels.contains j) && dims.all (fun d => decide (1 ≤ d.count ∧ d.count ≤ 2 ^ 24)) &&
      zeros bs 4 15 && zeros bs 24 31 && zeros bs 80 95 then
    some { type := part bs 0 1, dims := dims, order := levels, mask := BitVec.ofNat 64 (part bs 16 23) }
  else none

/-- Most heats of a type that an empty device holds at once (02/R28, R38). -/
def capacity (t : TaskType) : Nat :=
  let fit (room need : Nat) : Nat := if need = 0 then 4 else room / need
  let core := min 4 (min (fit 32 t.sGroups) (min (fit 16 t.vGroups) (fit 512 t.spadUnits)))
  let crew := if t.asrUnits = 0 then 4 * core else min (4 * core) (2048 / t.asrUnits)
  64 * crew

/-- Number of heats of a loop nest. -/
def nestSize (dims : List Dim) : Nat := dims.foldl (fun n d => n * d.count) 1

/-- A launch that has passed its checks: what it runs. -/
structure Admitted where
  type : TaskType
  dims : List Dim
  order : List Nat
  mask : Dword
  total : Nat
  coords : Option (List Word)
deriving DecidableEq, Repr

/-- The refusals of 19/R410 that need the task type, and of 02/R38. -/
def passAdmission (a : Admitted) : Option Admitted :=
  if (a.mask ≠ 0 ∧ !a.type.gang) ∨ (a.type.gang ∧ capacity a.type < a.total) then none else some a

/-- A launch record at a job's address, checked. -/
def admitRecord (s : State) (j : Job) (die : Nat) (va : Dword) : Option Admitted :=
  if va.toNat % 32 ≠ 0 then none
  else ((jobBytes s j die va 96).bind launchRecOf).bind fun r =>
    (taskType? s j die r.type).bind fun t =>
      passAdmission { type := t, dims := r.dims, order := r.order, mask := r.mask, total := nestSize r.dims, coords := none }

/-- A task record of one heat, checked. -/
def admitTask (s : State) (j : Job) (die type : Nat) (cs : List Word) : Option Admitted :=
  (taskType? s j die type).bind fun t =>
    passAdmission { type := t, dims := [], order := [], mask := 0, total := 1, coords := some cs }

/-! ## Making launches -/

/-- A task type that stands for one not read yet. -/
def noType : TaskType :=
  { index := 0, prologue := 0, kernel := 0, epilogue := 0, trip := 0, tripSrc := 0, sGroups := 1, vGroups := 0,
    spadUnits := 0, asrUnits := 0, prio := 0, depth := 1, coxed := false, gang := false }

/-- A launch with nothing of its record yet. -/
def newLaunch (id job graph phase die : Nat) (preds : List Nat) (spawners : List (Nat × Nat)) : Launch :=
  { id := id, job := job, graph := graph, phase := phase, type := noType, dims := [], order := [], mask := 0,
    preds := preds, die := die, seq := 0, total := 0, nextIdx := 0, live := 0, enqueued := false, coords := none,
    discarded := [], indices := [], sms := false, complete := false, faulted := false, cancelled := false, cut := false, dropped := false,
    refused := false, overrun := false, faultedHeats := 0, spawners := spawners, held := false,
    startClock := [], endClock := [], prof := List.replicate 16 0, tcnt := List.replicate 4 0, coxed := false }

/-- The launch takes what its record says. -/
def Launch.admitted (l : Launch) (a : Admitted) : Launch :=
  { l with type := a.type, dims := a.dims, order := a.order, mask := a.mask, total := a.total, coords := a.coords }

/-- A new graph of a job in a phase; its id is unique (log 15). -/
def addGraph (s : State) (job phase : Nat) (refused : Bool) : State × Nat :=
  let g : Graph := { id := s.nextId + 1, job := job, phase := phase, refused := refused }
  ({ s with graphs := s.graphs ++ [g], nextId := s.nextId + 1 }, s.nextId + 1)

/-- Take the next launch id of a job, unique within it (06/R165). -/
def takeLaunchId (s : State) (job : Nat) : State × Nat :=
  let id := (s.job? job).elim 1 (·.nextLaunch)
  ({ s with jobs := mapIf (fun j => j.id == job) (fun j => { j with nextLaunch := id + 1 }) s.jobs }, id)

/-- A launch goes to its command processor: at once, or when the engine hands it over. -/
def request (s : State) (l : Launch) (recAddr : Option Dword) (handed : Bool) : State :=
  { s with
    launches := s.launches ++ [l]
    requests := s.requests ++ [{ id := s.nextId + 1, job := l.job, launch := l.id, recAddr := recAddr, handed := handed }]
    nextId := s.nextId + 1 }

/-- The command processor reads and checks the first 128 bytes of a type's prologue: an error in a line of them is found
(19/R419); one that cannot be fetched is left to the heats that fetch it (05/R114). -/
def checkPrologue (s : State) (j : Job) (die : Nat) (t : TaskType) : State :=
  [t.prologue, t.prologue + 127].foldl (fun s va => match jobFrame s j die va .fetch with
    | .ok f => discover s (f.pa / 128) j.id 0 0 noCommand 8
    | .error _ => s) s

/-- LAUNCH_ENQUEUE (19/R419, R413): the record is checked if that is still to do, and the launch joins its walker's
queue or is refused (19/R410). -/
def execLaunchEnqueue (req : Nat) (s : State) : Host.Outcome State Fault Refusal :=
  match s.requests.find? fun r => r.id == req && r.handed with
  | none => .next s
  | some r =>
    let s1 := { s with requests := s.requests.filter fun x => x.id != req }
    match s1.launch? r.job r.launch, s1.job? r.job with
    | some l, some j =>
      if l.complete || l.cut then .next s1
      else
        let join (t : TaskType) (f : Launch → Launch) : State :=
          let s2 := checkPrologue s1 j l.die t
          { s2.onLaunch r.job r.launch fun l => { f l with enqueued := true, seq := s2.nextId + 1 } with
            nextId := s2.nextId + 1 }
        match r.recAddr with
        | none => .next (join l.type id)
        | some va =>
          match admitRecord s1 j l.die va with
          | some a => .next (join a.type fun l => l.admitted a)
          | none => .next (s1.onLaunch r.job r.launch fun l => { l with refused := true })
    | _, _ => .next s1

/-! ## Levels and their status (02/R35, 19/R415) -/

/-- Launches of a graph, of a phase, of a job. -/
def graphLaunches (s : State) (job graph : Nat) : List Launch := s.launches.filter fun l => l.job == job && l.graph == graph
def phaseLaunches (s : State) (uid : Nat) : List Launch := s.launches.filter fun l => l.phase == uid
def jobLaunches (s : State) (job : Nat) : List Launch := s.launches.filter fun l => l.job == job

/-- A write of a launch's heats is on its way to another die (12/R358, R359: its completion orders every access of the
launch at device scope). -/
def launchInFlight (s : State) (l : Launch) : Bool :=
  s.net.forwards.any fun f => (s.heat? f.heat).elim false fun h => h.id.job == l.job && h.id.launch == l.id

/-- Nothing of a launch is left to do. -/
def launchOver (s : State) (l : Launch) : Bool :=
  !l.complete && l.live == 0 && (l.refused || l.cut || (l.enqueued && decide (l.total ≤ l.nextIdx))) &&
    !launchInFlight s l

/-- A launch is complete, or completes in this cycle, in which a cancel comes too late (19/R416). -/
def launchDone (s : State) (l : Launch) : Bool := l.complete || launchOver s l

/-- A graph is complete when every launch of it is. -/
def graphDone (s : State) (job graph : Nat) : Bool := (graphLaunches s job graph).all (launchDone s)

/-- A phase is complete when it is closed and every graph in it is (19/R406). -/
def phaseDone (s : State) (p : Phase) : Bool := p.closed && (phaseLaunches s p.uid).all (launchDone s)

/-- Detached heats of a job that count at its level (02/R36, R37; 20/R430). -/
def detachedLive (s : State) (job : Nat) : Bool :=
  s.heats.any fun h => h.id.job == job && h.id.detached && !h.status.final

/-- Bits 7:0 of a completion status word of some launches (19/R415). -/
def statusBits (ls : List Launch) (complete refused : Bool) : Nat :=
  boolNat complete + 2 * boolNat (ls.any (·.faulted)) + 4 * boolNat (ls.any (·.cancelled)) +
    8 * boolNat (ls.any (·.dropped)) + 32 * boolNat (refused || ls.any (·.refused)) + 128 * boolNat (ls.any (·.overrun))

/-- A completion status word. -/
def statusWord (ls : List Launch) (complete refused : Bool) (tag : Nat) : Nat :=
  statusBits ls complete refused + min ((ls.map (·.faultedHeats)).sum) 65535 * 2 ^ 32 + tag * 2 ^ 48

/-! ## Cancelling (02/R36) -/

/-- Cancel launches that are not complete, and their heats. -/
def cancelLaunches (s : State) (p : Launch → Bool) : State :=
  let hit := s.launches.filter fun l => p l && !launchDone s l
  let isHit (l : Launch) : Bool := hit.any fun k => k.job == l.job && k.id == l.id
  let s1 := { s with launches := mapIf isHit (fun l => { l with cancelled := true, cut := true }) s.launches }
  cancelHeats s1 fun h => !h.id.detached && hit.any fun l => l.job == h.id.job && l.id == h.id.launch

/-- Cancel a job and its detached heats: it is killed (20/R452). -/
def cancelJob (s : State) (job : Nat) : State :=
  let s1 := cancelLaunches s fun l => l.job == job
  let s2 := cancelHeats s1 fun h => h.id.job == job && h.id.detached
  { s2 with jobs := mapIf (fun j => j.id == job) (fun j => { j with killed := true, cancelled := true }) s2.jobs }

/-- The heat of a launch with an index. -/
def State.member? (s : State) (job launch index : Nat) : Option Heat :=
  s.heats.find? fun h => h.id.job == job && h.id.launch == launch && h.id.index == index && !h.id.detached

/-- A heat has faulted in this cycle: a cancel of the same cycle is recorded beside the fault (19/R416). -/
def faultsNow (s : State) (h : Heat) : Bool := h.stop.elim false fun st => st.cause == .fault && st.since == s.now

/-- Cancel a level of a job; the answer is that it was found and not complete (06/R166, 19/R416). -/
def cancelLevel (s : State) (job level a b : Nat) : State × Bool :=
  match level with
  | 0 =>
    match s.launch? job a with
    | none => (s, false)
    | some l =>
      let gone := match s.member? job a b with
        | some h => h.status.final
        | none => l.cut || l.discarded.contains b
      if launchDone s l || !l.indexList.contains b || gone then (s, false)
      else if l.type.gang then (cancelLaunches s fun k => k.job == job && k.id == a, true)
      else match s.member? job a b with
        | some h =>
          let s1 := cancelHeats s fun k => k.id.uid == h.id.uid && k.id.job == job
          (if faultsNow s h then s1.onLaunch job a fun l => { l with cancelled := true } else s1, true)
        | none => (s.onLaunch job a fun l => { l with discarded := numIns b l.discarded, cancelled := true }, true)
  | 1 =>
    match s.launch? job a with
    | none => (s, false)
    | some l => if launchDone s l then (s, false) else (cancelLaunches s fun k => k.job == job && k.id == a, true)
  | 2 =>
    if (s.graphs.any fun g => g.job == job && g.id == a) && !graphDone s job a then
      (cancelLaunches s fun l => l.job == job && l.graph == a, true)
    else (s, false)
  | 3 =>
    let ps := (s.phases.filter fun p => p.job == job && p.id == a && !phaseDone s p).map (·.uid)
    if ps.isEmpty then (s, false) else (cancelLaunches s fun l => l.job == job && ps.contains l.phase, true)
  | _ => (cancelJob s job, true)

/-! ## What a waiter sees (06/R167) -/

/-- The summary of a heat in a final state; of one that is not, 0. -/
def heatSummary (k : Heat) : Nat :=
  let byOverrun (n : Nat) : Nat := n + 128 * boolNat k.overrun
  match k.status with
  | .ended => 1
  | .dropped => 9
  | .faulted => byOverrun 3
  | .cancelled => byOverrun 5
  | _ => 0

/-- The summary of phases, which a heat waits for or that its own phase is one of. -/
def phasesSummary (s : State) (h : Heat) (ps : List Phase) : Nat :=
  let ls := ps.flatMap fun p => phaseLaunches s p.uid
  let refused := s.graphs.any fun g => g.refused && ps.any fun p => p.uid == g.phase
  let done := ps.all (phaseDone s)
  if !h.id.detached && !done && ps.any (fun p => p.uid == h.id.phase) then statusBits ls false refused + 16
  else statusBits ls done refused

/-- The phases that a phase id names for a WAITC: those that were incomplete when the wait began, or are now. DESIGN
CHOICE (log 61): an id that only complete phases bear is found, and its summary is theirs. -/
def phasesNamed (s : State) (h : Heat) (a : Nat) : List Phase :=
  match h.hold with
  | .phases uids => s.phases.filter fun p => p.job == h.id.job && uids.contains p.uid
  | _ =>
    let ps := s.phases.filter fun p => p.job == h.id.job && p.id == a
    let open_ := ps.filter fun p => !phaseDone s p
    if open_.isEmpty then ps else open_

/-- The summary of a level for a heat: none when it is not found. -/
def levelSummary (s : State) (h : Heat) (level a b : Nat) : Option Nat :=
  let job := h.id.job
  let counted := !h.id.detached
  match level with
  | 0 =>
    match s.launch? job a with
    | none => none
    | some l =>
      if !l.indexList.contains b then none
      else if counted && a = h.id.launch && b = h.id.index then some 16
      else if l.discarded.contains b || (l.cut && (s.member? job a b).isNone) then some (5 + 128 * boolNat l.overrun)
      else match s.member? job a b with
        | none => some (boolNat l.complete + 4 * boolNat (l.complete && l.cancelled) + 32 * boolNat l.refused +
            128 * boolNat (l.complete && l.overrun))
        | some k => some (heatSummary k)
  | 1 =>
    match s.launch? job a with
    | none => none
    | some l => some (if counted && a = h.id.launch then statusBits [l] false false + 16 else statusBits [l] l.complete false)
  | 2 =>
    match s.graphs.find? fun g => g.job == job && g.id == a with
    | none => none
    | some g =>
      let ls := graphLaunches s job a
      some (if counted && a = h.id.graph then statusBits ls false g.refused + 16
        else statusBits ls (graphDone s job a) g.refused)
  | 3 =>
    let ps := phasesNamed s h a
    if ps.isEmpty then none else some (phasesSummary s h ps)
  | _ => some (statusBits (jobLaunches s job) false false + 16)

/-! ## Completing launches (02/R35; 14/R388; 20/R447) -/

/-- The profile record of a complete launch (20/R447). -/
def profileRecord (l : Launch) : List Word :=
  [recordHeader 4 22, BitVec.ofNat 32 l.id] ++ (l.prof ++ l.tcnt).map (BitVec.ofNat 32 ·)

/-- An object of SPAWN, SPAWNT or RESUME becomes done with a completion status word and a launch id (06/R165, R171). -/
def Heat.finishLaunch (h : Heat) (j : Nat) (refused : Bool) (word id : Nat) : Heat :=
  h.finish j { Status.start .C 0 ((h.obj j).status.toNat / 2 ^ 16 % 256) with refused := refused } 0 0
    (launchDetail word id)

/-- A launch completes: its trace and profile records, its spawner's object, clock and latch, the failure of its successors, the
end of its slalom context and barriers (06/R162, 17/R394). -/
def completeLaunch (s : State) (l : Launch) : State :=
  let s0 := s.onLaunch l.job l.id fun l => { l with complete := true }
  let s1 :=
    { s0 with
      slaloms := s0.slaloms.filter fun c => !(c.job == l.job && c.launch == l.id)
      devBars := s0.devBars.filter fun b => !(b.job == l.job && b.launch == l.id) }
  let word := statusWord [l] true false 0
  let s2 := emitRecord (trace s1 l.job 4 l.id 0 word (word / 2 ^ 32)) l.job (profileRecord l)
  let s3 := l.spawners.foldl (fun s w => mergeClock (s.onHeat w.1 fun h =>
    if h.status.final then h else h.finishLaunch w.2 l.refused word l.id) w.1 l.endClock) s2
  if l.failed then
    cancelLaunches s3 fun k => k.job == l.job && k.graph == l.graph && k.preds.contains l.id
  else s3

/-- Complete every launch of which nothing is left. -/
def settleLaunches (s : State) : State := (s.launches.filter (launchOver s)).foldl completeLaunch s

/-- A heat's seat counters, and with them its taint counters, are added to its launch's profile (06/R180; 20/R443,
R447). A word issued in the present cycle counts. -/
def addProfile (s : State) (h : Heat) (taint : Bool) : State :=
  if h.id.detached then s
  else
    let seatSums (v : SeatState) : List Nat :=
      let prof := v.profAll
      let c (k : Nat) : Nat := (assoc k prof).getD 0
      let last := if v.lastIssue = some s.now then 1 else 0
      [c 0 + last, c 1, c 2, ((prof.filter fun e => decide (3 ≤ e.1)).map (·.2)).sum]
    let sums := seatSums h.C ++ seatSums h.L ++ seatSums h.X ++ seatSums h.S
    (if taint then addTaints s h else s).onLaunch h.id.job h.id.launch fun l =>
      { l with prof := List.zipWith (· + ·) l.prof sums }

end Sys2Proof.Machine
end

