-- ==== Sys2Proof/Machine/Streams.lean ====
section
/-!
DEFINITION. Pointers, streams, and the stream words of L and S (07/R183 to R193), with the address forms of rings
(07/R190, 08/R256).
-/

namespace Sys2Proof.Machine

/-! ## Many accesses of one word -/

/-- Bytes of a row image and where they lie: an address, how many, and the offset in the image. -/
structure Chunk where
  va : Dword
  n : Nat
  at_ : Nat
deriving DecidableEq, Repr

/-- Join a byte to the chunk before it when it follows it within a 128-byte line. -/
def addByte (addr : Nat → Dword) (i : Nat) : List Chunk → List Chunk
  | [] => [{ va := addr i, n := 1, at_ := i }]
  | c :: t =>
    if addr i + 1 = c.va ∧ i + 1 = c.at_ ∧ c.va.toNat % 128 ≠ 0 then { va := addr i, n := c.n + 1, at_ := i } :: t
    else { va := addr i, n := 1, at_ := i } :: c :: t

/-- The chunks of ascending image bytes. -/
def chunksOf (addr : Nat → Dword) (bytes : List Nat) : List Chunk := bytes.foldr (addByte addr) []

/-- Order in which the faults of a stream access are checked (07/R191). -/
def Stay.rank : Stay → Nat
  | .fault c _ _ =>
    if c = clsTranslation then 0 else if c = clsProtection then 1 else if c = clsTaintedStore then 2
    else if c = clsUncorrectable ∨ c = clsPoison then 3 else 4
  | .wait _ _ _ => 5
  | .park _ _ _ => 5
  | .heldBehind _ _ => 5

/-- The first of two reasons to stay. -/
def firstStay (a : Option Stay) (b : Stay) : Option Stay :=
  match a with
  | none => some b
  | some a => if a.rank ≤ b.rank then some a else some b

/-- Run a step over a list; errors are collected and the first in the order of checks is the answer. -/
def sweep {α β : Type} (f : State → α → Run (State × β)) : State → Option Stay → List β → List α → Run (State × List β)
  | s, none, acc, [] => .ok (s, acc.reverse)
  | _, some e, _, [] => .error e
  | s, err, acc, x :: t =>
    match f s x with
    | .error e => sweep f s (firstStay err e) acc t
    | .ok (s', y) => sweep f s' err (y :: acc) t

/-- Read chunks: the data of each. -/
def loadMany (s : State) (h : Heat) (cs : List Chunk) : Run (State × List (Chunk × List (Byte × Bool))) :=
  sweep (fun s (c : Chunk) => match loadAt s h h.core c.va c.n with
    | .error e => .error e
    | .ok (s', d) => .ok (s', (c, d))) s none [] cs

/-- The lines that one access has written whole at their home are clean again (07/R200); one that is on its way to its home
is so when it lands there. -/
def clearWhole (since : Nat) (h : Heat) (cs : List (Dword × List (Byte × Bool))) (s : State) : State :=
  if s.mem.poison.isEmpty && s.mem.errors.isEmpty then s
  else
    let parts := cs.filterMap fun c => match resolve s h h.core c.1 .write with
      | .ok (_, f) => some (f.pa, c.2)
      | .error _ => none
    let away (l : Nat) : Bool := s.net.forwards.any fun f => decide (since < f.id) && f.toHome && f.addr / 128 == l
    { s with mem := s.mem.freshLines (parts.filter fun c => !away (c.1 / 128)) }

/-- Write chunks after every word to be written has been checked (07/R191); the bytes of one line go as one access
(12/R361). -/
def storeMany (s : State) (h : Heat) (cs : List (Dword × List (Byte × Bool))) : Run State :=
  let one (s : State) (c : Dword × List (Byte × Bool)) : Run (State × Unit) :=
    match storeAt s h h.core c.1 c.2 with
    | .error e => .error e
    | .ok s' => .ok (s', ())
  match sweep one s none [] cs with
  | .error e => .error e
  | .ok (s', _) => .ok (clearWhole s.nextId h cs (joinParts s' s.nextId))

/-- The row image of chunks that were read, as a register. -/
def imageOf (parts : List (Chunk × List (Byte × Bool))) : VReg :=
  { bits := BitVec.ofNat 2048 ((parts.map fun p => leNat (p.2.map (·.1)) * 2 ^ (8 * p.1.at_)).sum)
    taint := parts.foldl (fun m p =>
      ((List.range p.1.n).filter fun i => (p.2.getD i (0, false)).2).foldl
        (fun (m : BitVec 64) i => m ||| (1#64 <<< ((p.1.at_ + i) / 4))) m) 0 }

/-- Byte i of a register. -/
def VReg.byte (v : VReg) (i : Nat) : Byte := (v.bits >>> (8 * i)).setWidth 8

/-- Taint of every lane. -/
def allTaint (t : Bool) : BitVec 64 := if t then BitVec.allOnes 64 else 0

/-- The counters of tainted words read and stored. -/
def countReads (h : Heat) (parts : List (Chunk × List (Byte × Bool))) : Heat :=
  parts.foldl (fun h p => countRead h p.1.va.toNat p.2) h

def countStores (h : Heat) (parts : List (Dword × List (Byte × Bool))) : Heat :=
  parts.foldl (fun h p => countStored h p.1.toNat p.2) h

/-! ## Rings as address spans (07/R190, 08/R256) -/

/-- Bytes of a tile, tiles of a ring, bytes of the span. -/
def Ring.tileSize (r : Ring) : Nat := 2 ^ r.t
def Ring.count (r : Ring) : Nat := 2 ^ r.c
def Ring.span (r : Ring) : Nat := 2 ^ (r.t + r.c)

/-- Virtual address of a ring's first byte. -/
def Ring.va (r : Ring) : Dword := BitVec.ofNat 64 (localBase + r.base)

/-- An address wrapped into the ring's span. -/
def Ring.wrap (r : Ring) (a : Dword) : Dword := r.va + BitVec.ofNat 64 ((a - r.va).toNat % r.span)

/-- The ring of a number, if it is set. -/
def Heat.ring? (h : Heat) (g : BitVec 3) : Option Ring := h.g[g.toNat]

/-- Change a ring. -/
def Heat.setRing (h : Heat) (g : BitVec 3) (r : Option Ring) : Heat := { h with g := h.g.set g.toNat r }

/-- A word that names a ring waits for an earlier RSET of it (08/R256). -/
def ringWait (h : Heat) (p : Seat) (g : BitVec 3) : Option Stay :=
  if p = .X then none
  else (h.ahead p (· == .ring g)).map fun e => .wait .engine [e.owner] 3

/-! ## Streams -/

/-- Bits of a format's element; 0 for block formats. -/
def fmtBits (f : BitVec 4) : Nat :=
  match f.toNat with
  | 0 | 5 | 9 => 32
  | 1 | 2 | 6 | 10 => 16
  | 3 | 4 | 7 | 11 => 8
  | 8 | 12 => 4
  | _ => 0

/-- Bytes of a block of a block format (03/R64). -/
def blockBytes (f : BitVec 4) : Nat :=
  match f.toNat with
  | 13 => 14
  | 14 => 22
  | _ => 34

/-- Bytes of a row (07/R189). -/
def QDesc.rowBytes (d : QDesc) : Nat :=
  if fmtBits d.fmt = 0 then d.elems / 32 * blockBytes d.fmt else (d.elems * fmtBits d.fmt + 7) / 8

/-- A heat's stream. -/
def Heat.stream (h : Heat) (q : BitVec 4) : QStream := h.q[q.toNat]

def Heat.setStream (h : Heat) (q : BitVec 4) (v : QStream) : Heat := { h with q := h.q.set q.toNat v }

/-- The descriptor of a stream, after an earlier QSET of it (07/R187, R188); a stream not set is illegal. -/
def descOf (h : Heat) (p : Seat) (q : BitVec 4) : Run QDesc :=
  match h.ahead p (· == .stream q) with
  | some e => .error (.wait .engine [e.owner] 6)
  | none =>
    match (h.stream q).desc with
    | none => .error Stay.illegal
    | some d => .ok d

/-- A stream that is filled waits while it holds four entries (07/R187). -/
def needRoom (h : Heat) (q : BitVec 4) (reader : Seat) : Run Unit :=
  if 4 ≤ (h.stream q).entries.length then .error (.wait .engine [reader] 6) else .ok ()

/-- The head entry of a stream, for which its reader waits (07/R187). -/
def headEntry (h : Heat) (q : BitVec 4) (writer : Seat) : Run VReg :=
  match (h.stream q).entries with
  | [] => .error (.wait .engine [writer] 6)
  | e :: t => if t.length < (h.stream q).due.length then .error (.wait .engine [] 6) else .ok e

def pushEntry (h : Heat) (q : BitVec 4) (e : VReg) : Heat :=
  h.setStream q { h.stream q with entries := (h.stream q).entries ++ [e] }

/-- Pop an entry, whole: lanes taken from it are gone with it. -/
def popEntry (h : Heat) (q : BitVec 4) : Heat :=
  h.setStream q { h.stream q with entries := (h.stream q).entries.tail, taken := 0 }

/-- The image bytes of a row that active lanes cover (07/R191). -/
def activeBytes (d : QDesc) (mask : Dword) : List Nat :=
  if fmtBits d.fmt = 0 then
    let bb := blockBytes d.fmt
    (List.range (d.elems / 32)).flatMap fun k =>
      if (mask.toNat / 2 ^ (32 * k) % 2 ^ 32) ≠ 0 then (List.range bb).map (k * bb + ·) else []
  else (List.range d.rowBytes).filter fun i => mask.getLsbD (i / 4)

/-- Bytes of an element for alignment; one for 4-bit and block formats. -/
def QDesc.unit (d : QDesc) : Nat := max 1 (fmtBits d.fmt / 8)

/-- The address of an image byte: packed, or by the element stride. -/
def byteAddr (h : Heat) (d : QDesc) (a : Dword) (strided : Bool) (i : Nat) : Dword :=
  let u := d.unit
  let stride : Int := if d.elemStride = 0 then (u : Int) else d.elemStride
  let raw := if strided then a + BitVec.ofInt 64 ((i / u : Nat) * stride) + BitVec.ofNat 64 (i % u)
    else a + BitVec.ofNat 64 i
  match d.ring.bind h.ring? with
  | some r => r.wrap raw
  | none => raw

/-- The accesses of a stream word: its chunks, after the checks of form, ring and alignment. -/
def streamPlan (h : Heat) (p : Seat) (d : QDesc) (a : Dword) (strided : Bool) (mask : Dword) : Run (List Chunk) :=
  if strided && decide (fmtBits d.fmt < 8) then .error Stay.illegal
  else
    match d.ring.bind (ringWait h p) with
    | some e => .error e
    | none =>
      if d.ring.elim false fun g => (h.ring? g).isNone then raise clsRing
      else
        let addr := byteAddr h d a strided
        let bytes := activeBytes d mask
        match bytes.find? fun i => i % d.unit == 0 && (addr i).toNat % d.unit != 0 with
        | some i => faultAt clsAlignment (addr i)
        | none => .ok (chunksOf addr bytes)

/-- The pointer after the word (07/R190, R191). -/
def advance (h : Heat) (p : Seat) (n : BitVec 4) (d : QDesc) (upd : BitVec 2) : Heat :=
  if upd = 1 then
    let q := h.p p n
    let stride : Int := if d.rowStride = 0 then (d.rowBytes : Int) else d.rowStride
    let a := q.v + BitVec.ofInt 64 stride
    h.setP p n ⟨(match d.ring.bind h.ring? with | some r => r.wrap a | none => a), q.t⟩
  else h

/-- LDQ and LDQS (07/R191). -/
def loadStream (w : Slot) (q p : BitVec 4) (upd : BitVec 2) (strided : Bool) (s : State) (h : Heat) :
    Run (State × Heat) :=
  match readK h .L w.pred with
  | .error e => .error e
  | .ok k =>
    if 8 ≤ q.toNat then .error Stay.illegal
    else match descOf h .L q with
      | .error e => .error e
      | .ok d =>
        match needRoom h q .X with
        | .error e => .error e
        | .ok () =>
          let ptr := h.p .L p
          match streamPlan h .L d ptr.v strided k.v with
          | .error e => .error e
          | .ok cs =>
            match loadMany s h cs with
            | .error e => .error e
            | .ok (s1, parts) =>
              let img := imageOf parts
              let bits := if fmtBits d.fmt = 0 then img.bits else img.bits &&& BitVec.ofNat 2048 (2 ^ (d.elems * fmtBits d.fmt) - 1)
              let t := ptr.t || d.taint || k.t
              let h1 := pushEntry (countReads h parts) q { bits := bits, taint := img.taint ||| allTaint t }
              .ok (s1, advance h1 .L p d upd)

/-- LDQ (07/R191). -/
def execLdq (w : Slot) (q p : BitVec 4) (upd : BitVec 2) (s : State) : Host.Outcome State Fault Refusal :=
  issue ((Issue.short w []).of (.ldq w q p upd)) .L (loadStream w q p upd false) s

/-- LDQS (07/R191). -/
def execLdqs (w : Slot) (q p : BitVec 4) (upd : BitVec 2) (s : State) : Host.Outcome State Fault Refusal :=
  issue ((Issue.short w []).of (.ldqs w q p upd)) .L (loadStream w q p upd true) s

/-- The byte that stands at an address, with its word's taint, for a store of half of it (07/R189; 03/R63). -/
def oldByte (s : State) (h : Heat) (va : Dword) : Byte × Bool :=
  match resolve s h h.core va .write with
  | .ok (s1, f) => viewByte s1 h.die f.pa
  | .error _ => (0, false)

/-- Whether an image byte lies past elems: the upper half of the last byte of an odd row of 4-bit elements. -/
def halfByte (d : QDesc) (i : Nat) : Bool := fmtBits d.fmt == 4 && d.elems % 2 == 1 && i + 1 == d.rowBytes

/-- The bytes of a row that a stream store writes, chunk by chunk: each with the taint of the access and of its lane, one
of a block with that of every lane that the block covers (07/R191). -/
def rowData (d : QDesc) (e : VReg) (t : Bool) (cs : List Chunk) : List (Dword × List (Byte × Bool)) :=
  let blk := if fmtBits d.fmt = 0 then blockBytes d.fmt else 0
  let lane (i : Nat) : Bool :=
    if blk = 0 then e.taint.getLsbD (i / 4)
    else (List.range ((i / blk * blk + blk - 1) / 4 - i / blk * blk / 4 + 1)).any fun j =>
      e.taint.getLsbD (i / blk * blk / 4 + j)
  cs.map fun c => (c.va, (List.range c.n).map fun n => (e.byte (c.at_ + n), t || lane (c.at_ + n)))

/-- The same bytes with what stands in memory beside the last element of an odd row of 4-bit elements. -/
def rowStores (s : State) (h : Heat) (d : QDesc) (cs : List Chunk) (data : List (Dword × List (Byte × Bool))) :
    List (Dword × List (Byte × Bool)) :=
  cs.zipWith (fun c d' => (d'.1, d'.2.zipIdx.map fun b =>
    if halfByte d (c.at_ + b.2) then
      let old := oldByte s h (c.va + BitVec.ofNat 64 b.2)
      ((b.1.1 &&& 0x0F) ||| (old.1 &&& 0xF0), b.1.2 || old.2)
    else b.1)) data

/-- STQ and STQS (07/R191). -/
def storeStream (w : Slot) (q p : BitVec 4) (upd : BitVec 2) (strided : Bool) (s : State) (h : Heat) :
    Run (State × Heat) :=
  match readK h .S w.pred with
  | .error e => .error e
  | .ok k =>
    if q.toNat < 8 ∨ 12 ≤ q.toNat then .error Stay.illegal
    else match descOf h .S q with
      | .error e => .error e
      | .ok d =>
        match headEntry h q .X with
        | .error e => .error e
        | .ok e =>
          let ptr := h.p .S p
          match streamPlan h .S d ptr.v strided k.v with
          | .error e => .error e
          | .ok cs =>
            let data := rowData d e (ptr.t || d.taint || k.t) cs
            match storeMany s h (rowStores s h d cs data) with
            | .error e => .error e
            | .ok s1 => .ok (s1, advance (popEntry (countStores h data) q) .S p d upd)

/-- STQ (07/R191). -/
def execStq (w : Slot) (q p : BitVec 4) (upd : BitVec 2) (s : State) : Host.Outcome State Fault Refusal :=
  issue ((Issue.short w []).of (.stq w q p upd)) .S (storeStream w q p upd false) s

/-- STQS (07/R191). -/
def execStqs (w : Slot) (q p : BitVec 4) (upd : BitVec 2) (s : State) : Host.Outcome State Fault Refusal :=
  issue ((Issue.short w []).of (.stqs w q p upd)) .S (storeStream w q p upd true) s

/-! ## Gather and scatter of elements (07/R192) -/

/-- The elements that an index entry names under a mask: element, address, taint of the index. -/
def elementsOf (d : QDesc) (base : Dword) (idx : VReg) (mask : Dword) : List (Nat × Dword × Bool) :=
  ((List.range (min d.elems 64)).filter mask.getLsbD).map fun e =>
    (e, base + BitVec.ofInt 64 (4 * (((idx.bits >>> (32 * e)).setWidth 32 : Word)).toInt), idx.taint.getLsbD e)

/-- The checks of an element's address: alignment, then the windows. DESIGN CHOICE (log 63): an address that is not
canonical lies outside the windows and raises the protection fault of 07/R192, not the translation fault of 07/R184. -/
def elementCheck (es : List (Nat × Dword × Bool)) : Option Stay :=
  match es.find? fun e => e.2.1.toNat % 4 != 0 with
  | some e => some (.fault clsAlignment e.2.1 0)
  | none =>
    (es.find? fun e => !(decide (localBase ≤ e.2.1.toNat ∧ e.2.1.toNat < localBase + 2097152) ||
        decide (crewWindow ≤ e.2.1.toNat ∧ e.2.1.toNat < crewWindow + 8388608))).map fun e =>
      .fault clsProtection e.2.1 0

/-- GATQ (07/R192). DESIGN CHOICE (log 63): the ring of the data stream, if it has one, neither wraps the elements'
addresses nor is looked at; SCATQ likewise. -/
def execGatq (w : Slot) (q p : BitVec 4) (qi : BitVec 2) (s : State) : Host.Outcome State Fault Refusal :=
  issue ((Issue.short w []).of (.gatq w q p qi)) .L (fun s h =>
    match readK h .L w.pred with
    | .error e => .error e
    | .ok k =>
      if 8 ≤ q.toNat then .error Stay.illegal
      else match descOf h .L q with
        | .error e => .error e
        | .ok d =>
          if fmtBits d.fmt ≠ 32 then .error Stay.illegal
          else match headEntry h (12 + qi.setWidth 4) .X with
            | .error e => .error e
            | .ok idx =>
              match needRoom h q .X with
              | .error e => .error e
              | .ok () =>
                let ptr := h.p .L p
                let es := elementsOf d ptr.v idx k.v
                match elementCheck es with
                | some e => .error e
                | none =>
                  match loadMany s h (es.map fun e => { va := e.2.1, n := 4, at_ := 4 * e.1 }) with
                  | .error e => .error e
                  | .ok (s1, parts) =>
                    let img := imageOf parts
                    let at_ := ptr.t || d.taint || k.t
                    let t := es.foldl (fun (m : BitVec 64) e => if at_ || e.2.2 then m ||| (1#64 <<< e.1) else m) img.taint
                    let h1 := pushEntry (countReads h parts) q { bits := img.bits, taint := t }
                    .ok (s1, popEntry h1 (12 + qi.setWidth 4))) s

/-- SCATQ (07/R192): of several lanes with one address, the highest stands. -/
def execScatq (w : Slot) (q p : BitVec 4) (qi : BitVec 2) (s : State) : Host.Outcome State Fault Refusal :=
  issue ((Issue.short w []).of (.scatq w q p qi)) .S (fun s h =>
    match readK h .S w.pred with
    | .error e => .error e
    | .ok k =>
      if q.toNat < 8 ∨ 12 ≤ q.toNat then .error Stay.illegal
      else match descOf h .S q with
        | .error e => .error e
        | .ok d =>
          if fmtBits d.fmt ≠ 32 then .error Stay.illegal
          else match headEntry h (12 + qi.setWidth 4) .X with
            | .error e => .error e
            | .ok idx =>
              match headEntry h q .X with
              | .error e => .error e
              | .ok v =>
                let ptr := h.p .S p
                let es := elementsOf d ptr.v idx k.v
                match elementCheck es with
                | some e => .error e
                | none =>
                  let at_ := ptr.t || d.taint || k.t
                  let data := es.map fun e => (e.2.1, withTaint (at_ || e.2.2 || v.taint.getLsbD e.1)
                    ((List.range 4).map fun i => v.byte (4 * e.1 + i)))
                  match storeMany s h data with
                  | .error e => .error e
                  | .ok s1 => .ok (s1, popEntry (popEntry (countStores h data) (12 + qi.setWidth 4)) q)) s

/-! ## Pointers, descriptors, no-operations (07/R186, R188, R203) -/

/-- PSET of a seat (07/R186). -/
def setPointer (seat : Seat) (w : Slot) (p : BitVec 4) (sa : BitVec 6) (i : Instr) (s : State) :
    Host.Outcome State Fault Refusal :=
  issue ((Issue.short w [sa]).of i) seat (fun s h =>
    match readS h seat sa with
    | .error e => .error e
    | .ok x => .ok (s, h.setP seat p x)) s

/-- L.PSET (07/R186). -/
def execLPset (w : Slot) (p : BitVec 4) (sa : BitVec 6) (s : State) : Host.Outcome State Fault Refusal :=
  setPointer .L w p sa (.lPset w p sa) s

/-- S.PSET (07/R186). -/
def execSPset (w : Slot) (p : BitVec 4) (sa : BitVec 6) (s : State) : Host.Outcome State Fault Refusal :=
  setPointer .S w p sa (.sPset w p sa) s

/-- PADD of a seat (07/R186). -/
def addPointer (seat : Seat) (w : Slot) (p : BitVec 4) (imm : BitVec 10) (i : Instr) (s : State) :
    Host.Outcome State Fault Refusal :=
  issue ((Issue.short w []).of i) seat (fun s h =>
    let q := h.p seat p
    .ok (s, h.setP seat p ⟨q.v + simm imm, q.t⟩)) s

/-- L.PADD (07/R186). -/
def execLPadd (w : Slot) (p : BitVec 4) (imm : BitVec 10) (s : State) : Host.Outcome State Fault Refusal :=
  addPointer .L w p imm (.lPadd w p imm) s

/-- S.PADD (07/R186). -/
def execSPadd (w : Slot) (p : BitVec 4) (imm : BitVec 10) (s : State) : Host.Outcome State Fault Refusal :=
  addPointer .S w p imm (.sPadd w p imm) s

/-- Full count of a format (07/R189). -/
def fullCount (fmt : BitVec 4) : Nat := if fmtBits fmt = 0 then 64 else min 512 (2048 / fmtBits fmt)

/-- The element count of a QSET (07/R188): at most the full count; whole blocks of a cb format. -/
def elemsOk (fmt : BitVec 4) (elems1 : BitVec 9) : Bool :=
  let n := elems1.toNat + 1
  decide (n ≤ fullCount fmt) && (fmtBits fmt != 0 || n % 32 == 0)

/-- QSET of a seat (07/R188): waits until the stream is empty, and for an earlier RSET of the ring that it names
(08/R256). -/
def setStreamDesc (seat : Seat) (w : Slot) (q : BitVec 4) (sa : BitVec 6) (ringEn : Bool) (ring : BitVec 3)
    (fmt : BitVec 4) (elems1 : BitVec 9) (stamp : BitVec 16) (i : Instr) (s : State) :
    Host.Outcome State Fault Refusal :=
  issue ((Issue.long w stamp [sa]).of i) seat (fun s h =>
    match readS h seat sa with
    | .error e => .error e
    | .ok x =>
      if (if seat = .L then decide (8 ≤ q.toNat) else decide (q.toNat < 8 ∨ 12 ≤ q.toNat)) || !elemsOk fmt elems1 then
        .error Stay.illegal
      else match (if ringEn then ringWait h seat ring else none) with
      | some e => .error e
      | none =>
      if !(h.stream q).entries.isEmpty then .error (.wait .engine [.X] 6)
      else
        let d : QDesc :=
          { fmt := fmt, elems := elems1.toNat + 1, rowStride := (x.v.setWidth 32).toInt
            elemStride := ((x.v >>> 32).setWidth 32).toInt, ring := if ringEn then some ring else none, taint := x.t }
        .ok (s, h.setStream q { h.stream q with desc := some d, taken := 0 })) s

/-- L.QSET (07/R188). -/
def execLQset (w : Slot) (q : BitVec 4) (sa : BitVec 6) (ringEn : Bool) (ring : BitVec 3) (fmt : BitVec 4)
    (elems1 : BitVec 9) (stamp : BitVec 16) (s : State) : Host.Outcome State Fault Refusal :=
  setStreamDesc .L w q sa ringEn ring fmt elems1 stamp (.lQset w q sa ringEn ring fmt elems1 stamp) s

/-- S.QSET (07/R188). -/
def execSQset (w : Slot) (q : BitVec 4) (sa : BitVec 6) (ringEn : Bool) (ring : BitVec 3) (fmt : BitVec 4)
    (elems1 : BitVec 9) (stamp : BitVec 16) (s : State) : Host.Outcome State Fault Refusal :=
  setStreamDesc .S w q sa ringEn ring fmt elems1 stamp (.sQset w q sa ringEn ring fmt elems1 stamp) s

/-- NOPL (04/R97). -/
def execNopl (w : Slot) (s : State) : Host.Outcome State Fault Refusal :=
  issue ((Issue.short w []).of (.nopl w)) .L (fun s h => .ok (s, h)) s

/-- NOPS (04/R97). -/
def execNops (w : Slot) (s : State) : Host.Outcome State Fault Refusal :=
  issue ((Issue.short w []).of (.nops w)) .S (fun s h => .ok (s, h)) s

/-- CWAIT of a seat (07/R203, R197). -/
def waitObject (seat : Seat) (w : Slot) (co : BitVec 6) (i : Instr) (s : State) : Host.Outcome State Fault Refusal :=
  issue ((Issue.short w []).of i) seat (fun s h =>
    match lateCommand h seat [co.toNat] with
    | some e => .error (.wait (waitKind s h seat [co.toNat] List.any) [e.owner] 3)
    | none =>
      if h.busyFor seat co.toNat then .error (.wait (waitKind s h seat [co.toNat] List.any) [] 5) else .ok (s, h)) s

/-- L.CWAIT (07/R203). -/
def execLCwait (w : Slot) (co : BitVec 6) (s : State) : Host.Outcome State Fault Refusal :=
  waitObject .L w co (.lCwait w co) s

/-- S.CWAIT (07/R203). -/
def execSCwait (w : Slot) (co : BitVec 6) (s : State) : Host.Outcome State Fault Refusal :=
  waitObject .S w co (.sCwait w co) s

/-! ## Rings from L and S (07/R218) -/

/-- The ring that RPUSH and RPOP name: set, not fixed, and large enough. -/
def ringFor (h : Heat) (seat : Seat) (g : BitVec 3) (n : Nat) : Run Ring :=
  match ringWait h seat g with
  | some e => .error e
  | none =>
    match h.ring? g with
    | none => raise clsRing
    | some r => if r.c = 0 ∨ r.count < n then raise clsRing else .ok r

/-- RPUSH (07/R218): the tiles carry no bag. -/
def execRpush (w : Slot) (ring : BitVec 3) (n : BitVec 11) (s : State) : Host.Outcome State Fault Refusal :=
  issue ((Issue.short w []).of (.rpush w ring n)) .L (fun s h =>
    if n = 0 then .error Stay.illegal else
    match ringFor h .L ring n.toNat with
    | .error e => .error e
    | .ok r =>
      if r.count < r.tiles.length + n.toNat then .error (.wait .engine [] 6)
      else
        let tile : Tile := { bag := none, tag := 0, member := 0, replaced := false }
        .ok (s, h.setRing ring (some { r with tiles := r.tiles ++ List.replicate n.toNat tile }))) s

/-- RPOP (07/R218). -/
def execRpop (w : Slot) (ring : BitVec 3) (n : BitVec 11) (s : State) : Host.Outcome State Fault Refusal :=
  issue ((Issue.short w []).of (.rpop w ring n)) .S (fun s h =>
    if n = 0 then .error Stay.illegal else
    match ringFor h .S ring n.toNat with
    | .error e => .error e
    | .ok r =>
      if r.tiles.length < n.toNat then .error (.wait .engine [] 6)
      else .ok (s, h.setRing ring (some
        { r with head := (r.head + n.toNat) % r.count, tiles := r.tiles.drop n.toNat }))) s

end Sys2Proof.Machine
end

