-- ==== Sys2Proof/Machine/Bags.lean ====
section
/-!
DEFINITION. Row gathers and scatters, and bags: records, control blocks, manifests, policies, landing, direct
accumulation, close and report (07/R208 to R217; 11/R329 to R345; 15/R389, R390; 18/R397, R398).
-/

namespace Sys2Proof.Machine

/-! ## A heat's own ASR -/

/-- Physical address of a byte of a heat's own ASR (02/R28). -/
def asrPa (h : Heat) (off : Nat) : Nat := asrAddr h.crew ((h.asr.getD (off / 4096) 0) * 4096 + off % 4096)

/-- A range of the own ASR lies in the heat's demand. -/
def inAsr (h : Heat) (off n : Nat) : Bool := decide (off + n ≤ 4096 * h.asr.length)

/-- A word of the own ASR. -/
def asrWord (s : State) (h : Heat) (off : Nat) : Nat :=
  leNat ((List.range 4).map fun i => cellGet s.mem.cells (asrPa h off + i))

/-- Write a word of the own ASR; a whole word clears its poison. -/
def putAsr (s : State) (h : Heat) (off v : Nat) (t : Bool) : State :=
  writePhys s h.id.uid h.die (asrPa h off) 0 (withTaint t (leBytes 4 v))

/-- Write words at ascending offsets. -/
def putAsrs (s : State) (h : Heat) (off : Nat) (ws : List (Nat × Bool)) : State :=
  ws.zipIdx.foldl (fun s w => putAsr s h (off + 4 * w.2) w.1.1 w.1.2) s

/-- A word of the own ASR is poisoned or holds an uncorrectable error. -/
def asrDamaged (s : State) (h : Heat) (off : Nat) : Bool :=
  s.mem.poisoned (asrPa h off) || s.mem.errors.contains (asrPa h off / 128)

/-- Some word of a range is. -/
def rangeDamaged (s : State) (h : Heat) (off n : Nat) : Bool :=
  (List.range ((n + 3) / 4)).any fun i => asrDamaged s h (off + 4 * i)

/-- An uncorrectable error stands in a range of the own ASR, and is found there (07/R200). -/
def rangeError (s : State) (h : Heat) (off n : Nat) : Bool :=
  (List.range ((n + 3) / 4)).any fun i => s.mem.errors.contains (asrPa h (off + 4 * i) / 128)

def discoverRange (s : State) (h : Heat) (off n cmd : Nat) : State :=
  (List.range ((n + 3) / 4)).foldl (fun s i => discover s (asrPa h (off + 4 * i) / 128) h.id.job h.id.launch h.id.index cmd 8) s

/-- The three parts of an la640 cell of the own ASR. -/
def accOf (h : Heat) (off : Nat) : List Nat := [asrPa h off, asrPa h (off + 32), asrPa h (off + 64)]

/-! ## Bag records and control blocks (07/R213; 11/R329 to R335) -/

/-- Fields of the policy word (11/R333). -/
def Bag.cells (b : Bag) : Nat := b.policy.toNat / 2 ^ 8 % 2 ^ 12 + 1
def Bag.direct (b : Bag) : Nat := b.policy.toNat / 2 ^ 6 % 4
def Bag.kind (b : Bag) : Nat := b.policy.toNat / 2 ^ 4 % 4
def Bag.list (b : Bag) : Bool := b.policy.getLsbD 3
def Bag.poison (b : Bag) : Nat := b.policy.toNat / 2 % 4
def Bag.dupTrap (b : Bag) : Bool := b.policy.getLsbD 0

/-- Bytes of a cell by kind: f32, la640, i32. -/
def cellSize (kind : Nat) : Nat := if kind = 1 then 96 else 4

/-- Offset of the tag flags, of the list, and the end of the block, from the control offset (11/R329). -/
def Bag.flagsAt (b : Bag) : Nat := 64 + 32 * ((b.rows + 255) / 256)
def Bag.listAt (b : Bag) : Nat := b.flagsAt + 32 * ((b.tags + 31) / 32)
def Bag.blockSize (b : Bag) : Nat := b.listAt + if b.list then 32 * ((b.rows + 7) / 8) else 0

/-- Bytes of the accumulation region. -/
def Bag.regionSize (b : Bag) : Nat := b.tags * b.cells * cellSize b.kind

/-- Members per tag of a uniform manifest. -/
def Bag.members (b : Bag) : Nat := b.rows / b.tags

/-- Entry p of a list manifest. -/
def listEntry (s : State) (h : Heat) (b : Bag) (p : Nat) : Nat := asrWord s h (b.ctl + b.listAt + 4 * p)

/-- Tag of a manifest position. -/
def tagAt (s : State) (h : Heat) (b : Bag) (p : Nat) : Nat :=
  if b.list then listEntry s h b p / 2 ^ 16 else p / b.members

/-- Position of an identity in the manifest (11/R334). -/
def manifestPos (s : State) (h : Heat) (b : Bag) (tag member : Nat) : Option Nat :=
  if b.list then (List.range b.rows).find? fun p => listEntry s h b p == tag * 2 ^ 16 + member
  else if tag < b.tags ∧ member < b.members then some (tag * b.members + member) else none

/-- Whether a tag has more than one member. -/
def manyMembers (s : State) (h : Heat) (b : Bag) (tag : Nat) : Bool :=
  if b.list then decide (1 < ((List.range b.rows).filter fun p => listEntry s h b p / 2 ^ 16 == tag).length)
  else decide (1 < b.members)

/-- Set a word of the control block: taint 1 while the bag is open or busy (11/R332). -/
def setCtl (s : State) (h : Heat) (b : Bag) (off v : Nat) : State := putAsr s h (b.ctl + off) v true

/-- Advance a count of the header. -/
def bump (s : State) (h : Heat) (b : Bag) (off : Nat) : State :=
  setCtl s h b off ((asrWord s h (b.ctl + off) + 1) % 2 ^ 32)

/-- Header counts by offset (11/R330). -/
def cntArrived : Nat := 4
def cntDuplicate : Nat := 8
def cntReplaced : Nat := 12
def cntStray : Nat := 16
def cntMissing : Nat := 20
def cntIncomplete : Nat := 24
def cntPoisoned : Nat := 28
def cntConsumed : Nat := 32

/-- The seen bit of a manifest position. -/
def seenBit (s : State) (h : Heat) (b : Bag) (p : Nat) : Bool := (asrWord s h (b.ctl + 64 + p / 32 * 4)).testBit (p % 32)

def setSeen (s : State) (h : Heat) (b : Bag) (p : Nat) : State :=
  let off := 64 + p / 32 * 4
  setCtl s h b off (asrWord s h (b.ctl + off) ||| 2 ^ (p % 32))

/-- A bit of a tag's flags byte (11/R331). -/
def tagFlag (s : State) (h : Heat) (b : Bag) (tag bit : Nat) : Bool :=
  (asrWord s h (b.ctl + b.flagsAt + tag / 4 * 4)).testBit (8 * (tag % 4) + bit)

def setTagFlag (s : State) (h : Heat) (b : Bag) (tag bit : Nat) : State :=
  let off := b.flagsAt + tag / 4 * 4
  setCtl s h b off (asrWord s h (b.ctl + off) ||| 2 ^ (8 * (tag % 4) + bit))

/-- Flag a tag poisoned, counting it the first time (11/R342). -/
def poisonTag (s : State) (h : Heat) (b : Bag) (tag : Nat) : State :=
  if tagFlag s h b tag 2 then s else bump (setTagFlag s h b tag 2) h b cntPoisoned

/-- The state word of the header. -/
def setBagState (s : State) (h : Heat) (b : Bag) (st : Nat) (retired : Bool) : State :=
  setCtl s h b 0 (st + 4 * boolNat retired)

/-- A control-block word of the bag is damaged, its list included (11/R329, R342). -/
def blockDamaged (s : State) (h : Heat) (b : Bag) : Bool := rangeDamaged s h b.ctl b.blockSize

/-- A heat's bag of an id. -/
def Heat.bag? (h : Heat) (id : Nat) : Option Bag := h.bags.find? fun b => b.id == id

/-- Change a heat's bag. -/
def State.onBag (s : State) (uid id : Nat) (f : Bag → Bag) : State :=
  s.onHeat uid fun h => { h with bags := mapIf (fun b => b.id == id) f h.bags }

/-- The bag becomes abandoned (11/R343). -/
def abandonBag (s : State) (h : Heat) (b : Bag) : State :=
  setBagState (s.onBag h.id.uid b.id fun b => { b with phase := .abandoned }) h b 3 b.retired

/-- A bag whose gather has failed, or whose control block is damaged, is abandoned once its rows and tiles have settled
(11/R342, R343). -/
def failBag (s : State) (uid id : Nat) : State :=
  s.onBag uid id fun b => if b.phase = .opened ∨ b.phase = .closed then { b with phase := .failed } else b

/-- The errors of a control block are found (07/R200), and its bag can only be abandoned (11/R342). -/
def findBlock (s : State) (h : Heat) (b : Bag) (cmd : Nat) : State :=
  failBag (discoverRange s h b.ctl b.blockSize cmd) h.id.uid b.id

/-- A command that keeps the control block of a bag tainted: an MBAG or a direct-accumulating gather. -/
def Cmd.busies (c : Cmd) (id : Nat) : Bool :=
  match c.kind with
  | .gatr r _ _ _ _ b => r.kind == 1 && b == some id
  | .mbag _ b _ _ _ _ => b == id
  | _ => false

/-- A gather of a bag. -/
def Cmd.gathers (c : Cmd) (id : Nat) : Bool :=
  match c.kind with
  | .gatr _ _ _ _ _ b => b == some id
  | _ => false

/-- Rewrite header, seen-bitmap and tag flags with taint 0 (11/R332); a damaged word stays damaged. -/
def cleanBlock (s : State) (h : Heat) (b : Bag) : State :=
  (List.range (b.listAt / 4)).foldl (fun s i =>
    let off := b.ctl + 4 * i
    if asrDamaged s h off then s else putAsr s h off (asrWord s h off) false) s

/-- A BAGCLOSE of a bag. -/
def Cmd.closes (c : Cmd) (id : Nat) : Bool :=
  match c.kind with
  | .bagclose b => b == id
  | _ => false

/-- After the end of a command of a bag: one whose BAGCLOSE is done and that no command keeps busy is cleaned. -/
def cleanBag (s : State) (uid id : Nat) : State :=
  match s.heat? uid with
  | none => s
  | some h =>
    match h.bag? id with
    | none => s
    | some b =>
      if b.closeTT.isSome && !((s.cmdsOf uid).any fun c => c.busies id || c.closes id) then cleanBlock s h b else s

/-- The bags of a heat that stops by a fault or a cancel become abandoned once its commands have settled (11/R343). -/
def abandonBags (s : State) (h : Heat) : State :=
  (h.bags.filter fun b => b.phase == .opened || b.phase == .failed).foldl
    (fun s b => cleanBag (abandonBag s h b) h.id.uid b.id) s

/-! ## Which bag is open (07/R215) -/

/-- Whether a bag is open at a seat's text time. L may have passed a BAGCLOSE that S has not issued yet: one that S
may still skip makes L wait. -/
def bagOpenAt (h : Heat) (p : Seat) (b : Bag) : Run Bool :=
  if h.tt p ≤ b.openTT then .ok false
  else match b.closeTT with
    | some c => .ok (decide (h.tt p ≤ c))
    | none =>
      if p = .S then .ok true
      else
        let closes (e : Seen) : Bool := h.owes e && decide (b.openTT < e.tt) && match e.kind with
          | .close a _ => a.toNat == b.recAddr
          | _ => false
        match (h.seat p).seen.find? closes with
        | none => .ok true
        | some e => match e.kind with
          | .close _ true => .ok false
          | _ => .error (.wait .empty [.S] 3)

/-- The bags that are open at a seat's text time. -/
def openBags (h : Heat) (p : Seat) : Run (List Bag) :=
  h.bags.foldl (fun r b => match r with
    | .error e => .error e
    | .ok l =>
      match bagOpenAt h p b with
      | .error e => .error e
      | .ok o => .ok (if o then l ++ [b] else l)) (.ok [])

/-- The bag whose BAGOPEN is latest. -/
def latestBag (l : List Bag) : Option Bag :=
  l.foldl (fun acc b => match acc with
    | none => some b
    | some a => if a.openTT < b.openTT then some b else some a) none

/-- A record's open bag as a seat other than L names it: S and X wait for L's earlier BAGOPEN. -/
def bagNamed (h : Heat) (p : Seat) (recAddr : Dword) : Run Bag :=
  match openBags h p with
  | .error e => .error e
  | .ok l =>
    match latestBag (l.filter fun b => b.recAddr == recAddr.toNat) with
    | some b => .ok b
    | none => if h.tt .L ≤ h.tt p && !h.L.ended then .error (.wait .empty [.L] 3) else .error Stay.illegal

/-! ## BAGOPEN (07/R213 to R215; 11/R335) -/

/-- A bag record of 32 bytes, with nothing of the bag's life. -/
def bagOf (recAddr : Dword) (bs : List Byte) : Bag :=
  { id := 0, recAddr := recAddr.toNat, ctl := part bs 0 7, acc := part bs 8 15, tags := part bs 16 17
    rows := part bs 20 23, policy := BitVec.ofNat 32 (part bs 24 27), phase := .opening, openTT := 0, closeTT := none
    retired := false, steered := false, settled := 0 }

/-- The limits of 07/R213. -/
def recordOk (b : Bag) (bs : List Byte) : Bool :=
  zeros bs 18 19 && zeros bs 28 31 && decide (1 ≤ b.rows ∧ b.rows ≤ 65536 ∧ 1 ≤ b.tags) && decide (b.ctl % 32 = 0) &&
    decide (b.acc % 32 = 0)

/-- Whether a bag record at an address may be opened. -/
def readBag (disp : BitVec 22) (s : State) (h : Heat) : Run (State × Bag) :=
  let va := displace h.L.pc disp
  if va.toNat % 32 ≠ 0 then faultAt clsAlignment va
  else match loadAt s h h.core va 32 with
    | .error e => .error e
    | .ok (s1, data) =>
      let bs := data.map (·.1)
      let b := bagOf va bs
      match openBags h .L with
      | .error e => .error e
      | .ok l =>
        if 8 ≤ l.length || l.any (fun x => x.recAddr == va.toNat) || !recordOk b bs then .error Stay.illegal
        else if !inAsr h b.ctl b.blockSize then faultAt clsProtection (BitVec.ofNat 64 (asrWindow + b.ctl))
        else if !inAsr h b.acc b.regionSize then faultAt clsProtection (BitVec.ofNat 64 (asrWindow + b.acc))
        else .ok (s1, { b with id := s1.nextId, openTT := h.tt .L })

/-- BAGOPEN (07/R214): the bag bears its command's number. -/
def execBagopen (w : Slot) (disp : BitVec 22) (c : Ctl) (s : State) : Host.Outcome State Fault Refusal :=
  issue (((Issue.long w c.stamp []).of (.bagopen w disp c)).command 3 0x0E c) .L (fun s h =>
    match readBag disp s h with
    | .error e => .error e
    | .ok (s1, b) =>
      match commandBody .L c 0x0E (fun s _ => .ok (s, .bagopen b.id, false)) s1 h with
      | .error e => .error e
      | .ok (s2, h2) => .ok (s2, { h2 with bags := h2.bags ++ [b] })) s

/-- The cases of 11/R335 that the record does not show in itself. -/
def openRefused (s : State) (h : Heat) (b : Bag) : Bool :=
  decide (b.policy.toNat / 2 ^ 20 ≠ 0) || b.kind == 3 || b.poison == 3 ||
    decide (b.ctl < b.acc + b.regionSize ∧ b.acc < b.ctl + b.blockSize) ||
    (if b.list then
      (List.range b.rows).any fun p => decide (b.tags ≤ listEntry s h b p / 2 ^ 16) ||
        (decide (0 < p) && decide (listEntry s h b p ≤ listEntry s h b (p - 1)))
     else decide (b.rows % b.tags ≠ 0) || decide (65536 < b.members))

/-- The words of the block that BAGOPEN leaves (11/R330): header, then zeros. -/
def blockWords (b : Bag) : List Nat :=
  [1, 0, 0, 0, 0, 0, 0, 0, 0, b.policy.toNat, b.rows, b.tags, b.acc % 2 ^ 32, b.acc / 2 ^ 32, 0, 0] ++
    List.replicate (b.listAt / 4 - 16) 0

/-- A bag that is not opened is none of the heat's. -/
def dropBag (s : State) (uid id : Nat) : State :=
  s.onHeat uid fun h => { h with bags := h.bags.filter fun b => b.id != id }

/-- BAGOPEN's effect. -/
def performOpen (s : State) (h : Heat) (c : Cmd) (id : Nat) : Performed :=
  match h.bag? id with
  | none => some (s, c.done 0 none)
  | some b =>
    let fail (cls : BitVec 8) : Performed := some (dropBag s h.id.uid id, c.done 0 (some (cls, 0)))
    if b.list && rangeDamaged s h (b.ctl + b.listAt) (4 * b.rows) then
      some (dropBag (discoverRange s h (b.ctl + b.listAt) (4 * b.rows) c.index) h.id.uid id, c.done 0 (some (clsUncorrectable, 0)))
    else if openRefused s h b then fail clsIllegal
    else
      let s1 := putAsrs s h b.ctl ((blockWords b).map fun v => (v, true))
      let s2 := putAsrs s1 h b.acc (List.replicate (b.regionSize / 4) (0, false))
      some (s2.onBag h.id.uid id fun b => { b with phase := .opened }, c.done (b.listAt + b.regionSize) none)

/-! ## BAGCLOSE (07/R214 to R217) -/

/-- BAGCLOSE at issue. -/
def execBagclose (w : Slot) (disp : BitVec 22) (c : Ctl) (s : State) : Host.Outcome State Fault Refusal :=
  issue (((Issue.long w c.stamp []).of (.bagclose w disp c)).command 3 0x09 c) .S (fun s h =>
    match bagNamed h .S (displace h.S.pc disp) with
    | .error e => .error e
    | .ok b =>
      match commandBody .S c 0x09 (fun s _ => .ok (s, .bagclose b.id, false)) s h with
      | .error e => .error e
      | .ok (s1, h1) =>
        .ok (s1, { h1 with
          bags := mapIf (fun x => x.id == b.id) (fun x => { x with closeTT := some (h.tt .S) }) h1.bags })) s

/-- L can issue no further gather of a bag whose BAGCLOSE has a text time. -/
def pastClose (h : Heat) (b : Bag) : Bool := h.L.ended || h.L.stopped || decide (b.closeTT.getD 0 < h.tt .L)

/-- The manifest positions that were not seen. -/
def missingOf (s : State) (h : Heat) (b : Bag) : List Nat := (List.range b.rows).filter fun p => !seenBit s h b p

/-- Number of tags flagged incomplete. -/
def incompleteTags (s : State) (h : Heat) (b : Bag) : Nat := (List.range b.tags).countP fun t => tagFlag s h b t 0

/-- Freeze, flag, and write the counts of a close. -/
def closeBlock (s : State) (h : Heat) (b : Bag) (missing : List Nat) : State :=
  let s1 := missing.foldl (fun s p => setTagFlag s h b (tagAt s h b p) 0) s
  let s2 := setCtl s1 h b cntMissing missing.length
  let s3 := setCtl s2 h b cntIncomplete (incompleteTags s2 h b)
  setBagState s3 h b 2 b.retired

/-- The report of 07/R217, as the detail of the object. -/
def bagReport (s : State) (h : Heat) (b : Bag) (missing : List Nat) : Nat :=
  let w (off : Nat) : Nat := asrWord s h (b.ctl + off)
  w cntArrived + w cntDuplicate * 2 ^ 32 + missing.length * 2 ^ 64 + w cntReplaced * 2 ^ 96 + w cntStray * 2 ^ 128 +
    w cntIncomplete * 2 ^ 160 + ((missing.filter (· < 128)).map (2 ^ ·)).sum * 2 ^ 192

/-- An MBAG of a bag. -/
def Cmd.sweeps (c : Cmd) (id : Nat) : Bool :=
  match c.kind with
  | .mbag _ x _ _ _ _ => x == id
  | _ => false

/-- BAGCLOSE's effect: it waits for the bag's gathers. A bag with a failed gather is abandoned without a report once
every seat of the stopping heat has stopped and its MBAGs have consumed the tiles that landed; one whose control block is damaged ends with that error (11/R342, R343). -/
def performClose (s : State) (h : Heat) (c : Cmd) (id : Nat) : Performed :=
  match h.bag? id with
  | none => some (s, c.done 0 none)
  | some b =>
    if b.phase = .opening ∨ !pastClose h b ∨ (s.cmdsOf h.id.uid).any (fun k => k.gathers id) then none
    else if b.phase = .abandoned then some (s, c.done b.settled none)
    else if b.phase = .failed then
      if (seats.any fun p => !((h.seat p).stopped || (h.seat p).ended)) || (s.cmdsOf h.id.uid).any (fun k => k.sweeps id) then none
      else some (abandonBag s h b, c.done b.settled none)
    else if blockDamaged s h b then
      some (findBlock s h b c.index, c.done 0 (some (clsUncorrectable, BitVec.ofNat 64 (asrWindow + b.ctl))))
    else
      let missing := missingOf s h b
      let s1 := closeBlock s h b missing
      some (s1.onBag h.id.uid id fun b => { b with phase := .closed },
        { c.done b.settled none with
          incomplete := !missing.isEmpty, extra := missing.length, report := bagReport s1 h b missing })

/-! ## Adding to cells (03/R69, R78, R80; 11/R338) -/

/-- A word of a cell is poisoned. -/
def cellPoisoned (s : State) (h : Heat) (kind off : Nat) : Bool :=
  (List.range (cellSize kind / 4)).any fun i => s.mem.poisoned (asrPa h (off + 4 * i))

/-- The integer that an integer value is, whatever its exponent (03/R74, R80). -/
def Num.whole : Num → Int
  | .fin neg m e => signed neg (if 0 ≤ e then m * 2 ^ e.toNat else m / 2 ^ (-e).toNat)
  | _ => 0

/-- Add exact values to consecutive cells of a kind, from an offset: f32 with RNE and tainted, la640 exactly and
untainted, i32 wrapping with the OR of the taints; an add to a poisoned cell is discarded (07/R200). -/
def addCells (s : State) (h : Heat) (kind : Nat) (t : Bool) : Nat → List Num → Conds → State × Conds
  | _, [], c => (s, c)
  | off, x :: xs, c =>
    if cellPoisoned s h kind off then addCells s h kind t (off + cellSize kind) xs c
    else if kind = 1 then
      let a := (readAcc s (accOf h off)).add x
      addCells (writeAcc s (accOf h off) a) h kind t (off + 96) xs { c with invalid := c.invalid || x.signals }
    else if kind = 0 then
      let r := f32.deliver rne ((f32.decode (asrWord s h off)).add rne x)
      addCells (putAsr s h off r.1 true) h kind t (off + 4) xs (c.or r.2)
    else
      let v := x.whole
      let t' := t || s.mem.tainted (asrPa h off)
      addCells (putAsr s h off (intBits 32 ((asrWord s h off : Int) + v)) t') h kind t (off + 4) xs c

/-- Add a row of a tag to a bag's region for a command; a damaged cell poisons the tag and the contribution is discarded,
an error being found there (07/R200). The answer is the state, the conditions of the adds, and whether the row was
discarded. -/
def addRow (s : State) (h : Heat) (b : Bag) (cmd tag : Nat) (t : Bool) (row : List Num) : State × Conds × Bool :=
  let size := b.cells * cellSize b.kind
  let off := b.acc + tag * size
  if rangeDamaged s h off size then (poisonTag (discoverRange s h off size cmd) h b tag, Conds.none, true)
  else
    let r := addCells s h b.kind t off row Conds.none
    (r.1, r.2, false)

/-- The element format of direct accumulation (11/R333). -/
def directKind (b : Bag) : Kind :=
  match b.direct with
  | 0 => .float f32 | 1 => .float f16 | 2 => .float bf16 | _ => .int true 32

/-- The elements of a row of bytes. -/
def rowElements (k : Kind) (n : Nat) (bs : List Byte) : List Num :=
  (List.range n).map fun i => k.value (leNat ((bs.drop (i * (k.width / 8))).take (k.width / 8)))

/-! ## Gather records (07/R208) -/

/-- A gather record's fields. -/
def gatherOf (v : Nat) : GatherRec :=
  { n := fieldAt v 0 24, width := 2 ^ fieldAt v 24 2, signed := v.testBit 26, scale := fieldAt v 27 4
    kind := fieldAt v 32 2, accumulate := fieldAt v 34 2, operand := fieldAt v 36 4, tagMode := fieldAt v 40 2
    tagPtr := fieldAt v 44 4, runLen := fieldAt v 48 16, runBase := fieldAt v 64 16, accFmt := fieldAt v 96 4 }

/-- The record raises the illegal fault. -/
def GatherRec.bad (r : GatherRec) (v : Nat) (scatter : Bool) : Bool :=
  v.testBit 31 || decide (fieldAt v 42 2 ≠ 0) || decide (fieldAt v 80 16 ≠ 0) || decide (fieldAt v 100 28 ≠ 0) ||
    r.kind == 3 || r.tagMode == 3 || decide (2 ≤ r.accumulate) ||
    (r.kind == 0 && decide (8 ≤ r.operand)) || (r.kind == 1 && r.operand != 0) ||
    (r.tagMode != 2 && r.tagPtr != 0) || (r.tagMode != 1 && r.runLen != 0) ||
    (if scatter then r.kind == 1 || r.tagMode != 0 ||
        (if r.accumulate = 1 then r.accFmt != 0 && r.accFmt != 5 else r.accFmt != 0)
     else r.accumulate != 0 || r.accFmt != 0 || (r.kind == 1 && r.tagMode == 0)) ||
    (r.tagMode != 0 && decide (65536 < r.n)) || (r.tagMode == 1 && r.runLen == 0) ||
    (r.tagMode == 1 && decide (65535 < r.runBase + (r.n - 1) / r.runLen))

/-- A command that is not idempotent must not be relocatable (07/R201). -/
def GatherRec.unmovable (r : GatherRec) : Bool := r.tagMode != 0 || r.kind != 2 || r.accumulate != 0

/-- A direct gather's row and formats must fit its bag (11/R338). -/
def directBad (r : GatherRec) (b : Bag) : Bool :=
  r.kind == 1 && (decide (8 * 2 ^ r.scale ≠ b.cells * (directKind b).width) ||
    (b.kind == 2 && b.direct != 3) || (b.kind == 0 && b.direct == 3))

/-- The ring of a gather or scatter: set, of the row's size, and not fixed (07/R208, 08/R257). -/
def gatherRing (h : Heat) (p : Seat) (r : GatherRec) : Run Unit :=
  if r.kind ≠ 0 then .ok ()
  else
    let g := BitVec.ofNat 3 r.operand
    match ringWait h p g with
    | some e => .error e
    | none =>
      match h.ring? g with
      | none => raise clsRing
      | some x => if x.t ≠ r.scale ∨ x.c = 0 then raise clsRing else .ok ()

/-- The record that a command word displaces to, read at issue. DESIGN CHOICE (log 65): the spec names no fault for a
record that is not 16-byte aligned; the model raises alignment. -/
def readGather (s : State) (h : Heat) (p : Seat) (disp : BitVec 14) (c : Ctl) (scatter : Bool) :
    Run (State × GatherRec) :=
  let va := displace (h.seat p).pc disp
  if va.toNat % 16 ≠ 0 then faultAt clsAlignment va
  else match loadAt s h h.core va 16 with
    | .error e => .error e
    | .ok (s1, data) =>
      let v := leNat (data.map (·.1))
      let r := gatherOf v
      if r.bad v scatter || (c.reloc && r.unmovable) then .error Stay.illegal else .ok (s1, r)

/-- The current bag of a tagged gather, if it has one. -/
def currentBag (h : Heat) (r : GatherRec) : Run (Option Bag) :=
  if r.tagMode = 0 then .ok none
  else match openBags h .L with
    | .error e => .error e
    | .ok l =>
      match latestBag l with
      | none => .error Stay.illegal
      | some b => if directBad r b then .error Stay.illegal else .ok (some b)

/-- GATR (07/R208, R209). -/
def execGatr (w : Slot) (pb pi : BitVec 4) (disp : BitVec 14) (c : Ctl) (s : State) :
    Host.Outcome State Fault Refusal :=
  commandWord w .L c 0x08 2 (.gatr w pb pi disp c) [] (fun s h =>
    match readGather s h .L disp c false with
    | .error e => .error e
    | .ok (s1, r) =>
      match currentBag h r with
      | .error e => .error e
      | .ok b =>
        match gatherRing h .L r with
        | .error e => .error e
        | .ok () =>
          let z : TVal := ⟨0, false⟩
          let dst := if r.kind = 2 then h.p .L (BitVec.ofNat 4 r.operand) else z
          let tag := if r.tagMode = 2 then h.p .L (BitVec.ofNat 4 r.tagPtr) else z
          .ok (s1, .gatr r (h.p .L pb) (h.p .L pi) dst tag (b.map (·.id)), r.n = 0)) s

/-- SCATR (07/R208, R212). -/
def execScatr (w : Slot) (pb pi : BitVec 4) (disp : BitVec 14) (c : Ctl) (s : State) :
    Host.Outcome State Fault Refusal :=
  commandWord w .S c 0x08 2 (.scatr w pb pi disp c) [] (fun s h =>
    match readGather s h .S disp c true with
    | .error e => .error e
    | .ok (s1, r) =>
      match gatherRing h .S r with
      | .error e => .error e
      | .ok () =>
        let src : TVal := if r.kind = 2 then h.p .S (BitVec.ofNat 4 r.operand) else ⟨0, false⟩
        .ok (s1, .scatr r (h.p .S pb) (h.p .S pi) src, r.n = 0)) s

/-! ## Rings that no command serves any more -/

/-- Commands that fill tiles of a ring. -/
def CmdKind.fills (k : CmdKind) (g : BitVec 3) : Bool :=
  match k with
  | .gatr r _ _ _ _ _ => r.kind == 0 && r.operand == g.toNat
  | .prod _ _ _ dk dst _ _ _ _ _ => dk == 0 && dst == g
  | _ => false

/-- The heat stops by a fault or a cancel and none of its seats issues anything further. -/
def nothingIssues (h : Heat) : Bool :=
  (h.stop.elim false fun st => st.cause == .fault || st.cause == .cancel) &&
    seats.all fun p => (h.seat p).ended || (h.seat p).stopped

/-- Nothing of a stopping heat will move the tiles of a ring any more, so that a command that waits for it ends with the
rows it has (02/R32, 11/R340, R343; log 64). -/
def ringDead (s : State) (h : Heat) (moves : CmdKind → Bool) : Bool :=
  nothingIssues h && !(s.cmdsOf h.id.uid).any fun c => moves c.kind

/-! ## Rows (07/R209 to R212) -/

/-- What an attempt at a row gives: nothing yet, a fault of the row, or the state after it. -/
inductive RowResult (α : Type) where
  | wait
  | fault (s : State) (cls : BitVec 8)
  | ok (s : State) (a : α)

/-- Go on with what was read. -/
def RowResult.bind {α β : Type} (r : RowResult α) (f : State → α → RowResult β) : RowResult β :=
  match r with
  | .wait => .wait
  | .fault s c => .fault s c
  | .ok s a => f s a

/-- A row that faults has not landed: nothing that was done for it stays (07/R199). -/
def RowResult.whole {α : Type} (s : State) (r : RowResult α) : RowResult α :=
  match r with
  | .fault _ c => .fault s c
  | r => r

/-- An access as a row's step, in the state before it. -/
def rowRun {α : Type} (s : State) : Run (State × α) → RowResult α
  | .error (.fault cls _ _) => .fault s cls
  | .error _ => .wait
  | .ok (s', a) => .ok s' a

/-- An index or tag element: always a fault when it cannot be read (07/R209). -/
def readElement (s : State) (h : Heat) (c : Cmd) (va : Dword) (n : Nat) : RowResult (Nat × Bool) :=
  if va.toNat % n ≠ 0 then .fault s clsAlignment
  else (rowRun s ((engineRead s h c.index va n).map fun r => (r.1, r.2))).bind fun s1 r =>
    if r.2 then
      .fault s1 (if s1.mem.errors = s.mem.errors then clsPoison else clsUncorrectable)
    else .ok s1 (leNat (r.1.map (·.1)), r.1.any (·.2))

/-- The identity of a row (07/R209). -/
def rowIdentity (r : GatherRec) (pos tag : Nat) : Nat × Nat :=
  if r.tagMode = 1 then (r.runBase + pos / r.runLen, pos % r.runLen) else (tag, pos)

/-- Address of a row in the table, the taint of its index, and its identity with the taint of its tag. -/
def rowPlan (s : State) (h : Heat) (c : Cmd) (r : GatherRec) (pb pi tag : TVal) (pos : Nat) (aligned : Bool) :
    RowResult (Dword × Bool × Nat × Nat) :=
  (readElement s h c (pi.v + BitVec.ofNat 64 (pos * r.width)) r.width).bind fun s1 x =>
    let idx := extend r.signed (8 * r.width) (BitVec.ofNat 64 x.1)
    let at_ := pb.v + idx <<< r.scale
    let t := x.2 || pb.t || pi.t
    let go (s : State) (tagV : Nat) (t : Bool) : RowResult (Dword × Bool × Nat × Nat) :=
      if aligned && at_.toNat % min (2 ^ r.scale) 4 != 0 then .fault s clsAlignment
      else .ok s (at_, t, rowIdentity r pos tagV)
    if r.tagMode = 2 then
      (readElement s1 h c (tag.v + BitVec.ofNat 64 (2 * pos)) 2).bind fun s2 y => go s2 y.1 (t || tag.t || y.2)
    else go s1 0 t

/-- Move n bytes between addresses, by destination units, with a taint added; the answer is whether poison was copied
(07/R200). -/
def moveRow (s : State) (h : Heat) (c : Cmd) (src dst : Dword) (n : Nat) (t : Bool) : RowResult Bool :=
  RowResult.whole s ((pieces dst.toNat n).foldl (fun acc p => acc.bind fun s1 bad =>
    (rowRun s1 ((engineSpan s1 h c.index (src + BitVec.ofNat 64 p.1) p.2).map fun r => (r.1, r.2))).bind fun s2 r =>
      (rowRun s2 ((engineWrite s2 h (dst + BitVec.ofNat 64 p.1) (r.1.map fun d => (d.1, d.2 || t)) r.2).map fun x =>
        (x, ()))).bind fun s3 _ => .ok s3 (bad || r.2)) (.ok s false))

/-- Write bytes at an address, by units. -/
def putRow (s : State) (h : Heat) (dst : Dword) (data : List (Byte × Bool)) : RowResult Unit :=
  RowResult.whole s ((pieces dst.toNat data.length).foldl (fun acc p => acc.bind fun s1 _ =>
    rowRun s1 ((engineWrite s1 h (dst + BitVec.ofNat 64 p.1) ((data.drop p.1).take p.2) false).map fun x => (x, ())))
    (.ok s ()))

/-- Address of the tile at a ring's tail, or at its head. -/
def Ring.tailVa (r : Ring) : Dword :=
  r.va + BitVec.ofNat 64 ((r.head + r.tiles.length) % r.count * r.tileSize)
def Ring.headVa (r : Ring) : Dword := r.va + BitVec.ofNat 64 (r.head % r.count * r.tileSize)

/-- A tile is filled at the tail. -/
def pushTile (s : State) (uid : Nat) (g : BitVec 3) (t : Tile) : State :=
  s.onHeat uid fun h => h.setRing g ((h.ring? g).map fun r => { r with tiles := r.tiles ++ [t] })

/-- The head tile is popped. -/
def popTile (s : State) (uid : Nat) (g : BitVec 3) : State :=
  s.onHeat uid fun h => h.setRing g ((h.ring? g).map fun r => { r with head := (r.head + 1) % r.count, tiles := r.tiles.tail })

/-- Where a gathered row goes: a free tile or a place in scratchpad; none while no tile is free. DESIGN CHOICE (log 85): a
pointer that leads outside scratchpad is followed wherever it resolves. -/
def rowTarget (h : Heat) (r : GatherRec) (dst : TVal) (pos : Nat) : Option Dword :=
  if r.kind = 0 then
    (h.ring? (BitVec.ofNat 3 r.operand)).bind fun x => if x.tiles.length < x.count then some x.tailVa else none
  else some (dst.v + BitVec.ofNat 64 (pos * 2 ^ r.scale))

/-- The row has been written: a ring takes the tile. -/
def landed (s : State) (h : Heat) (r : GatherRec) (t : Tile) : State :=
  if r.kind = 0 then pushTile s h.id.uid (BitVec.ofNat 3 r.operand) t else s

/-- The row counts in its command. -/
def Cmd.settle (c : Cmd) (pos : Nat) : Cmd := { c with settled := numIns pos c.settled }

/-- A row that finds no free tile waits; it is given up when nothing will free one (log 64). -/
def noTile (s : State) (h : Heat) (c : Cmd) (r : GatherRec) (pos : Nat) : RowResult Cmd :=
  if ringDead s h (·.takes (BitVec.ofNat 3 r.operand)) then .ok s { c.settle pos with unlanded := c.unlanded + 1 } else .wait

/-- An untagged row (07/R209, R199, R200). -/
def landPlain (s : State) (h : Heat) (c : Cmd) (r : GatherRec) (pos : Nat) (src : Dword) (dst : TVal) (t : Bool) :
    RowResult Cmd :=
  match rowTarget h r dst pos with
  | none => noTile s h c r pos
  | some va => (moveRow s h c src va (2 ^ r.scale) t).bind fun s1 bad =>
    .ok (landed s1 h r { bag := none, tag := 0, member := 0, replaced := false })
      { c.settle pos with prog := c.prog + 1, poisonCopied := c.poisonCopied || bad }

/-- The source of a tagged row: its bytes, or none for a source fault (07/R211; 18/R398). -/
def readSource (s : State) (h : Heat) (c : Cmd) (src : Dword) (n : Nat) : RowResult (Option (List (Byte × Bool))) :=
  match engineSpan s h c.index src n with
  | .error (.fault cls _ _) =>
    if cls = clsTranslation ∨ cls = clsProtection then .ok s none else .fault s cls
  | .error _ => .wait
  | .ok (s1, d, bad) => .ok s1 (if bad then none else some d)

/-- A row of a bag settles. -/
def settleRow (s : State) (h : Heat) (b : Bag) : State :=
  s.onBag h.id.uid b.id fun b => { b with settled := b.settled + 1 }

/-- A tagged row arrives: its seen bit, its count, and its place by kind. DESIGN CHOICE (log 66): no status takes the
conditions of a direct add. -/
def landSeen (s : State) (h : Heat) (c : Cmd) (r : GatherRec) (b : Bag) (pos m : Nat) (id : Nat × Nat) (dst : TVal)
    (data : List (Byte × Bool)) (replaced : Bool) : RowResult Cmd :=
  let c' := { c.settle pos with prog := c.prog + 1, zeroed := c.zeroed + boolNat replaced }
  let count (s : State) : State :=
    let s1 := bump (setSeen (settleRow s h b) h b m) h b cntArrived
    if replaced then bump (setTagFlag s1 h b id.1 1) h b cntReplaced else s1
  if r.kind = 1 then
    let a := addRow (count s) h b c.index id.1 (data.any (·.2)) (rowElements (directKind b) b.cells (data.map (·.1)))
    .ok a.1 c'
  else match rowTarget h r dst pos with
    | none => noTile s h c r pos
    | some va => (putRow s h va data).bind fun s1 _ =>
      .ok (count (landed s1 h r { bag := some b.id, tag := id.1, member := id.2, replaced := replaced })) c'

/-- A tagged row under its bag (07/R211; 15/R389, R390; 18/R398). -/
def landTagged (s : State) (h : Heat) (c : Cmd) (r : GatherRec) (b : Bag) (pos : Nat) (id : Nat × Nat) (src : Dword)
    (dst : TVal) (t : Bool) : RowResult Cmd :=
  let gone (s : State) (c : Cmd) : RowResult Cmd :=
    .ok (settleRow s h b) { c.settle pos with unlanded := c.unlanded + 1 }
  match manifestPos s h b id.1 id.2 with
  | none => gone (bump s h b cntStray) c
  | some m =>
    if seenBit s h b m then
      (if b.dupTrap then .fault s clsBagDuplicate
       else gone (bump (setTagFlag s h b id.1 3) h b cntDuplicate) c)
    else (readSource s h c src (2 ^ r.scale)).bind fun s1 d =>
      match d with
      | some d => landSeen s1 h c r b pos m id dst (d.map fun x => (x.1, x.2 || t)) false
      | none =>
        let c1 := { c with absorbed := some (min pos (c.absorbed.getD pos)) }
        if b.poison = 0 then landSeen s1 h c1 r b pos m id dst (List.replicate (2 ^ r.scale) (0, t)) true
        else if b.poison = 1 then gone s1 c1
        else .fault s1 clsBagPoison

/-- A gathered row; the rows of a bag wait for its BAGOPEN, and a bag that was not opened takes none. -/
def gatherRow (s : State) (h : Heat) (c : Cmd) (r : GatherRec) (pb pi dst tag : TVal) (bag : Option Nat) (pos : Nat) :
    RowResult Cmd :=
  (rowPlan s h c r pb pi tag pos true).bind fun s1 p =>
    match bag with
    | none => landPlain s1 h c r pos p.1 dst (p.2.1 || dst.t)
    | some id =>
      match h.bag? id with
      | none => .ok s1 { c.settle pos with unlanded := c.unlanded + 1 }
      | some b =>
        if b.phase = .opening then .wait
        else if blockDamaged s1 h b then .fault (findBlock s1 h b c.index) clsUncorrectable
        else landTagged s1 h c r b pos p.2.2 p.1 dst (p.2.1 || dst.t)

/-- An element of a scatter adds to its cell (07/R200, R212). DESIGN CHOICE (log 66): no status takes the conditions of its
f32 add. -/
def scatterAdd (s : State) (h : Heat) (fmt : Nat) (va : Dword) (f : Frame) (x : List (Byte × Bool)) (bad : Bool) : State :=
  if bad then { s with mem := { s.mem with poisonAsr := numIns (f.pa / 4) s.mem.poisonAsr } }
  else if s.mem.poisoned f.pa then s
  else
    let old := leNat ((List.range 4).map fun i => cellGet s.mem.cells (f.pa + i))
    let v := leNat (x.map (·.1))
    let r := if fmt = 0 then (f32Add rne old v).1 else (old + v) % 2 ^ 32
    let t := fmt = 0 || x.any (·.2) || s.mem.tainted f.pa
    let data := withTaint t (leBytes 4 r)
    let s1 := rideWrite (writePhys s h.id.uid h.die f.pa 0 data) h h.core f.pa s.nextId
    s1.onHeat h.id.uid fun k => countStored k va.toNat data

/-- A row of a scatter adds into ASR, element by element. -/
def addScattered (s : State) (h : Heat) (c : Cmd) (r : GatherRec) (src dst : Dword) (t : Bool) : RowResult Bool :=
  RowResult.whole s ((List.range (2 ^ r.scale / 4)).foldl (fun acc k => acc.bind fun s1 bad =>
    let va := dst + BitVec.ofNat 64 (4 * k)
    (rowRun s1 ((engineSpan s1 h c.index (src + BitVec.ofNat 64 (4 * k)) 4).map fun q => (q.1, q.2))).bind fun s2 q =>
      if va.toNat % 4 ≠ 0 then .fault s2 clsAlignment
      else (rowRun s2 (match resolve s2 h h.core va .atomic with
          | .error e => faultAt e va
          | .ok x => .ok x)).bind fun s3 f =>
        let d := q.1.map fun x => (x.1, x.2 || t)
        if f.kind ≠ .asr ∧ f.kind ≠ .peer then .fault s3 clsAtomicTarget
        else if f.clean && (r.accFmt == 0 || d.any (·.2)) then .fault s3 clsTaintedStore
        else (rowRun s3 ((watch s3 h.id.job va 4 true true).map fun x => (x, ()))).bind fun s4 _ =>
          let s5 := discover s4 (f.pa / 128) h.id.job h.id.launch h.id.index c.index 8
          .ok (scatterAdd s5 h r.accFmt va f d q.2) (bad || q.2)) (.ok s false))

/-- A scattered row; rows go in ascending position, except that adds from scratchpad go in any order. -/
def scatterRow (s : State) (h : Heat) (c : Cmd) (r : GatherRec) (pb pi src : TVal) (pos : Nat) : RowResult Cmd :=
  if !(r.accumulate = 1 ∧ r.kind = 2) ∧ c.settled.length ≠ pos then .wait
  else
    let g := BitVec.ofNat 3 r.operand
    let from_ : Option Dword :=
      if r.kind = 0 then (h.ring? g).bind fun x => if x.tiles.isEmpty then none else some x.headVa
      else some (src.v + BitVec.ofNat 64 (pos * 2 ^ r.scale))
    match from_ with
    | none =>
      if ringDead s h (·.fills g) then .ok s { c.settle pos with unlanded := c.unlanded + 1 } else .wait
    | some a => (rowPlan s h c r pb pi ⟨0, false⟩ pos false).bind fun s1 p =>
      let t := p.2.1 || src.t
      ((if r.accumulate = 1 then addScattered s1 h c r a p.1 t else moveRow s1 h c a p.1 (2 ^ r.scale) t)).bind
        fun s2 bad => .ok (if r.kind = 0 then popTile s2 h.id.uid g else s2)
          { c.settle pos with prog := c.prog + 1, poisonCopied := c.poisonCopied || bad }

/-- Positions that a gather or scatter still owes. -/
def Cmd.owes (c : Cmd) (n pos : Nat) : Bool :=
  decide (pos < min n (c.badRow.getD n)) && !c.settled.contains pos

/-- GATHER_ROW_LAND (07/R209 to R212): a row of a running gather or scatter lands, or faults the command; a row above
a faulting one does not land. -/
def execGatherRowLand (cmd pos : Nat) (s : State) : Host.Outcome State Fault Refusal :=
  match s.cmds.find? fun c => c.id == cmd && c.works && !c.spent && !engineHeld s c && !unmapHeld s c with
  | none => .next s
  | some c =>
    match s.heat? c.heat with
    | none => .next s
    | some h =>
      let put (s : State) (c : Cmd) : State := { s with cmds := mapIf (fun x => x.id == cmd) (fun _ => c) s.cmds }
      let finish (r : RowResult Cmd) : State := match r with
        | .wait => s
        | .ok s1 c1 => put (nameWord s.nextId c.word s1.performed) c1
        | .fault s1 cls => put s1.performed { c with badRow := some pos, fault := some (cls, BitVec.ofNat 64 pos) }
      match c.kind with
      | .gatr r pb pi dst tag bag => if c.owes r.n pos then .next (finish (gatherRow (s.performs c) h c r pb pi dst tag bag pos)) else .next s
      | .scatr r pb pi src => if c.owes r.n pos then .next (finish (scatterRow (s.performs c) h c r pb pi src pos)) else .next s
      | _ => .next s

/-- A gather or scatter is over when no row is owed; its status detail is that of 15/R389. -/
def performRows (s : State) (c : Cmd) (n : Nat) (tagged : Bool) : Performed :=
  if (List.range n).any (c.owes n) then none
  else some (s, { c with
    spent := true
    extra := if tagged then c.unlanded % 2 ^ 16 + c.zeroed % 2 ^ 16 * 2 ^ 16 else 0 })

end Sys2Proof.Machine
end

