-- ==== Sys2Proof/Machine/Coll.lean ====
section
/-!
DEFINITION. Collectives: the record, the members' contributions, the result, and the aborts (07/R225, R226; 20/R452).
-/

namespace Sys2Proof.Machine

/-! ## The record (07/R225) -/

/-- What a collective record says. -/
structure CollRec where
  group : Nat
  sig : CollSig
  src : Nat
  dst : Nat
  bad : Bool

/-- A record of 32 bytes. DESIGN CHOICE (log 79): a nonzero zero field and a count out of range are reserved codes, which raise
the illegal fault. -/
def collOf (bs : List Byte) : CollRec :=
  let ctl := part bs 0 3
  let kind := fieldAt ctl 0 4
  let op := fieldAt ctl 4 4
  let fmt := fieldAt ctl 8 4
  let exact := ctl.testBit 12
  let count := part bs 4 7
  let root := part bs 24 25
  { group := fieldAt ctl 16 8
    sig := { kind := BitVec.ofNat 4 kind, op := BitVec.ofNat 4 op, fmt := BitVec.ofNat 4 fmt, exact := exact
             count := count, root := root }
    src := part bs 8 15, dst := part bs 16 23
    bad := decide (3 < kind) || decide (2 < op) || (decide (2 ≤ kind) && op != 0) ||
      (fmt != 0 && fmt != 5 && fmt != 9) || (exact && (fmt != 0 || op != 0 || decide (2 ≤ kind))) ||
      decide (fieldAt ctl 13 3 ≠ 0) || decide (fieldAt ctl 24 8 ≠ 0) || decide (count = 0 ∨ 2 ^ 26 < count) ||
      decide (1024 ≤ root) || (kind != 3 && root != 0) || !zeros bs 26 31 }

/-- Elements that a destination holds: a segment for a reduce-scatter, every member's for an all-gather. -/
def collElements (sig : CollSig) (n : Nat) : Nat :=
  match sig.kind.toNat with
  | 1 => sig.count / n
  | 2 => sig.count * n
  | _ => sig.count

/-- Bytes of a destination cell. -/
def collCell (sig : CollSig) : Nat := if sig.exact then 96 else 4

/-- A fast f32 sum. -/
def collFast (sig : CollSig) : Bool := sig.fmt == 0 && sig.op == 0 && !sig.exact && decide (sig.kind.toNat < 2)

/-- The destination lies in ASR; a fast one in no CLEAN page (10/R326). -/
def collRegion (s : State) (h : Heat) (sig : CollSig) (dst bytes : Nat) : Run Unit :=
  (List.range ((dst % 4096 + bytes + 4095) / 4096)).foldl (fun r k => match r with
    | .error e => .error e
    | .ok () =>
      let va := BitVec.ofNat 64 (if k = 0 then dst else dst - dst % 4096 + 4096 * k)
      match resolve s h h.core va .write with
      | .error e => faultAt e va
      | .ok (_, f) =>
        if f.kind ≠ .asr ∧ f.kind ≠ .peer then faultAt clsAtomicTarget va
        else if f.clean && collFast sig then faultAt clsTaintedStore va
        else .ok ()) (.ok ())

/-- COLL at issue. DESIGN CHOICE (log 79): a record, a source or a destination that is not aligned raises the alignment
fault, a source being aligned to its elements of 4 bytes; a group of which this device is no member raises the illegal
fault, as an unconfigured one does. -/
def collPrep (p : BitVec 4) (s : State) (h : Heat) : Run (State × CmdKind × Bool) :=
  let q := h.p .S p
  if q.v.toNat % 32 ≠ 0 then faultAt clsAlignment q.v
  else match loadAt s h h.core q.v 32 with
    | .error e => .error e
    | .ok (s1, data) =>
      let r := collOf (data.map (·.1))
      match s.job? h.id.job with
      | none => .error Stay.illegal
      | some j =>
        match groupMembers s1 j h.die r.group with
        | none => .error Stay.illegal
        | some ms =>
          let n := ms.length
          if r.bad || !ms.contains s.dev.devNum || (r.sig.kind == 1 && r.sig.count % n != 0) ||
              (r.sig.kind == 3 && decide (n ≤ r.sig.root)) then .error Stay.illegal
          else if j.aborted.contains r.group then raise clsCollAbort
          else if r.src % 4 ≠ 0 then faultAt clsAlignment (BitVec.ofNat 64 r.src)
          else if r.dst % collCell r.sig ≠ 0 then faultAt clsAlignment (BitVec.ofNat 64 r.dst)
          else match collRegion s1 h r.sig r.dst (collElements r.sig n * collCell r.sig) with
            | .error e => .error e
            | .ok () =>
              let k := (assoc r.group j.collSeq).getD 0
              .ok (s1, .coll r.group k (ms.findIdx (· == s.dev.devNum)) n r.sig r.src r.dst (q.t || data.any (·.2)), false)

/-- The next COLL of a group on this device has the next number. -/
def nextColl (s : State) (job group : Nat) : State :=
  { s with
    jobs := mapIf (fun j => j.id == job)
      (fun j => { j with collSeq := assocSet group ((assoc group j.collSeq).getD 0 + 1) j.collSeq }) s.jobs }

/-- COLL (07/R225). -/
def execColl (w : Slot) (p : BitVec 4) (c : Ctl) (s : State) : Host.Outcome State Fault Refusal :=
  issue (((Issue.long w c.stamp []).of (.coll w p c)).command 5 0x0B c) .S (fun s h =>
    let prep (s : State) (h : Heat) : Run (State × CmdKind × Bool) :=
      if (h.ahead .S (· == .stash)).isSome then .error (.wait .empty [.L] 3) else
      match readK h .S w.pred, collPrep p s h with
      | .error e, _ => .error e
      | _, .error e => .error e
      | .ok k, .ok (s1, kind, now) => .ok (s1, kind.taint k.t, now)
    match commandBody .S c 0x0B prep s h with
    | .error e => .error e
    | .ok (s1, h1) =>
      match s1.cmds.getLast?.map fun (k : Cmd) => k.kind with
      | some (.coll g _ _ _ _ _ _ _) => .ok (nextColl s1 h.id.job g, h1)
      | _ => .ok (s1, h1)) s

/-! ## Contributions and results (07/R226) -/

/-- The identity of an operation in a format (03/R76). -/
def collIdentity (sig : CollSig) : Nat :=
  if sig.fmt = 0 then (match sig.op.toNat with | 0 => 0x80000000 | 1 => 0x7F800000 | _ => 0xFF800000)
  else if sig.fmt = 5 then (match sig.op.toNat with | 0 => 0 | 1 => 0x7FFFFFFF | _ => 0x80000000)
  else (match sig.op.toNat with | 1 => 2 ^ 32 - 1 | _ => 0)

/-- Two elements combined. DESIGN CHOICE (log 66): no status takes the conditions of an f32 add. -/
def collOp (sig : CollSig) (x y : Nat) : Nat :=
  if sig.fmt = 0 then (match sig.op.toNat with
    | 0 => (f32Add rne x y).1
    | 1 => (f32.minMax false x y).1
    | _ => (f32.minMax true x y).1)
  else
    let s := sig.fmt == 5
    let a := intOf s 32 x
    let b := intOf s 32 y
    intBits 32 (match sig.op.toNat with | 0 => a + b | 1 => min a b | _ => max a b)

/-- Element i of a member's contribution to this destination. -/
def partElement (sig : CollSig) (n rank : Nat) (p : CollPart) (i : Nat) : Word × Bool :=
  p.data.getD (if sig.kind = 1 then sig.count / n * rank + i else i) (0, false)

/-- Element i of the destination after the contributions, in order of arrival, have been added to what its cell holds, or
put in its place by an all-gather or a broadcast: its bits and its taint. -/
def collElement (sig : CollSig) (n rank : Nat) (ps : List CollPart) (t : Bool) (i : Nat) (cell : Nat × Bool) : Nat × Bool :=
  let of (r k : Nat) : Nat × Bool :=
    match ps.find? fun p => p.rank == r with
    | some p => let d := p.data.getD k (0, false); (d.1.toNat, d.2 || t)
    | none => (0, t)
  match sig.kind.toNat with
  | 2 => of (i / sig.count) (i % sig.count)
  | 3 => of sig.root i
  | _ =>
    let ds := ps.map fun p => partElement sig n rank p i
    (ds.foldl (fun x d => collOp sig x d.1.toNat) cell.1, t || cell.2 || collFast sig || ds.any (·.2))

/-- An exact element: every contribution added to its la640 cell. -/
def collExact (sig : CollSig) (n rank : Nat) (ps : List CollPart) (i : Nat) (cell : Acc) : Acc :=
  ps.foldl (fun (a : Acc) p => a.add (f32.decode (partElement sig n rank p i).1.toNat)) cell

/-- An element of a destination changes at its home; a poisoned cell keeps its poison, unless what is written does not
depend on it (07/R200). -/
def updateElement (h : Heat) (sig : CollSig) (dst : Nat) (fresh : Bool) (word : Nat → Nat × Bool → Nat × Bool)
    (acc : Nat → Acc → Acc) (s : State) (i : Nat) : Run State :=
  let va := BitVec.ofNat 64 (dst + collCell sig * i)
  if sig.exact then
    match accParts s h va .write with
    | .error e => .error e
    | .ok (s1, ps) =>
      match watch s1 h.id.job va 96 false true with
      | .error e => .error e
      | .ok s2 =>
        let bad := !fresh && ps.any fun p => (List.range 32).any fun k => s2.mem.poisoned (p + k)
        let s3 := if bad then s2 else writeAcc s2 ps (acc i (readAcc s2 ps))
        .ok (ps.foldl (fun s p => rideWrite s h h.core p s.nextId) s3)
  else
    match storeFrame s h h.core va false with
    | .error e => .error e
    | .ok (s1, f) =>
      let old := leNat ((List.range 4).map fun k => cellGet s1.mem.cells (f.pa + k))
      let x := word i (old, s1.mem.tainted f.pa)
      if !fresh && s1.mem.poisoned f.pa then .ok s1
      else engineWrite s1 h va (withTaint x.2 (leBytes 4 x.1)) false

/-- Change destination elements one after another from the k-th on: the state and how many are done, with the fault of the
first that cannot be written. A debug halt lets the element in hand end and begins no other (20/R438). -/
def putElements (put : State → Nat → Run State) (c : Cmd) : Nat → Nat → State → State × Nat × Option (BitVec 8 × Dword)
  | 0, k, s => (s, k, none)
  | n + 1, k, s =>
    if engineHeld s c then (s, k, none)
    else match put s k with
      | .error (.fault cls a _) => (s, k, some (cls, a))
      | .error _ => (s, k, none)
      | .ok s1 => putElements put c n (k + 1) s1

/-- The contributions of a COLL that have come. -/
def collParts (s : State) (job group seq : Nat) : List CollPart :=
  s.net.parts.filter fun p => p.job == job && p.group == group && p.seq == seq

/-- A COLL's contributions are gone. -/
def dropParts (s : State) (job group seq : Nat) : State :=
  { s with net := { s.net with
      parts := s.net.parts.filter fun p => !(p.job == job && p.group == group && p.seq == seq) } }

/-- The lines of a destination region are left poisoned. -/
def poisonRegion (s : State) (h : Heat) (dst bytes : Nat) : State :=
  (List.range (bytes / 4)).foldl (fun s k =>
    match resolve s h h.core (BitVec.ofNat 64 (dst + 4 * k)) .write with
    | .ok (_, f) => poisonAt s f 4
    | .error _ => s) s

/-- A group is marked aborted for a job. -/
def markAborted (s : State) (job group : Nat) : State :=
  { s with jobs := mapIf (fun j => j.id == job) (fun j => { j with aborted := numIns group j.aborted }) s.jobs }

/-- A COLL ends with the collective-abort status. -/
def abortColl (s : State) (h : Heat) (c : Cmd) (group seq n : Nat) (sig : CollSig) (dst : Nat) : State × Cmd :=
  let s1 := poisonRegion s h dst (collElements sig n * collCell sig)
  (markAborted (dropParts s1 h.id.job group seq) h.id.job group, { c.done 0 none with collAbort := true })

/-- Matched members agree in kind, operation, format, exact and count (07/R226). -/
def sigsAgree (a b : CollSig) : Bool :=
  a.kind == b.kind && a.op == b.op && a.fmt == b.fmt && a.exact == b.exact && a.count == b.count

/-- The words that a member contributes: its source; of a broadcast only the root reads one (07/R226). -/
def contribution (s : State) (h : Heat) (c : Cmd) (rank : Nat) (sig : CollSig) (src : Nat) :
    Run (State × List (Word × Bool) × Bool) :=
  if sig.kind = 3 ∧ rank ≠ sig.root then .ok (s, [], false)
  else (engineSpan s h c.index (BitVec.ofNat 64 src) (4 * sig.count)).map fun x =>
    (x.1, (List.range sig.count).map fun i =>
      let w := (x.2.1.drop (4 * i)).take 4
      (BitVec.ofNat 32 (leNat (w.map (·.1))), w.any (·.2)), x.2.2)

/-- This member writes the identities, reads its source and is ready; what it contributes leaves for the other members'
devices (10/R301). -/
def contribute (s : State) (h : Heat) (c : Cmd) (group seq rank n : Nat) (sig : CollSig) (src dst : Nat) : Performed :=
  let m := collElements sig n
  let put := updateElement h sig dst true (fun _ _ => (collIdentity sig, false)) (fun _ _ => { value := 0, flags := 0 })
  match putElements put c (m - c.rows) c.rows s with
  | (s1, _, some f) => some (s1, c.done 0 (some f))
  | (s1, k, none) =>
    if k < m then some (s1, { c with rows := k })
    else match contribution s1 h c rank sig src with
      | .error (.fault cls a _) => some (s1, c.done 0 (some (cls, a)))
      | .error _ => some (s1, { c with rows := k })
      | .ok (s2, words, bad) =>
        if bad then some (s2, c.done 0 (some (clsPoison, BitVec.ofNat 64 src)))
        else
          let part : CollPart :=
            { job := h.id.job, group := group, seq := seq, rank := rank, sig := sig, data := words }
          let s3 := if 1 < n then words.foldl (fun s w => sendOut s ⟨w.1.setWidth 64, w.2⟩) s2 else s2
          some ({ s3 with net := { s3.net with parts := s3.net.parts ++ [part] } }, { c with rows := k })

/-- COLL's effect: this member contributes, then, once every member has, the contributions are added at the destination's
home; members that disagree abort it. -/
def performColl (s : State) (h : Heat) (c : Cmd) (group seq rank n : Nat) (sig : CollSig) (src dst : Nat) (t : Bool) :
    Performed :=
  let ps := collParts s h.id.job group seq
  if ps.any (fun p => p.rank == rank) then
    if ps.any (fun p => !sigsAgree p.sig sig) then some (abortColl s h c group seq n sig dst)
    else if (List.range n).all fun r => ps.any fun p => p.rank == r then
      let m := collElements sig n
      let k0 := c.prog / collCell sig
      let put := updateElement h sig dst (decide (2 ≤ sig.kind.toNat)) (collElement sig n rank ps t) (collExact sig n rank ps)
      match putElements put c (m - k0) k0 s with
      | (s1, _, some f) => some (s1, c.done 0 (some f))
      | (s1, k, none) =>
        if k < m then some (s1, { c with prog := k * collCell sig })
        else some (dropParts s1 h.id.job group seq, c.done (m * collCell sig) none)
    else none
  else contribute s h c group seq rank n sig src dst

/-! ## Aborts (20/R452) -/

/-- Every COLL of a job on a group, from a number on, that is not done ends with the collective-abort status. -/
def abortFrom (s : State) (job group seq : Nat) : State :=
  s.cmds.foldl (fun s c => match c.kind, s.heat? c.heat with
    | .coll g k _ n sig _ dst _, some h =>
      if h.id.job = job ∧ g = group ∧ seq ≤ k then
        let r := abortColl s h c g k n sig dst
        finishCmd r.1 r.2
      else s
    | _, _ => s) (markAborted s job group)

/-- The groups on which a job has a COLL not yet done, with the lowest number of one. -/
def openColls (s : State) (job : Nat) : List (Nat × Nat) :=
  s.cmds.foldl (fun acc c => match c.kind, s.heat? c.heat with
    | .coll g k _ _ _ _ _ _, some h => if h.id.job = job then assocSet g (min k ((assoc g acc).getD k)) acc else acc
    | _, _ => acc) []

/-- A killed job's COLLs end, and its partners are told. -/
def settleKilled (s : State) : State :=
  (s.jobs.filter (·.killed)).foldl (fun s j => (openColls s j.id).foldl (fun s e =>
    abortFrom { s with net := { s.net with abortsSent := s.net.abortsSent ++ [(j.id, e.1, e.2)] } } j.id e.1 e.2) s) s

end Sys2Proof.Machine
end

