-- ==== Sys2Proof/Machine/Functions.lean ====
section
/-!
DEFINITION. The function words' values: reciprocal, reciprocal square root, 2^a and log2 a, each as an exact value or as
one with a sticky last bit, so that one rounding is correct (08/R235, R236). The two transcendental functions are summed
to 768 bits behind the point; the exact result is irrational and lies farther than that from every rounding boundary of
the three formats (log 16).
-/

namespace Sys2Proof.Machine

/-- A magnitude known to lie strictly between n × 2^e and (n + 1) × 2^e. -/
def sticky (neg : Bool) (n : Nat) (e : Int) : Num := .fin neg (2 * n + 1) (e - 1)

/-- n / d × 2^e, exactly or with a sticky bit. -/
def quotient (neg : Bool) (n d : Nat) (e : Int) : Num :=
  let k := bitLen d + 100
  let q := n * 2 ^ k / d
  if n * 2 ^ k % d = 0 then .fin neg q (e - k) else sticky neg q (e - k)

/-- Integer square root, from bit k downward. -/
def isqrtFrom (n : Nat) : Nat → Nat → Nat
  | 0, r => if (r + 1) * (r + 1) ≤ n then r + 1 else r
  | k + 1, r => isqrtFrom n k (if (r + 2 ^ (k + 1)) * (r + 2 ^ (k + 1)) ≤ n then r + 2 ^ (k + 1) else r)

/-- 1/√(m × 2^e) of a positive value. -/
def recipRoot (m : Nat) (e : Int) : Num :=
  let odd := e % 2 ≠ 0
  let m' := if odd then 2 * m else m
  let e' := if odd then e - 1 else e
  let k := bitLen m' + 100
  let q := 2 ^ (2 * k) / m'
  let r := isqrtFrom q (k + 1) 0
  if 2 ^ (2 * k) % m' = 0 ∧ r * r = q then .fin false r (-(k : Int) - e' / 2)
  else sticky false r (-(k : Int) - e' / 2)

/-- Fraction bits of the sums. -/
def sumBits : Nat := 768

/-- ln 2 in units of 2^−768: the sum of 1/(k × 2^k). -/
def lnTwo : Nat := ((List.range 800).map fun k => 2 ^ sumBits / ((k + 1) * 2 ^ (k + 1))).sum

/-- The sum of x^k/k! from a term on, for x in units of 2^−768. -/
def expTerms (x : Nat) : Nat → Nat → Nat → Nat
  | 0, _, _ => 0
  | n + 1, k, t => t + expTerms x n (k + 1) (t * x / 2 ^ sumBits / (k + 1))

/-- 2^f for a fraction f in units of 2^−768. -/
def expTwo (f : Nat) : Nat := expTerms (f * lnTwo / 2 ^ sumBits) 220 0 (2 ^ sumBits)

/-- The sum of z^(2k+1)/(2k+1) from a term on. -/
def atanhTerms (z2 : Nat) : Nat → Nat → Nat → Nat
  | 0, _, _ => 0
  | n + 1, k, t => t / (2 * k + 1) + atanhTerms z2 n (k + 1) (t * z2 / 2 ^ sumBits)

/-- log2 of a significand x in [1, 2), in units of 2^−768. -/
def logTwo (x : Nat) : Nat :=
  let one := 2 ^ sumBits
  let z := (x - one) * one / (x + one)
  2 * atanhTerms (z * z / one) 280 0 z * one / lnTwo

/-- 2^a of a finite value: an integer a gives the exact power; a far beyond every format stands for itself. -/
def powTwo (neg : Bool) (m : Nat) (e : Int) : Num :=
  let scaled : Int := signed neg m
  let whole : Int := if 0 ≤ e then scaled * 2 ^ e.toNat else scaled / 2 ^ (-e).toNat
  if 0 ≤ e ∧ 2000 < m * 2 ^ (min e 64).toNat then .fin false 3 (if neg then -2000 else 2000)
  else if 1000 < whole then .fin false 3 1000
  else if whole < -1000 then .fin false 3 (-1002)
  else
    let frac : Nat := if 0 ≤ e then 0 else (scaled % 2 ^ (-e).toNat).toNat
    if frac = 0 then .fin false 1 whole
    else sticky false (expTwo (frac * 2 ^ sumBits / 2 ^ (-e).toNat)) (whole - sumBits)

/-- log2 of a positive value: a power of two gives its exponent. -/
def logOf (m : Nat) (e : Int) : Num :=
  let k := Nat.log2 m
  let top : Int := e + k
  if m = 2 ^ k then ofInt top
  else
    let v : Int := top * 2 ^ sumBits + logTwo (m * 2 ^ sumBits / 2 ^ k)
    if v < 0 then sticky true ((-v).toNat - 1) (-(sumBits : Int)) else sticky false v.toNat (-(sumBits : Int))

/-- The four function words. -/
inductive Fun where
  | rcp | rsq | exp2 | log2
deriving DecidableEq, Repr

/-- A function's value and the conditions that its operand alone raises (08/R236). -/
def Fun.value (f : Fun) (x : Num) : Num × Conds :=
  let z : Conds := { Conds.none with divZero := true }
  match f, x with
  | _, .nan s => (.nan s, Conds.none)
  | .rcp, .inf n => (.fin n 0 0, Conds.none)
  | .rcp, .fin n m e => if m = 0 then (.inf n, z) else (quotient n 1 m (-e), Conds.none)
  | .rsq, .inf n => if n then (.nan true, Conds.none) else (.fin false 0 0, Conds.none)
  | .rsq, .fin n m e =>
    if m = 0 then (.inf n, z) else if n then (.nan true, Conds.none) else (recipRoot m e, Conds.none)
  | .exp2, .inf n => if n then (.fin false 0 0, Conds.none) else (.inf false, Conds.none)
  | .exp2, .fin n m e => (powTwo n m e, Conds.none)
  | .log2, .inf n => if n then (.nan true, Conds.none) else (.inf false, Conds.none)
  | .log2, .fin n m e =>
    if m = 0 then (.inf true, z) else if n then (.nan true, Conds.none) else (logOf m e, Conds.none)

/-- A function word on one element. -/
def Fun.apply (f : Fun) (fmt : Fmt) (mode : Mode) (bits : Nat) : Nat × Conds :=
  let r := f.value (fmt.decode bits)
  let d := fmt.deliver mode r.1
  (d.1, d.2.or r.2)

end Sys2Proof.Machine
end

