-- ==== Sys2Proof/Machine/Vector.lean ====
section
/-!
DEFINITION. The X seat's vector engine: type state, element-wise words, reductions, scans, compares, predicates, block
quantization and conditional streams (08/R228 to R249).
-/

namespace Sys2Proof.Machine

/-! ## Registers as elements (03/R62) -/

/-- Element i of a register of elements of w bits. -/
def VReg.elem (v : VReg) (w i : Nat) : Nat := v.bits.toNat / 2 ^ (w * i) % 2 ^ w

/-- The elements of a register. -/
def VReg.elems (v : VReg) (w : Nat) : List Nat := (List.range (2048 / w)).map (v.elem w)

/-- Bits from elements of w bits, element 0 lowest. -/
def packBits (w : Nat) (es : List Nat) : BitVec 2048 :=
  BitVec.ofNat 2048 (es.foldr (fun x acc => x % 2 ^ w + 2 ^ w * acc) 0)

/-- Taint bits from a function of the lane. -/
def laneBits (f : Nat → Bool) : BitVec 64 :=
  BitVec.ofNat 64 ((List.range 64).foldr (fun j acc => boolNat (f j) + 2 * acc) 0)

/-- The bits of the lanes of a mask. -/
def laneMask (m : Dword) : BitVec 2048 := packBits 32 ((List.range 64).map fun j => if m.getLsbD j then 2 ^ 32 - 1 else 0)

/-- The lanes of a mask from a, the others from b, bits and taint. -/
def mergeLanes (m : Dword) (a b : VReg) : VReg :=
  { bits := (a.bits &&& laneMask m) ||| (b.bits &&& ~~~laneMask m), taint := (a.taint &&& m) ||| (b.taint &&& ~~~m) }

def Heat.setV (h : Heat) (n : BitVec 4) (v : VReg) : Heat := { h with x := { h.x with v := h.x.v.set n.toNat v } }

/-! ## Conditions (08/R230) -/

/-- X raises conditions at its text time; those that C has passed join the register. -/
def raiseX (h : Heat) (c : Conds) : Heat :=
  if c.bits = 0 then h
  else
    let l := h.x.statLog ++ [(h.tt .X, c.bits)]
    let old := l.filter fun e => decide (e.1 < h.tt .C)
    { h with x := { h.x with
      stat := old.foldl (fun a e => a ||| e.2) h.x.stat, statLog := l.filter fun e => !decide (e.1 < h.tt .C) } }

/-- The OR of conditions. -/
def anyConds (cs : List Conds) : Conds := cs.foldl Conds.or Conds.none

/-! ## Sources and destinations (08/R231, R249; 04/R96) -/

/-- The stream that an operand code of 16 and more names. -/
def streamOf (c : BitVec 5) : BitVec 4 := c.setWidth 4

/-- The seats that fill or drain a stream from the other side. -/
def otherEnd (h : Heat) (q : BitVec 4) : List Seat :=
  if q.toNat < 8 then [.L]
  else if q.toNat < 12 then [.S]
  else if h.L.stopped && (h.S.stopped || h.S.ended) then [.L] else []

/-- A stream of a cb format. -/
def QDesc.blocks (d : QDesc) : Bool := fmtBits d.fmt == 0

/-- A source operand and the heat after its pop: a head partly taken is discarded first. Blocks of a cb stream are taken
only by what is said to take them (07/R189). -/
def vecSource (cb : Bool) (h : Heat) (c : BitVec 5) : Run (VReg × (Heat → Heat)) :=
  if c.toNat < 16 then .ok (h.v (streamOf c), id)
  else
    let q := streamOf c
    match descOf h .X q with
    | .error e => .error e
    | .ok d =>
      if d.blocks && !cb then .error Stay.illegal else
      let st := h.stream q
      let k := if st.taken = 0 then 0 else 1
      match st.entries[k]? with
      | none => .error (.wait .engine (otherEnd h q) 6)
      | some e => .ok (e, fun h => h.setStream q { h.stream q with entries := st.entries.drop (k + 1), taken := 0 })

/-- Room for n entries in a stream that X fills. -/
def roomFor (h : Heat) (q : BitVec 4) (n : Nat) : Run Unit :=
  if 4 < (h.stream q).entries.length + n then .error (.wait .engine (otherEnd h q) 6) else .ok ()

/-- A destination can take the word's result; a buffer that holds lanes is pushed first. -/
def vecRoom (cb : Bool) (h : Heat) (c : BitVec 5) : Run Unit :=
  if c.toNat < 16 then .ok ()
  else match descOf h .X (streamOf c) with
    | .error e => .error e
    | .ok d => if d.blocks && !cb then .error Stay.illegal else roomFor h (streamOf c) (if (h.stream (streamOf c)).buf.isEmpty then 1 else 2)

/-- Lanes as an entry, zero-filled. -/
def entryOf (l : List (Word × Bool)) : VReg :=
  { bits := packBits 32 (l.map (·.1.toNat)), taint := laneBits fun j => (l.getD j (0, false)).2 }

/-- The holding buffer of a stream is pushed as one entry when it holds lanes. -/
def flushBuffer (h : Heat) (q : BitVec 4) : Heat :=
  let st := h.stream q
  if st.buf.isEmpty then h else h.setStream q { st with entries := st.entries ++ [entryOf st.buf], buf := [] }

/-- A result goes to its destination under its predicate's taint: a register keeps its inactive lanes, a stream has zeros
there, which no source lane makes (08/R231, R234). -/
def vecWrite (h : Heat) (c : BitVec 5) (m : Dword) (r : VReg) (kt : Bool) : Heat :=
  if c.toNat < 16 then
    h.setV (streamOf c) (mergeLanes m { r with taint := r.taint ||| allTaint kt } (h.v (streamOf c)))
  else pushEntry (flushBuffer h (streamOf c)) (streamOf c)
    { bits := r.bits &&& laneMask m, taint := r.taint &&& m ||| allTaint kt }

/-! ## Words in general -/

/-- The vector registers that operand codes name. -/
def regsOf (cs : List (BitVec 5)) : List (BitVec 4) := (cs.filter fun c => decide (c.toNat < 16)).map streamOf

/-- A short X word. -/
def xIssue (w : Slot) (vs : List (BitVec 5)) (i : Instr) : Issue := { (Issue.short w []).of i with vnames := regsOf vs }

/-- The result of a vector word before its predicate's taint, with its conditions. -/
abbrev VecFun := XTypes → Dword → VReg → VReg → VReg → VReg × Conds

/-- A vector word: source va, register vb, destination vd with its old value; whole says that every lane is written, cbS
and cbD that the source or the destination may be a stream of blocks. -/
def vecBodyOf (cbS cbD : Bool) (w : Slot) (vd va : BitVec 5) (vb : BitVec 4) (whole : Bool) (ok : XTypes → Bool)
    (f : VecFun) (h : Heat) : Run Heat :=
  match readK h .X w.pred with
  | .error e => .error e
  | .ok k =>
    if !ok h.x.types then .error Stay.illegal
    else match vecSource cbS h va with
      | .error e => .error e
      | .ok (a, pop) =>
        match vecRoom cbD h vd with
        | .error e => .error e
        | .ok () =>
          let old := if vd.toNat < 16 then h.v (streamOf vd) else { bits := 0, taint := 0 }
          let r := f h.x.types k.v a (h.v vb) old
          let m := if whole then BitVec.allOnes 64 else k.v
          .ok (vecWrite (raiseX (pop h) r.2) vd m r.1 k.t)

/-- A vector word that touches no blocks. -/
def vecBody (w : Slot) (vd va : BitVec 5) (vb : BitVec 4) (whole : Bool) (ok : XTypes → Bool) (f : VecFun) (h : Heat) :
    Run Heat := vecBodyOf false false w vd va vb whole ok f h

/-- A word on the vector engine that touches nothing but its heat. -/
def xWord (w : Issue) (f : Heat → Run Heat) (s : State) : Host.Outcome State Fault Refusal :=
  issue w .X (fun s h => match f h with
    | .error e => .error e
    | .ok h' => .ok (s, h')) s

/-! ## Latencies (08/R250) -/

/-- The entries that a word has added to a stream are visible from a cycle; 0 is at once. -/
def markDue (at_ : Nat) (q : BitVec 4) (h h' : Heat) : Heat :=
  let st := h'.stream q
  let k := st.entries.length - (h.stream q).entries.length
  if at_ = 0 ∧ st.due.isEmpty then h' else h'.setStream q { st with due := st.due ++ List.replicate k at_ }

/-- A result is readable from a cycle: by later words of X in a register, by the stream's reader in an entry. -/
def markBusy (at_ : Nat) (n : XName) (h : Heat) : Heat :=
  { h with x := { h.x with busy := h.x.busy ++ [(n, at_, h.tt .X)] } }

/-- Where an operand code's result goes. -/
def markResult (at_ : Nat) (vd : BitVec 5) (h h' : Heat) : Heat :=
  if vd.toNat < 16 then markBusy at_ (.v (streamOf vd)) h'
  else if (h'.stream (streamOf vd)).entries.length = (h.stream (streamOf vd)).entries.length then
    markBusy at_ (.buf (streamOf vd)) h'
  else markDue at_ (streamOf vd) h h'

/-- The registers among some operand codes are readable. -/
def readable (h : Heat) (cs : List (BitVec 5)) : Bool := (regsOf cs).all fun n => !h.xBusy (.v n)

/-- A vector word that waits for its source registers, and whose result comes some cycles after its issue. -/
def xTimed (w : Issue) (srcs : List (BitVec 5)) (vd : BitVec 5) (lat : XTypes → Nat) (f : Heat → Run Heat) (s : State) :
    Host.Outcome State Fault Refusal :=
  issue { w with xreads := (regsOf srcs).map .v } .X (fun s h =>
    if !readable h srcs then .error (.wait .empty [] 4)
    else match f h with
      | .error e => .error e
      | .ok h' => .ok (s, markResult (s.now + lat h.x.types) vd h h')) s

/-- A word whose result is a lane predicate. -/
def xTimedK (w : Issue) (srcs : List (BitVec 5)) (kd : BitVec 3) (f : Heat → Run Heat) (s : State) :
    Host.Outcome State Fault Refusal :=
  issue { w with xreads := w.xreads ++ (regsOf srcs).map .v } .X (fun s h =>
    if !readable h srcs then .error (.wait .empty [] 4)
    else match f h with
      | .error e => .error e
      | .ok h' => .ok (s, markBusy (s.now + 2) (.k kd) h')) s

/-- Latency of the float and of the integer form. -/
def byType (float int : Nat) (t : XTypes) : Nat :=
  match kindCode t.t with
  | .float _ => float
  | _ => int

def cycles (n : Nat) (_ : XTypes) : Nat := n

/-- Types of 08/R232: wide floats and integers, wide floats only. -/
def wideOrInt (t : XTypes) : Bool := decide (t.t.toNat ≤ 2 ∨ 5 ≤ t.t.toNat)
def wideOnly (t : XTypes) : Bool := decide (t.t.toNat ≤ 2)
def anyType (_ : XTypes) : Bool := true

/-- Apply an element operation to the elements of active lanes; the others are 0. -/
def mapElems (w : Nat) (m : Dword) (f : Nat → Nat × Conds) : BitVec 2048 × Conds :=
  let es := (List.range (2048 / w)).map fun i => if m.getLsbD (i * w / 32) then f i else (0, Conds.none)
  (packBits w (es.map (·.1)), anyConds (es.map (·.2)))

/-- Container width of the element type. -/
def XTypes.width (t : XTypes) : Nat := (kindCode t.t).width

/-- An element-wise operation of two sources and the old destination. -/
def elementwise (f : Kind → Mode → Nat → Nat → Nat → Nat × Conds) (reads : VReg → VReg → VReg → BitVec 64) : VecFun :=
  fun t m a b d =>
    let w := t.width
    let r := mapElems w m fun i => f (kindCode t.t) t.rm (a.elem w i) (b.elem w i) (d.elem w i)
    ({ bits := r.1, taint := reads a b d }, r.2)

def readsAB (a b _ : VReg) : BitVec 64 := a.taint ||| b.taint
def readsA (a _ _ : VReg) : BitVec 64 := a.taint
def readsABD (a b d : VReg) : BitVec 64 := a.taint ||| b.taint ||| d.taint

/-- A binary word of 08/R235. -/
def binaryWord (w : Slot) (vd va : BitVec 5) (vb : BitVec 4) (i : Instr) (ok : XTypes → Bool)
    (lat : XTypes → Nat) (f : Kind → Mode → Nat → Nat → Nat × Conds) (s : State) : Host.Outcome State Fault Refusal :=
  xTimed (xIssue w [vd, va, vb.setWidth 5] i) [va, vb.setWidth 5] vd lat
    (vecBody w vd va vb false ok (elementwise (fun k m a b _ => f k m a b) readsAB)) s

/-- A unary word. -/
def unaryWord (w : Slot) (vd va : BitVec 5) (i : Instr) (ok : XTypes → Bool) (lat : XTypes → Nat)
    (f : Kind → Mode → Nat → Nat × Conds) (s : State) : Host.Outcome State Fault Refusal :=
  xTimed (xIssue w [vd, va] i) [va] vd lat (vecBody w vd va 0 false ok (elementwise (fun k m a _ _ => f k m a) readsA)) s

/-! ## Element operations (08/R233, R235) -/

/-- Arithmetic: exact and rounded once for a float, wrapping for an integer. -/
def arith (ff : Mode → Num → Num → Num) (fi : Int → Int → Int) (k : Kind) (m : Mode) (a b : Nat) : Nat × Conds :=
  match k with
  | .float f => f.deliver m (ff m (f.decode a) (f.decode b))
  | .int s w => (intBits w (fi (intOf s w a) (intOf s w b)), Conds.none)
  | .cb _ _ _ => (0, Conds.none)

def elemAdd : Kind → Mode → Nat → Nat → Nat × Conds := arith (fun m a b => a.add m b) (· + ·)
def elemSub : Kind → Mode → Nat → Nat → Nat × Conds := arith (fun m a b => a.add m b.neg) (· - ·)
def elemMul : Kind → Mode → Nat → Nat → Nat × Conds := arith (fun _ a b => a.mul b) (· * ·)

/-- a × b + d. -/
def elemFma (k : Kind) (m : Mode) (a b d : Nat) : Nat × Conds :=
  match k with
  | .float f => f.deliver m (Num.fma m (f.decode a) (f.decode b) (f.decode d))
  | .int s w => (intBits w (intOf s w a * intOf s w b + intOf s w d), Conds.none)
  | .cb _ _ _ => (0, Conds.none)

/-- Minimum or maximum. -/
def elemMinMax (largest : Bool) (k : Kind) (_ : Mode) (a b : Nat) : Nat × Conds :=
  match k with
  | .float f => f.minMax largest a b
  | .int s w => (if decide (intOf s w a < intOf s w b) != largest then a else b, Conds.none)
  | .cb _ _ _ => (0, Conds.none)

def elemAbs (k : Kind) (_ : Mode) (a : Nat) : Nat × Conds :=
  match k with
  | .float f => (a % 2 ^ (f.width - 1), Conds.none)
  | .int s w => (intBits w (Int.natAbs (intOf s w a)), Conds.none)
  | .cb _ _ _ => (0, Conds.none)

def elemNeg (k : Kind) (_ : Mode) (a : Nat) : Nat × Conds :=
  match k with
  | .float f => (a ^^^ 2 ^ (f.width - 1), Conds.none)
  | .int s w => (intBits w (-intOf s w a), Conds.none)
  | .cb _ _ _ => (0, Conds.none)

/-- Bits whatever the type; the shift distance is the low log2(w) bits of b. -/
def elemBits (f : Nat → Nat → Nat → Nat) (k : Kind) (_ : Mode) (a b : Nat) : Nat × Conds :=
  (f k.width a b % 2 ^ k.width, Conds.none)

def shiftRight (arithmetic : Bool) (w a b : Nat) : Nat :=
  if arithmetic then intBits w (intOf true w a / 2 ^ (b % w)) else a / 2 ^ (b % w)

/-- A function word's element. -/
def elemFun (g : Fun) (k : Kind) (m : Mode) (a : Nat) : Nat × Conds :=
  match k with
  | .float f => g.apply f m a
  | _ => (0, Conds.none)

/-- VADD (08/R235). -/
def execVadd (w : Slot) (vd va : BitVec 5) (vb : BitVec 4) (s : State) : Host.Outcome State Fault Refusal :=
  binaryWord w vd va vb (.vadd w vd va vb) wideOrInt (byType 4 2) elemAdd s

/-- VSUB (08/R235). -/
def execVsub (w : Slot) (vd va : BitVec 5) (vb : BitVec 4) (s : State) : Host.Outcome State Fault Refusal :=
  binaryWord w vd va vb (.vsub w vd va vb) wideOrInt (byType 4 2) elemSub s

/-- VMUL (08/R235). -/
def execVmul (w : Slot) (vd va : BitVec 5) (vb : BitVec 4) (s : State) : Host.Outcome State Fault Refusal :=
  binaryWord w vd va vb (.vmul w vd va vb) wideOrInt (cycles 4) elemMul s

/-- VFMA (08/R235): its destination is a register; that is checked on execution, since the field may name a stream
elsewhere. DEDUCED (log 83). -/
def execVfma (w : Slot) (vd va : BitVec 5) (vb : BitVec 4) (s : State) : Host.Outcome State Fault Refusal :=
  xTimed (xIssue w [vd, va, vb.setWidth 5] (.vfma w vd va vb)) [vd, va, vb.setWidth 5] vd (cycles 4)
    (fun h => if 16 ≤ vd.toNat then .error Stay.illegal
      else vecBody w vd va vb false wideOrInt (elementwise elemFma readsABD) h) s

/-- VMIN (08/R235). -/
def execVmin (w : Slot) (vd va : BitVec 5) (vb : BitVec 4) (s : State) : Host.Outcome State Fault Refusal :=
  binaryWord w vd va vb (.vmin w vd va vb) wideOrInt (byType 4 2) (elemMinMax false) s

/-- VMAX (08/R235). -/
def execVmax (w : Slot) (vd va : BitVec 5) (vb : BitVec 4) (s : State) : Host.Outcome State Fault Refusal :=
  binaryWord w vd va vb (.vmax w vd va vb) wideOrInt (byType 4 2) (elemMinMax true) s

/-- VABS (08/R235). -/
def execVabs (w : Slot) (vd va : BitVec 5) (s : State) : Host.Outcome State Fault Refusal :=
  unaryWord w vd va (.vabs w vd va) wideOrInt (byType 4 2) elemAbs s

/-- VNEG (08/R235). -/
def execVneg (w : Slot) (vd va : BitVec 5) (s : State) : Host.Outcome State Fault Refusal :=
  unaryWord w vd va (.vneg w vd va) wideOrInt (byType 4 2) elemNeg s

/-- VAND (08/R235). -/
def execVand (w : Slot) (vd va : BitVec 5) (vb : BitVec 4) (s : State) : Host.Outcome State Fault Refusal :=
  binaryWord w vd va vb (.vand w vd va vb) anyType (cycles 2) (elemBits fun _ a b => a &&& b) s

/-- VOR (08/R235). -/
def execVor (w : Slot) (vd va : BitVec 5) (vb : BitVec 4) (s : State) : Host.Outcome State Fault Refusal :=
  binaryWord w vd va vb (.vor w vd va vb) anyType (cycles 2) (elemBits fun _ a b => a ||| b) s

/-- VXOR (08/R235). -/
def execVxor (w : Slot) (vd va : BitVec 5) (vb : BitVec 4) (s : State) : Host.Outcome State Fault Refusal :=
  binaryWord w vd va vb (.vxor w vd va vb) anyType (cycles 2) (elemBits fun _ a b => a ^^^ b) s

/-- VSHL (08/R235). -/
def execVshl (w : Slot) (vd va : BitVec 5) (vb : BitVec 4) (s : State) : Host.Outcome State Fault Refusal :=
  binaryWord w vd va vb (.vshl w vd va vb) anyType (cycles 2) (elemBits fun n a b => a * 2 ^ (b % n)) s

/-- VSHR (08/R235). -/
def execVshr (w : Slot) (vd va : BitVec 5) (vb : BitVec 4) (s : State) : Host.Outcome State Fault Refusal :=
  binaryWord w vd va vb (.vshr w vd va vb) anyType (cycles 2) (elemBits (shiftRight false)) s

/-- VSAR (08/R235). -/
def execVsar (w : Slot) (vd va : BitVec 5) (vb : BitVec 4) (s : State) : Host.Outcome State Fault Refusal :=
  binaryWord w vd va vb (.vsar w vd va vb) anyType (cycles 2) (elemBits (shiftRight true)) s

/-- VMOV (08/R235). -/
def execVmov (w : Slot) (vd va : BitVec 5) (s : State) : Host.Outcome State Fault Refusal :=
  unaryWord w vd va (.vmov w vd va) anyType (cycles 2) (fun _ _ a => (a, Conds.none)) s

/-- VRCP (08/R235, R236). -/
def execVrcp (w : Slot) (vd va : BitVec 5) (s : State) : Host.Outcome State Fault Refusal :=
  unaryWord w vd va (.vrcp w vd va) wideOnly (cycles 8) (elemFun .rcp) s

/-- VRSQ (08/R235, R236). -/
def execVrsq (w : Slot) (vd va : BitVec 5) (s : State) : Host.Outcome State Fault Refusal :=
  unaryWord w vd va (.vrsq w vd va) wideOnly (cycles 8) (elemFun .rsq) s

/-- VEXP2 (08/R235, R236). -/
def execVexp2 (w : Slot) (vd va : BitVec 5) (s : State) : Host.Outcome State Fault Refusal :=
  unaryWord w vd va (.vexp2 w vd va) wideOnly (cycles 8) (elemFun .exp2) s

/-- VLOG2 (08/R235, R236). -/
def execVlog2 (w : Slot) (vd va : BitVec 5) (s : State) : Host.Outcome State Fault Refusal :=
  unaryWord w vd va (.vlog2 w vd va) wideOnly (cycles 8) (elemFun .log2) s

/-! ## Broadcast, index, moves, conversion (08/R235, R237 to R239, R244) -/

/-- VIDX (08/R235). -/
def execVidx (w : Slot) (vd : BitVec 5) (s : State) : Host.Outcome State Fault Refusal :=
  xTimed (xIssue w [vd] (.vidx w vd)) [] vd (cycles 2) (vecBody w vd 0 0 false wideOrInt (fun t m _ _ _ =>
    let r := mapElems t.width m fun i => match kindCode t.t with
      | .float f => f.deliver t.rm (ofInt i)
      | .int sg n => (intBits n (saturate sg n i), Conds.none)
      | .cb _ _ _ => (0, Conds.none)
    ({ bits := r.1, taint := 0 }, r.2))) s

/-- VBCST (08/R237): C's scalar as of the word's text time. -/
def execVbcst (w : Slot) (vd : BitVec 5) (sa : BitVec 6) (s : State) : Host.Outcome State Fault Refusal :=
  xTimed { xIssue w [vd] (.vbcst w vd sa) with names := [sa], reads := [sa] } [] vd (cycles 2) (fun h =>
    match readS h .X sa with
    | .error e => .error e
    | .ok x => vecBody w vd 0 0 false anyType (fun t m _ _ _ =>
        let r := mapElems t.width m fun _ => (x.v.toNat % 2 ^ t.width, Conds.none)
        ({ bits := r.1, taint := allTaint x.t }, r.2)) h) s

/-- VPERM (08/R238). -/
def execVperm (w : Slot) (vd va : BitVec 5) (vb : BitVec 4) (s : State) : Host.Outcome State Fault Refusal :=
  xTimed (xIssue w [vd, va, vb.setWidth 5] (.vperm w vd va vb)) [va, vb.setWidth 5] vd (cycles 3) (vecBody w vd va vb false anyType (fun _ _ a b _ =>
    let src (j : Nat) : Nat := b.elem 32 j % 64
    ({ bits := packBits 32 ((List.range 64).map fun j => a.elem 32 (src j))
       taint := laneBits fun j => a.taint.getLsbD (src j) || b.taint.getLsbD j }, Conds.none))) s

/-- VCVT (08/R239). -/
def execVcvt (w : Slot) (vd va : BitVec 5) (fmt : BitVec 4) (s : State) : Host.Outcome State Fault Refusal :=
  xTimed (xIssue w [vd, va] (.vcvt w vd va fmt)) [va] vd (cycles 4) (vecBody w vd va 0 false anyType (fun t m a _ _ =>
    let ws := (kindCode fmt).width
    let wd := t.width
    let n := 2048 / max ws wd
    let r := mapElems wd m fun i =>
      if i < n then convert (kindCode fmt) (kindCode t.t) t.rm (a.elem ws i) else (0, Conds.none)
    let lane (j : Nat) : Bool := (List.range (32 / wd)).any fun k =>
      let i := j * (32 / wd) + k
      decide (i < n) && a.taint.getLsbD (i * ws / 32)
    ({ bits := r.1, taint := laneBits lane }, r.2))) s

/-- VSEL (08/R244): the predicate selects lanes; it is never a false slot. -/
def execVsel (w : Slot) (vd va : BitVec 5) (vb : BitVec 4) (s : State) : Host.Outcome State Fault Refusal :=
  xTimed { xIssue w [vd, va, vb.setWidth 5] (.vsel w vd va vb) with always := true } [va, vb.setWidth 5] vd (cycles 2)
    (vecBody w vd va vb true anyType (fun _ m a b _ => (mergeLanes m a b, Conds.none))) s

/-! ## Reductions and scans (08/R240, R241; 03/R75 to R77) -/

/-- The operation and the identity of a reduction; none where the type does not have it. -/
def reduction (op : Nat) (t : XTypes) : Option ((Nat → Nat → Nat × Conds) × Nat) :=
  let k := kindCode t.t
  match k, op with
  | .float f, 0 => some (elemAdd k t.rm, f.pack (t.rm != rdn) 0)
  | .float f, 1 => some (elemMinMax false k t.rm, f.pack false (f.maxFinite + 1))
  | .float f, 2 => some (elemMinMax true k t.rm, f.pack true (f.maxFinite + 1))
  | .int _ _, 0 => some (elemAdd k t.rm, 0)
  | .int s n, 1 => some (elemMinMax false k t.rm, intBits n (intMax s n))
  | .int s n, 2 => some (elemMinMax true k t.rm, intBits n (intMin s n))
  | .int _ n, 3 => some (fun a b => (a &&& b, Conds.none), 2 ^ n - 1)
  | .int _ _, 4 => some (fun a b => (a ||| b, Conds.none), 0)
  | .int _ _, 5 => some (fun a b => (a ^^^ b, Conds.none), 0)
  | _, _ => none

/-- Combine neighbours: one level of the tree. -/
def pairUp (f : Nat → Nat → Nat × Conds) : List Nat → List Nat × Conds
  | a :: b :: t =>
    let r := f a b
    let u := pairUp f t
    (r.1 :: u.1, r.2.or u.2)
  | l => (l, Conds.none)

/-- The tree over up to 2^n elements. -/
def tree (f : Nat → Nat → Nat × Conds) : Nat → List Nat → Nat × Conds
  | 0, l => (l.headD 0, Conds.none)
  | n + 1, l =>
    let u := pairUp f l
    let r := tree f n u.1
    (r.1, u.2.or r.2)

/-- The elements of a register, with the identity in inactive lanes. -/
def contributors (w : Nat) (m : Dword) (a : VReg) (ident : Nat) : List Nat :=
  (List.range (2048 / w)).map fun i => if m.getLsbD (i * w / 32) then a.elem w i else ident

/-- Types for which a reduction exists. -/
def reducible (op : Nat) (t : XTypes) : Bool := wideOrInt t && (reduction op t).isSome

/-- VRED (08/R240): every element receives the result. -/
def execVred (w : Slot) (vd va : BitVec 5) (op : BitVec 4) (s : State) : Host.Outcome State Fault Refusal :=
  xTimed (xIssue w [vd, va] (.vred w vd va op)) [va] vd (cycles 8) (vecBody w vd va 0 true (reducible op.toNat) (fun t m a _ _ =>
    match reduction op.toNat t with
    | none => (a, Conds.none)
    | some (f, ident) =>
      let r := tree f 9 (contributors t.width m a ident)
      ({ bits := packBits t.width (List.replicate (2048 / t.width) r.1), taint := allTaint (a.taint &&& m != 0) }, r.2))) s

/-- Prefix results from a running value; an exclusive scan never takes the last element in (08/R241). DESIGN CHOICE
(log 69): element 0 of an inclusive scan is op applied to the identity and x_0, so that a NaN there is canonical. -/
def scanFrom (f : Nat → Nat → Nat × Conds) (excl : Bool) : Nat → List Nat → List Nat × Conds
  | _, [] => ([], Conds.none)
  | acc, x :: t =>
    if excl && t.isEmpty then ([acc], Conds.none) else
    let r := f acc x
    let u := scanFrom f excl r.1 t
    ((if excl then acc else r.1) :: u.1, r.2.or u.2)

/-- VSCAN (08/R241). -/
def execVscan (w : Slot) (vd va : BitVec 5) (excl : Bool) (op : BitVec 3) (s : State) :
    Host.Outcome State Fault Refusal :=
  xTimed (xIssue w [vd, va] (.vscan w vd va excl op)) [va] vd (cycles 8) (vecBody w vd va 0 true (reducible op.toNat) (fun t m a _ _ =>
    match reduction op.toNat t with
    | none => (a, Conds.none)
    | some (f, ident) =>
      let r := scanFrom f excl ident (contributors t.width m a ident)
      let src := a.taint &&& m
      -- the last element of lane j covers its own lane, unless it is the lane's only element of an exclusive scan
      let upTo (j : Nat) : Nat := if excl && t.width == 32 then j else j + 1
      ({ bits := packBits t.width r.1, taint := laneBits fun j => (List.range (upTo j)).any src.getLsbD }, r.2))) s

/-! ## Compares and predicates (08/R242, R243) -/

/-- A comparison of two elements: whether it holds, and its conditions. -/
def compareElems (k : Kind) (cond a b : Nat) : Bool × Conds :=
  match k with
  | .float f =>
    let x := f.decode a
    let y := f.decode b
    let nan : Bool := match x, y with
      | .nan _, _ => true
      | _, .nan _ => true
      | _, _ => false
    let holds := match cond with
      | 0 => x.eq y
      | 1 => !x.eq y
      | 2 => x.lt y
      | _ => !nan && (x.lt y || x.eq y)
    (holds, { Conds.none with invalid := x.signals || y.signals })
  | .int s n =>
    let x := intOf s n a
    let y := intOf s n b
    (match cond with
     | 0 => decide (x = y)
     | 1 => decide (x ≠ y)
     | 2 => decide (x < y)
     | _ => decide (x ≤ y), Conds.none)
  | .cb _ _ _ => (false, Conds.none)

/-- VCMP (08/R242). -/
def execVcmp (w : Slot) (kd : BitVec 3) (cond : BitVec 2) (va : BitVec 5) (vb : BitVec 4) (s : State) :
    Host.Outcome State Fault Refusal :=
  xTimedK { xIssue w [va, vb.setWidth 5] (.vcmp w kd cond va vb) with version := true } [va, vb.setWidth 5] kd (fun h =>
    match readK h .X w.pred with
    | .error e => .error e
    | .ok m =>
      let t := h.x.types
      if !wideOrInt t then .error Stay.illegal
      else match vecSource false h va with
        | .error e => .error e
        | .ok (a, pop) =>
          let b := h.v vb
          let n := t.width
          let lane (j : Nat) : Bool × Conds :=
            let rs := (List.range (32 / n)).map fun i =>
              compareElems (kindCode t.t) cond.toNat (a.elem n (j * (32 / n) + i)) (b.elem n (j * (32 / n) + i))
            if m.v.getLsbD j then (rs.all (·.1), anyConds (rs.map (·.2))) else (false, Conds.none)
          let rs := (List.range 64).map lane
          let bits := laneBits fun j => (rs.getD j (false, Conds.none)).1
          let taint := m.t || (a.taint ||| b.taint) &&& m.v != 0
          .ok ((raiseX (pop h) (anyConds (rs.map (·.2)))).setK kd ⟨bits, taint⟩)) s

/-- KOP (08/R243). -/
def execKop (w : Slot) (kd ka kb op : BitVec 3) (s : State) : Host.Outcome State Fault Refusal :=
  xTimedK { xIssue w [] (.kop w kd ka kb op) with version := true, xreads := [.k ka, .k kb] } [] kd (fun h =>
   if [w.pred, ka, kb].any fun n => h.xBusy (.k n) then .error (.wait .empty [] 4) else
    let m := h.k w.pred
    let a := h.k ka
    let b := h.k kb
    let old := h.k kd
    let r := lanesOp op a.v b.v
    .ok (h.setK kd ⟨(r &&& m.v) ||| (old.v &&& ~~~m.v), a.t || b.t || m.t || (old.t && m.v != BitVec.allOnes 64)⟩)) s

/-! ## Type state and no-operation (08/R229, R245) -/

/-- SETT (08/R229). -/
def execSett (w : Slot) (fmt : BitVec 4) (rm : BitVec 3) (s : State) : Host.Outcome State Fault Refusal :=
  xWord (xIssue w [] (.sett w fmt rm)) (fun h =>
    .ok { h with x := { h.x with types := { h.x.types with t := fmt, rm := rm } } }) s

/-- SETT.m (08/R229). -/
def execSettM (w : Slot) (af wf : BitVec 4) (asg wsg : Bool) (s : State) : Host.Outcome State Fault Refusal :=
  xWord (xIssue w [] (.settM w af wf asg wsg)) (fun h =>
    .ok { h with x := { h.x with types := { h.x.types with af := af, wf := wf, asg := asg, wsg := wsg } } }) s

/-- SETT.o (08/R229). -/
def execSettO (w : Slot) (fmt : BitVec 4) (s : State) : Host.Outcome State Fault Refusal :=
  xWord (xIssue w [] (.settO w fmt)) (fun h =>
    .ok { h with x := { h.x with types := { h.x.types with out := fmt } } }) s

/-- NOPX (08/R245). -/
def execNopx (w : Slot) (s : State) : Host.Outcome State Fault Refusal :=
  xWord (xIssue w [] (.nopx w)) (fun h => .ok h) s

/-! ## Block quantization (08/R246, R247) -/

/-- Parameters p, w and bytes of a cb format. -/
def cbOf (f : BitVec 4) : Option (Nat × Nat × Nat) :=
  match kindCode f with
  | .cb p w b => some (p, w, b)
  | _ => none

/-- The lanes whose words hold a byte of block b. -/
def blockLanes (bytes b : Nat) : List Nat :=
  (List.range ((bytes * b + bytes - 1) / 4 - bytes * b / 4 + 1)).map (bytes * b / 4 + ·)

/-- VQNT (08/R246): conditions go to XSTAT; the destination is an outbound stream whose format is cb. -/
def execVqnt (w : Slot) (vd va : BitVec 5) (s : State) : Host.Outcome State Fault Refusal :=
  xTimed (xIssue w [vd, va] (.vqnt w vd va)) [va] vd (cycles 6) (fun h =>
    if vd.toNat < 16 then .error Stay.illegal else
    match descOf h .X (streamOf vd) with
    | .error e => .error e
    | .ok d =>
      match cbOf d.fmt with
      | none => .error Stay.illegal
      | some (p, cw, bytes) => vecBodyOf false true w vd va 0 true anyType (fun _ m a _ _ =>
          let lane (i : Nat) : Num :=
            if m.getLsbD i && decide (i < d.elems) then f32.decode (a.elem 32 i) else .fin false 0 0
          let n := d.elems / 32
          let bs := (List.range n).map fun b => cbBlock p cw ((List.range 32).map fun i => lane (32 * b + i))
          let bits := bs.foldr (fun x acc => x.1 + 2 ^ (8 * bytes) * acc) 0
          let blockT (b : Nat) : Bool := (List.range 32).any fun i => a.taint.getLsbD (32 * b + i)
          ({ bits := BitVec.ofNat 2048 bits
             taint := laneBits fun j => (List.range n).any fun b => blockT b && (blockLanes bytes b).contains j },
           anyConds (bs.map (·.2)))) h) s

/-- VDQN (08/R247): exact; the source is a stream whose format is cb. -/
def execVdqn (w : Slot) (vd va : BitVec 5) (s : State) : Host.Outcome State Fault Refusal :=
  xTimed (xIssue w [vd, va] (.vdqn w vd va)) [] vd (cycles 6) (fun h =>
    if va.toNat < 16 then .error Stay.illegal else
    match descOf h .X (streamOf va) with
    | .error e => .error e
    | .ok d =>
      match cbOf d.fmt with
      | none => .error Stay.illegal
      | some (p, cw, bytes) => vecBodyOf true false w vd va 0 false anyType (fun _ _ a _ _ =>
          let lane (j : Nat) : Nat :=
            if j < d.elems then
              (f32.deliver rne (cbValue p cw (fieldAt a.bits.toNat (8 * bytes * (j / 32)) (8 * bytes)) (j % 32))).1
            else 0
          ({ bits := packBits 32 ((List.range 64).map lane)
             taint := laneBits fun j => decide (j < d.elems) && (blockLanes bytes (j / 32)).any a.taint.getLsbD },
           Conds.none)) h) s

/-! ## Conditional streams (08/R248) -/

/-- The descriptor of a stream of a 32-bit format. -/
def wideStream (h : Heat) (q : BitVec 4) : Run QDesc :=
  match descOf h .X q with
  | .error e => .error e
  | .ok d => if fmtBits d.fmt = 32 then .ok d else .error Stay.illegal

/-- The active lanes of a mask, ascending. -/
def activeLanes (m : Dword) : List Nat := (List.range 64).filter m.getLsbD

/-- Append lanes to a buffer; each e lanes make an entry. -/
def appendLanes (e : Nat) : List (Word × Bool) → List VReg → List (Word × Bool) → List VReg × List (Word × Bool)
  | buf, out, [] => (out, buf)
  | buf, out, x :: t =>
    let b := buf ++ [x]
    if e ≤ b.length then appendLanes e [] (out ++ [entryOf b]) t else appendLanes e b out t

/-- VCPUSH (08/R248): form 0 appends, 1 appends and flushes, 2 flushes. -/
def execVcpush (w : Slot) (vd va : BitVec 5) (form : BitVec 4) (s : State) : Host.Outcome State Fault Refusal :=
  xTimed (xIssue w (if form = 2 then [vd] else [vd, va]) (.vcpush w vd va form)) (if form = 2 then [] else [va]) vd (cycles 3) (fun h =>
    let q := streamOf vd
    let m := h.k w.pred
    if vd.toNat < 16 then .error Stay.illegal else
    match wideStream h q with
    | .error e => .error e
    | .ok d =>
      match (if form = 2 then .ok (h.v 0, id) else vecSource false h va) with
      | .error e => .error e
      | .ok (a, pop) =>
        let lanes := if form = 2 then [] else
          (activeLanes m.v).map fun j => ((BitVec.ofNat 32 (a.elem 32 j) : Word), a.taint.getLsbD j || m.t)
        let r := appendLanes d.elems (h.stream q).buf [] lanes
        let out := if form ≠ 0 ∧ !r.2.isEmpty then r.1 ++ [entryOf r.2] else r.1
        match roomFor h q out.length with
        | .error e => .error e
        | .ok () =>
          let h1 := pop h
          .ok (h1.setStream q { h1.stream q with
            entries := (h1.stream q).entries ++ out, buf := if form = 0 then r.2 else [] })) s

/-- Take lanes one by one from the entries of a stream, from a position in the head; none when they run out. -/
def takeLanes (e : Nat) : Nat → List VReg → Nat → Option (List (Nat × Bool) × List VReg × Nat)
  | 0, es, pos => some ([], es, pos)
  | n + 1, es, pos =>
    match es with
    | [] => none
    | x :: t =>
      let rest := if pos + 1 = e then takeLanes e n t 0 else takeLanes e n es (pos + 1)
      rest.map fun r => ((x.elem 32 pos, x.taint.getLsbD pos) :: r.1, r.2)

/-- VCPOP (08/R248): form 1 drops the rest of a partly taken head. -/
def execVcpop (w : Slot) (vd va : BitVec 5) (form : BitVec 4) (s : State) : Host.Outcome State Fault Refusal :=
  xTimed (xIssue w [vd, va] (.vcpop w vd va form)) [] vd (cycles 3) (fun h =>
    let q := streamOf va
    let m := h.k w.pred
    if 16 ≤ vd.toNat ∨ va.toNat < 16 then .error Stay.illegal else
    match wideStream h q with
    | .error e => .error e
    | .ok d =>
      let lanes := activeLanes m.v
      match takeLanes d.elems lanes.length (h.stream q).entries (h.stream q).taken with
      | none => .error (.wait .engine [.L] 6)
      | some (got, es, pos) =>
        let drop := form = 1 ∧ pos ≠ 0
        let at_ (j : Nat) : Nat × Bool := got.getD (lanes.findIdx (· == j)) (0, false)
        let r : VReg :=
          { bits := packBits 32 ((List.range 64).map fun j => (at_ j).1), taint := laneBits fun j => (at_ j).2 }
        let h1 := h.setStream q { h.stream q with
          entries := if drop then es.tail else es, taken := if drop then 0 else pos }
        .ok (vecWrite h1 vd m.v r m.t)) s

end Sys2Proof.Machine
end

