-- ==== Sys2Proof/Machine/Matrix.lean ====
section
/-!
DEFINITION. The sweep array: leases, rings of X, stationary tiles, products, distances, top-k, bags through the array,
retirement and clearing (08/R251 to R274; 03/R71 to R74, R78 to R80; 11/R337, R342, R343).
-/

namespace Sys2Proof.Machine

/-! ## Leases (08/R251 to R254, 10/R306) -/

/-- The lease of a crew's array before its first grant, which begins at core 0. -/
def newLease (crew : Nat) : Lease :=
  { crew := crew, holder := none, granted := false, left := 0, lastCore := 3, weights := none, lastMwld := none, freeAt := 0,
    rows := 0, turn := 0, requests := [] }

def leaseOf (s : State) (crew : Nat) : Lease := (s.leases.find? fun l => l.crew == crew).getD (newLease crew)

def putLease (s : State) (l : Lease) : State :=
  { s with leases := (s.leases.filter fun x => x.crew != l.crew) ++ [l] }

/-- A heat has commands left in a run that it has been granted. -/
def leased (s : State) (h : Heat) : Bool :=
  let l := leaseOf s h.crew
  l.holder == some h.id.uid && !l.granted && decide (0 < l.left)

/-- Whether a command is the array's. -/
def CmdKind.matrix : CmdKind → Bool
  | .mwld .. | .prod .. | .mbag .. | .mret .. | .mclr .. => true
  | _ => false

/-- Matrix commands of a heat that have not completed, in issue order. -/
def matrixOf (s : State) (uid : Nat) : List Cmd := (s.cmdsOf uid).filter fun c => c.kind.matrix

/-- A heat that has ended or is suspended, or stops for good with an X that issues nothing further (08/R253). -/
def leaseGone (s : State) (uid : Nat) : Bool :=
  match s.heat? uid with
  | none => true
  | some h => !h.onCore ||
      ((h.stop.elim false fun st => st.cause == .fault || st.cause == .cancel) && (h.X.ended || h.X.stopped))

/-- The lease is released when its run has ended and its commands have completed (08/R253). -/
def settleLease (s : State) (l : Lease) : Lease :=
  let l := { l with requests := l.requests.filter fun r => !leaseGone s r.1 }
  match l.holder with
  | none => l
  | some u =>
    if (matrixOf s u).isEmpty ∧ (l.left = 0 ∨ leaseGone s u) then
      { l with
        holder := none, granted := false, left := 0, weights := none, lastMwld := none, rows := 0
        lastCore := (s.heat? u).elim l.lastCore fun h => h.core % 4 }
    else l

/-- Every lease whose run is over, or whose heat has left, is released (08/R253, R272). -/
def settleLeases (s : State) : State := { s with leases := s.leases.map (settleLease s) }

/-- The better of two requesting heats: the core nearer after the last holder's, then the longer resident. -/
def sooner (last : Nat) (a b : Heat) : Bool :=
  let d (h : Heat) : Nat := (h.core % 4 + 3 - last) % 4
  if d a ≠ d b then decide (d a < d b)
  else if a.since ≠ b.since then decide (a.since < b.since) else decide (a.id.uid ≤ b.id.uid)

/-- The requesting heat that comes first. -/
def firstHeat (last : Nat) (hs : List Heat) : Option Heat :=
  hs.foldl (fun acc h => match acc with
    | none => some h
    | some a => if sooner last a h then some a else some h) none

/-- The heat that the array grants next: in coxed mode of the core whose turn it is (08/R254, 10/R306). -/
def nextHolder (s : State) (l : Lease) : Option Heat :=
  let hs := l.requests.filterMap fun r => s.heat? r.1
  match s.sched.filter (·.live) with
  | none => firstHeat l.lastCore hs
  | some c =>
    let order := (c.leases.filter fun e => e.1 == l.crew).map (·.2)
    match order[l.turn % order.length]? with
    | none => none
    | some k => firstHeat 3 (hs.filter fun h => h.core % 4 == k)

/-- LEASE_GRANT (08/R252): a grant starts with no stationary tile. -/
def execLeaseGrant (crew : Nat) (s : State) : Host.Outcome State Fault Refusal :=
  let l := settleLease s (leaseOf s crew)
  match l.holder, nextHolder s l with
  | none, some h =>
    let n := (assoc h.id.uid l.requests).getD 1
    .next (putLease s { l with
      holder := some h.id.uid, granted := true, left := n, weights := none, lastMwld := none, rows := 0
      turn := if (s.sched.filter (·.live)).isSome then l.turn + 1 else l.turn
      requests := l.requests.filter fun r => r.1 != h.id.uid })
  | _, _ => .next (putLease s l)

/-- The next stamped word of X in straight-line text from an address on, over words of the other seats, short words and
NOPA; n bounds the words read (log 72). -/
def nextStamped (s : State) (h : Heat) : Nat → Dword → Option (Dword × Nat)
  | 0, _ => none
  | n + 1, va =>
    match fetchWord s h va with
    | .error _ => none
    | .ok (_, w0) =>
      let next := va + (if isLong w0 then 8 else 4)
      if h.X.inner.elim false fun l => va == l.stop then none
      else match ownerOf w0 with
      | none => if (decodeWords w0 0).toOption = some .nopa then nextStamped s h n next else none
      | some o =>
        if o = .X && isLong w0 then
          (match fetchWord s h (va + 4) with
          | .error _ => none
          | .ok (_, w1) => some (va, w1 / 2 ^ 16 % 2 ^ 16))
        else nextStamped s h n next

/-- The overrun of the stamped word that a LEASE of a coxed heat holds at or beyond its stamp (08/R254, 10/R310). -/
def leaseOverdue (s : State) (h : Heat) : Option Stay :=
  if h.id.coxed then
    match nextStamped s h 64 (h.X.pc + 4) with
    | none => none
    | some (text, stamp) =>
      let due := h.X.strokeBase + stamp
      if stamp < s.dev.strokeLen ∧ due ≤ s.now then some (.heldBehind text stamp) else none
  else none

/-- The seats that X waits on at the array. -/
def arrayWaits (s : State) (h : Heat) : List Seat := if arrayStuck s h then [.L, .S] else []

/-- LEASE (08/R252, R254): X waits for the grant, which does not come while commands of the heat's last run wait for its
stopped seats. -/
def execLease (w : Slot) (n1 : BitVec 8) (s : State) : Host.Outcome State Fault Refusal :=
  issue ((Issue.short w []).of (.lease w n1)) .X (fun s h =>
    let l := leaseOf s h.crew
    if leased s h then .error Stay.illegal
    else if l.holder = some h.id.uid ∧ l.granted then .ok (putLease s { l with granted := false }, h)
    else
      let n := min (n1.toNat + 1) s.dev.leaseMax
      let rs := if (assoc h.id.uid l.requests).isSome then l.requests else l.requests ++ [(h.id.uid, n)]
      .error ((leaseOverdue s h).getD (if arrayStuck s h then .wait .engine (arrayWaits s h) 7
        else .park (putLease s { l with requests := rs }) h .engine))) s

/-- UNLEASE (08/R253): it does not wait; without a lease it has no effect. -/
def execUnlease (w : Slot) (s : State) : Host.Outcome State Fault Refusal :=
  issue ((Issue.short w []).of (.unlease w)) .X (fun s h =>
    let l := leaseOf s h.crew
    if l.holder = some h.id.uid then .ok (putLease s { l with left := 0 }, h) else .ok (s, h)) s

/-- MWAIT (08/R271). -/
def execMwait (w : Slot) (s : State) : Host.Outcome State Fault Refusal :=
  issue ((Issue.short w []).of (.mwait w)) .X (fun s h =>
    if (matrixOf s h.id.uid).isEmpty then .ok (s, h) else .error (.wait .engine (arrayWaits s h) 5)) s

/-! ## RSET (08/R256) -/

/-- Whether a command names a ring. -/
def CmdKind.names (k : CmdKind) (g : BitVec 3) : Bool :=
  match k with
  | .gatr r _ _ _ _ _ => r.kind == 0 && r.operand == g.toNat
  | .scatr r _ _ _ => r.kind == 0 && r.operand == g.toNat
  | .mwld x _ _ _ => x == g
  | .mbag x _ _ _ _ _ => x == g
  | .prod _ src q dk dst _ _ _ _ _ => (!q && src == g) || (dk == 0 && dst == g)
  | _ => false

/-- The ring that RSET's field bits describe: number, and ring with no tile filled. -/
def ringOf (f : BitVec 30) : BitVec 3 × Ring :=
  ((f >>> 27).setWidth 3,
    { base := 8 * (f >>> 9 &&& 0x3FFFF).toNat, t := (f >>> 4 &&& 31).toNat, c := (f &&& 15).toNat, head := 0, tiles := [] })

/-- A ring that RSET refuses. -/
def ringBad (h : Heat) (g : BitVec 3) (r : Ring) : Bool :=
  decide (r.t < 2 ∨ 20 < r.t ∨ 2097152 < r.span ∨ r.base % r.tileSize ≠ 0) ||
    (List.range 8).any fun i => i != g.toNat &&
      ((h.ring? (BitVec.ofNat 3 i)).elim false fun o => decide (r.base < o.base + o.span ∧ o.base < r.base + r.span))

/-- RSET (08/R256). -/
def execRset (w : Slot) (f : BitVec 30) (stamp : BitVec 16) (s : State) : Host.Outcome State Fault Refusal :=
  issue ((Issue.long w stamp []).of (.rset w f stamp)) .X (fun s h =>
    let (g, r) := ringOf f
    if ringBad h g r then raise clsRing
    else if 4096 * h.spad.length < r.base + r.span then faultAt clsProtection r.va
    else if (s.cmdsOf h.id.uid).any fun c => c.kind.names g then .error (.wait .engine (arrayWaits s h) 6)
    else .ok (s, h.setRing g (some r))) s

/-! ## Formats (08/R258, R259; 03/R71) -/

/-- Class of a matrix operand format: narrow, narrow integer, 8-bit, 8-bit integer, half, single. -/
def arrayClass (f : BitVec 4) : Option Nat :=
  match f.toNat with
  | 13 | 14 => some 0
  | 8 | 12 => some 1
  | 3 | 4 | 15 => some 2
  | 7 | 11 => some 3
  | 1 | 2 => some 4
  | 0 => some 5
  | _ => none

/-- The A and W formats are of an integer class. -/
def XTypes.integer (t : XTypes) : Bool := arrayClass t.af == some 1 || arrayClass t.af == some 3

/-- Signedness bit that a format must have. -/
def signBit (f : BitVec 4) : Bool := !decide (9 ≤ f.toNat ∧ f.toNat ≤ 12)

/-- A float format. -/
def isFloat (f : BitVec 4) : Bool :=
  match kindCode f with
  | .float _ => true
  | _ => false

/-- An accepted pair of operand formats. -/
def XTypes.operandsOk (t : XTypes) : Bool :=
  (arrayClass t.af).isSome && arrayClass t.af == arrayClass t.wf && t.asg == signBit t.af && t.wsg == signBit t.wf

/-- An accepted pair of operand formats with an output format. -/
def XTypes.pairOk (t : XTypes) : Bool := t.operandsOk && (if t.integer then t.out == 5 else isFloat t.out)

/-- A count along the packed axis of a format. -/
def countOk (f : BitVec 4) (n : Nat) : Bool := fmtBits f ≠ 0 || n % 32 == 0

/-- Bytes of n packed elements. -/
def rowBytes (f : BitVec 4) (n : Nat) : Nat := if fmtBits f = 0 then n / 32 * blockBytes f else (n * fmtBits f + 7) / 8

/-- The exact values of n packed elements of a row image. -/
def rowValues (f : BitVec 4) (v n : Nat) : List Num :=
  match kindCode f with
  | .cb p w b => (List.range n).map fun i => cbValue p w (fieldAt v (8 * b * (i / 32)) (8 * b)) (i % 32)
  | k => (List.range n).map fun i => k.value (fieldAt v (k.width * i) k.width)

/-- The bytes of packed elements. -/
def packRow (f : BitVec 4) (es : List Nat) : List Byte :=
  leBytes (rowBytes f es.length) (es.foldr (fun x acc => x % 2 ^ fmtBits f + 2 ^ fmtBits f * acc) 0)

/-! ## Issue of a matrix command (08/R251, R255, R261, R273) -/

/-- Reduction and columns of the tile that the last MWLD of the run provides. -/
def lastTile (s : State) (h : Heat) : Option (Nat × Nat × Nat) :=
  let l := leaseOf s h.crew
  match l.lastMwld with
  | none => none
  | some id =>
    match s.cmds.find? fun c => c.id == id with
    | some c => (match c.kind with
      | .mwld _ k n _ => some (id, k, n)
      | _ => none)
    | none => (l.weights.filter fun x => x.cmd == id).map fun x => (id, x.k, x.n)

/-- A command with no fields of its own: MWLD names no object. -/
def plainCtl (stamp : BitVec 16) : Ctl := { stamp := stamp, reloc := false, spec := false, co := 0 }

/-- Go on when a condition holds; otherwise the illegal fault. -/
def legal (c : Bool) : Run Unit := need c Stay.illegal

/-- A ring that a matrix command names, large enough; only a source may be fixed (08/R257, R259). -/
def arrayRing (h : Heat) (g : BitVec 3) (bytes : Nat) (fixed : Bool) : Run Unit :=
  match h.ring? g with
  | none => raise clsRing
  | some r => if r.tileSize < bytes ∨ (r.c = 0 ∧ !fixed) then raise clsRing else .ok ()

/-- In coxed mode the first tile of a command must be there (08/R274). -/
def firstTile (h : Heat) (ok : Bool) : Run Unit := need (!h.id.coxed || ok) (.wait .engine [] 6)

/-- A tile is filled, or the ring is fixed. -/
def tileReady (h : Heat) (g : BitVec 3) : Bool := (h.ring? g).elim false fun r => r.c == 0 || !r.tiles.isEmpty

/-- A tile is free. -/
def tileFree (h : Heat) (g : BitVec 3) : Bool := (h.ring? g).elim false fun r => decide (r.tiles.length < r.count)

/-- A region scalar: row count, offset, taint. -/
def regionScalar (h : Heat) (sr : BitVec 6) (used : Bool) : Run (Nat × Nat × Bool) :=
  match readS h .X sr with
  | .error e => .error e
  | .ok x =>
    let n := x.v.toNat % 2 ^ 32
    let off := x.v.toNat / 2 ^ 40
    if 2 ^ 24 < n ∨ x.v.toNat / 2 ^ 32 % 2 ^ 8 ≠ 0 ∨ (used ∧ off % 32 ≠ 0) then .error Stay.illegal
    else .ok (n, off, x.t)

/-- A region lies in the heat's own ASR. -/
def regionIn (h : Heat) (off n : Nat) : Run Unit :=
  if inAsr h off n then .ok () else faultAt clsProtection (BitVec.ofNat 64 (asrWindow + off))

/-! ### The array's rates (01/R5; 08/R258, R260, R263, R269) -/

/-- Half cycles per operand row of a class, by a format of the class. -/
def rateOf (f : BitVec 4) (exact : Bool) : Nat :=
  if exact then 16
  else match kindCode f with
    | .cb 7 _ _ => 2
    | .cb _ _ _ => 1
    | .int _ 4 => 1
    | .float f => if f.width = 8 then 2 else if f.width = 16 then 4 else 16
    | .int _ _ => 2

/-- Cycles of a weight load's rows, without the 16 that follow. -/
def loadRows (wf : BitVec 4) (k : Nat) : Nat := k * max 2 (rateOf wf false) / 2

/-- Cycles of an MRET or MCLR of some cells of a kind: f32, la640, i32. -/
def retireCycles (kind cells : Nat) : Nat := 16 + (if kind = 1 then (cells + 3) / 4 else (cells + 31) / 32)

/-- A matrix command issues: its lease, its checks, its object, its place in the array's queue of eight. DESIGN CHOICE
(log 73): an MRET of no rows, which completes at once (08/R261), starts the depth count of 08/R272 anew at its issue. -/
def matrixBody (c : Ctl) (co : Option Nat) (op : Nat) (prep : State → Heat → Run (CmdKind × Bool)) (s : State)
    (h : Heat) : Run (State × Heat) :=
  if (h.ahead .X (· == .stash)).isSome then .error (.wait .empty [.L] 3)
  else if !leased s h then raise clsNoLease
  else match prep s h with
    | .error e => .error e
    | .ok (kind, now) =>
      match co.bind (busyWait s h) with
      | some e => .error e
      | none =>
        if 8 ≤ (matrixOf s h.id.uid).length then .error (.wait .engine (arrayWaits s h) 7)
        else
          let k := { newCmd s h .X c op kind co none with phase := .running }
          let h1 := { co.elim h (fun j => h.begin j .X (engineOf kind) op) with cmdCount := h.cmdCount + 1 }
          let l := leaseOf s h.crew
          let s1 := putLease { s with cmds := s.cmds ++ [k], nextId := s.nextId + 1 }
            { l with
              left := l.left - 1
              rows := match kind with
                | .mret .. => if now then 0 else l.rows
                | _ => l.rows
              lastMwld := match kind with
                | .mwld .. => some k.id
                | _ => l.lastMwld }
          if now then
            let s2 := finishCmd (s1.putHeat h1) { k with spent := true }
            .ok (s2, (s2.heat? h.id.uid).getD h1)
          else .ok (s1, h1)

/-- A matrix word in the command layout. -/
def matrixWord (w : Slot) (c : Ctl) (op engine : Nat) (i : Instr) (names : List (BitVec 6))
    (prep : State → Heat → Run (CmdKind × Bool)) (s : State) : Host.Outcome State Fault Refusal :=
  issue (((Issue.long w c.stamp names).of i).command engine op c) .X (matrixBody c (some c.co.toNat) op prep) s

/-- MWLD (08/R260). -/
def execMwld (w : Slot) (ring : BitVec 3) (k1 n1 : BitVec 8) (stamp : BitVec 16) (s : State) :
    Host.Outcome State Fault Refusal :=
  issue { (Issue.long w stamp []).of (.mwld w ring k1 n1 stamp) with engine := some 4 } .X
    (matrixBody (plainCtl stamp) none 0x30 (fun _ h => do
      let t := h.x.types
      let k := k1.toNat + 1
      let n := n1.toNat + 1
      legal (t.pairOk && countOk t.wf n)
      arrayRing h ring (k * rowBytes t.wf n) true
      firstTile h (tileReady h ring)
      return (.mwld ring k n t.wf, false))) s

/-- A stream that supplies rows, or takes them: set, of a format, and long enough. -/
def streamFits (h : Heat) (q : BitVec 4) (f : BitVec 4) (n : Nat) : Run Unit :=
  match descOf h .X q with
  | .error e => .error e
  | .ok d => legal (d.fmt == f && decide (n ≤ d.elems))

/-- Cell kind of an accumulation: i32 for the integer classes, else f32 or la640. -/
def cellKind (t : XTypes) (exact : Bool) : Nat := if t.integer then 2 else if exact then 1 else 0

/-- Format and elements of an output row: MTOPK gives i32 indices. -/
def outRow (p : Product) (t : XTypes) (n : Nat) : BitVec 4 × Nat :=
  match p with
  | .mtopk k _ _ => (5, k)
  | _ => (t.out, n)

/-- The formats of a product; MTOPK ignores the output format (08/R258, R265). -/
def Product.typesOk (p : Product) (t : XTypes) : Bool :=
  match p with
  | .mtopk _ _ _ => t.operandsOk
  | _ => t.pairOk

/-- An entry of a stream is there for the array, or place for one. -/
def entryReady (h : Heat) (q : BitVec 3) : Bool :=
  match vecSource true h (16 + q.setWidth 5) with
  | .ok _ => true
  | .error _ => false

/-- The destination can take a row: a free tile, or a place in the stream. -/
def rowRoom (h : Heat) (dk : Nat) (dst : BitVec 3) : Bool :=
  match dk with
  | 0 => tileFree h dst
  | 1 => match vecRoom false h (24 + dst.setWidth 5) with
    | .ok () => true
    | .error _ => false
  | _ => true

/-- The checks of MMUL, MDIST and MTOPK (08/R261, R265, R273); in coxed mode the first row must be there and have its place
(08/R274). -/
def prodPrep (p : Product) (src : BitVec 3) (srcQ : Bool) (dk : BitVec 2) (dst : BitVec 3) (sr : BitVec 6) (s : State)
    (h : Heat) : Run (CmdKind × Bool) := do
  let t := h.x.types
  let acc := decide (2 ≤ dk.toNat)
  let (rows, off, taint) ← regionScalar h sr acc
  legal (p.typesOk t)
  match lastTile s h with
  | none => .error Stay.illegal
  | some (mw, k, n) =>
    legal (countOk t.af k)
    let (of_, on_) := outRow p t n
    if srcQ then streamFits h (src.setWidth 4) t.af k
    if dk = 1 then streamFits h (8 + dst.setWidth 4) of_ on_
    if !srcQ then arrayRing h src (rowBytes t.af k) true
    if dk = 0 then arrayRing h dst (rowBytes of_ on_) false
    if acc then regionIn h off (rows * n * cellSize (cellKind t (dk == 3)))
    firstTile h (rows == 0 || ((if srcQ then entryReady h src else tileReady h src) && rowRoom h dk.toNat dst))
    return (.prod p src srcQ dk.toNat dst rows off t mw taint, rows == 0)

/-- MMUL (08/R261, R263). -/
def execMmul (w : Slot) (src : BitVec 3) (srcQ : Bool) (dk : BitVec 2) (dst : BitVec 3) (sr : BitVec 6) (c : Ctl)
    (s : State) : Host.Outcome State Fault Refusal :=
  matrixWord w c 0x32 4 (.mmul w src srcQ dk dst sr c) [sr] (prodPrep .mmul src srcQ dk dst sr) s

/-- MDIST (08/R261, R263). -/
def execMdist (w : Slot) (src : BitVec 3) (srcQ : Bool) (dk : BitVec 2) (dst : BitVec 3) (sr : BitVec 6) (c : Ctl)
    (s : State) : Host.Outcome State Fault Refusal :=
  matrixWord w c 0x33 4 (.mdist w src srcQ dk dst sr c) [sr] (prodPrep .mdist src srcQ dk dst sr) s

/-- MTOPK (08/R261, R265). -/
def execMtopk (w : Slot) (src : BitVec 3) (srcQ : Bool) (dk : BitVec 2) (dst : BitVec 3) (largest : Bool)
    (kr1 : BitVec 4) (dist : Bool) (sr : BitVec 6) (c : Ctl) (s : State) : Host.Outcome State Fault Refusal :=
  matrixWord w c 0x34 4 (.mtopk w src srcQ dk dst largest kr1 dist sr c) [sr]
    (prodPrep (.mtopk (kr1.toNat + 1) largest dist) src srcQ dk dst sr) s

/-- The bag's cells fit the array's state (11/R337). -/
def bagFits (b : Bag) (t : XTypes) (n : Nat) (acc exact : Bool) : Bool :=
  b.cells == n &&
    (if t.integer then b.kind == 2
     else if acc then b.kind == cellKind t exact
     else b.kind == 0 && decide (rowBytes t.out n ≤ 4 * n))

/-- The checks of MBAG (08/R266, R273; 11/R337). -/
def bagPrep (ring : BitVec 3) (acc exact : Bool) (disp : BitVec 17) (s : State) (h : Heat) : Run (CmdKind × Bool) := do
  let t := h.x.types
  legal t.pairOk
  let b ← bagNamed h .X (displace h.X.pc disp)
  match lastTile s h with
  | none => .error Stay.illegal
  | some (mw, k, n) =>
    legal (countOk t.af k && bagFits b t n acc exact)
    arrayRing h ring (rowBytes t.af k) false
    regionIn h b.acc b.regionSize
    firstTile h (tileReady h ring || b.phase == .closed)
    return (.mbag ring b.id acc exact t mw, false)

/-- The bag of a command, once a steering MBAG of it has issued, is a steer bag (08/R269). -/
def markSteered (acc : Bool) (s : State) (h : Heat) : Heat :=
  match acc, s.cmds.getLast?.map fun (k : Cmd) => k.kind with
  | false, some (.mbag _ id _ _ _ _) =>
    { h with bags := mapIf (fun b => b.id == id) (fun b => { b with steered := true }) h.bags }
  | _, _ => h

/-- MBAG (08/R266; 11/R337). -/
def execMbag (w : Slot) (ring : BitVec 3) (acc exact : Bool) (disp : BitVec 17) (c : Ctl) (s : State) :
    Host.Outcome State Fault Refusal :=
  issue (((Issue.long w c.stamp []).of (.mbag w ring acc exact disp c)).command 3 0x31 c) .X (fun s h =>
    match matrixBody c (some c.co.toNat) 0x31 (bagPrep ring acc exact disp) s h with
    | .error e => .error e
    | .ok (s1, h1) => .ok (s1, markSteered acc s1 h1)) s

/-- The closed bag that MRET names: its BAGCLOSE stands earlier in text time (08/R268), and no BAGOPEN of the record that
L has not issued yet. -/
def bagClosed (h : Heat) (recAddr : Dword) : Run Bag :=
  if !h.S.ended ∧ h.tt .S < h.tt .X then .error (.wait .empty [.S] 3)
  else if (h.ahead .X (· == .opens recAddr)).isSome then .error (.wait .empty [.L] 3)
  else match latestBag (h.bags.filter fun b => b.recAddr == recAddr.toNat && decide (b.openTT < h.tt .X)) with
    | none => .error Stay.illegal
    | some b => if b.closeTT.elim false fun c => decide (c < h.tt .X) then .ok b else .error Stay.illegal

/-- The output format that retirement of a kind of cell needs (08/R269). -/
def retireFormat (kind : Nat) (out : BitVec 4) : Bool := if kind = 2 then out == 5 else isFloat out

/-- MRET, bag form (08/R268). -/
def execMret (w : Slot) (force : Bool) (disp : BitVec 17) (c : Ctl) (s : State) : Host.Outcome State Fault Refusal :=
  matrixWord w c 0x35 4 (.mret w force disp c) [] (fun _ h => do
    let b ← bagClosed h (displace h.X.pc disp)
    legal (retireFormat b.kind h.x.types.out)
    return (.mret (some b.id) force b.kind b.cells b.tags b.acc h.x.types false, false)) s

/-- MRET, region form (08/R268). -/
def execMretRegion (w : Slot) (kind : BitVec 2) (n1 : BitVec 8) (sr : BitVec 6) (c : Ctl) (s : State) :
    Host.Outcome State Fault Refusal :=
  matrixWord w c 0x35 4 (.mretRegion w kind n1 sr c) [sr] (fun _ h => do
    let (rows, off, t) ← regionScalar h sr true
    legal (retireFormat kind.toNat h.x.types.out)
    let n := n1.toNat + 1
    regionIn h off (rows * n * cellSize kind.toNat)
    return (.mret none false kind.toNat n rows off h.x.types t, rows == 0)) s

/-- MCLR (08/R270). -/
def execMclr (w : Slot) (kind : BitVec 2) (n1 : BitVec 8) (sr : BitVec 6) (c : Ctl) (s : State) :
    Host.Outcome State Fault Refusal :=
  matrixWord w c 0x36 4 (.mclr w kind n1 sr c) [sr] (fun _ h => do
    let (rows, off, _) ← regionScalar h sr true
    let n := n1.toNat + 1
    regionIn h off (rows * n * cellSize kind.toNat)
    return (.mclr kind.toNat n rows off, rows == 0)) s

/-! ## The array at work (03/R73, R74; 08/R259 to R265) -/

/-- The command that the array performs: the heat's first matrix command. -/
def arrayTurn (s : State) (c : Cmd) : Bool := (matrixOf s c.heat).head?.elim false fun k => k.id == c.id

/-- The tile that a command's MWLD provided. -/
def tileFor (s : State) (h : Heat) (mw : Nat) : Option Weights := (leaseOf s h.crew).weights.filter fun x => x.cmd == mw

/-- Fault class of damaged data read since a state: an error found now, or poison. -/
def damageClass (before after : State) : BitVec 8 :=
  if after.mem.errors = before.mem.errors then clsPoison else clsUncorrectable

/-- The MWLD that provides a tile has still to load it. -/
def loadPending (s : State) (mw : Nat) : Bool := s.cmds.any fun c => c.id == mw && !c.spent

/-- MWLD has read its tile and loads it (08/R260): a damaged one leaves the array without a tile. -/
def loadTile (s : State) (h : Heat) (c : Cmd) (g : BitVec 3) (k n : Nat) (wf : BitVec 4) : State × Cmd :=
  let l := leaseOf s h.crew
  let fail (s : State) (cls : BitVec 8) (va : Dword) : State × Cmd :=
    (putLease s { l with weights := none }, c.done 0 (some (cls, va)))
  match h.ring? g with
  | none => fail s clsRing 0
  | some r =>
    match engineSpan s h c.index r.headVa (k * rowBytes wf n) with
    | .error (.fault cls va _) => fail s cls va
    | .error _ => (s, c)
    | .ok (s1, data, bad) =>
      if bad then fail s1 clsPoison r.headVa
      else
        let tile : Weights :=
          { k := k, n := n, fmt := wf, cmd := c.id, data := BitVec.ofNat 2097152 (leNat (data.map (·.1)))
            taint := data.any (·.2) }
        let s2 := putLease s1 { leaseOf s1 h.crew with weights := some tile }
        (streamIn (if r.c = 0 then s2 else popTile s2 h.id.uid g) h, c.done 0 none)

/-- MWLD ends with its load; one whose tile never comes leaves the array without a tile (log 64). -/
def performLoad (s : State) (h : Heat) (c : Cmd) (g : BitVec 3) : Performed :=
  if arrayTurn s c && c.begin_.isNone && !tileReady h g && ringDead s h (·.fills g) then
    some (putLease s { leaseOf s h.crew with weights := none }, c.done 0 none)
  else none

/-- Column n of a tile, from k ascending. -/
def Weights.rows (w : Weights) : List (List Num) :=
  (List.range w.k).map fun k =>
    rowValues w.fmt (w.data.toNat / 2 ^ (8 * k * rowBytes w.fmt w.n) % 2 ^ (8 * rowBytes w.fmt w.n)) w.n

/-- One cell: the sum over k of products, or of squared differences. -/
def chainSum (dist : Bool) : List (Num × Num) → Num → Conds → Num × Conds
  | [], acc, c => (acc, c)
  | (a, w) :: t, acc, c =>
    let x := if dist then let d := a.add rne w.neg; d.mul d else a.mul w
    let r := chainStep acc x
    chainSum dist t r.1 (c.or r.2)

/-- The results of an operand row against a tile. -/
def arrayRow (w : Weights) (a : List Num) (dist : Bool) : List Num × Conds :=
  let ws := w.rows
  let rs := (List.range w.n).map fun n =>
    chainSum dist (a.zip (ws.map fun row => row.getD n (.fin false 0 0))) (.fin false 0 0) Conds.none
  (rs.map (·.1), anyConds (rs.map (·.2)))

/-- Whether a result ranks before another (08/R265). -/
def ranksBefore (largest : Bool) (x y : Nat × Num) : Bool :=
  let less (a b : Num) : Bool := a.lt b || (a.eq b && a.isNeg && !b.isNeg)
  match x.2, y.2 with
  | .nan _, .nan _ => decide (x.1 < y.1)
  | .nan _, _ => false
  | _, .nan _ => true
  | a, b => if less a b then !largest else if less b a then largest else decide (x.1 < y.1)

/-- Insert by rank. -/
def insertRank (largest : Bool) (x : Nat × Num) : List (Nat × Num) → List (Nat × Num)
  | [] => [x]
  | y :: t => if ranksBefore largest x y then x :: y :: t else y :: insertRank largest x t

/-- The k column indices that rank first. -/
def topIndices (k : Nat) (largest : Bool) (rs : List Num) : List Nat :=
  let order := (rs.zipIdx.map fun r => (r.2, r.1)).foldr (insertRank largest) []
  (List.range k).map fun i => (order[i]?).elim (2 ^ 32 - 1) (·.1)

/-- Elements delivered in the output format, with conditions. -/
def deliverRow (t : XTypes) (rs : List Num) : List Nat × Conds :=
  let es := rs.map fun x => (kindCode t.out).deliver t.rm x
  (es.map (·.1), anyConds (es.map (·.2)))

/-- An operand row: nothing yet, a fault, or its values, its taint, and the state after its tile or entry is gone. -/
def takeRow (s : State) (h : Heat) (c : Cmd) (src : BitVec 3) (srcQ : Bool) (af : BitVec 4) (k : Nat) :
    RowResult (List Num × Bool) :=
  if srcQ then
    match vecSource true h (16 + src.setWidth 5) with
    | .error _ => .wait
    | .ok (e, pop) =>
      let v := e.bits.toNat % 2 ^ (8 * rowBytes af k)
      .ok (s.onHeat h.id.uid pop) (rowValues af v k, (List.range ((rowBytes af k + 3) / 4)).any e.taint.getLsbD)
  else if !tileReady h src then .wait
  else match h.ring? src with
    | none => .fault s clsRing
    | some r => (rowRun s ((engineSpan s h c.index r.headVa (rowBytes af k)).map fun x => (x.1, x.2))).bind fun s1 x =>
        if x.2 then .fault s1 (damageClass s s1)
        else .ok (if r.c = 0 then s1 else popTile s1 h.id.uid src)
          (rowValues af (leNat (x.1.map (·.1))) k, x.1.any (·.2))

/-- The array may take a row up to the task type's reduction depth (08/R272). -/
def countRow (s : State) (h : Heat) : State :=
  let l := leaseOf s h.crew
  putLease s { l with rows := l.rows + 1 }

def depthLeft (s : State) (h : Heat) : Bool := decide ((leaseOf s h.crew).rows < h.type.depth)

/-- An output row leaves the array (08/R263). -/
def putOut (s : State) (h : Heat) (c : Cmd) (p : Product) (dk : Nat) (dst : BitVec 3) (off row : Nat) (t : XTypes) (taint : Bool)
    (rs : List Num) : RowResult Conds :=
  let out : BitVec 4 × List Nat × Conds := match p with
    | .mtopk k largest _ => (5, topIndices k largest rs, Conds.none)
    | _ => (t.out, deliverRow t rs)
  match dk with
  | 0 =>
    match h.ring? dst with
    | none => .fault s clsRing
    | some r => (putRow s h r.tailVa (withTaint taint (packRow out.1 out.2.1))).bind fun s1 _ =>
        .ok (pushTile s1 h.id.uid dst { bag := none, tag := 0, member := 0, replaced := false }) out.2.2
  | 1 =>
    let e : VReg := { bits := packBits (fmtBits out.1) out.2.1, taint := allTaint taint }
    let q : BitVec 5 := 24 + dst.setWidth 5
    .ok (s.onHeat h.id.uid fun h => markDue 0 (streamOf q) h (vecWrite h q (BitVec.allOnes 64) e false)) out.2.2
  | _ =>
    let kind := cellKind t (dk == 3)
    let size := rs.length * cellSize kind
    let at_ := off + row * size
    if rangeError s h at_ size then .fault (discoverRange s h at_ size c.index) clsUncorrectable
    else
      let r := addCells s h kind taint at_ rs Conds.none
      .ok r.1 r.2

/-- The measure of a product. -/
def Product.dist : Product → Bool
  | .mmul => false
  | .mdist => true
  | .mtopk _ _ d => d

/-- The array reads no row of a command after those that it has, because of a fault or because there is none. -/
def Cmd.stopRead (c : Cmd) (fault : Option (BitVec 8 × Dword)) : Cmd := { c with readDone := true, stopAt := fault }

/-- The half cycle in which the array takes what it may take from half cycle t on and finds in this cycle. -/
def takenAt (now t : Nat) : Nat := if 2 * now ≤ t + 1 then t else 2 * now

/-- A row enters the array: its results are written K + N + 12 cycles later, and the next row may enter at the class's
rate (01/R5; 08/R263). -/
def Cmd.enter (c : Cmd) (now pace : Nat) (w : Weights) (taint discarded : Bool) (tag : Nat) (r : List Num × Conds) : Cmd :=
  { c with
    entered := c.entered + 1, nextIn := takenAt now c.nextIn + pace
    inside := c.inside ++ [{ due := now + w.k + w.n + 12, results := r.1, conds := stick 0 r.2, taint := taint, tag := tag,
                             discarded := discarded }] }

/-- A product reads its next operand row, or ends its reading; none while it waits (08/R257, R260, R263, R264, R272). -/
def readProd (s : State) (h : Heat) (c : Cmd) (p : Product) (src : BitVec 3) (srcQ : Bool) (dk n : Nat) (t : XTypes)
    (mw : Nat) (taint : Bool) : Performed :=
  match tileFor s h mw with
  | none => if loadPending s mw then none else some (s, c.stopRead (some (clsIllegal, 0)))
  | some w =>
    if (if srcQ then !entryReady h src && nothingIssues h else !tileReady h src && ringDead s h (·.fills src)) then
      some (s, c.stopRead none)
    else if !srcQ && !tileReady h src then none
    else if !depthLeft s h then some (s, c.stopRead (some (clsIllegal, 0)))
    else match takeRow s h c src srcQ t.af w.k with
      | .wait => none
      | .fault s1 cls => some (s1, c.stopRead (some (cls, if srcQ then 0 else (h.ring? src).elim 0 (·.headVa))))
      | .ok s1 a =>
        let c1 := c.enter s.now (rateOf t.af (dk == 3)) w (taint || a.2 || w.taint) false 0 (arrayRow w a.1 p.dist)
        some (streamIn (countRow s1 h) h, { c1 with readDone := decide (n ≤ c1.entered) })

/-- The values that stand for a row at its place, written piece by piece. -/
def putAsrBytes (s : State) (h : Heat) (off : Nat) (data : List (Byte × Bool)) : State :=
  (pieces off data.length).foldl (fun s p =>
    writePhys s h.id.uid h.die (asrPa h (off + p.1)) 0 ((data.drop p.1).take p.2)) s

/-- A row of a steered bag (08/R267): the state, conditions, and whether the contribution was discarded. -/
def steerRow (s : State) (h : Heat) (b : Bag) (cmd tag : Nat) (t : XTypes) (taint : Bool) (rs : List Num) :
    State × Conds × Bool :=
  let out := deliverRow t rs
  let bytes := packRow t.out out.1
  let off := b.acc + tag * bytes.length
  if rangeDamaged s h off bytes.length then (poisonTag (discoverRange s h off bytes.length cmd) h b tag, Conds.none, true)
  else (putAsrBytes s h off (withTaint (taint || manyMembers s h b tag) bytes), out.2, false)

/-- No row of a bag can land any more: it is closed or abandoned, or its heat stops and nothing of it will issue
(08/R267; 11/R343; 07/R215). -/
def bagOver (s : State) (h : Heat) (b : Bag) : Bool :=
  !((s.cmdsOf h.id.uid).any fun c => c.gathers b.id) &&
    (b.phase == .closed || b.phase == .abandoned || (b.phase == .failed && (h.L.ended || h.L.stopped)) ||
      ((h.S.ended || h.S.stopped) && (h.L.ended || h.L.stopped) && b.closeTT.isNone))

/-- MBAG reads its next tile, or ends its reading once it has consumed every tile of its bag; none while it waits
(08/R260, R267; 11/R337, R342; 15/R390). A replaced tile contributes zeros. -/
def readTile (s : State) (h : Heat) (c : Cmd) (g : BitVec 3) (bag : Nat) (exact : Bool) (t : XTypes) (mw : Nat) : Performed :=
  match h.bag? bag, h.ring? g with
  | none, _ => some (s, c.stopRead none)
  | _, none => some (s, c.stopRead (some (clsRing, 0)))
  | some b, some r =>
    match tileFor s h mw with
    | none => if loadPending s mw then none else some (s, c.stopRead (some (clsIllegal, 0)))
    | some w =>
      if b.phase = .opening then none
      else if bagOver s h b && !(r.tiles.any fun t => t.bag == some bag) then some (s, c.stopRead none)
      else match r.tiles.head? with
        | none => none
        | some tile =>
          if tile.bag ≠ some bag then some (s, c.stopRead (some (clsRing, r.headVa)))
          else if !depthLeft s h then some (s, c.stopRead (some (clsIllegal, 0)))
          else if blockDamaged s h b then
            some (findBlock s h b c.index, c.stopRead (some (clsUncorrectable, r.headVa)))
          else match rowRun s ((engineSpan s h c.index r.headVa (rowBytes t.af w.k)).map fun x => (x.1, x.2)) with
            | .wait => none
            | .fault s1 cls => some (s1, c.stopRead (some (cls, r.headVa)))
            | .ok s1 x =>
              let zeros : List Num × Conds := (List.replicate w.n (.fin false 0 0), Conds.none)
              let rs := if x.2 then ([], Conds.none) else if tile.replaced then zeros
                else arrayRow w (rowValues t.af (leNat (x.1.map (·.1))) w.k) false
              some (streamIn (bump (countRow (popTile s1 h.id.uid g) h) h b cntConsumed) h,
                c.enter s.now (rateOf t.af exact) w (x.1.any (·.2) || w.taint) x.2 tile.tag rs)

/-- The results of a tile of MBAG are put in their place; a poisoned tile poisons its tag (11/R342). -/
def putBag (s : State) (h : Heat) (c : Cmd) (b : Bag) (acc : Bool) (t : XTypes) (r : InRow) : State × Conds × Bool :=
  if r.discarded then (poisonTag s h b r.tag, Conds.none, true)
  else if acc then addRow s h b c.index r.tag r.taint r.results
  else steerRow s h b c.index r.tag t r.taint r.results

/-- The conditions and counts of a row join the command. -/
def Cmd.row (c : Cmd) (x : Conds) (skipped : Bool) : Cmd :=
  { c with rows := c.rows + 1, prog := c.rows + 1, conds := stick c.conds x, zeroed := c.zeroed + boolNat skipped }

/-- The oldest row inside the array leaves it. -/
def Cmd.leave (c : Cmd) (r : InRow) (x : Conds) (skipped : Bool) : Cmd :=
  { c.row x skipped with inside := c.inside.tail, conds := stick (c.conds ||| r.conds) x }

/-- Status detail of a matrix command: conditions, and a count of rows. -/
def Cmd.matrixDetail (c : Cmd) : Nat := c.conds.toNat + c.zeroed % 2 ^ 16 * 2 ^ 16

/-! ### A cycle of the array (08/R255) -/

/-- Whether the array can start a command whose turn to be read has come: an MWLD whose tile is filled (08/R260), a bag's
MRET once its close and the commands before it are done (08/R268). -/
def mayStart (s : State) (h : Heat) (c : Cmd) : Bool :=
  match c.kind with
  | .mwld g _ _ _ => tileReady h g
  | .mret (some id) _ _ _ _ _ _ _ => arrayTurn s c && (h.bag? id).elim true fun b => b.phase == .closed
  | _ => true

/-- A command starts when those before it have read their last rows. -/
def startCmd (s : State) (h : Heat) (c : Cmd) : Cmd :=
  let free := (leaseOf s h.crew).freeAt
  if c.begin_.isSome || decide (2 * s.now < free) || !mayStart s h c then c
  else { c with begin_ := some s.now, nextIn := takenAt s.now free }

/-- Store a command under its number. -/
def putCmd (s : State) (c : Cmd) : State := { s with cmds := mapIf (fun x => x.id == c.id) (fun _ => c) s.cmds }

/-- The command has read its last row: the array can start the next one from a half cycle on. -/
def freeFrom (s : State) (h : Heat) (c : Cmd) (t : Nat) : State :=
  putLease (putCmd s c) { leaseOf s h.crew with freeAt := t }

/-- A started command reads what it can in this cycle, at most one row per half cycle. -/
def readRows : Nat → State → Nat → State
  | 0, s, _ => s
  | n + 1, s, id =>
    match s.cmds.find? fun c => c.id == id with
    | none => s
    | some c =>
      match s.heat? c.heat, c.begin_ with
      | some h, some b =>
        let timed (k : Nat) : State :=
          if c.readDone || decide (s.now < b + k) then s else freeFrom s h { c with readDone := true } (2 * (b + k))
        let go (r : Performed) : State :=
          match r with
          | none => s
          | some (s1, c1) =>
            if c1.readDone then freeFrom s1 h c1 c1.nextIn else readRows n (putCmd s1 c1) id
        (match c.kind with
         | .mwld g k m wf =>
           let s1 := timed (loadRows wf k)
           if c.spent || decide (s.now < b + loadRows wf k + 16) then s1
           else
             let r := loadTile s1 h { c with readDone := true } g k m wf
             putCmd r.1 r.2
         | .prod p src srcQ dk _ m _ t mw taint =>
           if c.readDone || decide (2 * s.now < c.nextIn) then s else go (readProd s h c p src srcQ dk m t mw taint)
         | .mbag g bag _ exact t mw =>
           if c.readDone || decide (2 * s.now < c.nextIn) then s else go (readTile s h c g bag exact t mw)
         | .mret _ _ kind m rows _ _ _ => timed (retireCycles kind (m * rows))
         | .mclr kind m rows _ => timed (retireCycles kind (m * rows))
         | _ => s)
      | _, _ => s

/-- A matrix command in a cycle of the array; the answer says whether every command so far has read its last row. -/
def arrayStep (acc : State × Bool) (id : Nat) : State × Bool :=
  match acc.1.cmds.find? fun c => c.id == id with
  | none => acc
  | some c =>
    match acc.1.heat? c.heat with
    | none => acc
    | some h =>
      if engineHeld acc.1 c || unmapHeld acc.1 c then (acc.1, false)
      else
        let s1 := if acc.2 then putCmd acc.1 (startCmd acc.1 h c) else acc.1
        let s2 := nameWord acc.1.nextId c.word (readRows 3 (s1.performs c) id).performed
        (s2, acc.2 && (s2.cmds.find? fun c => c.id == id).elim true (·.readDone))

/-- The arrays in a cycle: each starts, loads and reads what it can, in issue order (08/R255). -/
def arrayCycle (s : State) : State :=
  if s.cmds.any fun c => c.kind.matrix then
    s.heats.foldl (fun s h => (((matrixOf s h.id.uid).map (·.id)).foldl arrayStep (s, true)).1) s
  else s

/-- The cycle of the results of a command's oldest row inside the array has come (08/R263). -/
def rowDue (s : State) (c : Cmd) : Bool := c.inside.head?.elim false fun r => decide (r.due ≤ s.now)

/-- Nothing makes the place for a product's row any more (log 64). -/
def roomOver (s : State) (h : Heat) (dk : Nat) (dst : BitVec 3) : Bool :=
  !rowRoom h dk dst && (if dk = 0 then ringDead s h (·.takes dst) else nothingIssues h)

/-- ARRAY_ROW_RESULT (08/R263, R267): the oldest row inside the array of the command whose turn it is leaves it for its
place. -/
def execArrayRowResult (cmd : Nat) (s : State) : Host.Outcome State Fault Refusal :=
  match s.cmds.find? fun c => c.id == cmd && !c.spent && arrayTurn s c && rowDue s c && !engineHeld s c && !unmapHeld s c with
  | none => .next s
  | some c =>
    match s.heat? c.heat, c.inside.head? with
    | some h, some r =>
      (match c.kind with
       | .prod p _ _ dk dst _ off t _ _ =>
         if roomOver s h dk dst then .next (putCmd s { c.stopRead none with inside := [] })
         else if !rowRoom h dk dst then .next s
         else (match putOut ((if dk < 2 then streamOut s h else s).performs c) h c p dk dst off c.rows t r.taint r.results with
           | .wait => .next s
           | .fault s1 cls => .next (putCmd s1.performed
               { c.stopRead (some (cls, BitVec.ofNat 64 (asrWindow + off + c.rows * r.results.length * cellSize (cellKind t (dk == 3)))))
                 with inside := [] })
           | .ok s1 x => .next (putCmd (nameWord s.nextId c.word s1.performed) (c.leave r x false)))
       | .mbag _ bag acc _ t _ =>
         (match h.bag? bag with
          | none => .next (putCmd s (c.leave r Conds.none true))
          | some b =>
            let x := putBag (s.performs c) h c b acc t r
            .next (putCmd x.1.performed (c.leave r x.2.1 x.2.2)))
       | _ => .next s)
    | _, _ => .next s

/-- MMUL, MDIST, MTOPK and MBAG are over when their last row is read and the results of every row are written. -/
def performProd (s : State) (c : Cmd) : Performed :=
  if arrayTurn s c && c.readDone && c.inside.isEmpty then
    some (s, { c with spent := true, fault := c.stopAt, extra := c.matrixDetail })
  else none

/-! ## Retirement and clearing (08/R269, R270) -/

/-- The values that replace a skipped row. -/
def skippedElem (out : BitVec 4) : Nat :=
  match kindCode out with
  | .float f => f.nan
  | _ => 0x80000000

/-- One cell's retired element, taint and conditions. -/
def retireCell (s : State) (h : Heat) (kind : Nat) (t : XTypes) (off : Nat) : Nat × Bool × Conds :=
  match kind with
  | 0 =>
    let r := convert (.float f32) (kindCode t.out) t.rm (asrWord s h off)
    (r.1, s.mem.tainted (asrPa h off), r.2)
  | 1 =>
    let r := (readAcc s (accOf h off)).retire (kindCode t.out) t.rm
    (r.1, false, r.2)
  | _ => (asrWord s h off, s.mem.tainted (asrPa h off), Conds.none)

/-- The bytes of packed elements, each byte with the taint of the elements in it. -/
def taintedRow (f : BitVec 4) (es : List (Nat × Bool)) : List (Byte × Bool) :=
  let w := max 1 (fmtBits f / 8)
  (packRow f (es.map (·.1))).zipIdx.map fun b => (b.1, (es.getD (b.2 / w) (0, false)).2)

/-- One row of MRET: read whole, then written; the answer counts a skipped row. DESIGN CHOICE (log 74): the words written
for a skipped row carry the region scalar's taint alone, and a region's row with a damaged cell is skipped as a bag's is. -/
def retireRow (s : State) (h : Heat) (cmd : Nat) (bag : Option Bag) (force : Bool) (kind n off : Nat) (t : XTypes) (taint : Bool)
    (r : Nat) : State × Conds × Bool :=
  let size := n * cellSize kind
  let src := off + r * size
  let dst := off + r * rowBytes t.out n
  let damaged := rangeDamaged s h src size
  let poisoned := bag.elim false fun b => tagFlag s h b r 2
  if damaged || (poisoned && !force) then
    let s0 := if damaged then discoverRange s h src size cmd else s
    let s1 := match bag with
      | some b => if damaged then poisonTag s0 h b r else s0
      | none => s0
    (putAsrBytes s1 h dst (taintedRow t.out (List.replicate n (skippedElem t.out, taint))), Conds.none, true)
  else
    let cells := (List.range n).map fun i => retireCell s h kind t (src + i * cellSize kind)
    let s1 := match bag with
      | some b => if poisoned then setTagFlag s h b r 4 else s
      | none => s
    (putAsrBytes s1 h dst (taintedRow t.out (cells.map fun x => (x.1, x.2.1 || taint))), anyConds (cells.map (·.2.2)), false)

/-- MRET's effect: nothing is written for a bag that is retired or that an MBAG steered; a bag whose control block is
damaged is abandoned (11/R342). -/
def performRet (s : State) (h : Heat) (c : Cmd) (bag : Option Nat) (force : Bool) (kind n rows off : Nat) (t : XTypes)
    (taint : Bool) : Performed :=
  if !arrayTurn s c then none
  else
    let b := bag.bind h.bag?
    let open_ : Bool := match bag with
      | none => false
      | some id => b.elim true fun b => b.phase != .closed && ((s.cmdsOf h.id.uid).all fun k => k.kind != .bagclose id)
    let waits : Bool := b.elim false fun b => b.phase != .closed
    if open_ then some (s, c.done 0 (some (clsIllegal, 0)))
    else if waits || !c.readDone then none
    else if b.elim false (blockDamaged s h) then
      some (b.elim s fun b => abandonBag (findBlock s h b c.index) h b, c.done 0 (some (clsUncorrectable, b.elim 0 fun b => BitVec.ofNat 64 (asrWindow + b.ctl))))
    else
      let skip := b.elim false fun b => b.retired || b.steered
      let go (acc : State × Cmd) (r : Nat) : State × Cmd :=
        let x := retireRow acc.1 h c.index b force kind n off t taint r
        (x.1, acc.2.row x.2.1 x.2.2)
      let r := if skip then (s, c) else (List.range rows).foldl go (s, c)
      let l := leaseOf r.1 h.crew
      let s1 := putLease r.1 { l with rows := 0 }
      let s2 := match b with
        | some b => setBagState (s1.onBag h.id.uid b.id fun b => { b with retired := true }) h b 2 true
        | none => s1
      some (s2, { r.2 with spent := true, prog := rows, extra := r.2.matrixDetail })

/-- MCLR's effect: the cleared cells are untainted. -/
def performClear (s : State) (h : Heat) (c : Cmd) (kind n rows off : Nat) : Performed :=
  if !arrayTurn s c || !c.readDone then none
  else some (putAsrs s h off (List.replicate (rows * n * (cellSize kind / 4)) (0, false)), c.done rows none)

end Sys2Proof.Machine
end

