-- ==== Sys2Proof/Machine/Place.lean ====
section
/-!
DEFINITION. Placing a heat on a core: the walkers' scan, and the room that a heat takes (02/R28, 19/R413).
-/

namespace Sys2Proof.Machine

/-- A coxed job holds the device's walkers (10/R307). -/
def coxedMode (s : State) : Bool := s.sched.elim false (·.live)

/-- Where a die's walker starts its scan of a die: the core after the last where it placed a heat. -/
def scanPos (s : State) (die d : Nat) : Nat :=
  ((s.dev.scan.find? fun e => e.1 == die && e.2.1 == d).map (·.2.2)).getD 0

/-- The cores in the order in which a die's walker scans them (19/R413). -/
def scanOrder (s : State) (die : Nat) : List Nat :=
  (List.range 4).flatMap fun i =>
    let d := (die + i) % 4
    (List.range 64).map fun k => 64 * d + (scanPos s die d + k) % 64

/-- The first core in scan order with room for a task type. -/
def findCore (s : State) (die : Nat) (t : TaskType) : Option Nat := (scanOrder s die).find? fun c => hasRoom s c t

/-- A walker has placed a heat on a core. -/
def noteScan (s : State) (die core : Nat) : State :=
  { s with dev := { s.dev with
      scan := (s.dev.scan.filter fun e => !(e.1 == die && e.2.1 == core / 64)) ++ [(die, core / 64, (core % 64 + 1) % 64)] } }

/-- A heat of a type in its start state on a core, in the core's first free slot and units. -/
def heatOn (s : State) (id : HeatId) (t : TaskType) (cs : List Word) (core first last : Nat) : Heat :=
  startHeat id t cs core ((freeSlot s core).getD 0) s.now ((freeSpad s core).take t.spadUnits)
    ((freeAsr s core).take t.asrUnits) first last

/-- A core as 10/R304 writes it. -/
def coreCode (core : Nat) : Nat := 4 * core

/-- Place a heat, with its trace record (20/R447): what precedes its launch precedes it (12/R359). -/
def placeHeat (s : State) (h : Heat) : State :=
  let s1 := mergeClock { s with heats := s.heats ++ [h] } h.id.uid (((s.launch? h.id.job h.id.launch).map (·.startClock)).getD [])
  traceHeat s1 h 0 (coreCode h.core) 0

end Sys2Proof.Machine
end

