-- ==== Sys2Proof/Machine/Tasks.lean ====
section
/-!
DEFINITION. Launching, cancelling and waiting for work, identity and yielding (06/R164 to R167, R174, R182).
-/

namespace Sys2Proof.Machine

/-- A command of C that names an object, with the entry of the engine's queue that hands a request over (07/R194). -/
def handCmd (s : State) (h : Heat) (co opcode request : Nat) : Cmd :=
  blankCmd s h .C opcode (.hand request) (some co)

/-- A heat's die's command processor gets a launch from it, once the engine has handed it over: its id; or 0 with the
object done and refused (06/R165). The accesses before the word precede those of the launch (12/R359). -/
def spawnLaunch (s : State) (h : Heat) (d : BitVec 6) (co opcode : Nat) (a : Option Admitted) : State × Heat :=
  let h1 := { h.begin co .C 0 opcode with cmdCount := h.cmdCount + 1 }
  match a with
  | none =>
    let t := { Status.start .C 0 opcode with refused := true }
    (s, (h1.finish co t 0 0 (launchDetail (statusBits [] true true) 0)).setS d ⟨0, false⟩)
  | some a =>
    let (s1, graph) := addGraph s h.id.job h.id.phase false
    let (s2, id) := takeLaunchId s1 h.id.job
    let l := (newLaunch id h.id.job graph h.id.phase h.die [] [(h.id.uid, co)]).admitted a
    let s3 := request s2 { l with startClock := heatClock s h.id.uid } none false
    let k := handCmd s3 h co opcode s3.nextId
    ({ s3 with cmds := s3.cmds ++ [k], nextId := s3.nextId + 1 },
      h1.setS d ⟨BitVec.ofNat 64 id, false⟩)

/-- C waits for the seats of earlier text time, whose accesses precede what the word starts (12/R359; log 21), for its
object, and for a place in the engine's queue (04/R101, 07/R194). -/
def handWait (s : State) (h : Heat) (co : Nat) : Option Stay :=
  if !(trailing h).isEmpty then some (.wait .engine (trailing h) 3)
  else (busyWait s h co).or (queueWait s h)

/-- A C command that hands work to the command processor; it is illegal in coxed mode (06/R182). -/
def spawnWord (w : Issue) (c : Ctl) (d : BitVec 6) (opcode : Nat)
    (a : State → Job → Heat → Run (Option Admitted)) (s : State) : Host.Outcome State Fault Refusal :=
  issue { w with engine := some 0, handler := false } .C (fun s h =>
    if h.id.coxed then .error Stay.illegal
    else match s.job? h.id.job with
      | none => .error Stay.illegal
      | some j =>
        match a s j h with
        | .error e => .error e
        | .ok r =>
          match handWait s h c.co.toNat with
          | some e => .error e
          | none => .ok (spawnLaunch s h d c.co.toNat opcode r)) s

/-- SPAWN (06/R164, R165). -/
def execSpawn (d a : BitVec 6) (c : Ctl) (s : State) : Host.Outcome State Fault Refusal :=
  spawnWord ((Issue.cLong [d, a] [a] true c.stamp).of (.spawn d a c)) c d 0x60 (fun s j h =>
    match readS h .C a with
    | .error e => .error e
    | .ok x => .ok (admitRecord s j h.die x.v)) s

/-- The registers b to b + n − 1. -/
def regRange (b : BitVec 6) (n : Nat) : List (BitVec 6) := (List.range n).map fun k => b + BitVec.ofNat 6 k

/-- SPAWNT (06/R164, R165): a launch of one heat. -/
def execSpawnt (d a b : BitVec 6) (n : BitVec 4) (c : Ctl) (s : State) : Host.Outcome State Fault Refusal :=
  let cs := regRange b n.toNat
  spawnWord ((Issue.cLong ([d, a, b] ++ cs) (a :: cs) true c.stamp).of (.spawnt d a b n c)) c d 0x61 (fun s j h =>
    match readS h .C a with
    | .error e => .error e
    | .ok x =>
      match cs.mapM (readS h .C) with
      | .error e => .error e
      | .ok vs => .ok (admitTask s j h.die x.v.toNat (vs.map fun v => v.v.setWidth 32))) s

/-- CANCEL (06/R166): the answer is tainted; a level that contains the heat cancels it too. -/
def execCancel (d a b : BitVec 6) (lvl : BitVec 4) (s : State) : Host.Outcome State Fault Refusal :=
  issue ((Issue.seatOnly [d, a, b] [a, b] true).of (.cancel d a b lvl)) .C (fun s h =>
    if h.id.coxed then .error Stay.illegal
    else match readS2 h a b with
      | .error e => .error e
      | .ok (x, y) =>
        let (s1, found) := cancelLevel (s.putHeat h) h.id.job lvl.toNat x.v.toNat y.v.toNat
        let h1 := (s1.heat? h.id.uid).getD h
        .ok (s1, h1.setS d ⟨if found then 1 else 0, true⟩)) s

/-- The launches of a level that a waiter names. -/
def levelLaunches (s : State) (h : Heat) (level a : Nat) : List Launch :=
  let job := h.id.job
  match level with
  | 0 | 1 => s.launches.filter fun l => l.job == job && l.id == a
  | 2 => graphLaunches s job a
  | _ => (phasesNamed s h a).flatMap fun p => phaseLaunches s p.uid

/-- A return of WAITC orders the accesses of the level before those after it (12/R359). -/
def joinLevel (s : State) (h : Heat) (level a : Nat) : State :=
  (levelLaunches s h level a).foldl (fun s l => mergeClock s h.id.uid l.endClock) s

/-- WAITC (06/R167): the summary of a complete level, of one that contains the heat, or 0 for one not found. A phase id
names the phases that are incomplete when the wait begins. -/
def execWaitc (d a b : BitVec 6) (lvl : BitVec 4) (s : State) : Host.Outcome State Fault Refusal :=
  issue ((Issue.seatOnly [d, a, b] [a, b] true).of (.waitc d a b lvl)) .C (fun s h =>
    match readS2 h a b with
    | .error e => .error e
    | .ok (x, y) =>
      let done (v : TVal) : State × Heat :=
        (joinLevel s h lvl.toNat x.v.toNat, ({ h with hold := .none } : Heat).setS d v)
      match levelSummary s h lvl.toNat x.v.toNat y.v.toNat with
      | none => .ok (done ⟨0, true⟩)
      | some v =>
        if v.testBit 0 || v.testBit 4 then .ok (done ⟨BitVec.ofNat 64 v, false⟩)
        else if lvl = 3 then
          .error (.park s { h with hold := .phases ((phasesNamed s h x.v.toNat).map (·.uid)) } .empty)
        else .error (.wait .empty [] 3)) s

/-- The id of a phase. -/
def phaseId (s : State) (uid : Nat) : Nat := ((s.phases.find? fun p => p.uid == uid).map (·.id)).getD 0

/-- The value that SELF selects. -/
def selfValue (s : State) (h : Heat) (sel : Nat) : Dword :=
  match sel with
  | 0 => BitVec.ofNat 64 h.id.launch
  | 1 => BitVec.ofNat 64 h.id.index
  | 2 => BitVec.ofNat 64 h.id.graph
  | 3 => BitVec.ofNat 64 (phaseId s h.id.phase)
  | 4 => BitVec.ofNat 64 h.id.job
  | 5 => (h.claim.map (·.2)).getD 0
  | _ => (h.claim.map (·.1)).getD 0

/-- SELF (06/R174). -/
def execSelf (d : BitVec 6) (sel : BitVec 4) (s : State) : Host.Outcome State Fault Refusal :=
  issue ((Issue.seatOnly [d] [] true).of (.self d sel)) .C (fun s h =>
    .ok (s, h.setS d ⟨selfValue s h sel.toNat, false⟩)) s

/-- YIELDI (06/R174). -/
def execYieldi (a : BitVec 6) (s : State) : Host.Outcome State Fault Refusal :=
  issue (Issue.seatOnly [a] [a] false) .C (fun s h =>
    if h.id.coxed then .error Stay.illegal
    else match readS h .C a with
      | .error e => .error e
      | .ok x =>
        if x.v.toInt ≤ 0 then .ok (s, h)
        else .ok (s, { h with hold := .yielded s.now (min x.v.toNat 65535) })) s

/-- Whether a heat was ready on some seat in this cycle (02/R44). -/
def wasReady (s : State) (h : Heat) : Bool :=
  seats.any fun p => (h.seat p).readySince.isSome || (h.seat p).lastIssue == some s.now

/-- YIELD_EXPIRY (06/R174): the count has ended, or no other heat of the core is ready. -/
def execYieldExpiry (heat : Nat) (s : State) : Host.Outcome State Fault Refusal :=
  match s.heat? heat with
  | none => .next s
  | some h =>
    match h.hold with
    | .yielded since limit =>
      let others := s.heats.filter fun k => k.core == h.core && k.onCore && k.id.uid != h.id.uid
      if limit ≤ s.now - since ∨ (since < s.now ∧ !(others.any (wasReady s))) then
        .next (s.putHeat { h with hold := .none })
      else .next s
    | _ => .next s

end Sys2Proof.Machine
end

