-- ==== Sys2Proof/Machine/Continuation.lean ====
section
/-!
DEFINITION. Continuation objects: their layout, claim cells, suspending, resuming, copying and dropping; and the
handover of relocatable commands between siblings (06/R168 to R173; 13/R376 to R385; 20/R434 to R436; 02/R36, R37).
-/

namespace Sys2Proof.Machine

/-! ## Bytes of a COB (13/R376, R377) -/

/-- A field of a record: offset, bytes, value, taint. -/
structure Field where
  at_ : Nat
  n : Nat
  v : Nat
  t : Bool
deriving DecidableEq, Repr

/-- An untainted field. -/
def field (at_ n v : Nat) : Field := { at_ := at_, n := n, v := v, t := false }

/-- The bytes of a record whose fields do not overlap. -/
def recordBytes (size : Nat) (fs : List Field) : List (Byte × Bool) :=
  let v := fs.foldl (fun acc f => acc + f.v % 2 ^ (8 * f.n) * 2 ^ (8 * f.at_)) 0
  let ts := fs.filter (·.t)
  (leBytes size v).zipIdx.map fun b => (b.1, ts.any fun f => decide (f.at_ ≤ b.2 ∧ b.2 < f.at_ + f.n))

/-- Bytes of the fixed part. -/
def fixedPart : Nat := 0xA000

/-- A field of a record's bytes, as one little-endian number. -/
def cobField (v at_ n : Nat) : Nat := fieldAt v (8 * at_) (8 * n)

/-- What a COB's header says (13/R376). -/
structure CobHeader where
  major : Nat
  minor : Nat
  gen : Nat
  state : Nat
  job : Nat
  key : Nat
  rights : Nat
  flags : Nat
  claim : Nat
  total : Nat
  type : Nat
  launch : Nat
  index : Nat
  reason : Nat
  spad : Nat
  asr : Nat
  spadImage : Nat
  asrImage : Nat
deriving DecidableEq, Repr

/-- "VCOB" read as a number: the magic of 13/R376. -/
def cobMagic : Nat := 0x424F4356

/-- The fields of a header. -/
def CobHeader.fields (c : CobHeader) : List Field :=
  [field 0 4 cobMagic, field 4 2 c.minor, field 6 2 c.major, field 8 8 c.gen, field 16 4 c.state, field 20 4 c.job,
   field 24 2 c.key, field 26 2 c.rights, field 28 4 c.flags, field 32 8 c.claim, field 40 8 c.total, field 48 4 c.type,
   field 52 4 c.launch, field 56 4 c.index, field 60 4 c.reason, field 64 4 c.spad, field 68 4 c.asr,
   field 72 8 c.spadImage, field 80 8 c.asrImage]

/-- The header in the first bytes of a COB, read as a number. -/
def headerOf (v : Nat) : CobHeader :=
  { major := cobField v 6 2, minor := cobField v 4 2, gen := cobField v 8 8, state := cobField v 16 4
    job := cobField v 20 4, key := cobField v 24 2, rights := cobField v 26 2, flags := cobField v 28 4
    claim := cobField v 32 8, total := cobField v 40 8, type := cobField v 48 4, launch := cobField v 52 4
    index := cobField v 56 4, reason := cobField v 60 4, spad := cobField v 64 4, asr := cobField v 68 4
    spadImage := cobField v 72 8, asrImage := cobField v 80 8 }

/-- Images stand after the fixed part. -/
def CobHeader.inline (c : CobHeader) : Bool := c.flags.testBit 0

/-- Where the scratchpad image and the ASR image stand. -/
def CobHeader.spadAt (c : CobHeader) (va : Dword) : Dword :=
  if c.inline then va + BitVec.ofNat 64 fixedPart else BitVec.ofNat 64 c.spadImage
def CobHeader.asrAt (c : CobHeader) (va : Dword) : Dword :=
  if c.inline then va + BitVec.ofNat 64 (fixedPart + c.spad) else BitVec.ofNat 64 c.asrImage

/-- A device accepts a COB of a job (13/R378). -/
def cobAccepted (s : State) (j : Job) (die : Nat) (v pending : Nat) : Bool :=
  let c := headerOf v
  let zero := cobField v 88 168 == 0 && decide (c.flags / 8 = 0 ∧ c.rights / 8 = 0 ∧ c.key / 2 ^ 13 = 0 ∧ c.gen / 2 ^ 60 = 0)
  cobField v 0 4 == cobMagic && c.major == 1 && (c.minor != 0 || zero) && (c.state == 1 || c.state == 3) &&
    decide (pending ≤ 32) &&
    (match taskType? s j die c.type with
     | none => false
     | some t => c.spad == 4096 * t.spadUnits && c.asr == 4096 * t.asrUnits) &&
    c.total == fixedPart + if c.inline then c.spad + c.asr else 0

/-! ### The fixed part -/

/-- Stage of a seat: prologue, kernel, epilogue. -/
def stageOf (h : Heat) (v : SeatState) : Nat := if v.atFinal then 2 else if inKernel h v then 1 else 0

/-- A word displacement of 30 bits between two addresses. -/
def dispTo (base target : Dword) : Nat := ((target - base) >>> 2).toNat % 2 ^ 30

/-- A stride slot of 16 bytes. -/
def slotFields (at_ : Nat) (x : StrideSlot) : List Field :=
  [{ at_ := at_, n := 8, v := x.stride.v.toNat, t := x.stride.t },
   field (at_ + 8) 2 (boolNat x.seatS * 2 ^ 15 + boolNat x.en * 2 ^ 14 + x.p.toNat)]

/-- A seat's registers and its active levels, outermost first. -/
def seatFields (h : Heat) (i : Nat) (v : SeatState) : List Field :=
  [field (0x100 + 64 * i) 8 v.pc.toNat, field (0x108 + 64 * i) 1 v.ret.length, field (0x109 + 64 * i) 1 v.loops.length,
   field (0x10A + 64 * i) 1 (stageOf h v)] ++
  v.loops.reverse.zipIdx.flatMap fun l =>
    let q := 0x300 + 192 * i + 32 * l.2
    [field q 8 l.1.start.toNat, field (q + 8) 8 l.1.stop.toNat, field (q + 16) 4 l.1.remain, field (q + 20) 4 l.1.iter,
     field (q + 24) 1 l.1.depth, field (q + 25) 1 1]

/-- A register file of 8-byte values and its taint mask of n bytes. -/
def fileFields (at_ mask n : Nat) (vs : List TVal) : List Field :=
  vs.zipIdx.map (fun v => field (at_ + 8 * v.2) 8 v.1.v.toNat) ++
    [field mask n ((vs.zipIdx.map fun v => boolNat v.1.t * 2 ^ v.2).sum)]

/-- A register of 256 bytes and its lane taint mask. -/
def wideFields (at_ mask : Nat) (v : VReg) : List Field := [field at_ 256 v.bits.toNat, field mask 8 v.taint.toNat]

/-- A ring: its field bits with bit 31 set, head and tail. -/
def ringFields (i : Nat) (r : Ring) : List Field :=
  let f := 2 ^ 31 + i * 2 ^ 27 + r.base / 8 * 2 ^ 9 + r.t * 16 + r.c
  [field (0xD00 + 16 * i) 4 f, field (0xD04 + 16 * i) 4 r.head, field (0xD08 + 16 * i) 4 (r.head + r.tiles.length)]

/-- A stream: descriptor, occupancy, entries, routing buffer. -/
def streamFields (i : Nat) (q : QStream) : List Field :=
  (match q.desc with
   | none => []
   | some d =>
     let o := 0xD80 + 16 * i
     [field o 1 d.fmt.toNat, field (o + 1) 2 d.elems, field (o + 3) 1 (d.ring.elim 0 fun g => g.toNat + 1), field (o + 4) 1 1,
      field (o + 5) 1 (boolNat d.taint), field (o + 8) 4 (BitVec.ofInt 32 d.rowStride).toNat,
      field (o + 12) 4 (BitVec.ofInt 32 d.elemStride).toNat]) ++
  [field (0xE80 + 4 * i) 1 q.entries.length, field (0xE81 + 4 * i) 1 q.buf.length, field (0xE82 + 4 * i) 1 q.taken] ++
  q.entries.zipIdx.flatMap (fun e => wideFields (0x2200 + 256 * (4 * i + e.2)) (0x6200 + 8 * (4 * i + e.2)) e.1) ++
  wideFields (0x6400 + 256 * i) (0x7400 + 8 * i) (entryOf q.buf)

/-- X's type state, in eight bytes. -/
def typeFields (t : XTypes) : List Field :=
  [field 0xC80 1 t.t.toNat, field 0xC81 1 t.rm.toNat, field 0xC82 1 t.af.toNat, field 0xC83 1 (boolNat t.asg),
   field 0xC84 1 t.wf.toNat, field 0xC85 1 (boolNat t.wsg), field 0xC86 1 t.out.toNat]

/-- Every sticky flag of X, all of whose words C has passed at a boundary. -/
def allStat (x : XFile) : BitVec 5 := x.statLog.foldl (fun a e => a ||| e.2) x.stat

/-- CSRs, small registers and counters. -/
def ctlFields (h : Heat) : List Field :=
  let bits (f : TBit → Bool) : Nat := ((List.range 8).map fun i => boolNat (f (h.b (BitVec.ofNat 3 i))) * 2 ^ i).sum
  [field 0x280 8 h.ctl.slipw] ++ h.fifo.toList.zipIdx.map (fun f => field (0x288 + f.2) 1 f.1) ++
  [field 0x28E 1 h.ctl.prio, field 0x28F 1 (boolNat h.ctl.latch), field 0x290 4 h.ctl.tokwdog, field 0x294 4 h.ctl.specsup,
   field 0x298 4 (h.hnd.elim 0 fun t => 2 ^ 31 + dispTo h.L.pc t), field 0xB08 1 (bits (·.v)), field 0xB09 1 (bits (·.t)),
   field 0xC88 8 (allStat h.x).toNat, field 0xC90 8 h.ctl.asrstat.toNat, field 0xC98 8 h.ctl.xferbar.toNat,
   field 0xCA0 4 h.ctl.tStored, field 0xCA4 4 h.ctl.tControl, field 0xCA8 4 h.ctl.tCleared, field 0xCAC 4 h.ctl.tRead,
   field 0xCB0 8 h.ctl.cobRights, field 0xCB8 8 h.ctl.cobImg.toNat, field 0xCC0 8 h.ctl.profSel] ++
  h.cursor.elim [] fun c => [field 0x2A0 8 c.pos, field 0x2A8 2 c.gen, field 0x2AA 1 (boolNat c.commit)]

/-- A stash slot. -/
def stashFields (t : Stash) : List Field :=
  let o := 0xF00 + 32 * t.slot.toNat
  [field o 8 (localBase + t.spad), field (o + 8) 8 t.global.toNat, field (o + 16) 4 t.lines, field (o + 20) 1 1]

/-- The launch that a busy object of SPAWN, SPAWNT or RESUME waits for (13/R380). -/
def linkedLaunch (s : State) (h : Heat) (j : Nat) : Nat :=
  match s.launches.find? fun l => !l.complete && l.spawners.contains (h.id.uid, j) with
  | some l => l.id
  | none =>
    match s.heats.find? fun k => k.resumers.contains (h.id.uid, j) with
    | some k => k.id.launch
    | none => ((s.resumes.find? fun r => r.resumer == (h.id.uid, j)).map (·.launch)).getD 0

/-- A completion object as it is saved: a busy one of the command processor holds its launch id. -/
def objectFields (s : State) (h : Heat) (j : Nat) (o : CObj) : List Field :=
  let link := if o.state = 1 ∧ o.status.toNat / 2 ^ 12 % 16 = 0 then linkedLaunch s h j * 2 ^ 64 else o.detail.toNat
  let q := 0x8000 + 64 * j
  [field q 8 o.status.toNat, field (q + 8) 8 o.progress.toNat, field (q + 16) 8 o.faultAddr.toNat, field (q + 24) 40 link]

/-- The two words of a command, from the text. -/
def commandWords (s : State) (h : Heat) (text : Dword) : Nat :=
  match fetchWord s h text, fetchWord s h (text + 4) with
  | .ok (_, a), .ok (_, b) => a + 2 ^ 32 * b
  | _, _ => 0

/-- The two values that a command read, scalar and pointer or the two pointers of a gather or scatter, and its length in
bytes. -/
def savedValues (c : Cmd) : TVal × TVal × TVal :=
  let w (n : Nat) (t : Bool) : TVal := ⟨BitVec.ofNat 64 n, t⟩
  match c.kind with
  | .copy src dst len t => if c.seat = .L then (w src t, w dst false, w len false) else (w dst t, w src false, w len false)
  | .asrcpy src dst n _ t => (w src t, w dst false, w (4 * n) false)
  | .gatr r pb pi _ _ _ => (pb, pi, w (r.n * 2 ^ r.scale) false)
  | .scatr r pb pi _ => (pb, pi, w (r.n * 2 ^ r.scale) false)
  | _ => (w 0 false, w 0 false, w 0 false)

/-- A pending descriptor (13/R380). -/
def pendingFields (s : State) (h : Heat) (i : Nat) (c : Cmd) : List Field :=
  let o := 0x9040 + 64 * i
  let v := savedValues c
  let val (at_ : Nat) (x : TVal) : Field := { at_ := o + at_, n := 8, v := x.v.toNat, t := x.t }
  [field o 8 (commandWords s h c.text), val 8 v.1, val 16 v.2.1, val 24 v.2.2, field (o + 32) 1 (c.co.getD 0),
   field (o + 33) 1 (boolNat c.hnd.isSome), field (o + 36) 4 (c.hnd.elim 0 (dispTo c.text)), field (o + 40) 8 c.text.toNat]

/-- The pending descriptors of a heat, in ascending text address. -/
def parkedOf (s : State) (uid : Nat) : List Cmd :=
  let ins (c : Cmd) (l : List Cmd) : List Cmd :=
    l.takeWhile (fun k => decide (k.text.toNat < c.text.toNat)) ++ c :: l.dropWhile fun k => decide (k.text.toNat < c.text.toNat)
  (s.cmds.filter fun c => c.heat == uid && c.parked).foldr ins []

/-- The fixed part of a COB but for its header. -/
def fixedFields (s : State) (h : Heat) : List Field :=
  let cs := parkedOf s h.id.uid
  (seats.zipIdx.flatMap fun p => seatFields h p.2 (h.seat p.1)) ++
  h.C.ret.zipIdx.map (fun r => field (0x200 + 8 * r.2) 8 r.1.toNat) ++
  h.C.loops.reverse.zipIdx.flatMap (fun l => l.1.strides.zipIdx.flatMap fun x => slotFields (0x600 + 64 * l.2 + 16 * x.2) x.1) ++
  h.c.strides.toList.zipIdx.flatMap (fun x => slotFields (0x780 + 16 * x.2) x.1) ++
  fileFields 0x900 0xB00 8 h.c.s.toList ++ fileFields 0xB10 0xB0A 1 h.c.lc.toList ++ fileFields 0xB40 0xB0B 1 h.x.k.toList ++
  fileFields 0xB80 0xB0C 2 h.pL.toList ++ fileFields 0xC00 0xB0E 2 h.pS.toList ++
  ctlFields h ++ typeFields h.x.types ++
  h.g.toList.zipIdx.flatMap (fun r => r.1.elim [] (ringFields r.2)) ++
  h.q.toList.zipIdx.flatMap (fun q => streamFields q.2 q.1) ++
  (s.stashes.filter fun t => t.heat == h.id.uid).flatMap stashFields ++
  h.x.v.toList.zipIdx.flatMap (fun v => wideFields (0x1100 + 256 * v.2) (0x2100 + 8 * v.2) v.1) ++
  h.co.toList.zipIdx.flatMap (fun o => objectFields s h o.2 o.1) ++
  [field 0x9000 4 cs.length] ++ cs.zipIdx.flatMap fun c => pendingFields s h c.2 c.1

/-! ## Claim cells (06/R168, 13/R382) -/

/-- A claim cell is an aligned 8-byte cell of ASR. -/
def claimFrame (s : State) (h : Heat) (va : Dword) : Run Frame :=
  match resolve s h h.core va .atomic with
  | .error e => faultAt e va
  | .ok (_, f) =>
    if f.kind ≠ .asr ∧ f.kind ≠ .peer then faultAt clsAtomicTarget va
    else if va.toNat % 8 ≠ 0 then faultAt clsAlignment va
    else .ok f

/-- The value of a claim cell. -/
def claimCell (s : State) (f : Frame) : Nat := leNat ((List.range 8).map fun i => cellGet s.mem.cells (f.pa + i))

/-- Set a claim cell to a generation and a state code: 1 suspended, 2 running, 3 dead, 4 copying. -/
def setClaim (s : State) (h : Heat) (f : Frame) (gen code : Nat) : State :=
  writePhys s h.id.uid h.die f.pa 0 (withTaint false (leBytes 8 (gen * 16 + code)))

/-- The compare-and-swap on a claim cell passes the job's watchpoints (20/R437), and meets an error or poison as every
atomic that returns a value does (07/R200; 20/R435). -/
def claimAccess (s : State) (h : Heat) (va : Dword) : Run (State × Frame) :=
  match claimFrame s h va with
  | .error e => .error e
  | .ok f =>
    match watch s h.id.job va 8 true true with
    | .error e => .error e
    | .ok s1 =>
      if s1.mem.errors.contains (f.pa / 128) then faultAt clsUncorrectable va
      else if (List.range 8).any fun i => s1.mem.poisoned (f.pa + i) then faultAt clsPoison va
      else .ok (s1, f)

/-- A later compare-and-swap of a command or an end on a claim cell that it has claimed: a watchpoint it meets halts the
job where a debugger is attached, and nothing is left to raise the watch fault. -/
def claimAgain (s : State) (h : Heat) (va : Dword) : State :=
  match watch s h.id.job va 8 true true with
  | .ok s1 => s1
  | .error _ => s

/-- The claim of a resumed heat dies with it (13/R382). -/
def killClaim (s : State) (h : Heat) : State :=
  match h.claim with
  | none => s
  | some (va, g) =>
    match claimFrame s h va with
    | .error _ => s
    | .ok f => if claimCell s f = g.toNat * 16 + 2 then setClaim (claimAgain s h va) h f g.toNat 3 else s

/-! ## Settling and writing (06/R170, 13/R380) -/

/-- A request to suspend that is in force. -/
def suspending (h : Heat) : Bool :=
  h.status == .stopping && (h.stop.elim false fun st => st.cause == .suspend || st.cause == .preempt) && h.susp.isSome

/-- Every seat stands where its stop holds it, or has passed HEND; not all have passed HEND. -/
def allStopped (h : Heat) : Bool :=
  (seats.all fun p => (h.seat p).stopped || (h.seat p).ended) && seats.any fun p => !(h.seat p).ended

/-- A bag of the heat is open where its seats stand: its BAGCLOSE lies ahead. -/
def bagPending (h : Heat) : Bool :=
  h.bags.any fun b => (b.phase == .opening || b.phase == .opened || b.phase == .failed) && b.closeTT.isNone

/-- The work of a heat settles: its seats stand at a boundary where no bag is open (13/R380). -/
def settling (h : Heat) : Bool := suspending h && allStopped h && !bagPending h

/-- Work of a heat that is not settled: its own, what its core holds of siblings, and a taken LEXIT that all seats have
passed and whose tokens still stand (05/R123); or a token whose word's result is on its way (02/R22). -/
def unsettled (s : State) (h : Heat) : Bool :=
  holdsStolen s h || (seats.all fun p => !(h.seat p).exits.isEmpty) || !(s.cmdsOf h.id.uid).isEmpty || !h.pend.isEmpty || !(s.atomicsOf h.id.uid).isEmpty || !(s.handlersOf h.id.uid).isEmpty ||
    h.invm.isSome || !h.hidden.isEmpty || stashInFlight s h (mappedSlots s h.id.uid)

/-- The lines of an own memory of n bytes: for each, its physical address. -/
def imageLines (n : Nat) (at_ : Nat → Nat) : List (Nat × Nat) := (List.range (n / 128)).map fun k => (128 * k, at_ (128 * k))

/-- Write the image of an own memory, which stands at a window, line by line; poison goes with its line, and an error in
it is the failure of the COB's writing (20/R435). -/
def writeImage (s : State) (h : Heat) (dst : Dword) (window : Nat) (zero : Nat → Bool) (ls : List (Nat × Nat)) : Run State :=
  ls.foldl (fun (r : Run State) l => match r with
    | .error e => .error e
    | .ok s =>
      if !zero l.1 && s.mem.errors.contains (l.2 / 128) then faultAt clsUncorrectable (BitVec.ofNat 64 (window + l.1)) else
      let data : List (Byte × Bool) := (List.range 128).map fun i =>
        if zero (l.1 + i) then (0, false) else (cellGet s.mem.cells (l.2 + i), s.mem.tainted (l.2 + i))
      let bad := (List.range 32).any fun i => !zero (l.1 + 4 * i) && s.mem.poisoned (l.2 + 4 * i)
      engineWrite s h (dst + BitVec.ofNat 64 l.1) data bad) (.ok s)

/-- A byte of a heat's own scratchpad. -/
def spadPa (h : Heat) (off : Nat) : Nat := spadAddr h.core ((h.spad.getD (off / 4096) 0) * 4096 + off % 4096)

/-- Write bytes at a heat's address, line by line. -/
def writeSpan (s : State) (h : Heat) (va : Dword) (data : List (Byte × Bool)) : Run State :=
  (pieces va.toNat data.length).foldl (fun (r : Run State) p => match r with
    | .error e => .error e
    | .ok s => engineWrite s h (va + BitVec.ofNat 64 p.1) ((data.drop p.1).take p.2) false) (.ok s)

/-- The header that a heat's COB receives. -/
def newHeader (h : Heat) (r : SuspendReq) (gen key : Nat) : CobHeader :=
  let spad := 4096 * h.spad.length
  let asr := 4096 * h.asr.length
  let inline := r.image == 0
  { major := 1, minor := 0, gen := gen, state := 1, job := h.id.job, key := key, rights := r.rights % 8
    flags := boolNat inline + 2 * boolNat h.id.coxed + 4 * boolNat h.type.gang, claim := r.claim.toNat
    total := fixedPart + if inline then spad + asr else 0
    type := h.type.index, launch := h.id.launch, index := h.id.index, reason := boolNat r.preempt, spad := spad, asr := asr
    spadImage := r.image.toNat, asrImage := if inline then 0 else r.image.toNat + spad }

/-- Write the COB of a heat: the state, and the generation and frame of its claim cell. -/
def writeCob (s : State) (h : Heat) (r : SuspendReq) : Run (State × Nat × Frame) :=
  match claimAccess s h r.claim with
  | .error e => .error e
  | .ok (s, f) =>
    let gen := (h.claim.elim (claimCell s f / 16) fun c => c.2.toNat) + 1
    match resolve s h h.core r.cob .write with
    | .error e => faultAt e r.cob
    | .ok (_, p) =>
      let hd := newHeader h r gen p.key
      match writeSpan s h r.cob (recordBytes fixedPart (hd.fields ++ fixedFields s h)) with
      | .error e => .error e
      | .ok s1 =>
        let mapped (i : Nat) : Bool := (stashAt s h.id.uid i).isSome
        match writeImage s1 h (hd.spadAt r.cob) localBase mapped (imageLines hd.spad (spadPa h)) with
        | .error e => .error e
        | .ok s2 =>
          match writeImage s2 h (hd.asrAt r.cob) asrWindow (fun _ => false) (imageLines hd.asr (asrPa h)) with
          | .error e => .error e
          | .ok s3 => .ok (s3, gen, f)

/-- The heat leaves its core SUSPENDED. -/
def leaveCore (h : Heat) (claim : Dword) (gen : Nat) : Heat :=
  { freeHeat h with
    status := .suspended, claim := some (claim, BitVec.ofNat 64 gen), blocks := [], stop := none, hold := .none }

/-- Cancel every heat of a job but one: the other launches, what is left of its own, and the detached heats. -/
def cancelOthers (s : State) (h : Heat) : State :=
  let s1 := cancelLaunches s fun l => l.job == h.id.job && l.id != h.id.launch
  let s2 := match s1.launch? h.id.job h.id.launch with
    | none => s1
    | some l =>
      if l.nextIdx < l.total ∨ 1 < l.live then
        s1.onLaunch h.id.job h.id.launch fun l => { l with cancelled := true, cut := true }
      else s1
  cancelHeats s2 fun k => k.id.job == h.id.job && k.id.uid != h.id.uid

/-- Pre-empting a heat of a coxed job cancels every other heat of the job (20/R436). -/
def afterPreempt (s : State) (h : Heat) : State :=
  if h.id.coxed then
    let s1 := cancelOthers s h
    { s1 with jobs := mapIf (fun j => j.id == h.id.job) (fun j => { j with cancelled := true }) s1.jobs }
  else s

/-- A member that leaves its core has not arrived at a device barrier of its gang (02/R41, 06/R161). -/
def leaveBars (s : State) (h : Heat) : State :=
  let mine (b : DevBar) : Bool := b.job == h.id.job && b.launch == h.id.launch && !h.id.detached
  { s with devBars := mapIf mine (fun b => { b with arrived := b.arrived.filter (· != h.id.index) }) s.devBars }


/-- HEAT_SUSPENDED (06/R170; 13/R380, R382; 20/R435, R436; 11/R345): once the seats stand and the work is settled. At a
boundary where a bag is open a pre-emption goes on to the next one. Dirty stash lines are written back as STFLUSH does. A
failure to write faults the heat. -/
def execHeatSuspended (heat : Nat) (s : State) : Host.Outcome State Fault Refusal :=
  match s.heat? heat with
  | none => .next s
  | some h =>
    match h.susp, h.stop with
    | some r, some st =>
      if !suspending h || !allStopped h then .next s
      else if bagPending h then
        let free (v : SeatState) : SeatState := { v with stopped := false }
        .next (s.putHeat { h with
          stop := some { st with upTo := st.upTo + 1 }, C := free h.C, L := free h.L, X := free h.X, S := free h.S })
      else
        let back (c : Cmd) : Cmd := match c.phase with
          | .marked _ _ => { c with phase := .queued }
          | _ => c
        let s0 := { s with cmds := mapIf (fun c => c.heat == heat) back s.cmds }
        let failed (s : State) (cls : BitVec 8) (va : Dword) : State :=
          let loop : Dword := BitVec.ofNat 64 (7 * 2 ^ 48)
          raiseFault (foundBy s h cls va noCommand) h none { faultInfo s h .C cls va 0 0 none false 8 with loop := loop, iter := 0 }
        let stash := (s0.stashes.filter fun t => t.heat == heat).flatMap fun t => t.dirty.map fun k => (t, k)
        if unsettled s0 h then .next s0
        else match writeBackLines h stash 0 s0 with
        | (s0, _, some (cls, va)) => .next (failed s0 cls va)
        | (s0, _, none) =>
          match writeCob s0 h r with
          | .error (.fault cls va _) => .next (failed s0 cls va)
          | .error _ => .next s0
          | .ok (s1, gen, f) =>
            let h1 := leaveCore ((s1.heat? heat).getD h) r.claim gen
            let s2 := settleLeases { leaveBars ((setClaim s1 h f gen 1).putHeat h1) h with
              stashes := s1.stashes.filter fun t => t.heat != heat
              cmds := s1.cmds.filter fun c => c.heat != heat || c.orphan
              packets := mapIf (fun p => r.packet == some p.id) (fun p => { p with wait := .suspended h.id.launch })
                s1.packets }
            let s3 := traceHeat (addProfile s2 h false) h1 5 (r.cob.toNat % 2 ^ 32) (r.cob.toNat / 2 ^ 32)
            let s4 := if st.cancelAfter then
                endSuspended (s3.putHeat { h1 with status := .cancelled }) h1 fun l => { l with cancelled := true }
              else s3
            .next (if r.preempt then afterPreempt s4 h else s4)
    | _, _ => .next s

/-- The claim rule of 06/R170: the cell that a suspension uses. -/
def claimRule (h : Heat) (cell : Dword) : Option Dword :=
  match h.claim with
  | some (va, _) => if cell = 0 ∨ cell = va then some va else none
  | none => if cell = 0 then none else some cell

/-- A word that opens a bag. -/
def SeenKind.isOpen : SeenKind → Bool
  | .opens _ => true
  | _ => false

/-- SUSPEND (06/R169, R170; 11/R345): a BAGOPEN of earlier text time that L has not issued yet is waited for. DESIGN CHOICE
(log 84): the alignment fault comes before the translation and protection faults of sa. -/
def execSuspend (a b : BitVec 6) (s : State) : Host.Outcome State Fault Refusal :=
  issue ((Issue.seatOnly [a, b] [a, b] false).of (.suspend a b)) .C (fun s h =>
    if h.id.coxed then .error Stay.illegal
    else match readS2 h a b with
      | .error e => .error e
      | .ok (x, y) =>
        if (h.ahead .C SeenKind.isOpen).isSome then .error (.wait .empty [.L] 3) else
        match openBags h .C, claimRule h y.v with
        | .error e, _ => .error e
        | .ok _, none => .error Stay.illegal
        | .ok bs, some cell =>
          if !bs.isEmpty || pastFinal h then .error Stay.illegal
          else if x.v.toNat % 256 ≠ 0 then faultAt clsAlignment x.v
          else match resolve s h h.core x.v .write, claimFrame s h cell with
            | .error e, _ => faultAt e x.v
            | .ok _, .error e => .error e
            | .ok _, .ok _ =>
              let req : SuspendReq :=
                { cob := x.v, claim := cell, rights := h.ctl.cobRights, image := h.ctl.cobImg, preempt := false, packet := none }
              let asked := { h with susp := some req }
              match h.stop.map fun (st : Stop) => st.cause with
              | none => .ok (s, stopFor s .suspend asked)
              | some .preempt => .ok (s, asked)
              | some _ => .ok (s, h)) s

/-- A side of a command lies on the host or on a peer device. -/
def remoteSide (s : State) (h : Heat) (va : Nat) (acc : Access) : Bool :=
  match resolve s h h.core (BitVec.ofNat 64 va) acc with
  | .ok (_, f) => f.kind == .host || f.kind == .peer
  | .error _ => false

/-- A page of n bytes lies on the host or on a peer device. -/
def remoteSpan (s : State) (h : Heat) (va n : Nat) (acc : Access) : Bool :=
  (List.range ((va % 65536 + n + 65535) / 65536)).any fun k =>
    remoteSide s h (if k = 0 then va else va - va % 65536 + 65536 * k) acc

/-- A row that a gather or scatter still owes has its index or its place in the table on the host or on a peer. -/
def remoteRows (s : State) (h : Heat) (c : Cmd) (r : GatherRec) (pb pi : TVal) (acc : Access) : Bool :=
  remoteSpan s h pi.v.toNat (r.n * r.width) .read ||
    (List.range r.n).any fun pos => c.owes r.n pos &&
      match rowPlan s h c r pb pi ⟨0, false⟩ pos false with
      | .ok s1 p => remoteSpan s1 h p.1.toNat (2 ^ r.scale) acc
      | _ => false

/-- A command that may become a pending descriptor (13/R380). DESIGN CHOICE (log 70): the descriptor has no room for the
scratchpad pointer of a gather or scatter, which stays while the pointer register holds it. -/
def parkable (s : State) (h : Heat) (c : Cmd) : Bool :=
  match c.kind with
  | .copy src dst n _ => remoteSpan s h src n .read || remoteSpan s h dst n .write
  | .asrcpy src dst n retire _ => !retire && (remoteSpan s h src (4 * n) .read || remoteSpan s h dst (4 * n) .write)
  | .gatr r pb pi dst _ _ => r.tagMode == 0 && r.kind == 2 && h.p .L (BitVec.ofNat 4 r.operand) == dst &&
      remoteRows s h c r pb pi .read
  | .scatr r pb pi src => r.accumulate == 0 && r.kind == 2 && h.p .S (BitVec.ofNat 4 r.operand) == src &&
      remoteRows s h c r pb pi .write
  | _ => false

/-- A command of the heat's own engine that has not ended (13/R380); a heat parks at most 32 (13/R377). -/
def mayPark (s : State) (h : Heat) (c : Cmd) : Bool :=
  !c.spent && !c.parked && decide ((parkedOf s h.id.uid).length < 32) && (match c.phase with
    | .queued | .running => true
    | _ => false)

/-- When a heat's seats came to stand. -/
def settlingSince (h : Heat) : Nat :=
  seats.foldl (fun m p => max m ((h.seat p).lastIssue.getD 0)) ((h.stop.map (·.since)).getD 0)

/-- SETTLE_TIMEOUT (13/R380): a blocked idempotent copy becomes a pending descriptor. -/
def execSettleTimeout (cmd : Nat) (s : State) : Host.Outcome State Fault Refusal :=
  match s.cmds.find? fun c => c.id == cmd && !c.parked with
  | none => .next s
  | some c =>
    match s.heat? c.heat with
    | none => .next s
    | some h =>
      if settling h && mayPark s h c && parkable s h c && decide (4096 ≤ s.now - settlingSince h) then
        .next { s with cmds := mapIf (fun x => x.id == cmd) (fun x => { x with parked := true, fault := none, badRow := none }) s.cmds }
      else .next s

/-! ## RESUME (06/R171, 13/R381) -/

/-- n bytes at a heat's address, line by line. -/
def readSpan (s : State) (h : Heat) (va : Dword) (n : Nat) : Run (State × List (Byte × Bool)) :=
  (pieces va.toNat n).foldl (fun (r : Run (State × List (Byte × Bool))) p => match r with
    | .error e => .error e
    | .ok (s, d) =>
      match loadAt s h h.core (va + BitVec.ofNat 64 p.1) p.2 with
      | .error e => .error e
      | .ok (s', d') => .ok (s', d ++ d')) (.ok (s, []))

/-- A number at a heat's address. -/
def readNat (s : State) (h : Heat) (va : Dword) (n : Nat) : Run (State × Nat) :=
  (readSpan s h va n).map fun r => (r.1, leNat (r.2.map (·.1)))

/-- The header of a COB, whose address is a multiple of 256. DESIGN CHOICE (log 84): another address raises the alignment
fault, before every other check of RESUME, COPYCO and DROPCO. -/
def readHeader (s : State) (h : Heat) (va : Dword) : Run (State × Nat) :=
  if va.toNat % 256 ≠ 0 then faultAt clsAlignment va else readNat s h va 256

/-- RESUME (06/R171): the checks in order, then the claim, then the engine's queue (07/R194). -/
def execResume (d a : BitVec 6) (c : Ctl) (s : State) : Host.Outcome State Fault Refusal :=
  issue { (Issue.cLong [d, a] [a] true c.stamp).of (.resume d a c) with engine := some 0, handler := false } .C (fun s h =>
    if h.id.coxed then .error Stay.illegal
    else match readS h .C a, s.job? h.id.job with
      | .error e, _ => .error e
      | .ok _, none => .error Stay.illegal
      | .ok x, some j =>
        match readHeader s h x.v, readNat s h (x.v + 0x9000) 4 with
        | .error e, _ => .error e
        | _, .error e => .error e
        | .ok (s1, v), .ok (_, pending) =>
          let hd := headerOf v
          if !cobAccepted s j h.die v pending then faultAt clsContVersion x.v
          else if hd.job ≠ h.id.job ∧ !hd.rights.testBit 0 then faultAt clsContRights x.v
          else match claimAccess s1 h (BitVec.ofNat 64 hd.claim) with
            | .error e => .error e
            | .ok (s1, f) =>
              if cellBusy s1 h.id.uid f.pa 8 then .error (.wait .empty [.C] 4)
              else if claimCell s1 f = hd.gen * 16 + 4 then .error (.wait .engine [] 3)
              else if claimCell s1 f ≠ hd.gen * 16 + 1 then faultAt clsDoubleResume x.v
              else match handWait s1 h c.co.toNat with
                | some e => .error e
                | none =>
                  let s2 := setClaim s1 h f hd.gen 2
                  let r : ResumeReq :=
                    { id := s2.nextId + 1, job := h.id.job, cob := x.v, gen := BitVec.ofNat 64 hd.gen
                      resumer := (h.id.uid, c.co.toNat), die := h.die, handed := false, launch := hd.launch, linked := false }
                  let h1 := { h.begin c.co.toNat .C 0 0x65 with cmdCount := h.cmdCount + 1 }
                  .ok ({ s2 with
                      resumes := s2.resumes ++ [r], cmds := s2.cmds ++ [handCmd s2 h c.co.toNat 0x65 r.id]
                      nextId := s2.nextId + 2 },
                    h1.setS d ⟨BitVec.ofNat 64 hd.gen, false⟩)) s

/-! ### Restoring a heat -/

/-- A taint bit of an image. -/
def imageTaint (img : List (Byte × Bool)) (at_ : Nat) : Bool := (img.getD at_ (0, false)).2

/-- A stride slot of an image. -/
def slotOfImage (img : List (Byte × Bool)) (v at_ : Nat) : StrideSlot :=
  let f := cobField v (at_ + 8) 2
  { seatS := f.testBit 15, en := f.testBit 14, p := BitVec.ofNat 4 f
    stride := ⟨BitVec.ofNat 64 (cobField v at_ 8), imageTaint img at_⟩ }

/-- A seat of an image; it stands at a boundary that it has not passed. -/
def seatOfImage (img : List (Byte × Bool)) (v i : Nat) (fresh : SeatState) : SeatState :=
  let level (j : Nat) : Level :=
    let q := 0x300 + 192 * i + 32 * j
    let start : Dword := BitVec.ofNat 64 (cobField v q 8)
    { loopAddr := start - 4, start := start, stop := BitVec.ofNat 64 (cobField v (q + 8) 8)
      remain := cobField v (q + 16) 4, iter := cobField v (q + 20) 4, depth := cobField v (q + 24) 1
      strides := (List.range 4).map fun k => slotOfImage img v (0x600 + 64 * j + 16 * k) }
  { fresh with
    pc := BitVec.ofNat 64 (cobField v (0x100 + 64 * i) 8)
    ret := (List.range (min 16 (cobField v (0x108 + 64 * i) 1))).map fun k => BitVec.ofNat 64 (cobField v (0x200 + 8 * k) 8)
    loops := ((List.range (min 6 (cobField v (0x109 + 64 * i) 1))).map level).reverse
    atBoundary := true
    atFinal := cobField v (0x10A + 64 * i) 1 == 2 }

/-- n values of an image, with their taint mask. -/
def fileOfImage (v at_ mask bytes i : Nat) : TVal :=
  ⟨BitVec.ofNat 64 (cobField v (at_ + 8 * i) 8), (cobField v mask bytes).testBit i⟩

/-- A register of 256 bytes of an image. -/
def wideOfImage (v at_ mask : Nat) : VReg :=
  { bits := BitVec.ofNat 2048 (cobField v at_ 256), taint := BitVec.ofNat 64 (cobField v mask 8) }

/-- A ring of an image; its filled tiles carry no bag. -/
def ringOfImage (v i : Nat) : Option Ring :=
  let f := cobField v (0xD00 + 16 * i) 4
  let head := cobField v (0xD04 + 16 * i) 4
  if f.testBit 31 then
    some { (ringOf (BitVec.ofNat 30 f)).2 with
      head := head
      tiles := List.replicate (min (cobField v (0xD08 + 16 * i) 4 - head) (2 ^ (f % 16)))
        { bag := none, tag := 0, member := 0, replaced := false } }
  else none

/-- A stream of an image. -/
def streamOfImage (v i : Nat) : QStream :=
  let o := 0xD80 + 16 * i
  let buf := wideOfImage v (0x6400 + 256 * i) (0x7400 + 8 * i)
  let ring := cobField v (o + 3) 1
  { desc := if cobField v (o + 4) 1 = 0 then none
      else some
        { fmt := BitVec.ofNat 4 (cobField v o 1), elems := cobField v (o + 1) 2
          rowStride := (BitVec.ofNat 32 (cobField v (o + 8) 4)).toInt
          elemStride := (BitVec.ofNat 32 (cobField v (o + 12) 4)).toInt
          ring := if ring = 0 then none else some (BitVec.ofNat 3 (ring - 1)), taint := cobField v (o + 5) 1 != 0 }
    entries := (List.range (min 4 (cobField v (0xE80 + 4 * i) 1))).map fun e =>
      wideOfImage v (0x2200 + 256 * (4 * i + e)) (0x6200 + 8 * (4 * i + e))
    buf := (List.range (min 64 (cobField v (0xE81 + 4 * i) 1))).map fun j =>
      (BitVec.ofNat 32 (buf.elem 32 j), buf.taint.getLsbD j)
    due := []
    taken := cobField v (0xE82 + 4 * i) 1 }

/-- A completion object of an image. -/
def objectOfImage (v j : Nat) : CObj :=
  let q := 0x8000 + 64 * j
  { status := BitVec.ofNat 64 (cobField v q 8), progress := BitVec.ofNat 64 (cobField v (q + 8) 8)
    faultAddr := BitVec.ofNat 64 (cobField v (q + 16) 8), detail := BitVec.ofNat 320 (cobField v (q + 24) 40) }

/-- The stash slots of an image, every line unfilled. -/
def stashesOfImage (v uid : Nat) : List Stash :=
  ((List.range 16).filter fun i => cobField v (0xF14 + 32 * i) 1 != 0).map fun i =>
    let o := 0xF00 + 32 * i
    { heat := uid, since := 0, slot := BitVec.ofNat 4 i, spad := cobField v o 8 - localBase
      global := BitVec.ofNat 64 (cobField v (o + 8) 8), lines := cobField v (o + 16) 4, filled := [], dirty := [] }

/-- The CSRs of an image. -/
def ctlOfImage (v : Nat) (old : HeatCtl) : HeatCtl :=
  { old with
    slipw := cobField v 0x280 8, prio := cobField v 0x28E 1, latch := cobField v 0x28F 1 != 0
    tokwdog := cobField v 0x290 4, specsup := cobField v 0x294 4, asrstat := BitVec.ofNat 5 (cobField v 0xC90 8)
    xferbar := BitVec.ofNat 64 (cobField v 0xC98 8), cobRights := cobField v 0xCB0 8
    cobImg := BitVec.ofNat 64 (cobField v 0xCB8 8), profSel := cobField v 0xCC0 8
    tStored := cobField v 0xCA0 4, tControl := cobField v 0xCA4 4, tCleared := cobField v 0xCA8 4, tRead := cobField v 0xCAC 4 }

/-- X's type state of an image. -/
def typesOfImage (v : Nat) : XTypes :=
  { t := BitVec.ofNat 4 (cobField v 0xC80 1), rm := BitVec.ofNat 3 (cobField v 0xC81 1)
    af := BitVec.ofNat 4 (cobField v 0xC82 1), asg := cobField v 0xC83 1 != 0
    wf := BitVec.ofNat 4 (cobField v 0xC84 1), wsg := cobField v 0xC85 1 != 0, out := BitVec.ofNat 4 (cobField v 0xC86 1) }

/-- A heat in its start state, with every field of an image in place (13/R381). -/
def restoreHeat (h : Heat) (img : List (Byte × Bool)) (v : Nat) : Heat :=
  let seat (i : Nat) (p : Seat) : SeatState := seatOfImage img v i (h.seat p)
  let bit (at_ i : Nat) : Bool := (cobField v at_ 1).testBit i
  let l := seat 1 .L
  let hnd := cobField v 0x298 4
  { h with
    C := seat 0 .C, L := l, X := seat 2 .X, S := seat 3 .S
    c :=
      { s := Vector.ofFn fun (i : Fin 64) => fileOfImage v 0x900 0xB00 8 i
        b := Vector.ofFn fun (i : Fin 8) => ⟨bit 0xB08 i, bit 0xB09 i⟩
        lc := Vector.ofFn fun (i : Fin 6) => fileOfImage v 0xB10 0xB0A 1 i
        strides := Vector.ofFn fun (i : Fin 24) => slotOfImage img v (0x780 + 16 * i) }
    pL := Vector.ofFn fun (i : Fin 16) => fileOfImage v 0xB80 0xB0C 2 i
    pS := Vector.ofFn fun (i : Fin 16) => fileOfImage v 0xC00 0xB0E 2 i
    x :=
      { v := Vector.ofFn fun (i : Fin 16) => wideOfImage v (0x1100 + 256 * i) (0x2100 + 8 * i)
        k := (Vector.ofFn fun (i : Fin 8) => fileOfImage v 0xB40 0xB0B 1 i).set 0 ⟨BitVec.allOnes 64, false⟩
        types := typesOfImage v, stat := BitVec.ofNat 5 (cobField v 0xC88 8), statLog := [], busy := [] }
    q := Vector.ofFn fun (i : Fin 16) => streamOfImage v i
    g := Vector.ofFn fun (i : Fin 8) => ringOfImage v i
    co := Vector.ofFn fun (i : Fin 64) => objectOfImage v i
    fifo := Vector.ofFn fun (i : Fin 6) => cobField v (0x288 + i) 1
    ctl := ctlOfImage v h.ctl
    hnd := if hnd.testBit 31 then some (displace l.pc (BitVec.ofNat 30 hnd)) else none
    cursor := some { pos := cobField v 0x2A0 8, gen := cobField v 0x2A8 2, commit := cobField v 0x2AA 1 != 0 } }

/-- The command of a pending descriptor, its addresses from its saved values (13/R381); none when its words are no such
command. -/
def pendingKind (s : State) (h : Heat) (img : List (Byte × Bool)) (v i : Nat) :
    Option (Seat × Ctl × Nat × CmdKind) :=
  let o := 0x9040 + 64 * i
  let val (at_ : Nat) : TVal := ⟨BitVec.ofNat 64 (cobField v (o + at_) 8), imageTaint img (o + at_)⟩
  let x := val 8
  let q := val 16
  let n := val 24
  let text : Dword := BitVec.ofNat 64 (cobField v (o + 40) 8)
  let rec_ (disp : BitVec 14) : Option GatherRec :=
    match readNat s h (displace text disp) 16 with
    | .ok (_, r) => some (gatherOf r)
    | .error _ => none
  match decodeWords (cobField v o 4) (cobField v (o + 4) 4) with
  | .ok (.cpyin _ _ _ _ c) => some (.L, c, 0x07, .copy x.v.toNat q.v.toNat n.v.toNat (x.t || q.t))
  | .ok (.cpyout _ _ _ _ c) => some (.S, c, 0x07, .copy q.v.toNat x.v.toNat n.v.toNat (x.t || q.t))
  | .ok (.asrcpy _ _ _ _ retire c) => some (.S, c, 0x0A, .asrcpy x.v.toNat q.v.toNat (n.v.toNat / 4) retire (x.t || q.t))
  | .ok (.gatr _ _ _ disp c) => (rec_ disp).map fun r =>
      (.L, c, 0x08, .gatr r x q (h.p .L (BitVec.ofNat 4 r.operand)) ⟨0, false⟩ none)
  | .ok (.scatr _ _ _ disp c) => (rec_ disp).map fun r => (.S, c, 0x08, .scatr r x q (h.p .S (BitVec.ofNat 4 r.operand)))
  | _ => none

/-- Issue a pending descriptor again, under its saved object and handler; its transfer is still counted. -/
def reissue (s : State) (h : Heat) (img : List (Byte × Bool)) (v i : Nat) : State :=
  match pendingKind s h img v i with
  | none => s
  | some (p, c, op, kind) =>
    let o := 0x9040 + 64 * i
    let text : Dword := BitVec.ofNat 64 (cobField v (o + 40) 8)
    let bar := h.ctl.xferbar
    let xfer := if bar.getLsbD 0 then (transferKind kind (if p = .S then 0x70 else 0)).map fun out => (bar &&& 0xFFFFFFFFFFFFFFF0, out)
      else none
    let k := newCmd s h p c op kind (some (cobField v (o + 32) 1 % 64)) xfer
    let hnd := if (cobField v (o + 33) 1).testBit 0 then some (displace text (BitVec.ofNat 30 (cobField v (o + 36) 4))) else none
    { s with cmds := s.cmds ++ [{ k with text := text, hnd := hnd }], nextId := s.nextId + 1 }

/-- The pending descriptors of an image, in ascending text address (13/R381). -/
def pendingOrder (v : Nat) : List Nat :=
  let text (i : Nat) : Nat := cobField v (0x9040 + 64 * i + 40) 8
  let ins (i : Nat) (l : List Nat) : List Nat :=
    l.takeWhile (fun k => decide (text k < text i)) ++ i :: l.dropWhile fun k => decide (text k < text i)
  (List.range (min 32 (cobField v 0x9000 4))).foldr ins []

/-- The busy objects of a restored heat that wait for a launch take that launch's status: at once when it is complete
(13/R381). -/
def relink (s : State) (h : Heat) : State :=
  (List.range 64).foldl (fun s j =>
    let o := h.obj j
    let id := o.detail.toNat / 2 ^ 64 % 2 ^ 64
    if o.state ≠ 1 ∨ o.status.toNat / 2 ^ 12 % 16 ≠ 0 then s
    else match s.launch? h.id.job id with
      | none => s
      | some l =>
        let free (k : Heat) : Heat := { k with resumers := k.resumers.filter (· != (h.id.uid, j)) }
        let s1 := { s with
          heats := s.heats.map free
          resumes := mapIf (fun r => r.resumer == (h.id.uid, j)) (fun r => { r with linked := true }) s.resumes }
        if l.complete then s1.onHeat h.id.uid fun h => h.finishLaunch j l.refused (statusWord [l] true false 0) l.id
        else if l.spawners.contains (h.id.uid, j) then s1
        else s1.onLaunch h.id.job id fun l => { l with spawners := l.spawners ++ [(h.id.uid, j)] }) s

/-- Copy an image into an own memory, line by line. -/
def readImage (s : State) (reader : Heat) (src : Dword) (ls : List (Nat × Nat)) : Run State :=
  ls.foldl (fun (r : Run State) l => match r with
    | .error e => .error e
    | .ok s =>
      match engineRead s reader 0 (src + BitVec.ofNat 64 l.1) 128 with
      | .error e => .error e
      | .ok (s1, d, bad) =>
        let s2 := { s1 with mem := s1.mem.put l.2 d }
        .ok (if bad then
            (List.range 32).foldl (fun s i => poisonAt s { pa := l.2 + 4 * i, kind := (kindOf (l.2 + 4 * i)).getD .spad, key := 0, clean := false, cls := 0 } 4) s2
          else s2)) (.ok s)

/-- The suspended heat that a COB continues: its own, while its launch still counts it (02/R36, R37). -/
def continued (s : State) (job : Nat) (c : CobHeader) : Option Heat :=
  s.heats.find? fun h => h.status == .suspended && h.id.job == job && h.id.launch == c.launch && h.id.index == c.index &&
    h.claim == some (BitVec.ofNat 64 c.claim, BitVec.ofNat 64 c.gen)

/-- Who a resumed heat is: the heat that it continues, or a detached heat of the header's job. DESIGN CHOICE (log 61): a
detached heat has graph id 0, and the phase of number 0. -/
def resumedId (s : State) (job : Nat) (c : CobHeader) : HeatId × List (Nat × Nat) :=
  match continued s job c with
  | some h => ({ h.id with coxed := false }, h.resumers)
  | none =>
    ({ uid := s.nextId, job := job, launch := c.launch, index := c.index, graph := 0, phase := 0, detached := true
       trapTask := false, coxed := false }, [])

/-- Place a COB on a core and restore it; the reads are made in the resumer's address space. -/
def resumeOn (s : State) (reader : Heat) (r : ResumeReq) (c : CobHeader) (t : TaskType) (img : List (Byte × Bool))
    (core : Nat) : Run State :=
  let v := leNat (img.map (·.1))
  let job := if (s.job? c.job).isSome then c.job else r.job
  let (id, waiters) := resumedId s job c
  let h := { restoreHeat (heatOn s id t [] core 0 0) img v with
    claim := some (BitVec.ofNat 64 c.claim, BitVec.ofNat 64 c.gen), resumers := if r.linked then waiters else waiters ++ [r.resumer]
    record := (continued s job c).bind (·.record) }
  match readImage s reader (c.spadAt r.cob) (imageLines c.spad (spadPa h)) with
  | .error e => .error e
  | .ok s1 =>
    match readImage s1 reader (c.asrAt r.cob) (imageLines c.asr (asrPa h)) with
    | .error e => .error e
    | .ok s2 =>
      let others := s2.heats.filter fun k => k.id.uid != id.uid
      let s3 := { s2 with
        heats := others ++ [h], stashes := s2.stashes ++ stashesOfImage v id.uid, nextId := s2.nextId + 1
        resumes := s2.resumes.filter fun x => x.id != r.id }
      let s4 := (pendingOrder v).foldl (fun s i => reissue s h img v i) (mergeClock s3 id.uid (heatClock s3 reader.id.uid))
      .ok (traceHeat (relink s4 h) h 6 (coreCode core) 0)

/-- RESUME_PLACEMENT (06/R171, 13/R381): on any core with room; a COB that can no longer be read ends the object with
the failure's class. -/
def execResumePlacement (req : Nat) (s : State) : Host.Outcome State Fault Refusal :=
  match (if s.dev.computeOn && !coxedMode s then s.resumes.find? fun r => r.id == req && r.handed else none) with
  | none => .next s
  | some r =>
    match s.heat? r.resumer.1, s.job? r.job with
    | some k, some j =>
      let found (cls : BitVec 8) (va : Dword) : State := foundBy s k cls va noCommand
      let fail (s : State) (cls : BitVec 8) : State :=
        let done (h : Heat) : Heat := h.finish r.resumer.2 { Status.start .C 0 0x65 with cls := cls.toNat } 0 r.cob 0
        { s.onHeat k.id.uid (fun h => if r.linked then h else done h) with
          resumes := s.resumes.filter fun x => x.id != req }
      let reader := { k with core := if k.onCore then k.core else 64 * r.die }
      (match readSpan s reader r.cob fixedPart with
       | .error (.fault cls va _) => .next (fail (found cls va) cls)
       | .error _ => .next s
       | .ok (s1, img) =>
         let c := headerOf (leNat ((img.take 256).map (·.1)))
         match taskType? s j r.die c.type with
         | none => .next (fail s clsContVersion)
         | some t =>
           match findCore s1 r.die t with
           | none => .next s
           | some core =>
             match resumeOn s1 reader r c t img core with
             | .error (.fault cls va _) => .next (fail (found cls va) cls)
             | .error _ => .next s
             | .ok s2 => .next s2)
    | _, _ => .next { s with resumes := s.resumes.filter fun x => x.id != req }

/-- Status bits of a final heat (19/R415). -/
def HeatStatus.bits : HeatStatus → Nat
  | .faulted => 3
  | .cancelled => 5
  | .dropped => 9
  | _ => 1

/-- The trace records of suspended heats that have become final (20/R447). -/
def traceEnds (s : State) : State :=
  (s.heats.filter (·.traceDue)).foldl (fun s h =>
    traceHeat (s.onHeat h.id.uid fun k => { k with traceDue := false }) h 1 (Config.finalCode h.status.bits).toNat 0) s

/-- The objects that wait for a resumed heat become done when it is final (06/R171). -/
def finishResumers (s : State) (h : Heat) : State :=
  let word := h.status.bits + if h.status = .faulted then 2 ^ 32 else 0
  let cls := if h.status = .faulted then (h.fault.map fun f => f.cls.toNat).getD 0 else 0
  let s1 := h.resumers.foldl (fun s w => s.onHeat w.1 fun k =>
    if k.status.final then k
    else k.finish w.2 { Status.start .C 0 0x65 with cls := cls } 0 0 (launchDetail word h.id.launch)) s
  s1.onHeat h.id.uid fun h => { h with resumers := [] }

/-- Every object that waits for a heat that has become final. -/
def settleResumers (s : State) : State :=
  (s.heats.filter fun h => h.status.final && !h.resumers.isEmpty).foldl finishResumers s

/-! ## COPYCO and DROPCO (06/R172, R173; 13/R383) -/

/-- COPYCO (06/R172): its claim, then the engine's queue (07/R194). -/
def execCopyco (d a b : BitVec 6) (c : Ctl) (s : State) : Host.Outcome State Fault Refusal :=
  issue { (Issue.cLong [d, a, b] [d, a, b] false c.stamp).of (.copyco d a b c) with engine := some 0, handler := false } .C (fun s h =>
    if h.id.coxed then .error Stay.illegal
    else match readS2 h a b, readS h .C d with
      | .error e, _ => .error e
      | _, .error e => .error e
      | .ok (x, y), .ok z =>
        if y.v.toNat % 256 ≠ 0 then faultAt clsAlignment y.v
        else match readHeader s h x.v with
          | .error e => .error e
          | .ok (s1, v) =>
            let hd := headerOf v
            if hd.job ≠ h.id.job ∧ !hd.rights.testBit 1 then faultAt clsContRights x.v
            else match claimFrame s1 h z.v, claimAccess s1 h (BitVec.ofNat 64 hd.claim) with
              | .error e, _ => .error e
              | _, .error e => .error e
              | .ok new, .ok (s1, f) =>
                if cellBusy s1 h.id.uid f.pa 8 || cellBusy s1 h.id.uid new.pa 8 then .error (.wait .empty [.C] 4)
                else if claimCell s1 f ≠ hd.gen * 16 + 1 then faultAt clsDoubleResume x.v
                else match handWait s1 h c.co.toNat with
                  | some e => .error e
                  | none =>
                    let kind : CmdKind := .copyco x.v y.v z.v (BitVec.ofNat 64 hd.claim) hd.gen
                    let s2 := setClaim s1 h f hd.gen 4
                    let h1 := { h.begin c.co.toNat .C 0 0x66 with cmdCount := h.cmdCount + 1 }
                    .ok ({ s2 with
                        cmds := s2.cmds ++ [blankCmd s2 h .C 0x66 kind (some c.co.toNat)], nextId := s2.nextId + 1 }, h1)) s

/-- The bytes of a copy: generation 1, suspended, under its own claim cell. -/
def copyByte (cell : Dword) (i : Nat) (x : Byte × Bool) : Byte × Bool :=
  if 8 ≤ i ∧ i < 16 then ((leBytes 8 1).getD (i - 8) 0, false)
  else if 16 ≤ i ∧ i < 20 then ((leBytes 4 1).getD (i - 16) 0, false)
  else if 32 ≤ i ∧ i < 40 then ((leBytes 8 cell.toNat).getD (i - 32) 0, false)
  else x

/-- COPYCO's effect: the copy, its claim cell, and the source's claim back at suspended. -/
def performCopyco (s : State) (h : Heat) (c : Cmd) (src dst newCell cell : Dword) (gen : Nat) : Performed :=
  let restore (s : State) : State := match claimFrame s h cell with
    | .ok f => setClaim (claimAgain s h cell) h f gen 1
    | .error _ => s
  match readNat s h (src + 40) 8 with
  | .error (.fault cls va _) => some (restore s, c.done 0 (some (cls, va)))
  | .error _ => none
  | .ok (s1, total) =>
    let n := max total fixedPart
    let get (s : State) (off k : Nat) : Run (State × List (Byte × Bool) × Bool) :=
      match engineSpan s h c.index (src + BitVec.ofNat 64 off) k with
      | .error e => .error e
      | .ok (s', d, b) => .ok (s', d.zipIdx.map fun x => copyByte newCell (off + x.2) x.1, b)
    match copyUnits dst 1 h get (pieces dst.toNat n) s1 c with
    | none => none
    | some (s2, c2) =>
      if c2.fault.isSome then some (restore s2, c2)
      else match claimAccess s2 h newCell with
        | .ok (s3, f) => some (restore (setClaim s3 h f 1 1), c2)
        | .error (.fault cls va _) => some (restore (foundBy s2 h cls va c.index), { c2 with fault := some (cls, va) })
        | .error _ => some (restore s2, c2)

/-- DROPCO (06/R173, 02/R37): on success the COB and its claim are dead and the launch releases the heat. -/
def execDropco (d a : BitVec 6) (s : State) : Host.Outcome State Fault Refusal :=
  issue ((Issue.seatOnly [d, a] [a] true).of (.dropco d a)) .C (fun s h =>
    match readS h .C a with
    | .error e => .error e
    | .ok x =>
      match readHeader s h x.v with
      | .error e => .error e
      | .ok (s1, v) =>
        let hd := headerOf v
        let no (s : State) : Run (State × Heat) := .ok (s, h.setS d ⟨0, true⟩)
        if hd.job ≠ h.id.job ∧ !hd.rights.testBit 2 then no s1
        else match claimAccess s1 h (BitVec.ofNat 64 hd.claim) with
          | .error e => .error e
          | .ok (s1, f) =>
            if cellBusy s1 h.id.uid f.pa 8 then .error (.wait .empty [.C] 4)
            else if claimCell s1 f ≠ hd.gen * 16 + 1 then no s1
            else match storeAt (setClaim s1 h f hd.gen 3) h h.core (x.v + 16) (withTaint false (leBytes 4 3)) with
              | .error e => .error e
              | .ok s2 =>
                let s3 := match continued s2 hd.job hd with
                  | some k => endSuspended (s2.putHeat { k with status := .dropped }) k fun l => { l with dropped := true }
                  | none => s2
                .ok (s3, h.setS d ⟨1, true⟩)) s

/-! ## Relocation (13/R384, R385) -/

/-- The engine of a core holds no command and has held none for 256 cycles; an entry that a thief took stays in its victim's
queue (13/R385). -/
def engineIdle (s : State) (core : Nat) : Bool :=
  (s.cmds.all fun c => !(c.copies && (c.core == core || c.performer == core))) && decide (256 ≤ s.now - (assoc core s.dev.engLast).getD 0)

/-- A command that a sibling may take: it has not started, and stands behind no INVM marker (07/R224). -/
def stealable (s : State) (c : Cmd) : Bool :=
  c.phase == .queued && c.reloc && c.copies && !c.relocAbort && !behindMarker s c && decide (512 ≤ s.now - c.since) &&
    (s.heat? c.heat).elim false fun h => !h.id.coxed && !settling h

/-- COMMAND_STEAL (13/R384): the oldest such command of the crew is marked. -/
def execCommandSteal (cmd thief : Nat) (s : State) : Host.Outcome State Fault Refusal :=
  match s.cmds.find? fun c => c.core / 4 == thief / 4 && c.core != thief && stealable s c with
  | none => .next s
  | some c =>
    if c.id = cmd && engineIdle s thief && decide (thief < 256) then
      .next { s with cmds := mapIf (fun x => x.id == cmd) (fun x => { x with phase := .marked thief s.now }) s.cmds }
    else .next s

/-- Change the phase of a marked command. -/
def onMarked (cmd : Nat) (f : Nat → Nat → Option CmdPhase) (s : State) : State :=
  { s with
    cmds := mapIf (fun x => x.id == cmd) (fun x => match x.phase with
      | .marked t since => { x with phase := (f t since).getD x.phase }
      | _ => x) s.cmds }

/-- STEAL_ACKNOWLEDGE (13/R385): within 16 cycles the thief begins the command, unless the victim heat settles, whose
victim then takes it back. -/
def execStealAcknowledge (cmd : Nat) (s : State) : Host.Outcome State Fault Refusal :=
  let back : Bool := s.cmds.any fun c => c.id == cmd && (s.heat? c.heat).elim false settling
  .next (onMarked cmd (fun t since => if back then some .queued else if s.now - since ≤ 16 then some (.held t) else none) s)

/-- An entry that returns to the queue of a core that has been reset is gone. -/
def dropReturned (s : State) : State := { s with cmds := s.cmds.filter fun c => !(c.orphan && c.phase == .queued) }

/-- STEAL_MARK_TIMEOUT (13/R385): the entry returns to its place. -/
def execStealMarkTimeout (cmd : Nat) (s : State) : Host.Outcome State Fault Refusal :=
  .next (dropReturned (onMarked cmd (fun _ since => if 16 ≤ s.now - since then some .queued else none) s))

/-- THIEF_RESET (13/R385): marked commands return; a held one goes back to the head of its victim's queue, or ends with
the relocation abort when its heat stops for a fault or a cancel. -/
def execThiefReset (core : Nat) (s : State) : Host.Outcome State Fault Refusal :=
  let marks := mapIf (fun c => c.phase == .marked core (match c.phase with | .marked _ t => t | _ => 0))
    (fun c => { c with phase := .queued }) s.cmds
  let dies (c : Cmd) : Bool := (s.heat? c.heat).elim true fun h =>
    h.status == .stopping && (h.stop.elim false fun st => st.cause == .fault || st.cause == .cancel)
  let held := marks.filter fun c => c.phase == .held core && !c.orphan
  let back := (held.filter fun c => !dies c).map fun c =>
    { c with phase := .queued, relocAbort := true, spent := false, fault := none, prog := 0, settled := [], unlanded := 0
             zeroed := 0, absorbed := none, poisonCopied := false, badRow := none, extra := 0 }
  let rest := marks.filter fun c => c.phase != .held core || dies c || c.orphan
  .next (dropReturned ((held.filter dies).foldl (fun s c =>
    finishCmd s { c with relocAbort := true, spent := true, fault := some (clsRelocAbort, 0) }) { s with cmds := back ++ rest }))

/-- VICTIM_CORE_RESET (13/R385): the thief completes and the completion is discarded. -/
def execVictimCoreReset (core : Nat) (s : State) : Host.Outcome State Fault Refusal :=
  let held (c : Cmd) : Bool := match c.phase with
    | .held _ | .marked _ _ => true
    | _ => false
  .next { s with cmds := mapIf (fun c => c.core == core && held c) (fun c => { c with orphan := true }) s.cmds }

end Sys2Proof.Machine
end

