-- ==== Sys2Proof/Machine/Complete.lean ====
section
/-!
DEFINITION. The end of engine commands: the effect of each kind, and its completion object (07/R196 to R207; 05/R124;
08/R271; 11/R332).
-/

namespace Sys2Proof.Machine

/-- What a command does, whole; none while it waits for something. -/
def performCmd (s : State) (h : Heat) (c : Cmd) : Performed :=
  match c.kind with
  | .copy src dst n t => performCopy s h c src dst n t
  | .asrcpy src dst n retire t => performAsrcpy s h c src dst n retire t
  | .gatr r _ _ _ _ bag => performRows s c r.n bag.isSome
  | .scatr r _ _ _ => performRows s c r.n false
  | .ldblk tag addr lines => performBlock s h c tag addr lines
  | .ldblkRel _ => some (s, c.done 0 none)
  | .stflush slots unmap => performFlush s h c slots unmap
  | .bagopen bag => performOpen s h c bag
  | .bagclose bag => performClose s h c bag
  | .coll g q r n sig src dst t => performColl s h c g q r n sig src dst t
  | .mwld g _ _ _ => performLoad s h c g
  | .prod .. | .mbag .. => performProd s c
  | .mret bag force kind n rows off t taint => performRet s h c bag force kind n rows off t taint
  | .mclr kind n rows off => performClear s h c kind n rows off
  | .hand _ => some (s, c.done 0 none)
  | .held _ => some (s, c.done 0 none)
  | .copyco src dst new cell gen => performCopyco s h c src dst new cell gen

/-- The bag whose control block a command may have written. -/
def Cmd.bag? (c : Cmd) : Option Nat :=
  match c.kind with
  | .gatr _ _ _ _ _ b => b
  | .mbag _ b _ _ _ _ => some b
  | .bagclose b => some b
  | .mret b _ _ _ _ _ _ _ => b
  | _ => none

/-- The effect of a command, once; the messages that it sends are its own (20/R426). -/
def effect (s : State) (c : Cmd) : Performed :=
  if c.spent then some (s, c)
  else match s.heat? c.heat with
    | none => some (s, { c with spent := true, orphan := true })
    | some h => if unmapHeld s c then none
        else (performCmd (s.performs c) h c).map fun r => (nameWord s.nextId (Cmd.word c) r.1.performed, r.2)

/-- Keep a command that is over and not complete. -/
def keepCmd (s : State) (c : Cmd) : State := { s with cmds := mapIf (fun x => x.id == c.id) (fun _ => c) s.cmds }

/-- A gather's fault marks its bag: it can only be abandoned (11/R342, R343). -/
def gatherFailed (s : State) (c : Cmd) : State :=
  match c.kind, c.fault with
  | .gatr _ _ _ _ _ (some b), some _ => if c.suppressed then s else failBag s c.heat b
  | _, _ => s

/-- COMMAND_COMPLETE (07/R196): the effect is performed and the object becomes done. A fault found past an unresolved
exit is held (05/R124), and so is a command whose effect has begun and not ended; a handler without a free place holds its command busy (07/R204). -/
def execCommandComplete (cmd : Nat) (s : State) : Host.Outcome State Fault Refusal :=
  match s.cmds.find? fun c => c.id == cmd && c.works && !engineHeld s c with
  | none => .next s
  | some c =>
    match effect s c with
    | none => .next s
    | some (s1, c1) =>
      let stolen : Bool := match c1.phase with
        | .held _ => true
        | _ => false
      let c2 := { c1 with relocated := stolen }
      if !c1.spent || (c2.fault.isSome && c2.past.isSome) || (c2.fault.isNone && c2.hnd.isSome && !handlerRoom s1 c2.core) then
        .next (keepCmd s1 c1)
      else
        let s2 := finishCmd (gatherFailed s1 c2) c2
        .next (match c2.bag? with
          | some b => cleanBag s2 c2.heat b
          | none => s2)

/-- TRANSFER_PERFORMED (07/R206): a counted transfer's writes are performed before its object is done. -/
def execTransferPerformed (cmd : Nat) (s : State) : Host.Outcome State Fault Refusal :=
  match s.cmds.find? fun c => c.id == cmd && c.works && c.xfer.isSome && !engineHeld s c with
  | none => .next s
  | some c =>
    match effect s c with
    | none => .next s
    | some (s1, c1) =>
      let r := if c1.spent && c1.fault.isNone then endTransfer s1 c1 else (s1, c1)
      .next (keepCmd r.1 r.2)

end Sys2Proof.Machine
end

