-- ==== Sys2Proof/Machine/Fabric.lean ====
section
/-!
DEFINITION. The memory system between the dies, the host and the slices: forwarded writes, probes, posted writes, the HDM
range, the slices' ways, the rebalancer, and power gating (12/R351 to R356, R363 to R367; 19/R400, R401; 22/R465 to R467).
-/

namespace Sys2Proof.Machine

/-! ## Forwarded writes (12/R364, R365) -/

/-- Whether a forward must be applied before another: an earlier one of the same line in home order on its way to the
same copy, or a write causally before it. -/
def comesFirst (s : State) (f g : Forward) : Bool :=
  g.id != f.id &&
    ((!f.toHome && !g.toHome && g.dst == f.dst && g.addr / 128 == f.addr / 128 && decide (g.id < f.id)) ||
      precedes s f.dst f.clock g)

/-- A forward may be applied: its message has arrived (10/R316) and no halt holds it (20/R438), and what comes first has
been applied. -/
def forwardReady (s : State) (f : Forward) : Bool :=
  !riding s f.id && !messageHeld s f.heat && !s.net.forwards.any (comesFirst s f)

/-- A home applies a write, and forwards it to every die that holds a copy (12/R364, step 3). -/
def applyHome (s : State) (f : Forward) : State :=
  let fs := number (s.nextId + 1) (forwardsOf s f f.dst)
  let s1 := { s with
    mem := s.mem.putAll f.parts
    net := { noteClock s.net (f.addr / 128) f.clock with
      forwards := (s.net.forwards.filter fun g => g.id != f.id) ++ fs }
    nextId := s.nextId + 1 + fs.length }
  if (s.heat? f.heat).elim false (·.id.coxed) then fs.foldl (fun s g => rideForward s f.heat g) s1 else s1

/-- A write of the copy's own die that the copy shows already and that a forwarded write precedes. -/
def shownAfter (f g : Forward) : Bool :=
  g.id != f.id && g.addr / 128 == f.addr / 128 && g.wdie == f.dst && observed f g.clock &&
    (g.toHome || g.dst == f.dst)

/-- A die applies a forwarded write to its copy; its own writes that are causally after it stay on top (12/R362, R364). -/
def applyCopy (s : State) (f : Forward) : State :=
  let later := s.net.forwards.filter (shownAfter f)
  let put (r : Replica) : Replica := later.foldl (fun r g => r.putAll g.parts g.clock) (r.putAll f.parts f.clock)
  { s with net := { s.net with
      forwards := s.net.forwards.filter fun g => g.id != f.id
      replicas := mapIf (fun r => r.die == f.dst && r.line == f.addr / 128) put s.net.replicas } }

/-- WRITE_FORWARD_APPLY (12/R364, R365). -/
def execWriteForwardApply (id : Nat) (s : State) : Host.Outcome State Fault Refusal :=
  match s.net.forwards.find? fun f => f.id == id with
  | none => .next s
  | some f => .next (if !forwardReady s f then s else if f.toHome then applyHome s f else applyCopy s f)

/-! ## Probes (12/R363) -/

/-- A reply to a line is outstanding at a core. -/
def lineBusy (s : State) (core line : Nat) : Bool :=
  s.heats.any fun h => h.core == core && h.pend.any fun q =>
    match resolve s h h.core q.addr .read with
    | .ok (_, f) => f.pa / 128 == line
    | .error _ => false

/-- An applied probe takes a core's clean copy. -/
def dropCopy (s : State) (core line : Nat) : State :=
  { s with net := { s.net with l1 := s.net.l1.filter (· != (core, line)) } }

/-- PROBE_ARRIVAL (12/R363): a probe behind an outstanding reply is held. -/
def execProbeArrival (core line : Nat) (s : State) : Host.Outcome State Fault Refusal :=
  .next (if lineBusy s core line then
      { s with net := { s.net with probes := s.net.probes ++ [{ core := core, line := line }] } }
    else dropCopy s core line)

/-- Held probes whose reply has been applied are applied in turn. -/
def settleProbes (s : State) : State :=
  let due := s.net.probes.filter fun p => !lineBusy s p.core p.line
  due.foldl (fun s p => dropCopy s p.core p.line)
    { s with net := { s.net with probes := s.net.probes.filter fun p => lineBusy s p.core p.line } }

/-! ## The host (12/R367; 19/R400, R401) -/

/-- CXL_FLUSH_READ_COMPLETE (19/R400): every posted write is written at the host. -/
def execCxlFlushReadComplete (s : State) : Host.Outcome State Fault Refusal :=
  .next { s with
    mem := s.net.posted.foldl (fun m p => m.put p.addr (withTaint false p.bytes)) s.mem
    net := { s.net with posted := [], flushed := true } }

/-- HOST_REJECTED_WRITE (19/R400): the write is dropped without a fault and entered in the log. -/
def execHostRejectedWrite (id : Nat) (s : State) : Host.Outcome State Fault Refusal :=
  match s.net.posted.find? fun p => p.id == id with
  | none => .next s
  | some p =>
    let who := (s.heat? p.heat).map (·.id)
    let e : LogEntry :=
      { clock := s.now, unit := Config.portUnit, line := p.addr / 128 * 128, job := who.elim 0 (·.job)
        launch := who.elim 0 (·.launch), heat := who.elim 0 (·.index), cmd := noCommand }
    .next (logError { s with net := { s.net with posted := s.net.posted.filter fun x => x.id != id } } 0 e)

/-- Eight bytes at the host's HDM address as the line's key shows them: a line sealed under a key that is gone is read
with the key now in its slot, and no rule gives what it reads as with none (log 9). -/
def hdmRead (s : State) (pa : Nat) : Dword :=
  let bs := (viewBytes s (homeDie pa) pa 8).map (·.1)
  match assoc (pa / 128) s.mem.sealedLines with
  | none => BitVec.ofNat 64 (leNat bs)
  | some old =>
    match s.lamom.keys.find? fun k => k.slot == keyOf s (pa / 128) with
    | none => Config.freeWord s.freeCtr
    | some k =>
      if k.key = old then BitVec.ofNat 64 (leNat bs)
      else
        let shown := recrypt old k.key (pa / 128) ((viewBytes s (homeDie pa) (pa / 128 * 128) 128).map (·.1))
        BitVec.ofNat 64 (leNat ((shown.drop (pa % 128)).take 8))

/-- HOST_HDM_ACCESS (12/R367; 19/R399, R401): eight bytes of the HDM range, at the line's home; the host writes untainted
words and reads untainted data. In SAFE reads give zeros and writes are discarded (21/R454). -/
def execHostHdmAccess (wr : Bool) (addr : Nat) (val : BitVec 64) (s : State) : Host.Outcome State Fault Refusal :=
  let pa := s.dev.winBase * 2 ^ 34 + addr / 8 * 8 % 2 ^ 34
  let safe := s.lamom.stage == .safe
  if wr then
    .next (if safe then s else
      writeUnderlay s noHeat (homeDie pa) pa (keyOf s (pa / 128)) (withTaint false (leBytes 8 val.toNat)))
  else
    .next { sendOut s ⟨if safe then 0 else hdmRead s pa, false⟩ with freeCtr := s.freeCtr + 1 }

/-! ## Ways (12/R353, R354; 22/R466) -/

/-- A slice's way register. -/
def wayReg (s : State) (die slice : Nat) : Word :=
  ((s.dev.slway.find? fun e => e.1 == die && e.2.1 == slice).map (·.2.2)).getD 0

def putWay (s : State) (die slice : Nat) (w : Word) : State :=
  { s with dev := { s.dev with
      slway := (s.dev.slway.filter fun e => !(e.1 == die && e.2.1 == slice)) ++ [(die, slice, w)] } }

/-- Ways of a slice that the last flush has emptied. -/
def emptied (s : State) (die slice : Nat) : Nat :=
  ((s.dev.emptyWays.find? fun e => e.1 == die && e.2.1 == slice).map (·.2.2)).getD 0

def setEmptied (s : State) (die slice mask : Nat) : State :=
  { s with dev := { s.dev with
      emptyWays := (s.dev.emptyWays.filter fun e => !(e.1 == die && e.2.1 == slice)) ++ [(die, slice, mask)] } }

/-- A slice is the source or the target of a bucket move. -/
def inMove (s : State) (die slice : Nat) : Bool :=
  s.dev.moves.any fun m => m.die == die && (m.src == slice || m.dst == slice)

/-- First address of a way of slice scratch. -/
def wayBase (die slice way : Nat) : Nat := 0x004040000000 + die * 2 ^ 28 + slice * 2 ^ 22 + way * 262144

/-- Cache ways of a slice that are gated: they hold no valid line (12/R356). -/
def gatedWays (s : State) (die slice : Nat) : BitVec 16 :=
  s.dev.gated.foldl (fun m u => match u with
    | .cacheWay d k w => if d = die ∧ k = slice then m ||| BitVec.ofNat 16 (2 ^ w) else m
    | _ => m) 0

/-- A way that no flush and no gating has emptied holds a valid line or not: a free value, since where lines stand is not
architected (log 7). -/
def waysHeld (s : State) (die slice : Nat) : BitVec 16 :=
  (Config.freeWord s.freeCtr).setWidth 16 &&& ~~~(BitVec.ofNat 16 (emptied s die slice)) &&& ~~~(gatedWays s die slice)

/-- A flush writes back a line that stands in what it flushes, where an error may be found (20/R432); whether it stands
there is a free value, since where lines stand is not architected (log 7). -/
def flushLine (s : State) (line : Nat) : State :=
  let s1 := { s with freeCtr := s.freeCtr + 1 }
  if (Config.freeWord s.freeCtr).getLsbD 0 then chargeWriteBack s1 line else s1

/-- The write-backs of a slice's flush: of the lines that it serves. -/
def flushSlice (s : State) (die slice : Nat) : State :=
  ((linesHeld s).filter fun l => homeDie (l * 128) == die && sliceOf s die (l * 128) == slice).foldl flushLine s

/-- Command 2: set the scratch mask, or refuse it; a refusal noted before stays noted. -/
def setMask (s : State) (die slice : Nat) (mask : BitVec 16) : State :=
  let old : BitVec 16 := (wayReg s die slice).setWidth 16
  let fresh := mask &&& ~~~old
  let held := fresh &&& waysHeld s die slice
  let s1 := { s with freeCtr := s.freeCtr + 1 }
  let refused := held != 0 || decide (12 < ((List.range 16).filter mask.getLsbD).length) || s.sched.elim false (·.live)
  if refused then putWay s1 die slice (0x40000000 ||| old.setWidth 32)
  else
    let changed := (List.range 16).filter fun w => mask.getLsbD w != old.getLsbD w
    let s2 := { s1 with mem := changed.foldl (fun m w => m.zero (wayBase die slice w) 262144) s1.mem }
    putWay s2 die slice ((wayReg s die slice &&& 0x40000000) ||| mask.setWidth 32)

/-- A command written to a slice's way register: 0 nothing, 1 flush, 2 set the mask, 3 reserved. A command while busy is
refused; one on a slice of a bucket move waits, busy, until the move ends. -/
def wayCommand (s : State) (die slice cmd mask : Nat) : State :=
  let r := wayReg s die slice
  let busy (s : State) : State :=
    { putWay s die slice ((r &&& 0xFFFF) ||| 0x80000000) with
      dev := { (putWay s die slice ((r &&& 0xFFFF) ||| 0x80000000)).dev with
        wayCmd := s.dev.wayCmd ++ [(die, slice, cmd, mask)] } }
  if cmd = 0 then s
  else if r.getLsbD 31 then putWay s die slice (r ||| 0x40000000)
  else if cmd = 1 then busy (setEmptied s die slice 0)
  else if inMove s die slice then busy s
  else if cmd = 3 then putWay (setEmptied s die slice 0) die slice ((r &&& 0xFFFF) ||| 0x40000000)
  else setEmptied (setMask (putWay s die slice (r &&& 0xFFFF)) die slice (BitVec.ofNat 16 mask)) die slice 0

/-- FLUSH_WAYS (12/R354). -/
def execFlushWays (die slice : Nat) (mask : BitVec 16) (s : State) : Host.Outcome State Fault Refusal :=
  .next (if 4 ≤ die ∨ 32 ≤ slice then s else wayCommand s die slice 1 mask.toNat)

/-- SET_SCRATCH_MASK (12/R354). -/
def execSetScratchMask (die slice : Nat) (mask : BitVec 16) (s : State) : Host.Outcome State Fault Refusal :=
  .next (if 4 ≤ die ∨ 32 ≤ slice then s else wayCommand s die slice 2 mask.toNat)

/-- A command of a slice that a move no longer holds up is done. -/
def finishWay (s : State) (die slice : Nat) : State :=
  match s.dev.wayCmd.find? fun e => e.1 == die && e.2.1 == slice with
  | none => s
  | some (_, _, cmd, mask) =>
    if inMove s die slice then s
    else
      let r := wayReg s die slice
      let s1 := putWay s die slice (r &&& 0x4000FFFF)
      let s2 := { s1 with dev := { s1.dev with
        wayCmd := s1.dev.wayCmd.filter fun e => !(e.1 == die && e.2.1 == slice) } }
      if cmd = 1 then setEmptied (flushSlice s2 die slice) die slice mask
      else if cmd = 3 then setEmptied (putWay s2 die slice (wayReg s2 die slice ||| 0x40000000)) die slice 0
      else setEmptied (setMask s2 die slice (BitVec.ofNat 16 mask)) die slice 0

/-- WAY_FLUSH_DONE (12/R354). -/
def execWayFlushDone (die slice : Nat) (s : State) : Host.Outcome State Fault Refusal := .next (finishWay s die slice)

/-! ## The rebalancer and the bucket tables (12/R351, R352; 19/R401; 22/R465) -/

/-- A write of a bucket-table entry. -/
def setBucket (s : State) (die b slice : Nat) : State :=
  { s with dev := { s.dev with
      bucket := (s.dev.bucket.filter fun e => !(e.1 == die && e.2.1 == b)) ++ [(die, b, slice)] } }

/-- BUCKET_TABLE_ENTRY (19/R401). -/
def execBucketTableEntry (die b : Nat) (v : BitVec 32) (s : State) : Host.Outcome State Fault Refusal :=
  .next (if 4 ≤ die ∨ 4096 ≤ b ∨ s.sched.elim false (·.live) then s else setBucket s die b (v.toNat % 32))

/-- The slice that a bucket of a die maps to. -/
def bucketSlice (s : State) (die b : Nat) : Nat :=
  ((s.dev.bucket.find? fun e => e.1 == die && e.2.1 == b).map (·.2.2)).getD (b % 32)

/-- A slice may take a bucket: at least four cache ways, and its way register not busy. -/
def takesBucket (s : State) (die slice : Nat) : Bool :=
  let r := wayReg s die slice
  !r.getLsbD 31 && decide (((List.range 16).filter r.getLsbD).length ≤ 12)

/-- Requests of the interval to a slice of a die. -/
def sliceLoad (s : State) (die slice : Nat) : Nat :=
  ((s.dev.requests.filter fun e => e.1.1 == die && bucketSlice s die e.1.2 == slice).map (·.2)).sum

/-- The first number of a list at which a measure is greatest. -/
def argMax (f : Nat → Nat) : List Nat → Option Nat
  | [] => none
  | a :: l => match argMax f l with
    | none => some a
    | some b => some (if f a < f b then b else a)

/-- The move that a die's rebalancer makes at the end of an interval (22/R465): a slice whose requests exceed the mean by
more than the threshold gives its hottest bucket to the least-loaded slice that may take one. DESIGN CHOICE (log 7): of
several such slices the one with the most requests; of equals the one with the lowest number. -/
def rebalance (s : State) (die : Nat) : Option Move :=
  let load (n : Nat) : Nat := sliceLoad s die n
  let total := ((List.range 32).map load).sum
  let th := s.dev.rebalCtl.toNat / 2 ^ 8 % 2 ^ 8
  match argMax load (List.range 32) with
  | none => none
  | some src =>
    if load src * 3200 ≤ total * (100 + th) then none
    else
      let hot := (s.dev.requests.filter fun e => e.1.1 == die && bucketSlice s die e.1.2 == src).map (·.1.2)
      let count (b : Nat) : Nat := ((s.dev.requests.find? fun e => e.1 == (die, b)).map (·.2)).getD 0
      match argMax count (hot.foldr numIns []),
        argMax (fun n => total - load n) ((List.range 32).filter fun n => n != src && takesBucket s die n) with
      | some b, some dst => some { die := die, bucket := b, src := src, dst := dst }
      | _, _ => none

/-- The cycle in which a die's present interval ends. -/
def intervalEnd (s : State) (die : Nat) : Nat :=
  (assoc die s.dev.intervalAt).getD 0 + s.dev.rebalCtl.toNat / 2 ^ 16 % 2 ^ 16 * 1024

/-- REBALANCE_INTERVAL (22/R465): at the end of an interval; counts restart. -/
def execRebalanceInterval (die : Nat) (s : State) : Host.Outcome State Fault Refusal :=
  if 4 ≤ die ∨ !s.dev.rebalCtl.getLsbD 0 ∨ s.sched.elim false (·.live) ∨ s.now < intervalEnd s die then .next s
  else
    let move := if s.dev.moves.any fun m => m.die == die then [] else (rebalance s die).toList
    .next { s with dev := { s.dev with
      moves := s.dev.moves ++ move
      requests := s.dev.requests.filter fun e => e.1.1 != die
      intervalAt := assocSet die s.now s.dev.intervalAt } }

/-- A command of a slice that a bucket move holds up, and that is no flush, waits. -/
def maskWaits (d : DevRegs) (die slice : Nat) : Bool :=
  d.wayCmd.any fun e => e.1 == die && e.2.1 == slice && e.2.2.1 != 1

/-- BUCKET_MOVE_DONE (12/R352, 22/R466): the bucket maps to its new slice, and way commands that waited go on. -/
def execBucketMoveDone (die : Nat) (s : State) : Host.Outcome State Fault Refusal :=
  match s.dev.moves.find? fun m => m.die == die with
  | none => .next s
  | some m =>
    let s1 := setBucket s die m.bucket m.dst
    let s2 := { s1 with dev := { s1.dev with moves := s1.dev.moves.filter fun x => x.die != die } }
    .next ([m.src, m.dst].foldl (fun (s : State) (n : Nat) => if maskWaits s2.dev die n then finishWay s die n else s) s2)

/-! ## Power gating (12/R356, 22/R467) -/

/-- A unit that may be gated: a scratchpad bank only while no heat holds a byte of it. -/
def gateable (s : State) : GateUnit → Bool
  | .l1dWay core _ => decide (core < 256)
  | .cacheWay die slice way => decide (die < 4 ∧ slice < 32 ∧ way < 16) && !(wayReg s die slice).getLsbD way
  | .scratchWay die slice way => decide (die < 4 ∧ slice < 32 ∧ way < 16) && (wayReg s die slice).getLsbD way
  | .spadBank core bank =>
    decide (core < 256 ∧ bank < 16) &&
      (onCoreOf s core).all fun h => h.spad.all fun u => u / 32 != bank

/-- What a gated unit loses. -/
def loseUnit (m : Mem) : GateUnit → Mem
  | .scratchWay die slice way => m.zero (wayBase die slice way) 262144
  | .spadBank core bank => m.zero (spadAddr core (bank * 131072)) 131072
  | _ => m

/-- No access has touched a unit for the threshold. -/
def unitIdle (s : State) (u : GateUnit) : Bool :=
  decide (((s.dev.touched.find? fun e => e.1 == wholeUnit u).elim 0 (·.2)) + s.dev.gateCtl.toNat / 2 ^ 16 % 2 ^ 16 * 1024 ≤ s.now)

/-- The lines of a gated L1D way leave it: the spec does not say which they are, so that those of its whole L1D do
(log 82). -/
def gateLines (l1 : List (Nat × Nat)) : GateUnit → List (Nat × Nat)
  | .l1dWay core _ => l1.filter fun c => c.1 != core
  | _ => l1

/-- UNIT_GATE (22/R467): an idle unit is gated; no unit is while a coxed job is resident. -/
def execUnitGate (u : GateUnit) (s : State) : Host.Outcome State Fault Refusal :=
  if s.dev.gateCtl.getLsbD 0 && !s.sched.elim false (·.live) && gateable s u && unitIdle s u && !s.dev.gated.contains u then
    .next { s with
      mem := loseUnit s.mem u
      dev := { s.dev with gated := s.dev.gated ++ [u] }
      net := { s.net with l1 := gateLines s.net.l1 u } }
  else .next s

/-- The units that have been touched and idle for the threshold; of a cache, each of sixteen ways (log 82). -/
def idleUnits (s : State) : List GateUnit :=
  ((s.dev.touched.filter fun e => unitIdle s e.1).map (·.1)).flatMap fun u => match u with
    | .l1dWay core _ => (List.range 16).map (.l1dWay core)
    | .cacheWay die slice _ => (List.range 16).map (.cacheWay die slice)
    | u => [u]

/-- The units that have become idle are gated. -/
def gateIdle (s : State) : State :=
  (idleUnits s).foldl (fun s u => match execUnitGate u s with
    | .next t => t
    | .fault _ => s
    | .refused _ => s) s

/-- UNIT_WAKE (12/R356). -/
def execUnitWake (u : GateUnit) (s : State) : Host.Outcome State Fault Refusal :=
  .next { s with dev := { s.dev with gated := s.dev.gated.filter (· != u) } }

end Sys2Proof.Machine
end

