-- ==== Sys2Proof/Machine/Walker.lean ====
section
/-!
DEFINITION. The walkers, and the final states of a heat: its end, its fault with the trap record and the trap task, its
cancel (02/R31 to R39; 14/R387; 19/R412 to R418; 20/R423 to R431).
-/

namespace Sys2Proof.Machine

/-! ## Enumeration (19/R412) -/

/-- The coordinates of the heat of an index: the highest level varies fastest. -/
def coordsOf (l : Launch) (idx : Nat) : List Word :=
  match l.coords with
  | some cs => cs
  | none =>
    let counts := l.order.map fun d => (l.dims[d]?).elim 1 (·.count)
    l.dims.zipIdx.map fun (d : Dim × Nat) =>
      let level := l.order.findIdx (· == d.2)
      let below := (counts.drop (level + 1)).foldl (· * ·) 1
      d.1.start + BitVec.ofNat 32 (idx / below % counts.getD level 1) * d.1.step

/-- A launch passes the heats that a cancel has discarded while they were queued (02/R36); n bounds their number. -/
def skipDiscarded : Nat → Launch → Launch
  | 0, l => l
  | n + 1, l =>
    if l.nextIdx < l.total ∧ l.discarded.contains l.nextIdx then skipDiscarded n { l with nextIdx := l.nextIdx + 1 } else l

/-! ## The walker's queue (02/R35, R39, R42, R162; 14/R387; 19/R413) -/

/-- A predecessor that lets a successor be placed: complete, or every heat placed and early start enabled. -/
def lets (s : State) (job pred : Nat) : Bool :=
  (s.launch? job pred).elim true fun q => q.complete || (q.enqueued && q.sms && decide (q.total ≤ q.nextIdx))

/-- A launch that its die's walker may enumerate; a task type with the coxed flag runs only under a schedule. -/
def enumerable (s : State) (die : Nat) (l : Launch) : Bool :=
  l.die == die && l.enqueued && !l.complete && !l.cut && !l.refused && !l.held && !l.coxed && !l.type.coxed &&
    l.preds.all (lets s l.job)

/-- Insert a launch into the queue's order: class, then enqueue order. -/
def insertLaunch (l : Launch) : List Launch → List Launch
  | [] => [l]
  | k :: t =>
    if k.type.prio < l.type.prio ∨ (k.type.prio = l.type.prio ∧ l.seq < k.seq) then l :: k :: t
    else k :: insertLaunch l t

/-- The walker's queue of a die. -/
def walkerQueue (s : State) (die : Nat) : List Launch :=
  (s.launches.filter fun l => enumerable s die l && decide (l.nextIdx < l.total)).foldr insertLaunch []

/-- A resident gang of the job shares a device-barrier id (06/R162). -/
def maskClash (s : State) (l : Launch) : Bool :=
  s.launches.any fun k => k.job == l.job && k.id != l.id && k.type.gang && decide (0 < k.nextIdx) && !k.complete &&
    k.mask &&& l.mask != 0

/-- Place the next heat of a launch on a core. -/
def placeNext (s : State) (l : Launch) (core : Nat) : State :=
  let id : HeatId :=
    { uid := s.nextId + 1, job := l.job, launch := l.id, index := l.nextIdx, graph := l.graph, phase := l.phase
      detached := false, trapTask := false, coxed := false }
  let s1 := placeHeat { s with nextId := s.nextId + 1 } (heatOn s id l.type (coordsOf l l.nextIdx) core 0 0)
  (noteScan s1 l.die core).onLaunch l.job l.id fun l => { l with nextIdx := l.nextIdx + 1, live := l.live + 1 }

/-- Place n heats of a launch in index order, each on the first core with room; none when one finds no core. -/
def placeMany (job id : Nat) : Nat → State → Option State
  | 0, s => some s
  | n + 1, s =>
    match s.launch? job id with
    | none => none
    | some l =>
      match findCore s l.die l.type with
      | none => none
      | some c => placeMany job id n (placeNext s l c)

/-- Place the next heat of a launch, or the whole gang with its barriers at generation 0 (02/R38; 06/R162; 19/R414). -/
def placeOne (s : State) (l : Launch) : Option State :=
  if l.type.gang then
    if maskClash s l then none
    else (placeMany l.job l.id l.total s).map fun (s1 : State) =>
      { s1 with
        devBars := s1.devBars ++ (((List.range 64).filter fun i => l.mask.getLsbD i).map fun i =>
          { job := l.job, launch := l.id, id := i, gen := 0, arrived := [], clock := [], doneClock := [] }) }
  else placeMany l.job l.id 1 s

/-- The first launch of a queue that can be placed, and the state after that (02/R39). -/
def firstPlaced (s : State) : List Launch → Option (Launch × State)
  | [] => none
  | l :: t =>
    match placeOne s l with
    | some s1 => some (l, s1)
    | none => firstPlaced s t

/-! ## Packet comparators (19/R417, R418) -/

/-- The comparators of a kind that match a value, with their dies: those for launches, kind 0, of the launch's die. -/
def comparators (s : State) (die kind value : Nat) : List (Nat × Nat) :=
  (s.dev.cmp.filter fun c => (kind == 1 || c.1 == die) && c.2.2.getLsbD 63 && c.2.2.getLsbD 62 == (kind == 1) &&
    c.2.2.toNat % 2 ^ 48 / 4 == value).map fun c => (c.1, c.2.1)

/-- Matching comparators set hit and the job halts. -/
def comparatorHit (s : State) (job : Nat) (ks : List (Nat × Nat)) : State :=
  let hit (c : Nat × Nat × Dword) : Nat × Nat × Dword := (c.1, c.2.1, c.2.2 ||| (1#64 <<< 61))
  haltJob { s with dev := { s.dev with cmp := mapIf (fun c => ks.contains (c.1, c.2.1)) hit s.dev.cmp } } job 3
    (ks.headD (0, 0)).2

/-- The comparators that hold a launch at the head of enumeration: none of its heats is placed, though a cancel may have
discarded some. -/
def launchBreak (s : State) (l : Launch) : List (Nat × Nat) :=
  if (l.discarded.filter fun i => decide (i < l.nextIdx)).length < l.nextIdx ∨ ((s.job? l.job).elim true fun j => j.passedLaunch.contains l.id) then []
  else comparators s l.die 0 (l.type.kernel.toNat % 2 ^ 48 / 4)

/-- Hold a launch at its comparators. -/
def holdLaunch (s : State) (l : Launch) (ks : List (Nat × Nat)) : State :=
  comparatorHit (s.onLaunch l.job l.id fun l => { l with held := true }) l.job ks

/-- What a die's walker places in a state: the launch, and the state after it. -/
def walkerChoice (s : State) (die : Nat) : Option (Launch × State) :=
  match walkerQueue s die with
  | [] => none
  | l :: rest => if l.type.gang then (placeOne s l).map fun (s2 : State) => (l, s2) else firstPlaced s (l :: rest)

/-- The launches of a die's queue without the heats that a cancel has discarded. -/
def passDiscarded (s : State) (die : Nat) : State :=
  { s with launches := mapIf (enumerable s die) (fun l => skipDiscarded l.total l) s.launches }

/-- A die's walker has acted in this cycle. -/
def walkedNow (s : State) (die : Nat) : Bool := s.dev.walked.any fun e => e.1 == die && e.2.1 == s.now

/-- Cores on which the walkers have claimed room in this cycle. -/
def claimedNow (s : State) : List Nat := (s.dev.walked.filter fun e => e.2.1 == s.now).flatMap (·.2.2)

/-- The state as the walkers see it at the start of the cycle. -/
def beforeClaims (s : State) : State :=
  { s with heats := s.heats.filter fun h => !(h.since == s.now && (claimedNow s).contains h.core) }

/-- A die's walker has acted in this cycle and claimed room on some cores. -/
def noteWalk (s : State) (die : Nat) (cores : List Nat) : State :=
  { s with dev := { s.dev with walked := (s.dev.walked.filter fun e => e.1 != die) ++ [(die, s.now, cores)] } }

/-- The cores that a state has heats on and an earlier one had not. -/
def newCores (before after : State) : List Nat :=
  ((after.heats.filter fun h => (before.heat? h.id.uid).isNone)).map (·.core)

/-- A walker of a lower die has still to place something in this cycle. -/
def lowerFirst (s : State) (die : Nat) : Bool :=
  (List.range die).any fun d => !walkedNow s d && (walkerChoice (passDiscarded (beforeClaims s) d) d).isSome

/-- WALKER_PLACE (19/R413): one heat, or one gang, of a die's queue, once in a cycle, the lower die first; a walker whose
core a lower die has claimed in this cycle retries in the next. -/
def execWalkerPlace (die : Nat) (s : State) : Host.Outcome State Fault Refusal :=
  if coxedMode s || !s.dev.computeOn || decide (4 ≤ die) || walkedNow s die || lowerFirst s die then .next s
  else
    let s1 := passDiscarded s die
    match walkerQueue s1 die with
    | [] => .next s1
    | l :: _ =>
      if launchBreak s1 l ≠ [] then .next (holdLaunch s1 l (launchBreak s1 l))
      else
        match walkerChoice (beforeClaims s1) die with
        | none => .next s1
        | some (k, s2) =>
          if launchBreak s1 k ≠ [] then .next (holdLaunch s1 k (launchBreak s1 k))
          else
            let cores := newCores (beforeClaims s1) s2
            if cores.any (claimedNow s1).contains then .next (noteWalk s1 die [])
            else match placeOne s1 k with
              | none => .next (noteWalk s1 die [])
              | some s3 => .next (noteWalk s3 die cores)

/-! ## Trap records (20/R426, R428, R429) -/

/-- The 64 bytes of a trap record. -/
def trapBytes (h : Heat) (i : FaultInfo) : List Byte :=
  let cause := i.cls.toNat + seatNum i.seat * 2 ^ 8 + boolNat h.id.trapTask * 2 ^ 10 + boolNat i.handler * 2 ^ 11 +
    i.engine % 16 * 2 ^ 12 + min h.secondary 255 * 2 ^ 16
  leBytes 4 (recordHeader 1 16).toNat ++ leBytes 4 cause ++ leBytes 4 h.id.launch ++ leBytes 4 h.id.index ++
    leBytes 4 (i.cmdIndex.getD (2 ^ 32 - 1)) ++ leBytes 4 i.iter ++ leBytes 8 i.loop.toNat ++ leBytes 8 i.text.toNat ++
    leBytes 8 i.clock ++ leBytes 8 i.engStatus.toNat ++ leBytes 8 i.addr.toNat

/-! ## Trap tasks (20/R430, R431) -/

/-- A trap task type that fits the slot of a faulted heat. -/
def trapTypeFits (h : Heat) (t : TaskType) : Bool :=
  !t.gang && !t.coxed && t.spadUnits == 0 && t.asrUnits == 0 && decide (t.sGroups ≤ h.type.sGroups ∧ t.vGroups ≤ h.type.vGroups)

/-- The trap task of a faulted heat in its start state: the record's address and index, the launch and the heat. -/
def trapHeat (s : State) (h : Heat) (t : TaskType) (recAddr : Dword) (idx : Nat) : Heat :=
  let id : HeatId := { h.id with uid := s.nextId + 1, detached := true, trapTask := true, coxed := false }
  let vs : List Dword := [recAddr, BitVec.ofNat 64 idx, BitVec.ofNat 64 h.id.launch, BitVec.ofNat 64 h.id.index]
  let k := startHeat id t [] h.core h.slot s.now h.spad h.asr 0 0
  let lc : Dword := if t.tripSrc = 0 then BitVec.ofNat 64 t.trip
    else BitVec.ofNat 64 (clampS (vs.getD (t.tripSrc - 1) 0) 0 (2 ^ 32 - 1))
  { k with
    record := some idx
    c := { k.c with
      s := (((k.c.s.set 1 ⟨vs.getD 0 0, false⟩).set 2 ⟨vs.getD 1 0, false⟩).set 3 ⟨vs.getD 2 0, false⟩).set 4
        ⟨vs.getD 3 0, false⟩
      lc := k.c.lc.set 0 ⟨lc, false⟩ } }

/-- Start the trap task that a faulted heat is due, once its job has left coxed mode. -/
def startTrap (s : State) (h : Heat) : State :=
  match s.job? h.id.job, h.record with
  | some j, some idx =>
    if j.coxed && coxedMode s || !s.dev.computeOn then s
    else
      let s1 := s.onHeat h.id.uid fun h => { h with trapDue := false }
      let entries := 2 ^ (trapField s j h.die 24 % 32)
      let va := trapAddr s j h.die 0 + BitVec.ofNat 64 (64 * (idx % entries))
      (match taskType? s j h.die (trapField s j h.die 20) with
       | none => s1
       | some t =>
         if trapTypeFits h t then placeHeat { s1 with nextId := s1.nextId + 1 } (trapHeat s h t va idx) else s1)
  | _, _ => s

/-- A trap task of a record that has not reached a final state. -/
def trapRunning (s : State) (job idx : Nat) : Bool :=
  s.heats.any fun k => k.id.trapTask && k.id.job == job && k.record == some idx && !k.status.final

/-- Trap tasks that are due start, and records that software's consumer has passed retire (20/R431). -/
def settleTraps (s : State) : State :=
  s.heats.foldl (fun s h =>
    if h.status != .faulted || h.freed then s
    else if h.trapDue then startTrap s h
    else match s.job? h.id.job, h.record with
      | some j, some idx =>
        if !trapRunning s j.id idx && decide ((trapField s j h.die 32 + 2 ^ 32 - (idx + 1) % 2 ^ 32) % 2 ^ 32 < 2 ^ 31) then
          retireRecord s h.id.uid
        else s
      | _, _ => s) s

/-! ## Final states (02/R31, R32, R36; 20/R423) -/

/-- The code of a final state in a trace record. -/
def HeatStatus.code : HeatStatus → Nat
  | .dropped => 1
  | .faulted => 2
  | .cancelled => 3
  | _ => 0

/-- A heat reaches a final state: its claim dies, its counters join the launch profile, its mappings and handlers go, its
room is freed unless a record keeps it, its launch counts it, and the record that it is the trap task of retires. -/
def leaveFinal (s : State) (h : Heat) (st : HeatStatus) (keep : Option Nat) (f : Launch → Launch) : State :=
  let s1 := addProfile (killClaim s h) h true
  let h1 : Heat := { h with status := st, stop := none, hold := .none, blocks := [], haltPending := false }
  let h2 := match keep with
    | some idx => { h1 with record := some idx }
    | none => { freeHeat h1 with record := none }
  let s2 := countFinal { s1.putHeat h2 with
    stashes := s1.stashes.filter fun t => t.heat != h.id.uid
    handlers := s1.handlers.filter fun k => k.heat != h.id.uid } h2 f
  let s3 := traceHeat s2 h2 1 (Config.finalCode st.code).toNat 0
  if h.id.trapTask then
    (s3.heats.filter fun k => k.status == .faulted && !k.freed && !k.id.trapTask && k.id.job == h.id.job &&
      k.record == h.record && h.record.isSome).foldl (fun s k => retireRecord s k.id.uid) s3
  else s3

/-- Every seat has passed HEND. -/
def allEnded (h : Heat) : Bool := seats.all fun p => (h.seat p).ended

/-- Every seat has stopped or passed HEND, and everything that the heat issued has drained. -/
def atRest (s : State) (h : Heat) : Bool :=
  (seats.all fun p => (h.seat p).stopped || (h.seat p).ended) && drained s h && !holdsStolen s h

/-- HEAT_END (02/R31): a bag still open is discarded without a report (07/R214). A heat that ends before a stop for
SUSPEND or pre-emption takes effect ends (20/R435). -/
def execHeatEnd (heat : Nat) (s : State) : Host.Outcome State Fault Refusal :=
  match s.heat? heat with
  | none => .next s
  | some h =>
    let plain := h.stop.elim true fun st => (st.cause == .suspend || st.cause == .preempt) && !st.cancelAfter
    if h.onCore && plain && allEnded h && drained s h then
      .next (leaveFinal s { h with bags := [] } .ended none id)
    else .next s

/-- HEAT_CANCELLED (02/R36). -/
def execHeatCancelled (heat : Nat) (s : State) : Host.Outcome State Fault Refusal :=
  match s.heat? heat with
  | none => .next s
  | some h =>
    let stops := h.stop.elim false fun st => st.cause == .cancel || (st.cancelAfter && allEnded h)
    if h.status == .stopping && stops && atRest s h then
      let s1 := abandonBags s h
      .next (leaveFinal s1 ((s1.heat? heat).getD h) .cancelled none fun l => { l with cancelled := true })
    else .next s

/-- HEAT_FAULTED (20/R423, R429, R430): the record is written, and a trap task is due where the job asks for one. -/
def execHeatFaulted (heat : Nat) (s : State) : Host.Outcome State Fault Refusal :=
  match s.heat? heat with
  | none => .next s
  | some h =>
    match h.stop, h.fault with
    | some st, some info =>
      if h.status == .stopping && st.cause == .fault && atRest s h then
        let s1 := abandonBags s h
        let h1 := (s1.heat? heat).getD h
        let (s2, idx) := writeTrap s1 h1.id.job h1.die h1.id.launch h1.id.index (trapBytes h1 info)
        let start := (s2.job? h1.id.job).elim false fun j => (trapField s2 j h1.die 24).testBit 8
        let h2 := { h1 with trapDue := idx.isSome && start && !h1.id.trapTask }
        let s3 := leaveFinal s2 h2 .faulted idx fun l => { l with faulted := true, faultedHeats := l.faultedHeats + 1 }
        .next (if h2.trapDue then startTrap s3 ((s3.heat? heat).getD h2) else s3)
      else .next s
    | _, _ => .next s

end Sys2Proof.Machine
end

