-- ==== Sys2Proof/Machine/HostQueue.lean ====
section
/-!
DEFINITION. The host's queues: registers, doorbells, job descriptors, packets and their signal records
(19/R399 to R408, R416 to R418; 20/R434, R435, R451, R452).
-/

namespace Sys2Proof.Machine

/-! ## Registers (19/R402, R417) -/

/-- A queue's registers; those of a queue never written are at their reset values. -/
def queueRegs (s : State) (q : Nat) : QueueRegs :=
  (s.queues.find? fun r => r.q == q).getD
    { q := q, base := 0, job := 0, ctl := 0, cons := 0, poll := 0, stat := 0, prod := 0, held := false, inHand := none }

/-- Store a queue's registers. -/
def putQueue (s : State) (r : QueueRegs) : State :=
  { s with queues := (s.queues.filter fun x => x.q != r.q) ++ [r] }

def QueueRegs.enabled (r : QueueRegs) : Bool := r.ctl.getLsbD 31
def QueueRegs.polls (r : QueueRegs) : Bool := r.ctl.getLsbD 30
def QueueRegs.size (r : QueueRegs) : Nat := 2 ^ (r.ctl.toNat % 32)
def QueueRegs.running (r : QueueRegs) : Bool := r.enabled && r.stat.getLsbD 0

/-- A queue stops with an error (19/R403). -/
def queueError (s : State) (q code : Nat) : State :=
  putQueue s { queueRegs s q with stat := BitVec.ofNat 64 (2 + code * 256) }

/-- A new producer index (19/R403). -/
def takeDoor (s : State) (q : Nat) (p : Word) : State :=
  let r := queueRegs s q
  if !r.running || p == r.prod then s
  else if r.size < (p - r.cons).toNat ∨ 2 ^ 31 ≤ (p - r.prod).toNat then queueError s q 1
  else putQueue s { r with prod := p }

/-- QDOOR (19/R403): ignored in poll mode. -/
def execQdoor (q : Nat) (p : BitVec 32) (s : State) : Host.Outcome State Fault Refusal :=
  .next (if (queueRegs s q).polls then s else takeDoor s q p)

/-- Physical address of a host address. -/
def hostPa (a : Nat) : Nat := hostBase + a % 2 ^ 47

/-- QPOLL_CHANGE (19/R403): in poll mode the producer-index word is read when its line changes. -/
def execQpollChange (q : Nat) (s : State) : Host.Outcome State Fault Refusal :=
  let r := queueRegs s q
  .next (if r.polls then takeDoor s q (BitVec.ofNat 32 (viewNat s (q / 16) (hostPa r.poll.toNat) 4)) else s)

/-! ## Jobs (19/R405; 20/R451, R452) -/

/-- A job that is resident: created and not complete. -/
def residentJobs (s : State) : List Job := s.jobs.filter fun j => !j.complete

/-- Queues that serve a job. -/
def queuesOf (s : State) (j : Job) : List QueueRegs := s.queues.filter fun r => r.enabled && r.job.toNat == j.descAddr

/-- Everything of a job's phases is complete; of a killed job's, what was launched. -/
def jobIdle (s : State) (j : Job) : Bool :=
  (s.phases.filter fun p => p.job == j.id).all (fun p => if j.killed then (phaseLaunches s p.uid).all (·.complete) else phaseDone s p) &&
    !detachedLive s j.id && (j.killed || s.queues.all fun r => r.inHand.elim true (·.1 != j.id))

/-- Jobs whose queues are all disabled and whose work is done complete; their translations go. -/
def settleJobs (s : State) : State :=
  (residentJobs s).foldl (fun s j =>
    if (queuesOf s j).isEmpty && jobIdle s j then
      { s with
        jobs := mapIf (fun k => k.id == j.id) (fun k => { k with complete := true }) s.jobs
        tlb := s.tlb.filter fun e => e.job != j.id }
    else s) s

/-- QCTL (19/R402): a size outside 4 to 16 is ignored whole; the size is kept while the queue is enabled. Disabling a
job's last queue while work remains kills the job (20/R452). In SAFE a write leaves enable as it is (21/R454). -/
def execQctl (q : Nat) (v : BitVec 32) (s : State) : Host.Outcome State Fault Refusal :=
  let r := queueRegs s q
  let size := v.toNat % 32
  let on := if s.lamom.stage = .safe then r.enabled else v.getLsbD 31
  let v := (v &&& 0x7FFFFFFF) ||| (if on then 0x80000000 else 0)
  if 64 ≤ q ∨ size < 4 ∨ 16 < size then .next s
  else
    let kept := v &&& 0xC03F0000
    if r.enabled then
      let r1 := { r with ctl := kept ||| (r.ctl &&& 31), stat := if on then r.stat else r.stat &&& 0xFFFFFFFFFFFFFFFE }
      let s1 := putQueue s r1
      if on then .next s1
      else match (residentJobs s1).find? fun j => j.descAddr == r.job.toNat with
        | some j => .next (if (queuesOf s1 j).isEmpty && !jobIdle s1 j then cancelJob s1 j.id else s1)
        | none => .next s1
    else
      let r1 := { r with ctl := kept ||| (v &&& 31) }
      .next (putQueue s (if on then { r1 with cons := 0, prod := 0, stat := 1 } else r1))

/-- A comparator takes a written value; hit is cleared by writing 1 (19/R417). -/
def writeCmp (old v : Dword) : Dword :=
  let hit := old.getLsbD 61 && !v.getLsbD 61
  let kept := if v.getLsbD 62 then v &&& 0xC0000000000000FC else v &&& 0xC000FFFFFFFFFFFC
  if hit then kept ||| (1#64 <<< 61) else kept

/-- REGISTER_WRITE (19/R401, R402, R417): a queue's base, job and poll address are kept while it is enabled. -/
def execRegisterWrite (r : HostReg) (v : BitVec 64) (s : State) : Host.Outcome State Fault Refusal :=
  let queue (q : Nat) (f : QueueRegs → QueueRegs) : State :=
    let x := queueRegs s q
    if 64 ≤ q ∨ x.enabled then s else putQueue s (f x)
  match r with
  | .qbase q => .next (queue q fun x => { x with base := v &&& 0xFFFFFFFFFFFFF001 })
  | .qjob q => .next (queue q fun x => { x with job := v &&& 0xFFFFFFFFFFFFFFC0 })
  | .qpoll q => .next (queue q fun x => { x with poll := v &&& 0xFFFFFFFFFFFFFFF8 })
  | .pktcmp die n =>
    if 4 ≤ die ∨ 8 ≤ n then .next s
    else
      let old := ((s.dev.cmp.find? fun c => c.1 == die && c.2.1 == n).map (·.2.2)).getD 0
      .next { s with dev := { s.dev with
        cmp := (s.dev.cmp.filter fun c => !(c.1 == die && c.2.1 == n)) ++ [(die, n, writeCmp old v)] } }
  | .winbase => .next { s with dev := { s.dev with winBase := v.toNat % 16 } }
  | .slwayctl die slice =>
    if 4 ≤ die ∨ 32 ≤ slice then .next s
    else .next (wayCommand s die slice (v.toNat / 2 ^ 16 % 4) (v.toNat % 2 ^ 16))
  | .unlisted _ => .next s

/-- What the registers of a queue read as (19/R402); no rule gives what the write-only QDOOR reads as (log 71). -/
def readQueue (s : State) (q off : Nat) : Dword :=
  let r := queueRegs s q
  match off with
  | 0x00 => r.base
  | 0x08 => r.job
  | 0x10 => r.ctl.setWidth 64
  | 0x18 => Config.freeWord s.freeCtr
  | 0x20 => r.cons.setWidth 64
  | 0x28 => r.poll
  | 0x30 => r.stat
  | _ => 0

/-- What a register of BAR0 reads as, at an offset in a die's block (19/R401). -/
def readBlock (s : State) (die o : Nat) : Dword :=
  if 0x1000 ≤ o ∧ o < 0x1400 then readQueue s (16 * die + (o - 0x1000) / 0x40) (o % 0x40)
  else if 0x2000 ≤ o ∧ o < 0x2040 ∧ o % 8 = 0 then
    ((s.dev.cmp.find? fun c => c.1 == die && c.2.1 == (o - 0x2000) / 8).map (·.2.2)).getD 0
  else if o = 0x3000 ∧ die = 0 then BitVec.ofNat 64 s.dev.winBase
  else if o = 0x3008 ∧ die = 0 then BitVec.ofNat 64 s.dev.devNum
  else if 0x100000 ≤ o ∧ o < 0x120000 ∧ o % 0x1000 = 0 then (wayReg s die ((o - 0x100000) / 0x1000)).setWidth 64
  else if 0x200000 ≤ o ∧ o < 0x204000 ∧ o % 4 = 0 then BitVec.ofNat 64 (bucketSlice s die ((o - 0x200000) / 4))
  else 0

/-- The host reads BAR0 (19/R401): unlisted offsets read 0. -/
def hostRead (off : Nat) (s : State) : State :=
  { sendOut s ⟨if off / 2 ^ 24 < 4 then readBlock s (off / 2 ^ 24) (off % 2 ^ 24) else 0, false⟩ with freeCtr := s.freeCtr + 1 }

/-- DEVNUM (19/R401). -/
def execDevnum (v : BitVec 64) (s : State) : Host.Outcome State Fault Refusal :=
  .next (if (residentJobs s).isEmpty then { s with dev := { s.dev with devNum := v.toNat % 1024 } } else s)

/-- A job from the 64 bytes of its descriptor, where they keep 19/R405; trap descriptor and root are aligned
(20/R428, R448). -/
def jobOf (addr : Nat) (bs : List Byte) (taken attached : Nat → Bool) : Option Job :=
  let id := part bs 24 27
  let count := part bs 28 31
  if zeros bs 8 15 && zeros bs 56 63 && decide (part bs 0 7 < 2) && id != 0 && !taken id &&
      decide (1 ≤ count ∧ count ≤ 65536) && decide (part bs 32 39 % 64 = 0) && decide (part bs 40 47 % 64 = 0) &&
      decide (part bs 16 23 % 32768 = 0) && decide (part bs 16 23 < asrBase) then
    some
      { id := id, descAddr := addr, flags := BitVec.ofNat 64 (part bs 0 7), root := BitVec.ofNat 64 (part bs 16 23)
        typeCount := count, typeTable := BitVec.ofNat 64 (part bs 32 39), trapQ := BitVec.ofNat 64 (part bs 40 47)
        groupTab := BitVec.ofNat 64 (part bs 48 55), killed := false, coxed := false, aligned := false
        complete := false, overrun := false, cancelled := false, debugger := attached id, watch := [], halt := none
        lastHalt := none, haltedCycles := 0, aborted := [], collSeq := [], nextLaunch := 1, passedLaunch := []
        sampled := 0 }
  else none

/-- What an earlier job of the same id has left, but for heats that still hold room. -/
def dropOld (s : State) (job : Nat) : State :=
  { s with
    jobs := s.jobs.filter fun j => j.id != job
    phases := s.phases.filter fun p => p.job != job
    graphs := s.graphs.filter fun g => g.job != job
    launches := s.launches.filter fun l => l.job != job
    heats := s.heats.filter fun h => h.id.job != job || !h.freed
    tlb := s.tlb.filter fun e => e.job != job }

/-- The job that a queue serves, created at its first dispatch (19/R405); none when the descriptor breaks its rules. -/
def queueJob (s : State) (q : Nat) : Option (State × Job) :=
  let addr := (queueRegs s q).job.toNat
  match (residentJobs s).find? fun j => j.descAddr == addr with
  | some j => some (s, j)
  | none =>
    if asrBase ≤ addr ∨ s.mem.errors.contains (addr / 128) ∨ s.mem.poison.contains (addr / 128) then none
    else
      (jobOf addr ((viewBytes s (q / 16) addr 64).map (·.1)) (fun id => (residentJobs s).any fun j => j.id == id)
        (s.lamom.debuggers.contains ·)).map fun (j : Job) =>
        ({ dropOld s j.id with jobs := (dropOld s j.id).jobs ++ [{ j with sampled := s.now }] }, j)

/-! ## Packets (19/R403, R404, R406) -/

/-- Where the address of a ring or a signal leads: bit 0 selects underlay over host. -/
def locate (a : Dword) (low : Nat) : Nat :=
  let base := a.toNat / low * low
  if a.getLsbD 0 then base else hostPa base

/-- Physical address of the packet at a queue's head. -/
def headPacket (r : QueueRegs) : Nat := locate r.base 4096 + 64 * (r.cons.toNat % r.size)

/-- The zero fields of a packet header. -/
def headerOk (bs : List Byte) : Bool := part bs 1 1 / 8 == 0 && zeros bs 4 5

/-- A dispatched packet, in wait of something. -/
def newPacket (s : State) (q : Nat) (bs : List Byte) (w : PacketWait) : HostPacket :=
  let flags := part bs 1 1
  { id := s.nextId + 1, q := q, tag := BitVec.ofNat 16 (part bs 6 7), signal := flags.testBit 1, intr := flags.testBit 2
    sigAddr := BitVec.ofNat 64 (part bs 56 63), wait := w }

/-- A dispatched packet waits. -/
def keepPacket (s : State) (q : Nat) (bs : List Byte) (w : PacketWait) : State :=
  { s with packets := s.packets ++ [newPacket s q bs w], nextId := s.nextId + 1 }

/-- A packet completes: its signal record, then its interrupt (19/R406, R408). -/
def signal (s : State) (p : HostPacket) (status id : Nat) : State :=
  let s1 := if p.signal then
      let pa := locate p.sigAddr 16
      writePhys s noHeat (p.q / 16) pa (keyOf s (pa / 128)) (withTaint false (leBytes 8 status ++ leBytes 8 id))
    else s
  if p.intr then raiseVector s1 ((queueRegs s1 p.q).ctl.toNat / 2 ^ 16 % 64) else s1

/-- A packet that completes at its dispatch, with bits 7:0 of its status. -/
def finishNow (s : State) (q : Nat) (bs : List Byte) (bits : Nat) : State :=
  let p := newPacket s q bs .write
  signal s p (bits + p.tag.toNat * 2 ^ 48) 0

/-- Comparators that hold the packet at a queue's head; the packet that they have released is in hand, and they do not
match it again (19/R418). -/
def packetBreak (s : State) (q : Nat) : List (Nat × Nat) := comparators s (q / 16) 1 q

/-- The packet at a queue's head, and whether it cannot be read. -/
def headBytes (s : State) (q : Nat) : List Byte := (viewBytes s (q / 16) (headPacket (queueRegs s q)) 64).map (·.1)

def headBad (s : State) (q : Nat) : Bool :=
  let line := headPacket (queueRegs s q) / 128
  s.mem.errors.contains line || s.mem.poison.contains line

/-- A queue has a packet to dispatch: the one in hand, whether or not the queue still runs (19/R402), unless a comparator
holds it; or the one at its head, which waits for the earlier ones when it has the barrier bit. -/
def offers (s : State) (q : Nat) : Bool :=
  let r := queueRegs s q
  if r.inHand.isSome then !r.held
  else r.running && r.cons != r.prod &&
    (headBad s q || !((part (headBytes s q) 1 1).testBit 0 && s.packets.any fun p => p.q == q))

/-- Queue q is the one that its die's command processor takes next in round-robin order, and the processor has dispatched
no packet in this cycle (19/R404); it begins with its first queue (log 71). -/
def hasTurn (s : State) (q : Nat) : Bool :=
  let (first, used) := match assoc (q / 16) s.dev.cpTurn with
    | none => (0, false)
    | some (k, t) => (k + 1, t == s.now)
  !used && ((List.range 16).map fun i => q / 16 * 16 + (first + i) % 16).find? (offers s) == some q

/-- The command processor of a queue's die has dispatched a packet of it. -/
def noteTurn (s : State) (q : Nat) : State :=
  { s with dev := { s.dev with cpTurn := assocSet (q / 16) (q % 16, s.now) s.dev.cpTurn } }

/-- Dispatch the packet in hand, which has been checked; one of a killed job has no effect. -/
def dispatchHeld (q type job : Nat) (bs : List Byte) (run : State → Job → List Byte → State) (s : State) : State :=
  if part bs 0 0 ≠ type then s
  else
    let s1 := noteTurn (putQueue s { queueRegs s q with inHand := none }) q
    match s.job? job with
    | none => s1
    | some j => if j.killed || j.complete then s1 else run s1 j bs

/-- Dispatch the packet at a queue's head when it is of a type and the queue has its turn: a reserved type, a bad field, an
unreadable packet or a bad descriptor stops the queue; a comparator may hold it in hand. -/
def dispatch (q type : Nat) (bodyOk : List Byte → Bool) (run : State → Job → List Byte → State) (s : State) : State :=
  if !hasTurn s q then s
  else match (queueRegs s q).inHand with
  | some (job, bs) => dispatchHeld q type job bs run s
  | none =>
  if headBad s q then queueError (discover s (headPacket (queueRegs s q) / 128) 0 0 0 noCommand 8) q 4
  else
      let bs := headBytes s q
      if 7 < part bs 0 0 then queueError s q 2
      else if part bs 0 0 ≠ type then s
      else if !headerOk bs || !bodyOk bs then queueError s q 2
      else match queueJob s q with
        | none => queueError s q 3
        | some (s1, j) =>
          let r := queueRegs s1 q
          let ks := packetBreak s1 q
          let r1 := { r with cons := r.cons + 1 }
          if ks ≠ [] then putQueue (comparatorHit s1 j.id ks) { r1 with held := true, inHand := some (j.id, bs) }
          else run (noteTurn (putQueue s1 r1) q) j bs

/-- The body bytes after n are zero. -/
def zeroFrom (n : Nat) (bs : List Byte) : Bool := zeros bs n 55

/-- NOP packet. -/
def execNopPacket (q : Nat) (s : State) : Host.Outcome State Fault Refusal :=
  .next (dispatch q 0 (zeroFrom 8) (fun s _ bs => finishNow s q bs 1) s)

/-- The phase of a job that a packet's header names: the open one of its id, or a new one (19/R406). -/
def takePhase (s : State) (job : Nat) (bs : List Byte) : State × Nat :=
  let id := part bs 2 3
  match s.phases.find? fun p => p.job == job && p.id == id && !p.closed with
  | some p => (s, p.uid)
  | none =>
    ({ s with
        phases := s.phases ++ [{ uid := s.nextId + 1, id := id, job := job, closed := false }]
        nextId := s.nextId + 1 }, s.nextId + 1)

/-- An address in bytes 15:8 of a packet. -/
def bodyAddr (bs : List Byte) : Dword := BitVec.ofNat 64 (part bs 8 15)

/-- A launch from the host: what the host's accesses carry precedes it (12/R359). -/
def hostLaunch (s : State) (id job graph phase die : Nat) (preds : List Nat) : Launch :=
  { newLaunch id job graph phase die preds [] with startClock := heatClock s noHeat }

/-- LAUNCH packet (19/R406): a graph of one. -/
def execLaunchPacket (q : Nat) (s : State) : Host.Outcome State Fault Refusal :=
  .next (dispatch q 1 (zeroFrom 16) (fun s j bs =>
    let (s1, ph) := takePhase s j.id bs
    let (s2, g) := addGraph s1 j.id ph false
    let (s3, id) := takeLaunchId s2 j.id
    keepPacket (request s3 (hostLaunch s3 id j.id g ph (q / 16) []) (some (bodyAddr bs)) true) q bs (.launch j.id id)) s)

/-- A graph descriptor that keeps its limits: record addresses with predecessor masks (19/R407). -/
def graphOf (s : State) (j : Job) (die : Nat) (va : Dword) : Option (List (Dword × Nat)) :=
  (jobBytes s j die va 16).bind fun (head : List Byte) =>
    let n := part head 0 1
    if n = 0 ∨ 64 < n ∨ !zeros head 2 15 then none
    else
      (jobBytes s j die (va + 16) (16 * n)).bind fun (bs : List Byte) =>
        let es := (List.range n).map fun k => (BitVec.ofNat 64 (part bs (16 * k) (16 * k + 7)), part bs (16 * k + 8) (16 * k + 15))
        if es.zipIdx.all fun e => decide (e.1.2 < 2 ^ e.2) then some es else none

/-- Request the launches of a graph. -/
def requestAll (job g ph die : Nat) : List (Dword × Nat) → List Nat → State → State
  | [], _, s => s
  | e :: t, ids, s =>
    let (s1, id) := takeLaunchId s job
    let preds := (ids.zipIdx.filter fun p => e.2.testBit p.2).map (·.1)
    requestAll job g ph die t (ids ++ [id]) (request s1 (hostLaunch s1 id job g ph die preds) (some e.1) true)

/-- GRAPH packet (19/R407): a descriptor that breaks its limits is refused as a whole. -/
def execGraphPacket (q : Nat) (s : State) : Host.Outcome State Fault Refusal :=
  .next (dispatch q 2 (zeroFrom 16) (fun s j bs =>
    let (s1, ph) := takePhase s j.id bs
    let es := graphOf s1 j (q / 16) (bodyAddr bs)
    let (s2, g) := addGraph s1 j.id ph es.isNone
    keepPacket (requestAll j.id g ph (q / 16) (es.getD []) [] s2) q bs (.graph g)) s)

/-- PCLOSE (19/R406). -/
def execPclose (q : Nat) (s : State) : Host.Outcome State Fault Refusal :=
  .next (dispatch q 3 (zeroFrom 8) (fun s j bs =>
    let (s1, ph) := takePhase s j.id bs
    keepPacket { s1 with phases := mapIf (fun p => p.uid == ph) (fun p => { p with closed := true }) s1.phases } q bs
      (.phase ph)) s)

/-- CANCEL packet (19/R416). -/
def execCancelPacket (q : Nat) (s : State) : Host.Outcome State Fault Refusal :=
  .next (dispatch q 4 (fun bs => decide (part bs 16 16 ≤ 4) && zeros bs 17 19 && zeroFrom 24 bs) (fun s j bs =>
    let r := cancelLevel s j.id (part bs 16 16) (part bs 8 15) (part bs 20 23)
    finishNow r.1 q bs (1 + 4 * boolNat r.2)) s)

/-- WRITE packet (19/R406). -/
def execWritePacket (q : Nat) (s : State) : Host.Outcome State Fault Refusal :=
  .next (dispatch q 5 (zeroFrom 24) (fun s j bs =>
    let va := bodyAddr bs
    if va.toNat % 8 ≠ 0 then finishNow s q bs 33
    else match jobWrite 1 s j (q / 16) va (leBytes 8 (part bs 16 23)) with
      | .error _ => finishNow s q bs 33
      | .ok s1 => keepPacket s1 q bs .write) s)

/-- PREEMPT packet (20/R434, R435). -/
def execPreemptPacket (q : Nat) (s : State) : Host.Outcome State Fault Refusal :=
  .next (dispatch q 7 (fun bs => decide (part bs 24 25 % 4096 = 0) && decide (part bs 40 40 < 8) && zeros bs 41 55) (fun s j bs =>
    let p := newPacket s q bs .write
    match s.member? j.id (part bs 32 35) (part bs 36 39) with
    | none => finishNow s q bs 33
    | some h =>
      let cob := bodyAddr bs
      match claimRule h (BitVec.ofNat 64 (part bs 16 23)) with
      | none => finishNow s q bs (if h.status = .resident then 33 else 9)
      | some cell =>
        if h.status ≠ .resident then finishNow s q bs 9
        else if cob.toNat % 256 ≠ 0 then finishNow s q bs 33
        else
          let req : SuspendReq :=
            { cob := cob, claim := cell, rights := part bs 40 40, image := BitVec.ofNat 64 (part bs 24 31), preempt := true
              packet := some p.id }
          keepPacket (s.putHeat (stopFor s .preempt { h with susp := some req })) q bs (.preempt h.id.uid)) s)

/-! ## Completion (19/R408, R415) -/

/-- Every write of the heats of some launches, and of the command processors when none are named, is performed at system
scope. -/
def allPerformed (s : State) (ls : List Launch) : Bool :=
  s.heats.all fun h => !(ls.any fun l => l.job == h.id.job && l.id == h.id.launch) || !unperformed s h.id.uid 5

/-- Status bits and id of a packet whose wait is over; none while it waits. -/
def packetResult (s : State) (p : HostPacket) : Option (Nat × Nat) :=
  let spent (ls : List Launch) (done refused : Bool) (id : Nat) : Option (Nat × Nat) :=
    if done && allPerformed s ls then some (statusWord ls true refused p.tag.toNat, id) else none
  let plain (bits : Nat) (id : Nat) : Option (Nat × Nat) := some (bits + p.tag.toNat * 2 ^ 48, id)
  match p.wait with
  | .launch job id =>
    (s.launch? job id).bind fun l => spent [l] l.complete false id
  | .graph id =>
    (s.graphs.find? fun g => g.id == id).bind fun g => spent (graphLaunches s g.job id) (graphDone s g.job id) g.refused id
  | .phase uid =>
    (s.phases.find? fun h => h.uid == uid).bind fun h =>
      spent (phaseLaunches s uid) (phaseDone s h) (s.graphs.any fun g => g.phase == uid && g.refused) 0
  | .coxed job =>
    let ls := (jobLaunches s job).filter (·.coxed)
    let overrun := (s.job? job).elim false (·.overrun)
    let cancelled := (s.job? job).elim false (·.cancelled)
    if coxedMode s then none
    else (spent ls true false 0).map fun r =>
      (r.1 ||| (128 * boolNat overrun + 4 * boolNat cancelled), r.2)
  | .write => if unperformed s noHeat 5 then none else plain 1 0
  | .suspended l => plain 1 l
  | .preempt uid =>
    match s.heat? uid with
    | none => plain 9 0
    | some h =>
      if h.status = .faulted then plain (3 + 2 ^ 32) 0
      else if h.status.final || h.status == .suspended || h.susp.bind (·.packet) ≠ some p.id then plain 9 0
      else none

/-- Packets whose wait is over complete, in order. -/
def settlePackets (s : State) : State :=
  s.packets.foldl (fun s p => match packetResult s p with
    | none => s
    | some (status, id) => signal { s with packets := s.packets.filter fun x => x.id != p.id } p status id) s

end Sys2Proof.Machine
end

