-- ==== Sys2Proof/Machine/Coxed.lean ====
section
/-!
DEFINITION. Coxed operation: the schedule image and its checks, loading, placement, spans, leaving, late beats and the
cancel that follows an overrun (10/R301 to R312, R315, R319).
-/

namespace Sys2Proof.Machine

/-! ## Reading the image (10/R302 to R306) -/

/-- n bytes at a job's address; none on a translation, protection or uncorrectable failure or a poisoned line. -/
def cleanBytes (s : State) (j : Job) (die : Nat) (va : Dword) (n : Nat) : Option (List Byte) :=
  let bad := (pieces va.toNat n).any fun p => match jobFrame s j die (va + BitVec.ofNat 64 p.1) .read with
    | .ok f => s.mem.errors.contains (f.pa / 128) || s.mem.poison.contains (f.pa / 128)
    | .error _ => true
  if bad then none else jobBytes s j die va n

/-- What a schedule image holds. -/
structure Image where
  lg : Nat
  start : Nat
  slots : Nat
  refresh : BitVec 256
  entries : List HeatEntry
  leases : List (Nat × Nat)
  draws : List (Nat × Nat × Word)

/-- A heat entry from its 32 bytes; none where its core or its span breaks 10/R304. -/
def heatEntryOf (bs : List Byte) : Option HeatEntry :=
  let c := part bs 0 1
  if c % 4 ≠ 0 ∨ 1024 ≤ c ∨ part bs 2 3 = 0 then none
  else some
    { start := part bs 28 31, coords := (List.range 4).map fun i => BitVec.ofNat 32 (part bs (12 + 4 * i) (15 + 4 * i))
      index := part bs 8 11, launch := part bs 6 7, type := part bs 4 5, span := part bs 2 3, core := c / 4, placed := false }

/-- A lease-list entry: crew and core (10/R306). -/
def leaseEntryOf (v : Nat) : Option (Nat × Nat) :=
  if v / 4 % 64 ≠ 0 ∨ 63 < v / 256 then none else some (v / 256, v % 4)

/-- A draw table's word of an index: nothing for an invalid entry, an entry, or a refusal (10/R315). -/
def drawWord (die slots index : Nat) (w : Word) : Option (Option (Nat × Nat × Word)) :=
  if !w.getLsbD 31 then some none
  else
    let e := drawEntry w
    let a := stripOf die e.2.1
    let b := stripOf die e.2.2
    if w.toNat / 2 ^ 24 % 32 ≠ 0 ∨ w.toNat % 256 ≠ 0 ∨ 117 < e.2.1 ∨ 117 < e.2.2 ∨ slots ≤ index / 16 ∨ a = b ∨
        (index % 2 = 0) ≠ (a < b) then none
    else some (some (die, index, w))

/-- A die's draw table. -/
def drawTable (die slots : Nat) (bs : List Byte) : Option (List (Nat × Nat × Word)) :=
  ((List.range 4096).mapM fun i => drawWord die slots i (BitVec.ofNat 32 (part bs (4 * i) (4 * i + 3)))).map
    fun (l : List (Option (Nat × Nat × Word))) => l.filterMap id

/-- Two entries have reserved strokes in common (10/R304). -/
def strokesMeet (a b : HeatEntry) : Bool := decide (a.start ≤ b.start + b.span ∧ b.start ≤ a.start + a.span)

/-- Every pair of a list, the earlier first, satisfies p. -/
def pairs {α : Type} (p : α → α → Bool) : List α → Bool
  | [] => true
  | a :: t => t.all (p a) && pairs p t

/-- The checks on the heat entries together: order, cores, launches and gangs (10/R302). -/
def entriesOk (gang : Nat → Bool) (es : List HeatEntry) : Bool :=
  pairs (fun a b => decide (a.start ≤ b.start) && !(a.core == b.core && strokesMeet a b) &&
    (a.launch != b.launch || a.type == b.type) &&
    !(a.launch != b.launch && gang a.type && gang b.type && strokesMeet a b)) es

/-- The refresh mask marks enough slots, none at or above D (10/R319). -/
def refreshOk (slots : Nat) (m : BitVec 256) : Bool :=
  decide (m.toNat < 2 ^ slots) && decide (max 1 (slots / 64) ≤ ((List.range slots).filter m.getLsbD).length)

/-- A schedule image at a job's address that the device does not refuse. -/
def imageAt (s : State) (j : Job) (die : Nat) (va : Dword) : Option Image :=
  (cleanBytes s j die va 64).bind fun hd =>
    let at_ (lo hi : Nat) : Nat := part hd lo hi
    let slots := at_ 7 7 + 1
    let lg := at_ 6 6
    let start := at_ 8 15
    let heats := at_ 16 17
    let leases := at_ 18 19
    if at_ 0 3 ≠ 0x58434F54 ∨ at_ 4 5 ≠ Config.timingVersion ∨ lg < 8 ∨ 16 < lg ∨ heats = 0 ∨
        slots ≠ 2 ^ Nat.log2 slots ∨ !refreshOk slots (BitVec.ofNat 256 (at_ 32 63)) ∨
        (start - 1) * 2 ^ lg < s.now + 2 ^ 22 then none
    else
      let off (n : Nat) : Dword := va + BitVec.ofNat 64 n
      (cleanBytes s j die (off (at_ 20 23)) (32 * heats)).bind fun hb =>
      ((List.range heats).mapM fun i => heatEntryOf ((hb.drop (32 * i)).take 32)).bind fun es =>
      (cleanBytes s j die (off (at_ 24 27)) (2 * leases)).bind fun lb =>
      ((List.range leases).mapM fun i => leaseEntryOf (part lb (2 * i) (2 * i + 1))).bind fun ls =>
      (cleanBytes s j die (off (at_ 28 31)) 65536).bind fun db =>
      ((List.range 4).mapM fun d => drawTable d slots ((db.drop (16384 * d)).take 16384)).bind fun ds =>
        let ok (i : Nat) : Bool := (taskType? s j die i).elim false (·.coxed)
        let gang (i : Nat) : Bool := (taskType? s j die i).elim false (·.gang)
        if es.all (fun e => ok e.type) && entriesOk gang es then
          some { lg := lg, start := start, slots := slots, refresh := BitVec.ofNat 256 (at_ 32 63), entries := es
                 leases := ls, draws := ds.flatten }
        else none

/-! ## Loading (10/R305, R307) -/

/-- The stash lines of a range are written back and invalid; an error found is charged (20/R432). -/
def flushStash (s : State) (t : Stash) : State :=
  let s1 := match s.heat? t.heat with
    | some h => (writeBackLines h (t.dirty.map fun k => (t, k)) 0 s).1
    | none => s
  { s1 with stashes := mapIf (fun x => x.heat == t.heat && x.slot == t.slot) (fun x => { x with filled := [], dirty := [] }) s1.stashes }

/-- Everything on its way is performed, and caches, copies, stash lines and translations are written back and empty; a
write-back may find an error (20/R432). -/
def flushDevice (s : State) : State :=
  let s1 := s.stashes.foldl flushStash s
  let s2 := (linesHeld s1).foldl flushLine s1
  let land (s : State) (f : Forward) : State :=
    if f.toHome then { s with mem := s.mem.putAll f.parts, net := noteClock s.net (f.addr / 128) f.clock } else s
  let s3 := s2.net.forwards.foldl land s2
  { s3 with
    net := { s3.net with forwards := [], replicas := [], l1 := [], probes := [] }
    tlb := [] }

/-- The launch of a launch number of a schedule. -/
def coxedLaunch (s : State) (j : Job) (die graph phase : Nat) (es : List HeatEntry) (n : Nat) : Option Launch :=
  (es.find? fun e => e.launch == n).bind fun e =>
    (taskType? s j die e.type).map fun (t : TaskType) =>
      let l := hostLaunch s n j.id graph phase die []
      { l with
        type := t, total := (es.filter fun e => e.launch == n).length
        indices := (es.filter fun e => e.launch == n).map (·.index), enqueued := true, coxed := true
        mask := if t.gang then BitVec.allOnes 64 else 0 }

/-- Load a schedule. -/
def loadSchedule (s : State) (j : Job) (die phase : Nat) (m : Image) : State :=
  let (s1, g) := addGraph (flushDevice s) j.id phase false
  let nums := (m.entries.map (·.launch)).foldr numIns []
  let ls := nums.filterMap (coxedLaunch s1 j die g phase m.entries)
  { s1 with
    dev := { s1.dev with strokeLen := 2 ^ m.lg, bucket := [], moves := [], gated := [] }
    leases := s1.leases.map fun l => { l with turn := 0 }
    launches := (s1.launches.filter fun l => !(l.job == j.id && nums.contains l.id)) ++ ls
    jobs := mapIf (fun k => k.id == j.id)
      (fun k => { k with
        coxed := true, nextLaunch := (nums.foldl max 0).max k.nextLaunch + 1
        aligned := s1.dev.clkAlign.getLsbD 62 }) s1.jobs
    sched := some
      { job := j.id, start := m.start, slots := m.slots, refresh := m.refresh, entries := m.entries, leases := m.leases
        draws := m.draws, live := true, broken := false } }

/-- COXED packet (10/R302, R307; 19/R406): refused when the image is, or when another job is resident. -/
def execCoxedPacket (q : Nat) (s : State) : Host.Outcome State Fault Refusal :=
  .next (dispatch q 6 (zeroFrom 16) (fun s j bs =>
    let alone := (residentJobs s).all fun k => k.id == j.id
    match (if alone && !coxedMode s then imageAt s j (q / 16) (bodyAddr bs) else none) with
    | none => finishNow s q bs 33
    | some m =>
      let (s1, ph) := takePhase s j.id bs
      keepPacket (loadSchedule s1 j (q / 16) ph m) q bs (.coxed j.id)) s)

/-! ## Placement and spans (10/R308) -/

/-- First cycle of the stroke before a stroke offset. -/
def placeCycle (s : State) (c : Sched) (e : HeatEntry) : Nat := (c.start + e.start - 1) * s.dev.strokeLen

/-- The own memories of a heat read zero. -/
def zeroPrivate (m : Mem) (h : Heat) : Mem :=
  h.asr.foldl (fun m u => m.zero (asrAddr h.crew (u * 4096)) 4096)
    (h.spad.foldl (fun m u => m.zero (spadAddr h.core (u * 4096)) 4096) m)

/-- Seats of a coxed heat time stamped words from its placement stroke until the first STROKE. -/
def inStroke (base no : Nat) (v : SeatState) : SeatState := { v with strokeBase := base, strokeNo := no }

/-- Make the heat of an entry resident. -/
def placeEntry (s : State) (c : Sched) (e : HeatEntry) (l : Launch) : State :=
  let id : HeatId :=
    { uid := s.nextId + 1, job := c.job, launch := l.id, index := e.index, graph := l.graph, phase := l.phase
      detached := false, trapTask := false, coxed := true }
  let k := heatOn s id l.type e.coords e.core (c.start + e.start) (c.start + e.start + e.span - 1)
  let f := inStroke (placeCycle s c e) (c.start + e.start - 1)
  let h := { k with C := f k.C, L := f k.L, X := f k.X, S := f k.S }
  let bars : List DevBar := if l.type.gang && l.nextIdx == 0 then
      (List.range 64).map fun i => { job := c.job, launch := l.id, id := i, gen := 0, arrived := [], clock := [], doneClock := [] }
    else []
  let s1 := { s with nextId := s.nextId + 1, mem := zeroPrivate s.mem h, devBars := s.devBars ++ bars }
  (placeHeat s1 h).onLaunch c.job l.id fun l => { l with nextIdx := l.nextIdx + 1, live := l.live + 1 }

/-- COXED_PLACEMENT (10/R308): at the first cycle of its placement stroke; a core that still holds an earlier heat raises
that heat's overrun of cause 0x0A, and the entry's heat is not placed. -/
def execCoxedPlacement (entry : Nat) (s : State) : Host.Outcome State Fault Refusal :=
  match s.sched with
  | none => .next s
  | some c =>
    match c.entries[entry]? with
    | none => .next s
    | some e =>
      if !c.live || e.placed || !s.dev.computeOn || decide (s.now < placeCycle s c e) then .next s
      else
        let mark (x : HeatEntry) : HeatEntry := { x with placed := true }
        let s1 := { s with sched := some { c with entries := c.entries.modify entry mark } }
        match s1.launch? c.job e.launch with
        | none => .next s1
        | some l =>
          if l.cut || l.complete then .next s1
          else match s1.heats.find? fun h => h.core == e.core && h.onCore with
            | some h => .next (looseFault s1 h clsOverrun (looseOverrun 0x0A) 15)
            | none => .next (placeEntry s1 c e l)

/-- SPAN_END (10/R308): the cycle after its span has come and the heat is not final. -/
def execSpanEnd (heat : Nat) (s : State) : Host.Outcome State Fault Refusal :=
  match s.heat? heat with
  | none => .next s
  | some h =>
    if h.id.coxed && h.onCore && !h.spanOver && decide ((h.lastStroke + 1) * s.dev.strokeLen ≤ s.now) then
      .next (looseFault s { h with spanOver := true } clsOverrun (looseOverrun 0x0A) 15)
    else .next s

/-! ## Leaving, and a broken schedule (10/R309, R312) -/

/-- Every entry's heat has been final or suspended, or will never be placed; a broken schedule is over only when the
cancel that follows has been made (10/R312). -/
def scheduleOver (s : State) (c : Sched) : Bool :=
  (!c.broken || (s.job? c.job).elim true (·.killed)) && (c.entries.all fun e => e.placed || (s.launch? c.job e.launch).elim true fun l => l.cut || l.complete) &&
    s.heats.all fun h => !h.id.coxed || h.id.job != c.job || h.status.final || h.status == .suspended

/-- The job leaves coxed mode; a held REBALCTL write takes effect (22/R465). -/
def settleSchedule (s : State) : State :=
  match s.sched with
  | none => s
  | some c =>
    if c.live && scheduleOver s c then
      { s with
        sched := some { c with live := false }
        jobs := mapIf (fun j => j.id == c.job) (fun j => { j with coxed := false }) s.jobs
        dev := { s.dev with rebalCtl := s.dev.rebalPend.getD s.dev.rebalCtl, rebalPend := none } }
    else s

/-- The cancel that follows the first overrun of a schedule, on every device of the job. -/
def cancelBroken (s : State) : State :=
  match s.sched with
  | none => s
  | some c =>
    if c.live && c.broken && (s.job? c.job).elim false (!·.killed) then
      let s1 := cancelJob s c.job
      { s1 with net := { s1.net with cancelsSent := s1.net.cancelsSent ++ [c.job] } }
    else s

end Sys2Proof.Machine
end

