-- ==== Sys2Proof/Machine/Shake.lean ====
section
/-!
DEFINITION. SHAKE256 with a 64-byte output, which 21/R455 and R456 name. The function itself is not in the manual; it is
that of FIPS 202 (log 9).
-/

namespace Sys2Proof.Machine

/-- The state of Keccak: 25 words, word x + 5y at column x and row y. -/
abbrev Keccak := List (BitVec 64)

/-- Word of a column and row, both taken modulo 5. -/
def kAt (a : Keccak) (x y : Nat) : BitVec 64 := a.getD (x % 5 + 5 * (y % 5)) 0

/-- A state from the word of each column and row. -/
def kMake (f : Nat → Nat → BitVec 64) : Keccak := (List.range 25).map fun i => f (i % 5) (i / 5)

/-- Parity of the columns, spread. -/
def theta (a : Keccak) : Keccak :=
  let c := (List.range 5).map fun x => (List.range 5).foldl (fun w y => w ^^^ kAt a x y) 0
  let d := (List.range 5).map fun x => c.getD ((x + 4) % 5) 0 ^^^ (c.getD ((x + 1) % 5) 0).rotateLeft 1
  kMake fun x y => kAt a x y ^^^ d.getD x 0

/-- The walk of 24 moves through the words other than word 0: each move's source, target and rotation. From column x and
row y it goes to column y and row 2x + 3y, and the n-th rotation is the n-th triangular number. -/
def moves : Nat → Nat → Nat → List (Nat × Nat × Nat)
  | 0, _, _ => []
  | n + 1, x, y =>
    let k := 25 - (n + 1)
    (x + 5 * y, y + 5 * ((2 * x + 3 * y) % 5), k * (k + 1) / 2) :: moves n y ((2 * x + 3 * y) % 5)

/-- Rotation and transposition. -/
def rhoPi (a : Keccak) : Keccak :=
  (moves 24 1 0).foldl (fun b m => b.set m.2.1 ((a.getD m.1 0).rotateLeft m.2.2)) a

/-- The rows' nonlinear step. -/
def chi (a : Keccak) : Keccak := kMake fun x y => kAt a x y ^^^ (~~~(kAt a (x + 1) y) &&& kAt a (x + 2) y)

/-- The register that gives the bits of the round constants: eight bits, shifted, with feedback at 0, 4, 5 and 6. -/
def shifted (r : Nat) : Nat := if r < 128 then 2 * r else (2 * r) ^^^ 0x171

/-- A round's word from the register: its j-th bit stands at place 2^j − 1. Then the register seven shifts on. -/
def roundWord (r : Nat) : BitVec 64 × Nat :=
  (List.range 7).foldl (fun w j => (w.1 ||| BitVec.ofNat 64 (w.2 % 2 * 2 ^ (2 ^ j - 1)), shifted w.2)) (0, r)

/-- The words of n rounds. -/
def roundWords : Nat → Nat → List (BitVec 64)
  | 0, _ => []
  | n + 1, r => (roundWord r).1 :: roundWords n (roundWord r).2

/-- The permutation of 24 rounds. -/
def keccakF (a : Keccak) : Keccak :=
  (roundWords 24 1).foldl (fun a r => match chi (rhoPi (theta a)) with
    | [] => []
    | w :: t => (w ^^^ r) :: t) a

/-- A number's little-endian word of eight bytes from a list. -/
def wordOf (bs : List Byte) : BitVec 64 := bs.reverse.foldl (fun w b => (w <<< 8) ||| b.setWidth 64) 0

/-- Absorb a padded message, 136 bytes at a time; n bounds the blocks. -/
def absorb : Nat → Keccak → List Byte → Keccak
  | 0, a, _ => a
  | n + 1, a, bs =>
    if bs = [] then a
    else
      absorb n (keccakF (a.zipIdx.map fun w =>
        if w.2 < 17 then w.1 ^^^ wordOf ((bs.drop (8 * w.2)).take 8) else w.1)) (bs.drop 136)

/-- SHAKE256 of a message: 64 bytes, the first one lowest. -/
def shake256 (msg : List Byte) : BitVec 512 :=
  let pad := 136 - msg.length % 136
  let padded := msg ++ (if pad = 1 then [0x9F] else 0x1F :: (List.replicate (pad - 2) 0 ++ [0x80]))
  ((absorb (padded.length / 136) (List.replicate 25 0) padded).take 8).reverse.foldl
    (fun v w => (v <<< 64) ||| w.setWidth 512) 0

end Sys2Proof.Machine
end

