-- ==== Sys2Proof/Machine/Lamom.lean ====
section
/-!
DEFINITION. Lamom: the power-up states, firmware and measurement, the mailbox's management and key commands, attestation,
and the trips (20/R433; 21/R453 to R461; 22/R462).
-/

namespace Sys2Proof.Machine

/-! ## Power-up (21/R453, R454) -/

/-- Change Lamom. -/
def State.onLamom (s : State) (f : Lamom → Lamom) : State := { s with lamom := f s.lamom }

/-- Go to a power-up state. -/
def toStage (s : State) (g : Stage) : State := s.onLamom fun m => { m with stage := g }

/-- Every queue's status in SAFE: error 0x05, not running (19/R402, 21/R454). -/
def safeQueues (s : State) : List QueueRegs :=
  (List.range 64).map fun q => { queueRegs s q with stat := 0x502 }

/-- A power-up state fails: SAFE with its code, its cycle, and the link that failed. -/
def toSafe (s : State) (code : Word) (link : Option Nat) : State :=
  { s with
    lamom := { s.lamom with stage := .safe, failCode := code, failAt := s.freeCtr, failClock := s.now, failLink := link }
    queues := safeQueues s
    freeCtr := s.freeCtr + 1 }

/-- One power-up state: nothing outside it; a failure code goes to SAFE, success to the next state. -/
def powerStep (now next : Stage) (code : Option Word) (work : State → State) (s : State) :
    Host.Outcome State Fault Refusal :=
  if s.lamom.stage = now then
    .next (match code with
      | some c => toSafe s c none
      | none => toStage (work s) next)
  else .next s

/-- The code of a test. -/
def failing (ok : Bool) (code : Word) : Option Word := if ok then none else some code

/-- Memory with the host's bytes alone: the device's own reads zero, with taint 0 and valid check bits. -/
def hostOnly (m : Mem) : Mem := { Mem.reset with cells := m.cells.filter fun c => decide (hostBase ≤ c.1 ∧ c.1 < spadBase) }

/-- BOARD_RESET_RELEASE (21/R453): the device as reset leaves it, in ROM; fuses, host memory, and the log and counters,
which nothing clears while powered, stay (20/R433; log 5, 12). -/
def execBoardResetRelease (s : State) : Host.Outcome State Fault Refusal :=
  .next { State.reset with
    lamom := { Lamom.reset with
      stage := .rom, fused := s.lamom.fused, log := s.lamom.log, counters := s.lamom.counters }
    mem := { Mem.reset with cells := (hostOnly s.mem).cells }
    agenda := s.agenda, rr := s.rr, freeCtr := s.freeCtr, nextId := s.nextId }

/-- ROM (21/R453). -/
def execRom (ok : Bool) (s : State) : Host.Outcome State Fault Refusal :=
  powerStep .rom .verify (failing ok 0x01) id s

/-- The digest of an image: of its header's first 2 KiB together with its body (21/R455). -/
def imageDigest (i : FirmwareImage) : BitVec 512 := shake256 (i.head ++ i.stored.take i.length)

/-- What is wrong with an image: 0x02 its key or signature, 0x03 its version (21/R455). -/
def imageCode (fused : BitVec 32) (i : FirmwareImage) : Option Word :=
  if shake256 i.key ≠ Config.fusedKeyDigest ∨ !Config.falconVerify i.key (imageDigest i) i.signature then some 0x02
  else if i.version < fused then some 0x03
  else none

/-- VERIFY (21/R455): the Lamom image, then the command-processor image. -/
def execVerify (lamomImg cpImg : FirmwareImage) (s : State) : Host.Outcome State Fault Refusal :=
  powerStep .verify .measure ((imageCode s.lamom.fused lamomImg).or (imageCode s.lamom.fused cpImg))
    (fun s => s.onLamom fun m => { m with
      images := (imageDigest lamomImg, imageDigest cpImg)
      booted := if lamomImg.version < cpImg.version then lamomImg.version else cpImg.version }) s

/-- The self-test report (21/R454): Lamom's count at the failure is that of the regatta clock, which starts with it (log
78); the detail names the failing link and its die, and is a free value where another unit failed (log 7). -/
def selfTest (m : Lamom) : List Byte :=
  let detail := match m.failLink with
    | some n => n / 3 + 4 * n
    | none => if m.failCode = 0 then 0 else (Config.failDetail m.failAt).toNat
  leBytes 4 (recordHeader 7 16).toNat ++ leBytes 4 m.failCode.toNat ++ leBytes 8 m.failClock ++ leBytes 48 detail

/-- An extend of a measurement register (21/R456). -/
def extended (r d : BitVec 512) : BitVec 512 := shake256 (leBytes 64 r.toNat ++ leBytes 64 d.toNat)

/-- An extend by bytes. -/
def extendedBy (r : BitVec 512) (d : List Byte) : BitVec 512 := shake256 (leBytes 64 r.toNat ++ d)

/-- Measurement registers 0 to 3 extended (21/R456). -/
def measured (m : Lamom) : Vector (BitVec 512) 8 :=
  (((m.measures.set 0 (extended m.measures[0] Config.fuseDigest)).set 1 (extended m.measures[1] m.images.1)).set 2
    (extended m.measures[2] m.images.2)).set 3 (extendedBy m.measures[3] (selfTest m))

/-- MEASURE (21/R456); the state has no failure code, so one that reports a failure does nothing. -/
def execMeasure (ok : Bool) (s : State) : Host.Outcome State Fault Refusal :=
  if ok then powerStep .measure .arrays none (fun s => s.onLamom fun m => { m with measures := measured m }) s else .next s

/-- ARRAYS (21/R453). -/
def execArrays (ok : Bool) (s : State) : Host.Outcome State Fault Refusal :=
  powerStep .arrays .sram (failing ok 0x10) id s

/-- SRAM (21/R453). -/
def execSram (ok : Bool) (s : State) : Host.Outcome State Fault Refusal :=
  powerStep .sram .dram (failing ok 0x11) id s

/-- DRAM (21/R453). -/
def execDram (ok : Bool) (s : State) : Host.Outcome State Fault Refusal :=
  powerStep .dram .links (failing ok 0x12) id s

/-- A Fjaroita link after training (22/R462). -/
def trainedLink (n : Nat) : LinkTraining → Link
  | .trained l => { n := n, cabled := true, up := true, latency := l, delay := none }
  | .failed => { n := n, cabled := true, up := false, latency := 0, delay := none }
  | .absent => { n := n, cabled := false, up := false, latency := 0, delay := none }

/-- LINKS (21/R453, 22/R462): the die boundaries, the CXL link, and every cabled one of the twelve Fjaroita links; the parent link's latency shows in CLKALIGN (22/R463).
-/
def execLinks (dieOk cxlOk : Bool) (cables : List LinkTraining) (s : State) : Host.Outcome State Fault Refusal :=
  let cable (n : Nat) : LinkTraining := cables.getD n .absent
  let bad := (List.range 12).find? fun n => cable n == .failed
  let trained (s : State) : State :=
    let l := match cable (s.dev.clkAlign.toNat % 16) with
      | .trained l => l
      | _ => 0
    { s with dev := { s.dev with
        links := (List.range 12).map fun n => trainedLink n (cable n)
        clkAlign := (s.dev.clkAlign &&& ~~~(0xFFFF#64 <<< 32)) ||| BitVec.ofNat 64 (l % 65536 * 2 ^ 32) } }
  if s.lamom.stage = .links ∧ dieOk ∧ cxlOk ∧ bad.isSome then .next (toSafe s 0x15 bad)
  else powerStep .links .ready ((failing dieOk 0x13).or (failing cxlOk 0x14)) trained s

/-- READY (21/R453): every memory word is zero, untainted and valid, then compute is enabled, unless a trip holds it off
(21/R461). -/
def execReady (s : State) : Host.Outcome State Fault Refusal :=
  powerStep .ready .up none
    (fun s => { s with mem := hostOnly s.mem, dev := { s.dev with computeOn := !s.dev.tripped } }) s

/-! ## The mailbox (20/R433; 21/R455 to R457) -/

/-- Lamom answers a command. -/
def answer (s : State) (r : Response) : State := s.onLamom fun m => { m with answers := m.answers ++ [r] }

/-- A command that SAFE allows too. -/
def always (f : State → State × Response) (s : State) : Host.Outcome State Fault Refusal :=
  if s.lamom.stage = .up ∨ s.lamom.stage = .safe then .next (answer (f s).1 (f s).2) else .next (answer s .refused)

/-- A command for READY only. -/
def readyOnly (f : State → State × Response) (s : State) : Host.Outcome State Fault Refusal :=
  if s.lamom.stage = .up then .next (answer (f s).1 (f s).2)
  else .next (answer s (if s.lamom.stage = .safe then .notInSafe else .refused))

/-- READ_SELF_TEST_REPORT (21/R454). -/
def execReadSelfTestReport (s : State) : Host.Outcome State Fault Refusal :=
  always (fun s => (s, .bytes (selfTest s.lamom))) s

/-- READ_ERROR_LOG (20/R433). -/
def execReadErrorLog (s : State) : Host.Outcome State Fault Refusal :=
  always (fun s => (s, .log s.lamom.log s.lamom.counters)) s

/-- READ_MEASUREMENT_REGISTER (21/R456). -/
def execReadMeasurementRegister (m : Nat) (s : State) : Host.Outcome State Fault Refusal :=
  always (fun s => (s, if h : m < 8 then .bytes (leBytes 64 s.lamom.measures[m].toNat) else .refused)) s

/-- EXTEND_REGISTER (21/R456): registers 4 to 7, before the first job. -/
def execExtendRegister (m : Nat) (digest : BitVec 512) (s : State) : Host.Outcome State Fault Refusal :=
  readyOnly (fun s =>
    if h : 4 ≤ m ∧ m < 8 ∧ s.jobs = [] then
      (s.onLamom fun l => { l with measures := l.measures.set m (extended l.measures[m] digest) h.2.1 }, .ok)
    else (s, .refused)) s

/-- ADVANCE_SECURITY_VERSION (21/R455): the counter goes to the booted images' version; it never goes back. -/
def execAdvanceSecurityVersion (s : State) : Host.Outcome State Fault Refusal :=
  always (fun s =>
    (s.onLamom fun m => { m with fused := if m.fused < m.booted then m.booted else m.fused }, .ok)) s

/-- The vendor opcodes that Lamom performs (21/R457). -/
def listedOpcodes : List Nat :=
  [0xC000, 0xC001, 0xC002, 0xC003, 0xC004, 0xC010, 0xC011, 0xC020, 0xC021, 0xC022, 0xC023, 0xC024, 0xC025]

/-- MAILBOX_UNSUPPORTED (21/R457): any other opcode from 0xC000 on; a listed one, or one below, is no such command. -/
def execMailboxUnsupported (opcode : BitVec 16) (s : State) : Host.Outcome State Fault Refusal :=
  .next (if opcode.toNat < 0xC000 ∨ listedOpcodes.contains opcode.toNat then s else answer s .unsupported)

/-! ## Memory keys (21/R459, R460) -/

/-- The key in a slot. -/
def keySlot (s : State) (slot : Nat) : Option KeySlot := s.lamom.keys.find? fun k => k.slot == slot

/-- KEY_LOAD (21/R459): inside an SPDM session, into a slot that is not loaded. -/
def execKeyLoad (slot : Nat) (key : BitVec 512) (owner : Nat) (s : State) : Host.Outcome State Fault Refusal :=
  readyOnly (fun s =>
    if s.lamom.spdm = .session ∧ slot < 8192 ∧ keySlot s slot = none then
      (s.onLamom fun m => { m with keys := m.keys ++ [{ slot := slot, key := key, owner := owner }] }, .ok)
    else (s, .refused)) s

/-- Lines held under a key slot, as they were written or filled. -/
def linesUnder (s : State) (slot : Nat) : List Nat := (linesHeld s).filter fun l =>
  (assoc l s.net.fillKeys).or (assoc l s.mem.lineKey) == some slot

/-- Every line of a slot is written back and invalidated, in slices, copies and stashes, an error found in it is charged
to the owner, and the line is sealed under the key; then the slot is zeroed. -/
def unload (s : State) (k : KeySlot) : State :=
  let ls := linesUnder s k.slot
  let mine (f : Forward) : Bool := ls.contains (f.addr / 128)
  let land (s : State) (f : Forward) : State := if f.toHome && mine f then { s with mem := s.mem.putAll f.parts } else s
  let s1 := ls.foldl chargeWriteBack (s.net.forwards.foldl land s)
  let drop (t : Stash) : Stash :=
    let held (i : Nat) : Bool := match s.heat? t.heat with
      | none => false
      | some h => match translate s h h.core (t.global + BitVec.ofNat 64 (128 * i)) .read with
        | .ok (_, f) => ls.contains (f.pa / 128)
        | .error _ => false
    { t with filled := t.filled.filter (!held ·), dirty := t.dirty.filter (!held ·) }
  { s1 with
    net := { s1.net with
      forwards := s1.net.forwards.filter (!mine ·), replicas := s1.net.replicas.filter fun r => !ls.contains r.line
      l1 := s1.net.l1.filter fun c => !ls.contains c.2 }
    stashes := s1.stashes.map drop
    lamom := { s1.lamom with keys := s1.lamom.keys.filter fun x => x.slot != k.slot } }

/-- KEY_UNLOAD (21/R459, R460). -/
def execKeyUnload (slot : Nat) (s : State) : Host.Outcome State Fault Refusal :=
  readyOnly (fun s =>
    match keySlot s slot with
    | some k => if s.lamom.spdm = .session then (unload s k, .ok) else (s, .refused)
    | none => (s, .refused)) s

/-! ## Attestation (21/R458; the order of the messages is that of SPDM 1.3: log 9) -/

/-- An SPDM message that is due only from some states of the exchange. -/
def spdmStep (ready : Spdm → Bool) (next : Spdm → Spdm) (r : State → Response) (s : State) :
    Host.Outcome State Fault Refusal :=
  if (s.lamom.stage = .up ∨ s.lamom.stage = .safe) ∧ ready s.lamom.spdm then
    .next (answer (s.onLamom fun m => { m with spdm := next m.spdm }) (r s))
  else .next (answer s .refused)

/-- The algorithms have been agreed. -/
def Spdm.agreed : Spdm → Bool
  | .negotiated | .exchanged | .session => true
  | _ => false

/-- The device identity: it changes with register 1. -/
def identity (s : State) : BitVec 512 := s.lamom.measures[1]

/-- GET_VERSION: SPDM 1.3; a new exchange begins. -/
def execGetVersion (s : State) : Host.Outcome State Fault Refusal :=
  spdmStep (fun _ => true) (fun _ => .version) (fun _ => .value 0x13) s

/-- GET_CAPABILITIES. -/
def execGetCapabilities (s : State) : Host.Outcome State Fault Refusal :=
  spdmStep (· == .version) (fun _ => .capabilities) (fun _ => .bytes Config.capabilities) s

/-- NEGOTIATE_ALGORITHMS: Falcon-1024 as extended asymmetric algorithm and SHAKE256 as extended hash, and no other; a
requester that does not offer both is refused. -/
def execNegotiateAlgorithms (s : State) : Host.Outcome State Fault Refusal :=
  if s.lamom.offer = (true, true) then
    spdmStep (· == .capabilities) (fun _ => .negotiated) (fun _ => .algorithms true true) s
  else .next (answer s .refused)

/-- GET_DIGESTS: of the one slot's chain. -/
def execGetDigests (s : State) : Host.Outcome State Fault Refusal :=
  spdmStep Spdm.agreed id (fun s => .bytes (leBytes 64 (shake256 (Config.certificate (identity s))).toNat)) s

/-- GET_CERTIFICATE: the chain that ends in the device key. -/
def execGetCertificate (s : State) : Host.Outcome State Fault Refusal :=
  spdmStep Spdm.agreed id (fun s => .bytes (Config.certificate (identity s))) s

/-- CHALLENGE: signed under the device key. -/
def execChallenge (nonce : BitVec 256) (s : State) : Host.Outcome State Fault Refusal :=
  spdmStep Spdm.agreed id
    (fun s => .bytes (Config.falconSign (identity s) (leBytes 32 nonce.toNat))) s

/-- A signed measurement response: the register, then the signature over it and the nonce. -/
def measurement (s : State) (r : BitVec 512) (nonce : BitVec 256) : List Byte :=
  leBytes 64 r.toNat ++ Config.falconSign (identity s) (leBytes 64 r.toNat ++ leBytes 32 nonce.toNat)

/-- GET_MEASUREMENTS: indices 1 to 8 for registers 0 to 7. -/
def execGetMeasurements (index : Nat) (nonce : BitVec 256) (s : State) : Host.Outcome State Fault Refusal :=
  spdmStep Spdm.agreed id (fun s =>
    if h : 1 ≤ index ∧ index ≤ 8 then .bytes (measurement s (s.lamom.measures[index - 1]'(by omega)) nonce)
    else .refused) s

/-- KEY_EXCHANGE: the session that it sets up keys CXL IDE (19/R399). -/
def execKeyExchange (share : BitVec 512) (s : State) : Host.Outcome State Fault Refusal :=
  spdmStep Spdm.agreed (fun _ => .exchanged) (fun _ => .bytes (leBytes 64 (Config.keyShare share).toNat))
    (if (s.lamom.stage = .up ∨ s.lamom.stage = .safe) ∧ s.lamom.spdm.agreed then
      s.onLamom fun m => { m with ide := some (Config.sessionKey share) } else s)

/-- FINISH: the session stands. -/
def execFinish (s : State) : Host.Outcome State Fault Refusal :=
  spdmStep (· == .exchanged) (fun _ => .session) (fun _ => .ok) s

/-! ## Trips (21/R461) -/

/-- A resident job is cancelled with the faulted bit and a trap record. -/
def tripJob (s : State) (j : Job) : State :=
  let s1 := cancelJob { s with
    launches := mapIf (fun l => l.job == j.id && !l.complete) (fun l => { l with faulted := true }) s.launches } j.id
  jobTrap s1 j.id 0 clsUncorrectable 0 0 8

/-- A die or the board is too hot: every resident job is cancelled, compute is disabled, and the trip is logged. -/
def trip (s : State) : State :=
  let s1 := (residentJobs s).foldl tripJob s
  let e : LogEntry :=
    { clock := s.now, unit := Config.tripUnit, line := 0, job := 0, launch := 0, heat := 0, cmd := noCommand }
  logError { s1 with dev := { s1.dev with computeOn := false, tripped := true } } 0 e

/-- THERMAL_TRIP (21/R461). -/
def execThermalTrip (s : State) : Host.Outcome State Fault Refusal := .next (trip s)

/-- POWER_TRIP (21/R461). -/
def execPowerTrip (s : State) : Host.Outcome State Fault Refusal := .next (trip s)

/-- COMPUTE_REENABLE (21/R461). -/
def execComputeReenable (s : State) : Host.Outcome State Fault Refusal :=
  .next (if s.dev.tripped then { s with dev := { s.dev with computeOn := s.lamom.stage == .up, tripped := false } } else s)

end Sys2Proof.Machine
end

