-- ==== Sys2Proof/Machine/Debug.lean ====
section
/-!
DEFINITION. The debugger's commands, debug halts and their release, register writes, and sample records
(20/R437 to R442, R446).
-/

namespace Sys2Proof.Machine

/-- Change a job. -/
def State.onJob (s : State) (id : Nat) (f : Job → Job) : State := { s with jobs := mapIf (fun j => j.id == id) f s.jobs }

/-- A command that needs a resident job. -/
def jobCommand (job : Nat) (f : State → Job → State × Response) : State → Host.Outcome State Fault Refusal :=
  readyOnly fun s =>
    match (residentJobs s).find? fun j => j.id == job with
    | none => (s, .refused)
    | some j => f s j

/-! ## Commands (20/R437, 21/R457) -/

/-- DEBUGGER_ATTACH (20/R437); it may come before the job (log 1). -/
def execDebuggerAttach (job : Nat) (s : State) : Host.Outcome State Fault Refusal :=
  readyOnly (fun s =>
    ((s.onLamom fun m => { m with debuggers := numIns job m.debuggers }).onJob job fun j => { j with debugger := true }, .ok)) s

/-- DEBUGGER_DETACH (21/R457). -/
def execDebuggerDetach (job : Nat) (s : State) : Host.Outcome State Fault Refusal :=
  readyOnly (fun s =>
    ((s.onLamom fun m => { m with debuggers := numDel job m.debuggers }).onJob job fun j => { j with debugger := false }, .ok)) s

/-- A watchpoint of 20/R437: 8 bytes to 64 KiB, aligned to its length. -/
def watchOk (n : Nat) (base : Dword) (log2len : Nat) : Bool :=
  decide (n < 4 ∧ 3 ≤ log2len ∧ log2len ≤ 16) && base.toNat % 2 ^ log2len == 0

/-- SET_WATCHPOINT (20/R437); one that names neither reads nor writes clears. -/
def execSetWatchpoint (job n : Nat) (base : BitVec 64) (log2len : Nat) (rd wr : Bool) (s : State) :
    Host.Outcome State Fault Refusal :=
  jobCommand job (fun s _ =>
    if watchOk n base log2len then
      let w : Watch := { n := n, base := base, log2len := log2len, rd := rd, wr := wr }
      (s.onJob job fun j => { j with
        watch := (j.watch.filter fun x => x.n != n) ++ (if rd || wr then [w] else []) }, .ok)
    else (s, .refused)) s

/-- A halt request that names a FAULTED heat counts in its record, which the command processor writes again while the
record is kept (20/R437; log 56). -/
def countHalt (s : State) (h : Heat) : State :=
  let n := min (h.secondary + 1) 255
  let s1 := s.onHeat h.id.uid fun k => { k with secondary := n }
  match s.job? h.id.job, h.record with
  | some j, some idx =>
    if h.freed then s1
    else jobPut s1 j h.die (trapAddr s j h.die 0 + BitVec.ofNat 64 (64 * (idx % 2 ^ (trapField s j h.die 24 % 32)) + 6)) 1 n
  | _, _ => s1

/-- The heat that a halt request names, when it is a FAULTED heat of the job. -/
def faultedHeat (s : State) (job : Nat) (heat : Option Nat) : Option Heat :=
  (heat.bind s.heat?).filter fun h => h.id.job == job && h.status == .faulted

/-- HALT_REQUEST (20/R437). -/
def execHaltRequest (job : Nat) (heat : Option Nat) (s : State) : Host.Outcome State Fault Refusal :=
  jobCommand job (fun s _ => (haltJob ((faultedHeat s job heat).elim s (countHalt s)) job 0 0, .ok)) s

/-- RELEASE (20/R441): every halted seat goes on, and what a comparator held goes on too (19/R418). -/
def execRelease (job : Nat) (s : State) : Host.Outcome State Fault Refusal :=
  jobCommand job (fun s j =>
    match j.halt with
    | none => (s, .refused)
    | some hl =>
      let held := s.launches.filter fun l => l.job == job && l.held
      let s1 := s.onJob job fun j => { j with
        halt := none, lastHalt := some { hl with step := none }
        passedLaunch := j.passedLaunch ++ held.map (·.id) }
      ({ s1 with
        launches := mapIf (fun l => l.job == job) (fun l => { l with held := false }) s1.launches
        queues := mapIf (fun r => r.inHand.elim false (·.1 == job)) (fun r => { r with held := false }) s1.queues
        heats := mapIf (fun h => h.id.job == job) (fun h => { h with haltPending := false }) s1.heats }, .ok)) s

/-- STEP_RELEASE (20/R441): one seat of one heat issues n of its own words. -/
def execStepRelease (heat : Nat) (seat : Seat) (n : Nat) (s : State) : Host.Outcome State Fault Refusal :=
  readyOnly (fun s =>
    match s.heat? heat with
    | none => (s, .refused)
    | some h =>
      match (s.job? h.id.job).bind (·.halt) with
      | none => (s, .refused)
      | some hl =>
        if h.onCore && hl.step.isNone && decide (1 ≤ n) then
          (s.onJob h.id.job fun j => { j with halt := some { hl with step := some (heat, seat, n) }, lastHalt := some hl }, .ok)
        else (s, .refused)) s

/-- The halt record (20/R439). -/
def haltRecord (job : Nat) (hl : Halt) : List Byte :=
  leBytes 4 (recordHeader 2 (16 + 8 * hl.entries.length)).toNat ++ leBytes 4 (hl.reason + hl.number * 256) ++
    leBytes 8 hl.since ++ leBytes 4 job ++ leBytes 4 hl.entries.length ++ leBytes 40 0 ++
    hl.entries.flatMap fun e => leBytes 8 e.text.toNat ++ leBytes 8 e.addr.toNat ++ leBytes 4 e.launch ++
      leBytes 4 e.index ++ leBytes 1 e.reg ++ leBytes 1 e.seat ++ leBytes 6 0

/-- READ_HALT_RECORD (20/R439, R442): the record of the halt in force, or of the last one, and the halted cycles. -/
def execReadHaltRecord (job : Nat) (s : State) : Host.Outcome State Fault Refusal :=
  jobCommand job (fun s j => (s, .halt ((j.halt.or j.lastHalt).elim [] (haltRecord job)) j.haltedCycles)) s

/-- HALT_PENDING_HALT (20/R437): a marked heat halts once it is resident again and its handlers have run. -/
def execHaltPendingHalt (heat : Nat) (s : State) : Host.Outcome State Fault Refusal :=
  match s.heat? heat with
  | none => .next s
  | some h => .next (if h.haltPending && !cannotHalt s h then s.putHeat { h with haltPending := false } else s)

/-! ## Register writes (20/R440) -/

/-- Outstanding accesses of C that would write a scalar. -/
def writeBacks (h : Heat) (n : BitVec 6) : List Pending :=
  h.pend.filter fun q => q.dst == some n && q.ctx.isNone && !q.cancelled

/-- An entry for a cancelled write-back. -/
def haltEntry (h : Heat) (n : BitVec 6) (q : Pending) : HaltEntry :=
  { text := q.text, addr := q.addr, launch := h.id.launch, index := h.id.index, reg := n.toNat, seat := 0 }

/-- A scalar is written: outstanding write-backs are cancelled and their readers see the value; otherwise it is only
set. -/
def debugScalar (h : Heat) (n : BitVec 6) (v : TVal) : Heat :=
  if n = 0 then h
  else if writeBacks h n = [] then { h with c := { h.c with s := h.c.s.set n.toNat v } }
  else
    let cancel (q : Pending) : Pending :=
      if q.dst == some n && q.ctx.isNone then { q with cancelled := true } else q
    (writeBacks h n).foldl (fun h q => h.landS n q.tt v) { h with pend := h.pend.map cancel }

/-- A lane of a vector register. -/
def setLane (r : VReg) (lane : Nat) (v : Word) (t : Bool) : VReg :=
  let m : BitVec 2048 := 0xFFFFFFFF#2048 <<< (32 * lane)
  let b : BitVec 64 := 1#64 <<< lane
  { bits := (r.bits &&& ~~~m) ||| (v.setWidth 2048 <<< (32 * lane)), taint := if t then r.taint ||| b else r.taint &&& ~~~b }

/-- A CSR of a heat takes a value as CSRW, SETSLIP or PRIO would store it; the device's own CSRs are none of a heat's
(05/R138, R141; 06/R153; 07/R206; 08/R230; 13/R379; 20/R443). -/
def debugCsr (s : State) (h : Heat) (n : Nat) (v : Dword) : Heat :=
  match n with
  | 0x001 => { h with ctl := { h.ctl with slipw := clampS v 4 256 } }
  | 0x003 => { h with ctl := { h.ctl with prio := v.toNat % 4 } }
  | 0x043 => { h with x := { h.x with stat := v.setWidth 5 } }
  | 0x020 | 0x044 | 0x049 | 0x04A | 0x04B => h
  | _ => (csrStore s h n v).elim h fun r => { h with ctl := r.2.ctl }

/-- A lane of a stream's entry; one that the stream does not hold is none. -/
def debugStream (h : Heat) (n : BitVec 4) (entry : Nat) (lane : BitVec 6) (v : Dword) (t : Bool) : Heat :=
  let st := h.q[n.toNat]
  let new : QStream := { st with entries := st.entries.modify entry fun r => setLane r lane.toNat (v.setWidth 32) t }
  { h with q := h.q.set n.toNat new }

/-- A register of a halted heat is written (20/R440). -/
def debugWrite (s : State) (h : Heat) (r : DebugReg) (v : Dword) (t : Bool) : Heat :=
  match r with
  | .s n => debugScalar h n ⟨v, t⟩
  | .b n => h.setB n ⟨v.getLsbD 0, t⟩
  | .lc n => if hn : n.toNat < 6 then { h with c := { h.c with lc := h.c.lc.set n.toNat ⟨v, t⟩ hn } } else h
  | .pL n => { h with pL := h.pL.set n.toNat ⟨v, t⟩ }
  | .pS n => { h with pS := h.pS.set n.toNat ⟨v, t⟩ }
  | .k n => if n = 0 then h else { h with x := { h.x with k := h.x.k.set n.toNat ⟨v, t⟩ } }
  | .csr n => debugCsr s h n.toNat v
  | .q n entry lane => debugStream h n entry lane v t
  | .v n lane => { h with x := { h.x with v := h.x.v.set n.toNat (setLane h.x.v[n.toNat] lane.toNat (v.setWidth 32) t) } }

/-- DEBUG_REGISTER_WRITE (20/R440): only while the job is halted; the record takes an entry for each cancelled load. -/
def execDebugRegisterWrite (heat : Nat) (r : DebugReg) (v : BitVec 64) (taint : Bool) (s : State) :
    Host.Outcome State Fault Refusal :=
  match s.heat? heat with
  | none => .next s
  | some h =>
    if h.onCore && jobHalted s h.id.job && !haltExempt s h then
      let new : List HaltEntry := match r with
        | .s n => (writeBacks h n).map (haltEntry h n)
        | _ => []
      let note (hl : Halt) : Halt := { hl with entries := hl.entries ++ new }
      .next ((s.putHeat (debugWrite s h r v taint)).onJob h.id.job fun j => { j with halt := j.halt.map note })
    else .next s

/-! ## Sampling (20/R446) -/

/-- Class of a counter: issuing, flag wait, engine busy, empty. -/
def sampleClass (k : Nat) : Nat := if k = 0 then 0 else if k = 1 then 2 else if k = 2 then 3 else 1

/-- The sample of one seat. C of a heat whose arrival handler runs shows the handler's stage and next word (log 81). -/
def sampleOf (s : State) (h : Heat) (p : Seat) : List Word :=
  let v := h.seat p
  let hnd := if p = .C then s.handlers.find? fun k => k.heat == h.id.uid && k.running else none
  let pc := hnd.elim v.pc (·.pc)
  let k := if v.lastIssue = some s.now then 0 else if v.ended then 2 else waitIndex v.wait
  let lw := (loopWord h v hnd.isSome).toNat
  let w (n : Nat) : Word := BitVec.ofNat 32 n
  [recordHeader 3 12,
   w (seatNum p + sampleClass k * 4 + v.mark % 2 * 16 + lw / 2 ^ 51 % 4 * 32 + k * 256),
   w pc.toNat, w (pc.toNat / 2 ^ 32), w h.id.launch, w h.id.index, w ((v.loops.head?).elim 0 (·.iter)),
   w (lw / 2 ^ 48 % 8), w lw, w (lw % 2 ^ 48 / 2 ^ 32), w s.now, w (s.now / 2 ^ 32)]

/-- SAMPLE_TICK (20/R446): none in coxed mode (20/R445). -/
def execSampleTick (job : Nat) (s : State) : Host.Outcome State Fault Refusal :=
  match s.job? job with
  | none => .next s
  | some j =>
    let period := if j.trapQ = 0 then 0 else 64 * (trapField s j 0 48 / 2 ^ 16)
    if period = 0 ∨ j.coxed ∨ j.complete ∨ s.now < j.sampled + period then .next s
    else
      let s1 := s.onJob job fun j => { j with sampled := j.sampled + (s.now - j.sampled) / period * period }
      .next ((s.heats.filter fun h => h.id.job == job && h.onCore).foldl (fun t h =>
        seats.foldl (fun t p => emitRecord t job (sampleOf s h p)) t) s1)

end Sys2Proof.Machine
end

