-- ==== Sys2Proof/Machine/Fleet.lean ====
section
/-!
DEFINITION. The clocks of a fleet (22/R463, R464): alignment over the parent link, catching up, and links that go down.
-/

namespace Sys2Proof.Machine

/-- CLKALIGN_START (22/R464): a write of CLKALIGN with start set. -/
def execClkalignStart (v : BitVec 64) (s : State) : Host.Outcome State Fault Refusal :=
  .next (writeClkAlign s (v ||| 0x100))

/-- Set or clear bits of CLKALIGN. -/
def setAlign (s : State) (clear set : Dword) : State :=
  { s with dev := { s.dev with clkAlign := (s.dev.clkAlign &&& ~~~clear) ||| set } }

/-- Bit 62, aligned, and bit 63, busy. -/
def alignedBit : Dword := 0x4000000000000000
def busyBit : Dword := 0x8000000000000000

/-- The margin of CLKALIGN. -/
def margin (s : State) : Nat := s.dev.clkAlign.toNat / 2 ^ 16 % 2 ^ 16

/-- Every cabled link whose two ends are aligned takes its delivery delay. -/
def setDelays (s : State) (ends : List Nat) : State :=
  { s with dev := { s.dev with
      links := mapIf (fun k => k.cabled && ends.contains k.n) (fun k => { k with delay := some (k.latency + margin s) })
        s.dev.links } }

/-- The device becomes aligned. -/
def becomeAligned (s : State) : State :=
  setDelays { setAlign s busyBit alignedBit with
    dev := { (setAlign s busyBit alignedBit).dev with lead := 0, half := false } } s.dev.alignEnds

/-- CLOCK_ALIGNED (22/R464): a child behind its parent steps forward; one ahead begins to catch up. An aligned device
takes the delays of links whose other end has become aligned. -/
def execClockAligned (parentAligned : Bool) (parentClock : Nat) (ends : List Nat) (s : State) :
    Host.Outcome State Fault Refusal :=
  if s.dev.clkAlign.getLsbD 63 then
    let s1 := { s with dev := { s.dev with alignEnds := ends } }
    if !parentAligned then .next (setAlign s busyBit 0)
    else if s.dev.lead ≠ 0 then .next s
    else if s.dev.clock ≤ parentClock % 2 ^ 64 then
      .next (becomeAligned { s1 with dev := { s1.dev with clock := parentClock % 2 ^ 64 } })
    else .next { s1 with dev := { s1.dev with lead := s.dev.clock - parentClock % 2 ^ 64, half := false } }
  else if s.dev.clkAlign.getLsbD 62 then .next (setDelays s ends)
  else .next s

/-- Counts by which the clock advances in n cycles: one in two while it leads its parent's. -/
def clockSteps (d : DevRegs) (n : Nat) : Nat :=
  let c := 2 * d.lead - boolNat d.half
  if c ≤ n then d.lead + (n - c) else (n + boolNat d.half) / 2

/-- The lead after n cycles; the device is aligned when the clocks are equal. -/
def catchUp (s : State) (n : Nat) : State :=
  let d := s.dev
  if d.lead = 0 then s
  else if 2 * d.lead - boolNat d.half ≤ n then becomeAligned s
  else
    let k := n + boolNat d.half
    { s with dev := { d with lead := d.lead - k / 2, half := k % 2 == 1 } }

/-- LINK_DOWN (22/R464): aligned clears with the parent link; the count stays. -/
def execLinkDown (link : Nat) (s : State) : Host.Outcome State Fault Refusal :=
  let s1 := { s with dev := { s.dev with links := mapIf (fun k => k.n == link) (fun k => { k with up := false }) s.dev.links } }
  .next (if s.dev.clkAlign.toNat % 16 = link ∧ !s.dev.clkAlign.getLsbD 4 then setAlign s1 alignedBit 0 else s1)

end Sys2Proof.Machine
end

