-- ==== Sys2Proof/Machine/Links.lean ====
section
/-!
DEFINITION. Messages of other devices over the Fjaroita links: their arrival, their release, and what they bring (06/R156,
07/R226, 10/R301, R312, R316, 12/R355, R365, 20/R452, 22/R462).
-/

namespace Sys2Proof.Machine

/-- A cancel of a job reaches this device (10/R312). -/
def landCancel (s : State) (job : Nat) : State :=
  match s.job? job with
  | none => s
  | some j => if j.complete then s else breakSchedule (cancelJob s job) job

/-- What a message of another device brings is performed. -/
def perform (s : State) (b : BeatLoad) (clock : List Nat) : State :=
  match b with
  | .write addr val t => landBeat s addr val t clock
  | .access core seq re addr op val => applyPeer s (peerPacket core seq re addr op val clock)
  | .part p => addPart s p
  | .reply id => { s with net := { s.net with answered := numIns id s.net.answered } }
  | .cancel job => landCancel s job
  | .abort job group seq => if (s.job? job).isSome then abortFrom s job group seq else s

/-- The die at which a message of another device is performed in home order; none for what has no place in one. -/
def BeatLoad.die : BeatLoad → Option Nat
  | .write addr _ _ | .access _ _ _ addr _ _ => some (dieOf addr)
  | .part _ | .reply _ | .cancel _ | .abort _ _ _ => none

/-- The die has not applied everything that precedes a message (12/R365). -/
def beatWaits (s : State) (b : BeatLoad) (clock : List Nat) : Bool :=
  b.die.elim false fun d => s.net.forwards.any (precedes s d clock)

/-- A message is held for its release. -/
def holdBeat (s : State) (m : LinkBeat) (b : BeatLoad) (due : Nat) : State :=
  { s with
    net := { s.net with beats := s.net.beats ++
      [{ id := s.nextId + 1, load := b, due := due, clock := m.clock, link := m.link, heat := m.heat, sent := false }] }
    nextId := s.nextId + 1 }

/-- Cycles from a beat's entry into a link to its release (22/R464). -/
def linkDelay (s : State) (link : Nat) : Nat := ((s.dev.links.find? fun k => k.n == link).bind (·.delay)).getD 0

/-- The word of an access of this device. -/
def accessWord (s : State) (id : Nat) : Option MsgWord :=
  let c (text : Dword) : MsgWord := { seat := .C, text := text &&& 0xFFFFFFFFFFFF, cmd := none, engine := 15 }
  match s.atomics.find? fun p => p.id == id, (s.heats.flatMap (·.pend)).find? fun q => q.id == id with
  | some p, _ => some (c p.text)
  | none, some q => some (c q.text)
  | none, none => none

/-- A message of another device arrives (10/R301, R312): in coxed mode it is held until its release cycle, and one that
arrives after it raises the overrun of cause 0x0C and is performed all the same; else it is performed when what precedes it
has been. -/
def arriveBeat (s : State) (m : LinkBeat) (b : BeatLoad) : State :=
  let now (s : State) : State := if beatWaits s b m.clock then holdBeat s m b s.now else perform s b m.clock
  match s.sched with
  | some c =>
    if !c.live then now s
    else
      let due := m.sent + linkDelay s m.link
      if s.now ≤ due then holdBeat s m b due
      else messageOverrun (now s) c.job (m.link / 3) m.heat (m.reply.bind (accessWord s)) 0x0C m.link
  | none => now s

/-- FJAROITA_BEAT_ARRIVAL (10/R301): a peer's write of 64 bits, or its reply to an access of this device. -/
def execFjaroitaBeatArrival (beat : LinkBeat) (addr : Nat) (val : BitVec 64) (taint : Bool) (s : State) :
    Host.Outcome State Fault Refusal :=
  .next (arriveBeat s beat (beat.reply.elim (.write addr val taint) .reply))

/-- PEER_ASR_ACCESS (12/R355): a peer's access to a cell of this device. -/
def execPeerAsrAccess (addr : Nat) (access : PeerAccess) (val : BitVec 64) (s : State) :
    Host.Outcome State Fault Refusal :=
  .next (arriveBeat s access.beat (.access access.core access.seq access.resent addr access.op ⟨val, access.taint⟩))

/-- COLL_PARTNER_MESSAGE (07/R226): a partner's contribution arrives over the links. -/
def execCollPartnerMessage (job group seq rank : Nat) (sig : CollSig) (data : PartBeat) (s : State) :
    Host.Outcome State Fault Refusal :=
  .next (arriveBeat s data.beat
    (.part { job := job, group := group, seq := seq, rank := rank, sig := sig, data := data.words }))

/-- CANCEL_MESSAGE (10/R312). -/
def execCancelMessage (job : NumBeat) (s : State) : Host.Outcome State Fault Refusal :=
  .next (arriveBeat s job.beat (.cancel job.n))

/-- COLL_ABORT_MESSAGE (20/R452): a partner's abort of a group from the k-th COLL on. -/
def execCollAbortMessage (job group : Nat) (seq : NumBeat) (s : State) : Host.Outcome State Fault Refusal :=
  .next (arriveBeat s seq.beat (.abort job group seq.n))

/-- The way of a released message from its link's port, endpoint 114 + i of die d for link 3d + i (22/R462), to where it is
performed; a contribution, a cancel and an abort go to the die's command processor. -/
def beatRoute (s : State) (b : Beat) : List DrawLeg :=
  let die := b.link / 3
  let port : Endpoint := (die, 114 + b.link % 3)
  match b.load with
  | .write addr _ _ => (performer s die addr).elim [] (route 0 port)
  | .access _ _ _ addr _ _ => (performer s die addr).elim [] (route 3 port)
  | .reply _ => ((b.heat.bind s.heat?).map fun h => route 1 port (coreEnd h.core)).getD []
  | .part _ | .cancel _ | .abort _ _ _ => route 0 port (die, 117)

/-- A held message is released at its cycle, or once what precedes it has been performed (10/R301; 12/R365): under a
schedule it then rides the draw from its link's port (10/R316) and is performed where it leaves. -/
def releaseBeat (s : State) (id : Nat) : State :=
  match s.net.beats.find? fun b => b.id == id with
  | none => s
  | some b =>
    if s.now < b.due || beatWaits s b.load b.clock then s
    else if coxedMode s && !b.sent then
      let s1 := { s with net := { s.net with beats := mapIf (fun x => x.id == id) (fun x => { x with sent := true }) s.net.beats } }
      sendMsg s1 b.heat (some id) (beatRoute s b)
    else if riding s id then s
    else perform { s with net := { s.net with beats := s.net.beats.filter fun x => x.id != id } } b.load b.clock

/-- BEAT_RELEASE (10/R301). -/
def execBeatRelease (id : Nat) (s : State) : Host.Outcome State Fault Refusal := .next (releaseBeat s id)

/-- Every held message that is due is released or performed, in the order of arrival. -/
def releaseBeats (s : State) : State := (s.net.beats.map (·.id)).foldl releaseBeat s

end Sys2Proof.Machine
end

