-- ==== Sys2Proof/Machine/Slalom.lean ====
section
/-!
DEFINITION. The slalom engine: windows, shares, reservations and reports (06/R175 to R179; 13/R369 to R375; 17/R394).
-/

namespace Sys2Proof.Machine

/-- XOR of the successive b-bit fields of a cell id (13/R369). -/
def foldFields (b : Nat) (c : Nat) : Nat → Nat
  | 0 => 0
  | n + 1 => (c % 2 ^ b) ^^^ foldFields b (c / 2 ^ b) n

/-- The gate-table slot of a cell id (13/R369). -/
def gateSlot (k : Nat) (c : Dword) : Nat := foldFields (10 + k) c.toNat 7

/-- A slot's content for a generation and an index (06/R178). -/
def slotValue (window i : Nat) : Nat := window % 65536 * 2 ^ 48 + i

/-- The member's share of the window: the positions that are its heat index modulo the gang's heat count (06/R176). -/
def shareOf (c : Slalom) (heats index : Nat) : List Nat :=
  ((List.range c.list.length).filter fun p => decide (p % heats = index)).map fun p => c.list.getD p 0

/-! ## SLWIN (06/R175) -/

/-- The frame of a gate-table address; one outside ASR faults. -/
def gateFrame (s : State) (h : Heat) (va : Dword) (acc : Access) : Run (State × Frame) :=
  match resolve s h h.core va acc with
  | .error e => faultAt e va
  | .ok (s1, f) => if f.kind ≠ .asr ∧ f.kind ≠ .peer then faultAt clsAtomicTarget va else .ok (s1, f)

/-- Set n lines of a gate table to all ones. -/
def clearGate (h : Heat) (t : Bool) : Nat → Dword → State → Run State
  | 0, _, s => .ok s
  | n + 1, va, s =>
    match gateFrame s h va .write with
    | .error e => .error e
    | .ok (s1, f) =>
      if f.clean && t then faultAt clsTaintedStore va
      else match watch s1 h.id.job va 128 false true with
        | .error e => .error e
        | .ok s2 =>
          let s3 := writePhys s2 h.id.uid h.die f.pa f.key (withTaint t (List.replicate 128 0xFF))
          clearGate h t n (va + 128) (rideWrite s3 h h.core f.pa s2.nextId)

/-- SLWIN's effect. -/
def joinSlalom (n base : TVal) (k w : Nat) (s : State) (h : Heat) : Run (State × Heat) :=
  if !h.type.gang || h.id.detached || decide (2 ^ 48 ≤ n.v.toNat) || decide (base.v.toNat % (8 * 2 ^ (10 + k)) ≠ 0) then
    .error Stay.illegal
  else
    let here (s : State) (h : Heat) : State × Heat :=
      (s.onSlalom h.id.job h.id.launch fun c => { c with members := numIns h.id.index c.members }, h)
    match s.slalom? h.id.job h.id.launch with
    | some c =>
      if c.n = n.v.toNat ∧ c.base = base.v ∧ c.k = k ∧ c.w = w then .ok (here s h) else .error Stay.illegal
    | none =>
      let bytes := 8 * 2 ^ (10 + k)
      match clearGate h base.t (bytes / 128) base.v s with
      | .error e => .error e
      | .ok s1 =>
        let h := if base.t then { h with ctl := { h.ctl with tStored := satAdd h.ctl.tStored (bytes / 4) } } else h
        let first := fillWindow n.v.toNat w 0 []
        let c : Slalom :=
          { job := h.id.job, launch := h.id.launch, n := n.v.toNat, base := base.v, k := k, w := w, window := 0
            fresh := first.2, list := first.1, reports := [], members := [], passed := [] }
        .ok (here { s1 with slaloms := s1.slaloms ++ [c] } h)

/-- SLWIN (06/R175). -/
def execSlwin (a b : BitVec 6) (kk : BitVec 4) (w1 : BitVec 12) (stamp : BitVec 16) (s : State) :
    Host.Outcome State Fault Refusal :=
  issue { (Issue.cLong [a, b] [a, b] false stamp).of (.slwin a b kk w1 stamp) with handler := false } .C (fun s h =>
    match readS2 h a b with
    | .error e => .error e
    | .ok (n, base) => joinSlalom n base kk.toNat (w1.toNat + 1) s h) s

/-! ## The other words -/

/-- The context of a member that has executed SLWIN, with whether it stands in the commit round; between two windows it
waits for the sequencer (13/R371). -/
def slalomOf (s : State) (h : Heat) : Run (State × Slalom × Bool) :=
  let s1 := settleWindow s h.id.job h.id.launch
  match s1.slalom? h.id.job h.id.launch with
  | none => .error Stay.illegal
  | some c =>
    if h.id.detached || !c.members.contains h.id.index then .error Stay.illegal
    else match (assoc h.id.index c.passed).getD 0 with
      | 0 => .ok (s1, c, false)
      | 1 => .ok (s1, c, true)
      | _ => .error (.wait .empty [] 3)

/-- The member's share of the current window. -/
def myShare (s : State) (h : Heat) (c : Slalom) : List Nat :=
  shareOf c ((s.launch? h.id.job h.id.launch).elim 1 (·.total)) h.id.index

/-- SLNEXT (06/R177). -/
def execSlnext (d : BitVec 6) (s : State) : Host.Outcome State Fault Refusal :=
  issue (Issue.seatOnly [d] [] true) .C (fun s h =>
    match slalomOf s h with
    | .error e => .error e
    | .ok (s1, c, commit) =>
      if c.list = [] then .ok (s1, h.setS d ⟨0xFFFFFFFFFFFFFFFE, false⟩)
      else
        let share := myShare s1 h c
        let pos := match h.cursor with
          | some k => if k.gen % 65536 = c.window % 65536 ∧ k.commit = commit then k.pos else 0
          | none => 0
        let h1 := { h with cursor := some { pos := min (pos + 1) share.length, gen := c.window, commit := commit } }
        .ok (s1, h1.setS d ⟨(share[pos]?).elim (BitVec.allOnes 64) (BitVec.ofNat 64 ·), false⟩)) s

/-- One atomic step at the slot of cell id sa + sext(off) for iteration sb, in one round: from the slot and from
(generation, index), what the slot becomes, if it is stored, and the heat. -/
def gateWord (i : Instr) (a b : BitVec 6) (off stamp : BitVec 16) (inCommit : Bool)
    (f : Heat → Nat → Nat → Option Nat × Heat) (s : State) : Host.Outcome State Fault Refusal :=
  issue { (Issue.cLong [a, b] [a, b] false stamp).of i with handler := false } .C (fun s h =>
    match readS2 h a b with
    | .error e => .error e
    | .ok (x, idx) =>
      match slalomOf s h with
      | .error e => .error e
      | .ok (s1, c, commit) =>
        if 2 ^ 48 ≤ idx.v.toNat ∨ commit ≠ inCommit then .error Stay.illegal
        else
          let va := c.base + BitVec.ofNat 64 (8 * gateSlot c.k (x.v + simm off))
          match cellWait s1 h va 8 .atomic with
          | .error e => .error e
          | .ok () =>
            match gateFrame s1 h va .atomic with
            | .error e => .error e
            | .ok (s2, fr) =>
              if s2.mem.errors.contains (fr.pa / 128) then faultAt clsUncorrectable va
              else if (List.range 8).any fun k => s2.mem.poisoned (fr.pa + k) then faultAt clsPoison va
              else
                let (stored, h1) := f h (viewNat s2 h.die fr.pa 8) (slotValue c.window idx.v.toNat)
                if stored.isSome && fr.clean && (x.t || idx.t) then faultAt clsTaintedStore va
                else match watch s2 h.id.job va 8 true stored.isSome with
                  | .error e => .error e
                  | .ok s3 =>
                    let s4 := rideAtomic (cellClock s3 h.id.uid h.die fr.pa) h fr.pa none
                    let h1 := countRead h1 va.toNat (viewBytes s2 h.die fr.pa 8)
                    match stored with
                    | none => .ok (s4, h1)
                    | some v =>
                      let data := withTaint (x.t || idx.t) (leBytes 8 v)
                      .ok (writePhys s4 h.id.uid h.die fr.pa fr.key data, countStored h1 va.toNat data)) s

/-- SLRES (06/R178). -/
def execSlres (a b : BitVec 6) (off stamp : BitVec 16) (s : State) : Host.Outcome State Fault Refusal :=
  gateWord (.slres a b off stamp) a b off stamp false (fun h slot mine =>
    (if slot / 2 ^ 48 ≠ mine / 2 ^ 48 ∨ mine % 2 ^ 48 < slot % 2 ^ 48 ∨ slot = 2 ^ 64 - 1 then some mine else none, h)) s

/-- SLCHK (06/R178): the comparison is untainted. -/
def execSlchk (comb bp : BitVec 3) (a b : BitVec 6) (off stamp : BitVec 16) (s : State) :
    Host.Outcome State Fault Refusal :=
  gateWord (.slchk comb bp a b off stamp) a b off stamp true (fun h slot mine =>
    (none, h.setB bp (combine comb (h.b bp) ⟨slot == mine, false⟩))) s

/-- SLRESET (06/R178). -/
def execSlreset (a b : BitVec 6) (off stamp : BitVec 16) (s : State) : Host.Outcome State Fault Refusal :=
  gateWord (.slreset a b off stamp) a b off stamp true (fun h slot mine =>
    (if slot = mine then some (2 ^ 64 - 1) else none, h)) s

/-- SLDONE (06/R179): one report for an index of the share, in the commit round. -/
def execSldone (a : BitVec 6) (neg : Bool) (bp : BitVec 3) (s : State) : Host.Outcome State Fault Refusal :=
  issue (Issue.seatOnly [a] [a] false) .C (fun s h =>
    match readS h .C a with
    | .error e => .error e
    | .ok x =>
      match slalomOf s h with
      | .error e => .error e
      | .ok (s1, c, commit) =>
        let i := x.v.toNat
        if !commit || !(myShare s1 h c).contains i || c.reports.any (fun r => r.1 == i) then .error Stay.illegal
        else .ok (s1.onSlalom h.id.job h.id.launch fun c =>
          { c with reports := c.reports ++ [(i, (h.b bp).v != neg)] }, h)) s

end Sys2Proof.Machine
end

