-- ==== Sys2Proof/Machine/Taint.lean ====
section
/-!
DEFINITION. The taint instructions (06/R180, R181).
-/

namespace Sys2Proof.Machine

/-- TAINTQ of a register (06/R180). -/
def execTaintq (d a : BitVec 6) (s : State) : Host.Outcome State Fault Refusal :=
  issueC (Issue.c 1 [d, a] [a] true) (fun h =>
    match readS h .C a with
    | .error e => .error e
    | .ok x => .ok (h.setS d ⟨if x.t then 1 else 0, false⟩)) s

/-- TAINTQ of memory (06/R180): the taint of the 32-bit word at an address; it faults as LDS does. It reads the taint,
not the word, so it counts no word read. -/
def execTaintqMem (d a : BitVec 6) (s : State) : Host.Outcome State Fault Refusal :=
  issue (Issue.c 1 [d, a] [a] true) .C (fun s h =>
    match readS h .C a with
    | .error e => .error e
    | .ok x =>
      if x.v.toNat % 4 ≠ 0 then faultAt clsAlignment x.v
      else match cellWait s h x.v 4 .read with
        | .error e => .error e
        | .ok () =>
          match loadAt s h h.core x.v 4 with
          | .error e => .error e
          | .ok (s1, data) => .ok (outstanding (claim s1 s.nextId s1.nextId) h d ⟨if data.any (·.2) then 1 else 0, false⟩ x.v)) s

/-- TCLR (06/R180). -/
def execTclr (d a : BitVec 6) (s : State) : Host.Outcome State Fault Refusal :=
  issueC (Issue.c 1 [d, a] [a] true) (fun h =>
    match readS h .C a with
    | .error e => .error e
    | .ok x =>
      let h1 := if x.t then { h with ctl := { h.ctl with tCleared := satAdd h.ctl.tCleared 1 } } else h
      .ok (h1.setS d ⟨x.v, false⟩)) s

/-- The counter that TCNT selects. -/
def tcntValue (c : HeatCtl) : Nat → Nat
  | 0 => c.tStored
  | 1 => c.tControl
  | 2 => c.tCleared
  | _ => c.tRead

/-- Zero the counter that TCNT selects. -/
def tcntClear (c : HeatCtl) : Nat → HeatCtl
  | 0 => { c with tStored := 0 }
  | 1 => { c with tControl := 0 }
  | 2 => { c with tCleared := 0 }
  | _ => { c with tRead := 0 }

/-- TCNT (06/R180). -/
def execTcnt (d : BitVec 6) (clr : Bool) (sel : BitVec 2) (s : State) : Host.Outcome State Fault Refusal :=
  issueC (Issue.seatOnly [d] [] true) (fun h =>
    let v := BitVec.ofNat 64 (tcntValue h.ctl sel.toNat)
    let h1 := if clr then { h with ctl := tcntClear h.ctl sel.toNat } else h
    .ok (h1.setS d ⟨v, false⟩)) s

end Sys2Proof.Machine
end

