-- ==== Sys2Proof/Machine/Dispatch.lean ====
section
/-!
DEFINITION. The meaning of every instruction: one arm per constructor, each a direct call of its meaning.
-/

namespace Sys2Proof.Machine

def exec (i : Instr) (s : State) : Host.Outcome State Fault Refusal :=
  match i with
  | .nopa => Sys2Proof.Machine.execNopa s
  | .br bp neg disp => Sys2Proof.Machine.execBr bp neg disp s
  | .jmp disp => Sys2Proof.Machine.execJmp disp s
  | .call disp => Sys2Proof.Machine.execCall disp s
  | .ret => Sys2Proof.Machine.execRet s
  | .loopLc lc body => Sys2Proof.Machine.execLoopLc lc body s
  | .loopImm count body => Sys2Proof.Machine.execLoopImm count body s
  | .iterationEnd => Sys2Proof.Machine.execIterationEnd s
  | .lexit bp neg => Sys2Proof.Machine.execLexit bp neg s
  | .lexitDrain heat => Sys2Proof.Machine.execLexitDrain heat s
  | .stroke => Sys2Proof.Machine.execStroke s
  | .hend => Sys2Proof.Machine.execHend s
  | .nop => Sys2Proof.Machine.execNop s
  | .add d a b => Sys2Proof.Machine.execAdd d a b s
  | .sub d a b => Sys2Proof.Machine.execSub d a b s
  | .and d a b => Sys2Proof.Machine.execAnd d a b s
  | .or d a b => Sys2Proof.Machine.execOr d a b s
  | .xor d a b => Sys2Proof.Machine.execXor d a b s
  | .shl d a b => Sys2Proof.Machine.execShl d a b s
  | .shr d a b => Sys2Proof.Machine.execShr d a b s
  | .sar d a b => Sys2Proof.Machine.execSar d a b s
  | .mul d a b => Sys2Proof.Machine.execMul d a b s
  | .mulh d a b => Sys2Proof.Machine.execMulh d a b s
  | .mulhn d a b => Sys2Proof.Machine.execMulhn d a b s
  | .div d a b => Sys2Proof.Machine.execDiv d a b s
  | .divn d a b => Sys2Proof.Machine.execDivn d a b s
  | .rem d a b => Sys2Proof.Machine.execRem d a b s
  | .remn d a b => Sys2Proof.Machine.execRemn d a b s
  | .min d a b => Sys2Proof.Machine.execMin d a b s
  | .max d a b => Sys2Proof.Machine.execMax d a b s
  | .minn d a b => Sys2Proof.Machine.execMinn d a b s
  | .maxn d a b => Sys2Proof.Machine.execMaxn d a b s
  | .clz d a => Sys2Proof.Machine.execClz d a s
  | .popc d a => Sys2Proof.Machine.execPopc d a s
  | .bfx d a b sgn => Sys2Proof.Machine.execBfx d a b sgn s
  | .bfi d a b => Sys2Proof.Machine.execBfi d a b s
  | .sel d a b neg bp => Sys2Proof.Machine.execSel d a b neg bp s
  | .cmp comb bp a b cond => Sys2Proof.Machine.execCmp comb bp a b cond s
  | .sext d a w => Sys2Proof.Machine.execSext d a w s
  | .zext d a w => Sys2Proof.Machine.execZext d a w s
  | .lea d a b sh => Sys2Proof.Machine.execLea d a b sh s
  | .addi d a imm => Sys2Proof.Machine.execAddi d a imm s
  | .andi d a imm => Sys2Proof.Machine.execAndi d a imm s
  | .ori d a imm => Sys2Proof.Machine.execOri d a imm s
  | .xori d a imm => Sys2Proof.Machine.execXori d a imm s
  | .shli d a sh => Sys2Proof.Machine.execShli d a sh s
  | .shri d a sh => Sys2Proof.Machine.execShri d a sh s
  | .sari d a sh => Sys2Proof.Machine.execSari d a sh s
  | .cmpi cond bp a imm => Sys2Proof.Machine.execCmpi cond bp a imm s
  | .movi d imm stamp => Sys2Proof.Machine.execMovi d imm stamp s
  | .movhi d imm stamp => Sys2Proof.Machine.execMovhi d imm stamp s
  | .lds d a off w stamp => Sys2Proof.Machine.execLds d a off w stamp s
  | .sts d a off w stamp => Sys2Proof.Machine.execSts d a off w stamp s
  | .loadReturn id => Sys2Proof.Machine.execLoadReturn id s
  | .csrr d n => Sys2Proof.Machine.execCsrr d n s
  | .csrw a n => Sys2Proof.Machine.execCsrw a n s
  | .trap code => Sys2Proof.Machine.execTrap code s
  | .setlc lc a => Sys2Proof.Machine.execSetlc lc a s
  | .setstrd lvl a seatS en slot p stamp => Sys2Proof.Machine.execSetstrd lvl a seatS en slot p stamp s
  | .setslip a => Sys2Proof.Machine.execSetslip a s
  | .prio a => Sys2Proof.Machine.execPrio a s
  | .rdclk d => Sys2Proof.Machine.execRdclk d s
  | .rdstroke d => Sys2Proof.Machine.execRdstroke d s
  | .wfe d a => Sys2Proof.Machine.execWfe d a s
  | .wfeTimeout heat => Sys2Proof.Machine.execWfeTimeout heat s
  | .sms => Sys2Proof.Machine.execSms s
  | .wpv => Sys2Proof.Machine.execWpv s
  | .hret => Sys2Proof.Machine.execHret s
  | .bkpt code => Sys2Proof.Machine.execBkpt code s
  | .aadd d a b wide off stamp => Sys2Proof.Machine.execAadd d a b wide off stamp s
  | .amin d a b wide off stamp => Sys2Proof.Machine.execAmin d a b wide off stamp s
  | .amax d a b wide off stamp => Sys2Proof.Machine.execAmax d a b wide off stamp s
  | .aminn d a b wide off stamp => Sys2Proof.Machine.execAminn d a b wide off stamp s
  | .amaxn d a b wide off stamp => Sys2Proof.Machine.execAmaxn d a b wide off stamp s
  | .aand d a b wide off stamp => Sys2Proof.Machine.execAand d a b wide off stamp s
  | .aor d a b wide off stamp => Sys2Proof.Machine.execAor d a b wide off stamp s
  | .axor d a b wide off stamp => Sys2Proof.Machine.execAxor d a b wide off stamp s
  | .axchg d a b wide off stamp => Sys2Proof.Machine.execAxchg d a b wide off stamp s
  | .acas d a b wide off stamp => Sys2Proof.Machine.execAcas d a b wide off stamp s
  | .faadd d a b off stamp => Sys2Proof.Machine.execFaadd d a b off stamp s
  | .famin d a b off stamp => Sys2Proof.Machine.execFamin d a b off stamp s
  | .famax d a b off stamp => Sys2Proof.Machine.execFamax d a b off stamp s
  | .laadd a b form off stamp => Sys2Proof.Machine.execLaadd a b form off stamp s
  | .ald d a form off stamp => Sys2Proof.Machine.execAld d a form off stamp s
  | .ast a b wide off stamp => Sys2Proof.Machine.execAst a b wide off stamp s
  | .atomicApply id => Sys2Proof.Machine.execAtomicApply id s
  | .fence scope => Sys2Proof.Machine.execFence scope s
  | .fencea scope => Sys2Proof.Machine.execFencea scope s
  | .fencer scope => Sys2Proof.Machine.execFencer scope s
  | .barinit a b off stamp => Sys2Proof.Machine.execBarinit a b off stamp s
  | .bararr d a => Sys2Proof.Machine.execBararr d a s
  | .barwait a b => Sys2Proof.Machine.execBarwait a b s
  | .waitcoAll d a => Sys2Proof.Machine.execWaitcoAll d a s
  | .waitcoAny d a => Sys2Proof.Machine.execWaitcoAny d a s
  | .testco d a => Sys2Proof.Machine.execTestco d a s
  | .dbar id => Sys2Proof.Machine.execDbar id s
  | .spawn d a c => Sys2Proof.Machine.execSpawn d a c s
  | .spawnt d a b n c => Sys2Proof.Machine.execSpawnt d a b n c s
  | .cancel d a b lvl => Sys2Proof.Machine.execCancel d a b lvl s
  | .waitc d a b lvl => Sys2Proof.Machine.execWaitc d a b lvl s
  | .suspend a b => Sys2Proof.Machine.execSuspend a b s
  | .resume d a c => Sys2Proof.Machine.execResume d a c s
  | .copyco d a b c => Sys2Proof.Machine.execCopyco d a b c s
  | .dropco d a => Sys2Proof.Machine.execDropco d a s
  | .yieldi a => Sys2Proof.Machine.execYieldi a s
  | .yieldExpiry heat => Sys2Proof.Machine.execYieldExpiry heat s
  | .self d sel => Sys2Proof.Machine.execSelf d sel s
  | .slwin a b kk w1 stamp => Sys2Proof.Machine.execSlwin a b kk w1 stamp s
  | .slres a b off stamp => Sys2Proof.Machine.execSlres a b off stamp s
  | .slchk comb bp a b off stamp => Sys2Proof.Machine.execSlchk comb bp a b off stamp s
  | .sldone a neg bp => Sys2Proof.Machine.execSldone a neg bp s
  | .slnext d => Sys2Proof.Machine.execSlnext d s
  | .slreset a b off stamp => Sys2Proof.Machine.execSlreset a b off stamp s
  | .taintq d a => Sys2Proof.Machine.execTaintq d a s
  | .taintqMem d a => Sys2Proof.Machine.execTaintqMem d a s
  | .tclr d a => Sys2Proof.Machine.execTclr d a s
  | .tcnt d clr sel => Sys2Proof.Machine.execTcnt d clr sel s
  | .nopl w => Sys2Proof.Machine.execNopl w s
  | .ldq w q p upd => Sys2Proof.Machine.execLdq w q p upd s
  | .ldqs w q p upd => Sys2Proof.Machine.execLdqs w q p upd s
  | .gatq w q p qi => Sys2Proof.Machine.execGatq w q p qi s
  | .lQset w q sa ringEn ring fmt elems1 stamp => Sys2Proof.Machine.execLQset w q sa ringEn ring fmt elems1 stamp s
  | .lPset w p sa => Sys2Proof.Machine.execLPset w p sa s
  | .lPadd w p imm => Sys2Proof.Machine.execLPadd w p imm s
  | .cpyin w p sa len c => Sys2Proof.Machine.execCpyin w p sa len c s
  | .gatr w pb pi disp c => Sys2Proof.Machine.execGatr w pb pi disp c s
  | .ldblk w tag sa lines1 c => Sys2Proof.Machine.execLdblk w tag sa lines1 c s
  | .ldblkRel w tag c => Sys2Proof.Machine.execLdblkRel w tag c s
  | .pref w sa level lines1 stamp => Sys2Proof.Machine.execPref w sa level lines1 stamp s
  | .stmap w p sa slot lines stamp => Sys2Proof.Machine.execStmap w p sa slot lines stamp s
  | .stunmap w slot c => Sys2Proof.Machine.execStunmap w slot c s
  | .stflush w all slot c => Sys2Proof.Machine.execStflush w all slot c s
  | .bagopen w disp c => Sys2Proof.Machine.execBagopen w disp c s
  | .invm w sa size pages1 stamp => Sys2Proof.Machine.execInvm w sa size pages1 stamp s
  | .invmComplete heat => Sys2Proof.Machine.execInvmComplete heat s
  | .lCwait w co => Sys2Proof.Machine.execLCwait w co s
  | .rpush w ring n => Sys2Proof.Machine.execRpush w ring n s
  | .hnd w disp stamp => Sys2Proof.Machine.execHnd w disp stamp s
  | .nops w => Sys2Proof.Machine.execNops w s
  | .stq w q p upd => Sys2Proof.Machine.execStq w q p upd s
  | .stqs w q p upd => Sys2Proof.Machine.execStqs w q p upd s
  | .scatq w q p qi => Sys2Proof.Machine.execScatq w q p qi s
  | .sQset w q sa ringEn ring fmt elems1 stamp => Sys2Proof.Machine.execSQset w q sa ringEn ring fmt elems1 stamp s
  | .sPset w p sa => Sys2Proof.Machine.execSPset w p sa s
  | .sPadd w p imm => Sys2Proof.Machine.execSPadd w p imm s
  | .cpyout w p sa len c => Sys2Proof.Machine.execCpyout w p sa len c s
  | .scatr w pb pi disp c => Sys2Proof.Machine.execScatr w pb pi disp c s
  | .bagclose w disp c => Sys2Proof.Machine.execBagclose w disp c s
  | .asrcpy w p sa n retire c => Sys2Proof.Machine.execAsrcpy w p sa n retire c s
  | .coll w p c => Sys2Proof.Machine.execColl w p c s
  | .rpop w ring n => Sys2Proof.Machine.execRpop w ring n s
  | .sCwait w co => Sys2Proof.Machine.execSCwait w co s
  | .nopx w => Sys2Proof.Machine.execNopx w s
  | .sett w fmt rm => Sys2Proof.Machine.execSett w fmt rm s
  | .settM w af wf asg wsg => Sys2Proof.Machine.execSettM w af wf asg wsg s
  | .settO w fmt => Sys2Proof.Machine.execSettO w fmt s
  | .vadd w vd va vb => Sys2Proof.Machine.execVadd w vd va vb s
  | .vsub w vd va vb => Sys2Proof.Machine.execVsub w vd va vb s
  | .vmul w vd va vb => Sys2Proof.Machine.execVmul w vd va vb s
  | .vfma w vd va vb => Sys2Proof.Machine.execVfma w vd va vb s
  | .vmin w vd va vb => Sys2Proof.Machine.execVmin w vd va vb s
  | .vmax w vd va vb => Sys2Proof.Machine.execVmax w vd va vb s
  | .vabs w vd va => Sys2Proof.Machine.execVabs w vd va s
  | .vneg w vd va => Sys2Proof.Machine.execVneg w vd va s
  | .vand w vd va vb => Sys2Proof.Machine.execVand w vd va vb s
  | .vor w vd va vb => Sys2Proof.Machine.execVor w vd va vb s
  | .vxor w vd va vb => Sys2Proof.Machine.execVxor w vd va vb s
  | .vshl w vd va vb => Sys2Proof.Machine.execVshl w vd va vb s
  | .vshr w vd va vb => Sys2Proof.Machine.execVshr w vd va vb s
  | .vsar w vd va vb => Sys2Proof.Machine.execVsar w vd va vb s
  | .vcmp w kd cond va vb => Sys2Proof.Machine.execVcmp w kd cond va vb s
  | .vsel w vd va vb => Sys2Proof.Machine.execVsel w vd va vb s
  | .vmov w vd va => Sys2Proof.Machine.execVmov w vd va s
  | .vbcst w vd sa => Sys2Proof.Machine.execVbcst w vd sa s
  | .vidx w vd => Sys2Proof.Machine.execVidx w vd s
  | .vcvt w vd va fmt => Sys2Proof.Machine.execVcvt w vd va fmt s
  | .vrcp w vd va => Sys2Proof.Machine.execVrcp w vd va s
  | .vrsq w vd va => Sys2Proof.Machine.execVrsq w vd va s
  | .vexp2 w vd va => Sys2Proof.Machine.execVexp2 w vd va s
  | .vlog2 w vd va => Sys2Proof.Machine.execVlog2 w vd va s
  | .vred w vd va op => Sys2Proof.Machine.execVred w vd va op s
  | .vscan w vd va excl op => Sys2Proof.Machine.execVscan w vd va excl op s
  | .vperm w vd va vb => Sys2Proof.Machine.execVperm w vd va vb s
  | .vqnt w vd va => Sys2Proof.Machine.execVqnt w vd va s
  | .vdqn w vd va => Sys2Proof.Machine.execVdqn w vd va s
  | .kop w kd ka kb op => Sys2Proof.Machine.execKop w kd ka kb op s
  | .vcpush w vd va form => Sys2Proof.Machine.execVcpush w vd va form s
  | .vcpop w vd va form => Sys2Proof.Machine.execVcpop w vd va form s
  | .mwld w ring k1 n1 stamp => Sys2Proof.Machine.execMwld w ring k1 n1 stamp s
  | .mbag w ring acc exact disp c => Sys2Proof.Machine.execMbag w ring acc exact disp c s
  | .mmul w src srcQ dk dst sr c => Sys2Proof.Machine.execMmul w src srcQ dk dst sr c s
  | .mdist w src srcQ dk dst sr c => Sys2Proof.Machine.execMdist w src srcQ dk dst sr c s
  | .mtopk w src srcQ dk dst largest kr1 dist sr c => Sys2Proof.Machine.execMtopk w src srcQ dk dst largest kr1 dist sr c s
  | .mret w force disp c => Sys2Proof.Machine.execMret w force disp c s
  | .mretRegion w kind n1 sr c => Sys2Proof.Machine.execMretRegion w kind n1 sr c s
  | .mclr w kind n1 sr c => Sys2Proof.Machine.execMclr w kind n1 sr c s
  | .rset w f stamp => Sys2Proof.Machine.execRset w f stamp s
  | .mwait w => Sys2Proof.Machine.execMwait w s
  | .lease w n1 => Sys2Proof.Machine.execLease w n1 s
  | .unlease w => Sys2Proof.Machine.execUnlease w s
  | .leaseGrant crew => Sys2Proof.Machine.execLeaseGrant crew s
  | .arrayRowResult cmd => Sys2Proof.Machine.execArrayRowResult cmd s
  | .engineCommandStart core => Sys2Proof.Machine.execEngineCommandStart core s
  | .gatherRowLand cmd pos => Sys2Proof.Machine.execGatherRowLand cmd pos s
  | .transferPerformed cmd => Sys2Proof.Machine.execTransferPerformed cmd s
  | .commandComplete cmd => Sys2Proof.Machine.execCommandComplete cmd s
  | .handlerStart core => Sys2Proof.Machine.execHandlerStart core s
  | .tokenWatchdog heat seat => Sys2Proof.Machine.execTokenWatchdog heat seat s
  | .heatAged heat seat => Sys2Proof.Machine.execHeatAged heat seat s
  | .walkerPlace die => Sys2Proof.Machine.execWalkerPlace die s
  | .launchEnqueue req => Sys2Proof.Machine.execLaunchEnqueue req s
  | .heatEnd heat => Sys2Proof.Machine.execHeatEnd heat s
  | .heatFaulted heat => Sys2Proof.Machine.execHeatFaulted heat s
  | .heatCancelled heat => Sys2Proof.Machine.execHeatCancelled heat s
  | .heatSuspended heat => Sys2Proof.Machine.execHeatSuspended heat s
  | .resumePlacement req => Sys2Proof.Machine.execResumePlacement req s
  | .coxedPlacement entry => Sys2Proof.Machine.execCoxedPlacement entry s
  | .spanEnd heat => Sys2Proof.Machine.execSpanEnd heat s
  | .drawMessageEntry msg => Sys2Proof.Machine.execDrawMessageEntry msg s
  | .beatRelease id => Sys2Proof.Machine.execBeatRelease id s
  | .writeForwardApply id => Sys2Proof.Machine.execWriteForwardApply id s
  | .sampleTick job => Sys2Proof.Machine.execSampleTick job s
  | .qpollChange q => Sys2Proof.Machine.execQpollChange q s
  | .nopPacket q => Sys2Proof.Machine.execNopPacket q s
  | .launchPacket q => Sys2Proof.Machine.execLaunchPacket q s
  | .graphPacket q => Sys2Proof.Machine.execGraphPacket q s
  | .pclose q => Sys2Proof.Machine.execPclose q s
  | .cancelPacket q => Sys2Proof.Machine.execCancelPacket q s
  | .writePacket q => Sys2Proof.Machine.execWritePacket q s
  | .coxedPacket q => Sys2Proof.Machine.execCoxedPacket q s
  | .preemptPacket q => Sys2Proof.Machine.execPreemptPacket q s
  | .wayFlushDone die slice => Sys2Proof.Machine.execWayFlushDone die slice s
  | .rebalanceInterval die => Sys2Proof.Machine.execRebalanceInterval die s
  | .bucketMoveDone die => Sys2Proof.Machine.execBucketMoveDone die s
  | .haltPendingHalt heat => Sys2Proof.Machine.execHaltPendingHalt heat s
  | .rom ok => Sys2Proof.Machine.execRom ok s
  | .verify lamomImg cpImg => Sys2Proof.Machine.execVerify lamomImg cpImg s
  | .measure ok => Sys2Proof.Machine.execMeasure ok s
  | .arrays ok => Sys2Proof.Machine.execArrays ok s
  | .sram ok => Sys2Proof.Machine.execSram ok s
  | .dram ok => Sys2Proof.Machine.execDram ok s
  | .links dieOk cxlOk cables => Sys2Proof.Machine.execLinks dieOk cxlOk cables s
  | .illegalEncoding => Sys2Proof.Machine.execIllegalEncoding s
  | .fetchFailure protection => Sys2Proof.Machine.execFetchFailure protection s
  | .atomicRetry id => Sys2Proof.Machine.execAtomicRetry id s
  | .settleTimeout cmd => Sys2Proof.Machine.execSettleTimeout cmd s
  | .commandSteal cmd thief => Sys2Proof.Machine.execCommandSteal cmd thief s
  | .stealAcknowledge cmd => Sys2Proof.Machine.execStealAcknowledge cmd s
  | .stealMarkTimeout cmd => Sys2Proof.Machine.execStealMarkTimeout cmd s
  | .thiefReset core => Sys2Proof.Machine.execThiefReset core s
  | .cancelMessage job => Sys2Proof.Machine.execCancelMessage job s
  | .fjaroitaBeatArrival beat addr val taint => Sys2Proof.Machine.execFjaroitaBeatArrival beat addr val taint s
  | .probeArrival core line => Sys2Proof.Machine.execProbeArrival core line s
  | .hostHdmAccess wr addr val => Sys2Proof.Machine.execHostHdmAccess wr addr val s
  | .collAbortMessage job group seq => Sys2Proof.Machine.execCollAbortMessage job group seq s
  | .qdoor q p => Sys2Proof.Machine.execQdoor q p s
  | .qctl q v => Sys2Proof.Machine.execQctl q v s
  | .devnum v => Sys2Proof.Machine.execDevnum v s
  | .bucketTableEntry die b v => Sys2Proof.Machine.execBucketTableEntry die b v s
  | .registerWrite r v => Sys2Proof.Machine.execRegisterWrite r v s
  | .flushWays die slice mask => Sys2Proof.Machine.execFlushWays die slice mask s
  | .setScratchMask die slice mask => Sys2Proof.Machine.execSetScratchMask die slice mask s
  | .clkalignStart v => Sys2Proof.Machine.execClkalignStart v s
  | .clockAligned parentAligned parentClock ends => Sys2Proof.Machine.execClockAligned parentAligned parentClock ends s
  | .linkDown link => Sys2Proof.Machine.execLinkDown link s
  | .unitGate u => Sys2Proof.Machine.execUnitGate u s
  | .unitWake u => Sys2Proof.Machine.execUnitWake u s
  | .readSelfTestReport => Sys2Proof.Machine.execReadSelfTestReport s
  | .readErrorLog => Sys2Proof.Machine.execReadErrorLog s
  | .readMeasurementRegister m => Sys2Proof.Machine.execReadMeasurementRegister m s
  | .extendRegister m digest => Sys2Proof.Machine.execExtendRegister m digest s
  | .advanceSecurityVersion => Sys2Proof.Machine.execAdvanceSecurityVersion s
  | .keyLoad slot key owner => Sys2Proof.Machine.execKeyLoad slot key owner s
  | .keyUnload slot => Sys2Proof.Machine.execKeyUnload slot s
  | .debuggerAttach job => Sys2Proof.Machine.execDebuggerAttach job s
  | .debuggerDetach job => Sys2Proof.Machine.execDebuggerDetach job s
  | .setWatchpoint job n base log2len rd wr => Sys2Proof.Machine.execSetWatchpoint job n base log2len rd wr s
  | .haltRequest job heat => Sys2Proof.Machine.execHaltRequest job heat s
  | .release job => Sys2Proof.Machine.execRelease job s
  | .stepRelease heat seat n => Sys2Proof.Machine.execStepRelease heat seat n s
  | .readHaltRecord job => Sys2Proof.Machine.execReadHaltRecord job s
  | .mailboxUnsupported opcode => Sys2Proof.Machine.execMailboxUnsupported opcode s
  | .debugRegisterWrite heat r v taint => Sys2Proof.Machine.execDebugRegisterWrite heat r v taint s
  | .getVersion => Sys2Proof.Machine.execGetVersion s
  | .getCapabilities => Sys2Proof.Machine.execGetCapabilities s
  | .negotiateAlgorithms => Sys2Proof.Machine.execNegotiateAlgorithms s
  | .getDigests => Sys2Proof.Machine.execGetDigests s
  | .getCertificate => Sys2Proof.Machine.execGetCertificate s
  | .challenge nonce => Sys2Proof.Machine.execChallenge nonce s
  | .getMeasurements index nonce => Sys2Proof.Machine.execGetMeasurements index nonce s
  | .keyExchange share => Sys2Proof.Machine.execKeyExchange share s
  | .finish => Sys2Proof.Machine.execFinish s
  | .boardResetRelease => Sys2Proof.Machine.execBoardResetRelease s
  | .ready => Sys2Proof.Machine.execReady s
  | .thermalTrip => Sys2Proof.Machine.execThermalTrip s
  | .powerTrip => Sys2Proof.Machine.execPowerTrip s
  | .computeReenable => Sys2Proof.Machine.execComputeReenable s
  | .victimCoreReset core => Sys2Proof.Machine.execVictimCoreReset core s
  | .hostRejectedWrite id => Sys2Proof.Machine.execHostRejectedWrite id s
  | .cxlFlushReadComplete => Sys2Proof.Machine.execCxlFlushReadComplete s
  | .peerAsrAccess addr access val => Sys2Proof.Machine.execPeerAsrAccess addr access val s
  | .collPartnerMessage job group seq rank sig data => Sys2Proof.Machine.execCollPartnerMessage job group seq rank sig data s
  | .stashLineWriteBack heat slot line => Sys2Proof.Machine.execStashLineWriteBack heat slot line s

end Sys2Proof.Machine
end

