-- ==== Sys2Proof/Machine/Run.lean ====
section
/-!
DEFINITION. One act of the machine: an issue slot serves a heat, a handler context executes a word, an event happens,
cycles pass; and the order in which the device's own steps come when the agenda is empty (log 1).
-/

namespace Sys2Proof.Machine

/-- A seat of a heat walks the text and executes what it comes to. -/
def runSeat (uid : Nat) (p : Seat) (s : State) : Host.Outcome State Fault Refusal :=
  match s.heat? uid with
  | none => .next { s with waited := true }
  | some h =>
    match walkSeat 64 s h p with
    | (s1, h1, w) =>
      let s2 := { s1.putHeat h1 with cur := some { heat := uid, seat := p, handler := none }, waited := false }
      match w with
      | .idle => .next { s2 with waited := true }
      | .run i => exec i s2

/-- The wait that a heat's seat records. -/
def waitOf (s : State) (uid : Nat) (p : Seat) : Option Wait := (s.heat? uid).bind fun h => (h.seat p).wait

/-- Heats that the slot did not choose were ready in this cycle, or wait (02/R44, 18/R396). -/
def markReady (p : Seat) : List Nat → State → State
  | [], s => s
  | u :: rest, s =>
    let (ready, wait) := match runSeat u p s with
      | .next t => (!t.waited, waitOf t u p)
      | _ => (false, none)
    markReady p rest (noteReady s u p ready wait)

/-- The slot serves the first heat whose word issues; where none does, the state says that nothing was issued. -/
def serve (p : Seat) : List Nat → State → Host.Outcome State Fault Refusal
  | [], s => .next { s with waited := true }
  | u :: rest, s =>
    match runSeat u p s with
    | .next t =>
      if t.waited then serve p rest { noteReady t u p false (waitOf t u p) with waited := false }
      else .next (markReady p rest t)
    | .fault e => .fault e
    | .refused r => .refused r

/-- The issue slot of a core's seat serves one of its heats (02/R44). -/
def runSlot (core : Nat) (p : Seat) (s : State) : Host.Outcome State Fault Refusal :=
  serve p ((candidates s core p).map (·.id.uid)) { s with waited := false }

/-- The instruction at a handler's address; a word of another seat is none that it may execute (07/R204). -/
def handlerWord (s : State) (h : Heat) (k : Handler) : State × Instr :=
  match headAt s { h with C := { h.C with pc := k.pc, loops := [] } } .C with
  | (s1, .own i) => (s1, i)
  | (s1, .foreign _ _ _) => (s1, .illegalEncoding)

/-- A handler context executes a word. -/
def runHandler (id : Nat) (s : State) : Host.Outcome State Fault Refusal :=
  match s.handlers.find? fun k => k.id == id && k.running with
  | none => .next s
  | some k =>
    match s.heat? k.heat with
    | none => .next s
    | some h =>
      let (s1, i) := handlerWord s h k
      exec i { s1 with cur := some { heat := k.heat, seat := .C, handler := some id }, waited := false }

/-- What follows of itself from where things stand: launches complete, killed jobs, ends of suspended heats, resumers, trap
tasks, packets, jobs and the schedule end, leases are released, and held probes are applied. -/
def settle (s : State) : State :=
  settleProbes (settleLeases <| settleSchedule (settleJobs (settlePackets (settleTraps (settleResumers (traceEnds (settleKilled (settleLaunches (traceEnds s)))))))))

/-- What the fabric does in a cycle of itself: held messages are released, and messages of a schedule enter their
positions (10/R301, R316). -/
def fabricCycle (s : State) : State := enterMessages (releaseBeats s)

/-- Events that happen where their conditions hold, one after another. -/
def happen (s : State) (es : List Instr) : State :=
  es.foldl (fun s e => match exec e s with
    | .next t => t
    | .fault _ => s
    | .refused _ => s) s

/-- The arrays' part of a cycle: what they start and read, the results that are due, at most two rows of a command, and
the commands that are over (08/R255, R263). -/
def arrayPhase (s : State) : State :=
  let s1 := arrayCycle s
  happen s1 ((s1.cmds.filter (·.kind.matrix)).flatMap fun c =>
    [.arrayRowResult c.id, .arrayRowResult c.id, .commandComplete c.id])

/-- Events whose cycle the rules fix: they happen at the beginning of that cycle (02/R24; 05/R143; 06/R174; 10/R308;
20/R446; 22/R465). -/
def timedEvents (s : State) : List Instr :=
  let heats := (s.heats.filter (·.onCore)).map (·.id.uid)
  (s.sched.elim [] fun c => (List.range c.entries.length).map .coxedPlacement) ++
    heats.flatMap (fun u => [.spanEnd u, .wfeTimeout u, .yieldExpiry u]) ++
    heats.flatMap (fun u => seats.map fun p => .tokenWatchdog u p) ++
    (s.jobs.map fun j => .sampleTick j.id) ++ (List.range 4).map .rebalanceInterval

/-- n cycles pass in which no slot issues: the arrays and the fabric do their part, the clock runs from the release of the
board reset (21/R453), at half pace while it leads its parent's (22/R464); an overrun's cancel follows in the next cycle
(10/R312), at whose beginning the events of that cycle happen. -/
def pass (s : State) (n : Nat) : Host.Outcome State Fault Refusal :=
  if s.lamom.stage = .held then .next s
  else
    let s1 := settle (fabricCycle (arrayPhase s))
    let k := clockSteps s1.dev n
    if 2 ^ 64 ≤ s1.dev.clock + k then .fault .clockExhausted
    else
      let s2 := cancelBroken (catchUp (passCycles s1 k) n)
      .next (gateIdle (happen s2 (timedEvents s2)))

/-- Something happens in single cycles: a heat holds a core, or a message is under way. -/
def cycleBound (s : State) : Bool := s.heats.any (·.onCore) || !s.net.msgs.isEmpty || !s.net.beats.isEmpty

/-- Of n cycles, those up to the next placement of a schedule (10/R308). -/
def untilPlacement (s : State) (n : Nat) : Nat :=
  match s.sched with
  | none => n
  | some c =>
    if !c.live then n
    else ((c.entries.filter fun e => !e.placed && decide (s.now < placeCycle s c e)).map fun e => placeCycle s c e - s.now).foldl
      min n

/-- Of n cycles, those that pass at once. -/
def atOnce (s : State) (n : Nat) : Nat := if cycleBound s then min n 1 else untilPlacement s n

/-- The slots of the cores that hold a heat and have not issued in this cycle. -/
def freeSlots (s : State) : List (Nat × Seat) :=
  ((s.heats.filter (·.onCore)).map (·.core)).foldr numIns [] |>.flatMap fun c =>
    (seats.filter fun p => !slotUsed s c p).map fun p => (c, p)

/-- Issue slots in their turn until one of them issues a word. -/
def serveFirst : List (Nat × Seat) → State → Host.Outcome State Fault Refusal
  | [], s => .next { s with waited := true }
  | c :: rest, s =>
    match runSlot c.1 c.2 s with
    | .next t => if t.waited then serveFirst rest t else .next t
    | .fault e => .fault e
    | .refused r => .refused r

/-- n cycles pass. A cycle in which a heat holds a core ends only when every issue slot has issued a word or has none that
is ready (02/R12, R44, R48): a slot that can still issue does so in this step, and the cycles are still to pass after it.
-/
def runTick (s : State) (n : Nat) : Host.Outcome State Fault Refusal :=
  match freeSlots s, n with
  | [], _ =>
    let k := atOnce s n
    if k < n then pass { s with agenda := .tick (n - k) :: s.agenda } k else pass s n
  | _ :: _, 0 => .next s
  | c :: cs, n + 1 =>
    match serveFirst (c :: cs) s with
    | .next t =>
      if !t.waited then .next { t with agenda := .tick (n + 1) :: t.agenda }
      else
        let t := { t with waited := false }
        if n = 0 then pass t 1 else pass { t with agenda := .tick n :: t.agenda } 1
    | .fault e => .fault e
    | .refused r => .refused r

/-- Commands of Lamom's mailbox and sideband (21/R457, R458). -/
def isMailbox : Instr → Bool
  | .readSelfTestReport | .readErrorLog | .readMeasurementRegister _ | .extendRegister _ _ | .advanceSecurityVersion
  | .keyLoad _ _ _ | .keyUnload _ | .debuggerAttach _ | .debuggerDetach _ | .setWatchpoint _ _ _ _ _ _
  | .haltRequest _ _ | .release _ | .stepRelease _ _ _ | .readHaltRecord _ | .mailboxUnsupported _ => true
  | _ => false

/-- The mailbox command that a list of acts holds before a cycle passes, and the list without it. -/
def mailboxNext : List Act → Option (Instr × List Act)
  | [] => none
  | .tick _ :: _ => none
  | .event i :: t => if isMailbox i then some (i, t) else (mailboxNext t).map fun x => (x.1, .event i :: x.2)
  | a :: t => (mailboxNext t).map fun x => (x.1, a :: x.2)

/-- A command of the sideband; one that comes by the mailbox in the same cycle is performed first (21/R457). -/
def runSideband (i : Instr) (s : State) : Host.Outcome State Fault Refusal :=
  match mailboxNext s.agenda with
  | some (m, rest) => exec m { s with agenda := .sideband i :: rest }
  | none => exec i s

/-- A soft error is corrected, or a beat sent again (20/R433). -/
def countSoft (kind : SoftError) (c : Counters) : Counters :=
  match kind with
  | .sram => { c with sram := c.sram + 1 }
  | .underlay => { c with underlay := c.underlay + 1 }
  | .beat => { c with beat := c.beat + 1 }
  | .link => { c with link := c.link + 1 }
  | .linkRetry => { c with linkRetries := c.linkRetries + 1 }

/-- One act. -/
def runAct (a : Act) (s : State) : Host.Outcome State Fault Refusal :=
  match a with
  | .slot core p =>
    match runSlot core p s with
    | .next t => .next { t with waited := false }
    | .fault e => .fault e
    | .refused r => .refused r
  | .handler id => runHandler id s
  | .event i => exec i s
  | .hostRead off => .next (hostRead off s)
  | .tick n => runTick s n
  | .sideband i => runSideband i s
  | .negotiate falcon shake => exec .negotiateAlgorithms { s with lamom := { s.lamom with offer := (falcon, shake) } }
  | .softError kind die => .next (s.onCounters die (countSoft kind))
  | .beatError id => .next { s with net := { s.net with badBeats := numIns id s.net.badBeats } }
  | .peerCoxed link on => .next { s with dev := { s.dev with peerCoxed := numPut link on s.dev.peerCoxed } }
  | .evict line => .next (if kindOf (line * 128) = some .underlay then chargeWriteBack s line else s)

/-- Slots of the cores that hold a heat. -/
def slotActs (s : State) : List Act :=
  ((s.heats.filter (·.onCore)).map (·.core)).foldr numIns [] |>.flatMap fun c => seats.map fun p => Act.slot c p

/-- The steps that the device may take now of itself; one whose condition fails changes nothing. -/
def ownSteps (s : State) : List Act :=
  match s.lamom.stage with
  | .held => [.event .boardResetRelease]
  | .rom => [.event (.rom true)]
  | .verify => [.event (.verify Config.lamomImage Config.cpImage)]
  | .measure => [.event (.measure true)]
  | .arrays => [.event (.arrays true)]
  | .sram => [.event (.sram true)]
  | .dram => [.event (.dram true)]
  | .links => [.event (.links true true (List.replicate 12 .absent))]
  | .ready => [.event .ready]
  | .safe => []
  | .up =>
    let heats := (s.heats.filter fun h => !h.status.final).map (·.id.uid)
    let cores := ((s.heats.filter (·.onCore)).map (·.core)).foldr numIns []
    let es : List Instr :=
      s.heats.flatMap (fun h => (h.pend.filter (·.value.isSome)).map fun q => .loadReturn q.id) ++
      s.atomics.map (fun a => .atomicApply a.id) ++
      s.net.forwards.map (fun f => .writeForwardApply f.id) ++
      cores.map .engineCommandStart ++
      s.cmds.flatMap (fun c => match c.kind with
        | .gatr r _ _ _ _ _ => (List.range r.n).map fun i => .gatherRowLand c.id i
        | .scatr r _ _ _ => (List.range r.n).map fun i => .gatherRowLand c.id i
        | .prod .. | .mbag .. => [.arrayRowResult c.id, .arrayRowResult c.id]
        | _ => []) ++
      s.cmds.map (fun c => .commandComplete c.id) ++
      s.cmds.map (fun c => .transferPerformed c.id) ++
      cores.map .handlerStart ++
      (s.leases.filter fun l => !l.requests.isEmpty).map (fun l => .leaseGrant l.crew) ++
      heats.flatMap (fun u => [.lexitDrain u, .wfeTimeout u, .yieldExpiry u, .invmComplete u, .heatEnd u,
        .heatFaulted u, .heatCancelled u, .heatSuspended u, .haltPendingHalt u, .spanEnd u]) ++
      heats.flatMap (fun u => seats.flatMap fun p => [.tokenWatchdog u p, .heatAged u p]) ++
      s.requests.map (fun r => .launchEnqueue r.id) ++
      s.resumes.map (fun r => .resumePlacement r.id) ++
      (List.range 4).map .walkerPlace ++
      (s.sched.elim [] fun c => (List.range c.entries.length).map .coxedPlacement) ++
      s.net.msgs.map (fun m => .drawMessageEntry m.id) ++
      s.net.beats.map (fun b => .beatRelease b.id) ++
      (if s.net.posted.isEmpty then [] else [.cxlFlushReadComplete]) ++
      s.queues.flatMap (fun q => [.nopPacket q.q, .launchPacket q.q, .graphPacket q.q, .pclose q.q, .cancelPacket q.q,
        .writePacket q.q, .coxedPacket q.q, .preemptPacket q.q, .qpollChange q.q]) ++
      s.dev.slway.map (fun w => .wayFlushDone w.1 w.2.1) ++
      (List.range 4).map .bucketMoveDone
    slotActs s ++ (s.handlers.filter (·.running)).map (fun k => .handler k.id) ++ es.map .event

/-- The next of the device's own steps in turn; after the last one a cycle passes. -/
def ownStep (s : State) : Act × State :=
  match (ownSteps s)[s.rr]? with
  | some a => (a, { s with rr := s.rr + 1 })
  | none => (.tick 1, { s with rr := 0 })

/-! ## A machine about to run one word (log 5) -/

/-- Text address and physical address used where no heat is resident. -/
def plainPc : Dword := 0x1000
def plainText : Nat := 0x1001000

/-- A task type with every demand at its limit. -/
def plainType : TaskType :=
  { index := 0, prologue := plainPc, kernel := 0x8000, epilogue := 0x8000, trip := 0, tripSrc := 0, sGroups := 8,
    vGroups := 4, spadUnits := 0, asrUnits := 0, prio := 0, depth := 1, coxed := false, gang := false }

def plainId : HeatId :=
  { uid := 1, job := 1, launch := 1, index := 0, graph := 1, phase := 0, detached := false, trapTask := false,
    coxed := false }

def plainJob : Job :=
  { id := 1, descAddr := 0, flags := 1, root := 0x100000, typeCount := 1, typeTable := 0, trapQ := 0, groupTab := 0,
    killed := false, coxed := false, aligned := false, complete := false, overrun := false, cancelled := false,
    debugger := false, watch := [], halt := none, lastHalt := none, haltedCycles := 0, aborted := [], collSeq := [],
    nextLaunch := 2, passedLaunch := [], sampled := 0 }

/-- A job with one page of text at address 0, its tables, its key, and one heat. -/
def plainMachine (s : State) : State :=
  { s with
    lamom := { s.lamom with stage := .up, keys := [{ slot := 0, key := 0, owner := 1 }] }
    dev := { s.dev with computeOn := true }
    mem := (s.mem.put 0x100000 (withTaint false (leBytes 8 0x108001))).put 0x108000
      (withTaint false (leBytes 8 0x100002B))
    jobs := s.jobs ++ [plainJob]
    heats := s.heats ++ [startHeat plainId plainType [] 0 0 s.dev.clock [] [] 0 0] }

/-- Put an instruction where a seat of a heat fetches next and let that seat act next. -/
def placeWord (s : State) (h : Heat) (p : Seat) (bytes : List Byte) : State :=
  match resolve s h h.core (h.seat p).pc .fetch with
  | .ok (_, f) =>
    { s with
      mem := s.mem.put f.pa (withTaint false bytes)
      agenda := .slot h.core p :: s.agenda }
  | .error _ => { s with agenda := .slot h.core p :: s.agenda }

/-- The seat that executes a word: its owner, or C for a shared word. -/
def seatOf (w0 : Nat) : Seat := (ownerOf w0).getD .C

end Sys2Proof.Machine
end

