-- ==== Sys2Proof/Machine/Step.lean ====
section
/-!
DEFINITION. One step: the next act of the agenda, or the next of the device's own steps; and a state about to run one
instruction.
-/

namespace Sys2Proof.Machine

/-- One step of the machine. -/
def step (s : State) : Host.Outcome State Fault Refusal :=
  match s.agenda with
  | a :: rest => runAct a { s with agenda := rest }
  | [] => runAct (ownStep s).1 (ownStep s).2

/-- The state with an instruction placed where step fetches next (log 5). -/
def State.withFetchWord (s : State) (_nbits w : Nat) : State :=
  let p := seatOf (w % 2 ^ 32)
  let bytes := wordBytes (w % 2 ^ 32) ++ wordBytes (w / 2 ^ 32 % 2 ^ 32)
  match s.heats.find? fun h => h.onCore && !(h.seat p).ended && !(h.seat p).stopped with
  | some h =>
    match candidates s h.core p with
    | k :: _ => placeWord s k p bytes
    | [] => placeWord s h p bytes
  | none =>
    let s := plainMachine s
    match s.heat? 1 with
    | some h => placeWord s h p bytes
    | none => s

end Sys2Proof.Machine
end

