-- ==== Sys2Proof/Safety.lean ====
section
/-!
DEFINITION. The terms in which claims are stated: a seat that executes the word it meets, the machine after it, the
registers and the memory that a word leaves alone, and the invariant of memory.
-/

namespace Sys2Proof.Machine

/-- Seat p of heat h meets a word and executes it: nothing holds the seat (a stop, a debug halt, its slip, the final
boundary, an exit not resolved, a drain: 02/R16, R30; 05/R122, R123; 20/R438), the word's checks pass (02/R28, 04/R107), its stamp is met
(10/R310), its flags and its predicate let it execute (04/R94, 02/R23), its tokens are there (02/R21, R22), and a version
is free (02/R19). -/
structure Clear (w : Issue) (p : Seat) (s : State) (h : Heat) : Prop where
  acts : ∃ c, s.acting = some (h, c) ∧ c.seat = p ∧ c.handler = none
  going : stopsHere h p = false
  unhalted : debugHeld s h p = false
  resolved : unresolved w h p = false
  onTime : due s h p w = .free ∨ due s h p w = .now
  fits : misfit s h w = false
  unheld : holdWait s h p w = none
  executed : executes s h p w = .ok true
  tokens : w.slot.bind (tokenWait h p) = none
  room : versionWait h p w = none

/-- The machine after a word with effect s', h' whose seat goes on as told: tokens are moved, text time goes on, the
issue is recorded (02/R15, R22), and a step release counts the word (20/R441). -/
def ran (w : Issue) (p : Seat) (s : State) (h : Heat) (s' : State) (h' : Heat) (go : SeatState → SeatState) : State :=
  { countStep (s'.putHeat (goOn (w.slot.elim h' fun sl => moveTokens s.now h p sl h') p go s.now)) h p with waited := false }

/-- The machine after a word that goes on to the next word of the text. -/
def ranOn (w : Issue) (p : Seat) (s : State) (h : Heat) (s' : State) (h' : Heat) : State :=
  ran w p s h s' h' (nextWord h' w.len)

/-- No load or atomic is outstanding on a scalar that C reads now (02/R18). -/
def Heat.settled (h : Heat) (n : BitVec 6) : Prop := h.pendingOn n (h.tt .C + 1) = false

/-- Two heats hold the same registers of C (02/R14). -/
def SameC (h k : Heat) : Prop := k.c = h.c

/-- Two heats hold the same registers of L, X and S: pointers, streams, vectors, lane predicates, types, conditions,
rings (02/R14, 07/R186, R187, 08/R228, R230, R256). -/
def SameLXS (h k : Heat) : Prop := k.pL = h.pL ∧ k.pS = h.pS ∧ k.q = h.q ∧ k.x = h.x ∧ k.g = h.g

/-- Two heats hold the same completion objects and special registers. -/
def SameCtl (h k : Heat) : Prop := k.co = h.co ∧ k.ctl = h.ctl

/-- Every heat of a state is in another one, related to what it was. -/
def HeatsKept (R : Heat → Heat → Prop) (s t : State) : Prop :=
  ∀ u h, s.heat? u = some h → ∃ k, t.heat? u = some k ∧ R h k

/-- Every byte of memory and its taint read the same from every die. -/
def SameMemory (s t : State) : Prop := ∀ die pa, viewByte t die pa = viewByte s die pa

/-- Every byte of memory reads the same from every die. -/
def SameBytes (s t : State) : Prop := ∀ die pa, (viewByte t die pa).1 = (viewByte s die pa).1

/-- The device's own registers, Lamom and the queues. -/
def SameDevice (s t : State) : Prop := t.dev = s.dev ∧ t.lamom = s.lamom ∧ t.queues = s.queues

/-- The party that acts, as the words see it: a heat, or the registers of one of its arrival handlers (07/R204). -/
def State.actor (s : State) : Option Heat :=
  match s.acting with
  | none => none
  | some (h, c) =>
    match c.handler with
    | none => some h
    | some id => (s.handlers.find? fun k => k.id == id).map (contextHeat h)

/-- An instruction raises a fault at a seat (20/R421 to R427): the heat is STOPPING with the record of the class, the
fault address and the engine status, taken where the seat stands, and the seat has stopped; no register of the heat and
no byte of memory has changed. -/
def Raises (i : Instr) (p : Seat) (s : State) (h : Heat) (cls : BitVec 8) (addr status : Dword) : Prop :=
  ∃ t r f, exec i s = .next t ∧ t.heat? h.id.uid = some r ∧ r.status = .stopping ∧ r.fault = some f ∧
    f.cls = cls ∧ f.addr = addr ∧ f.engStatus = status ∧ f.clock = s.now ∧ f.seat = p ∧
    f.text = ((h.seat p).pc &&& 0xFFFFFFFFFFFF) ∧ (r.seat p).stopped = true ∧ r.c = h.c ∧ SameLXS h r ∧ SameCtl h r ∧
    t.mem = s.mem

/-- A heat of which nothing is stopping and whose seat has passed no unresolved exit (05/R122). -/
def Sound (h : Heat) (p : Seat) : Prop := h.stop = none ∧ (h.seat p).check = none

/-- The packet at a queue's head is dispatched (19/R402 to R406, R418): the queue has its turn with it, its line is sound, its
bytes and its type are as told, its header's zero fields are zero, the queue's job is j of s1, and no comparator holds it. -/
structure HeadPacket (s : State) (q type : Nat) (bs : List Byte) (s1 : State) (j : Job) : Prop where
  turn : hasTurn s q = true
  fresh : (queueRegs s q).inHand = none
  sound : headBad s q = false
  bytes : bs = headBytes s q
  type : part bs 0 0 = type ∧ type ≤ 7
  header : headerOk bs = true
  job : queueJob s q = some (s1, j)
  free : packetBreak s1 q = []

/-- The packet that a comparator has released is dispatched (19/R418), the queue running or not (19/R402): the queue has its
turn with it, it is of a type, and its job is live. -/
structure InHandPacket (s : State) (q type : Nat) (bs : List Byte) (j : Job) : Prop where
  turn : hasTurn s q = true
  inHand : (queueRegs s q).inHand = some (j.id, bs)
  type : part bs 0 0 = type ∧ type ≤ 7
  job : s.job? j.id = some j
  live : j.killed = false ∧ j.complete = false

/-- A packet of a type is dispatched from a queue, and t is the state in which its effect begins: the consumer index has
counted it, and its die's command processor dispatches no other in this cycle (19/R402, R404). -/
def Dispatched (s : State) (q type : Nat) (bs : List Byte) (t : State) (j : Job) : Prop :=
  (∃ s1, HeadPacket s q type bs s1 j ∧ t = noteTurn (putQueue s1 { queueRegs s1 q with cons := (queueRegs s1 q).cons + 1 }) q) ∨
    (InHandPacket s q type bs j ∧ t = noteTurn (putQueue s { queueRegs s q with inHand := none }) q)

/-- An access of n bytes by a core meets no watchpoint, or halts the job of a debugger that is attached (20/R437). -/
def Unwatched (s : State) (h : Heat) (va : Dword) (n : Nat) (rd wr : Bool) : Prop :=
  ∀ k, watchHit s h.id.job va.toNat n rd wr ≠ some (k, false)

/-- n bytes at an address are readable through a core (07/R184, R191): no STMAP or STUNMAP is waited for (07/R221, R223), the
address leads to memory with the read right, no write that the heat has observed is under way to it (12/R366), and the
bytes hold no error and no poison (07/R200). -/
structure Readable (s : State) (h : Heat) (core : Nat) (va : Dword) (n : Nat) : Prop where
  free : stashWait s h va n = none
  leads : ∃ s1 f, resolve s h core va .read = .ok (s1, f) ∧ Unwatched s1 h va n true false ∧
    (f.kind = .table ∨ (mustWait s1 h.id.uid (core / 64) f.pa = false ∧ f.pa / 128 ∉ s1.mem.errors ∧
      ∀ i < n, s1.mem.poisoned (f.pa + i) = false))

/-- n bytes at an address are writable through a core (07/R184, R191): as Readable with the write right; a tainted store needs
a page without the CLEAN bit (10/R326). -/
structure Writable (s : State) (h : Heat) (core : Nat) (va : Dword) (n : Nat) (tainted : Bool) : Prop where
  free : stashWait s h va n = none
  leads : ∃ s1 f, resolve s h core va .write = .ok (s1, f) ∧ (f.clean = true → tainted = false) ∧
    Unwatched s1 h va n false true

/-- No atomic of the heat is outstanding on the cells of an access (06/R154). -/
def CellFree (s : State) (h : Heat) (va : Dword) (n : Nat) (acc : Access) : Prop :=
  ∀ s1 f, resolve s h h.core va acc = .ok (s1, f) → f.kind = .table ∨ cellBusy s1 h.id.uid f.pa n = false

/-- The bytes that a word's stores reach, each store through the address to which its own access leads when it is performed
(07/R191). -/
def storedTo (h : Heat) : State → List (Dword × List (Byte × Bool)) → Nat → Prop
  | _, [], _ => False
  | s, c :: t, pa =>
    (∃ s1 f, resolve s h h.core c.1 .write = .ok (s1, f) ∧ f.pa ≤ pa ∧ pa < f.pa + c.2.length) ∨
    (match storeAt s h h.core c.1 c.2 with
     | .ok s1 => storedTo h s1 t pa
     | .error _ => storedTo h s t pa)

/-- A safe run never leaves these states: memory is in its canonical form. -/
def Inv (s : State) : Prop := s.mem.wf = true

end Sys2Proof.Machine
end

