-- ==== Sys2Proof/Certificates/Slice0/Obligations.lean ====
section
/-!
DEFINITION. The statements of this model, taken from the numbered rules of the manual; OBLIGATIONS.json lists them.
-/

open Sys2Proof Sys2Proof.Machine

/-- What reset leaves (21/R456; 10/R299, R300; 12/R351; 05/R138; 08/R252; 19/R401). The last clause is no rule of the manual:
what a byte that nothing has written reads as before READY zeroes memory (21/R453) is a DESIGN CHOICE (log 6). -/
def Obligations.ResetValues : Prop :=
  State.reset.lamom.measures = Vector.replicate 8 0 ∧ State.reset.dev.clock = 0 ∧
  (∀ die pa, sliceOf State.reset die pa = bucketOf pa % 32) ∧
  State.reset.dev.winBase = 0 ∧ State.reset.dev.devNum = 0 ∧ State.reset.dev.ageCap = 4096 ∧
  State.reset.dev.leaseMax = 64 ∧ State.reset.dev.strokeLen = 65536 ∧ State.reset.dev.computeOn = false ∧
  State.reset.jobs = [] ∧ State.reset.heats = [] ∧ State.reset.packets = [] ∧ State.reset.cmds = [] ∧
  ∀ die pa, kindOf pa ≠ none → viewByte State.reset die pa = (0, false)

/-- The invariant of memory holds at reset (the form is the model's own; 21/R453 gives the zeroes). -/
def Obligations.ResetMemoryCanonical : Prop := Inv State.reset

/-- Whatever act or event comes, memory stays canonical: no meaning writes memory but through the operations that keep
the form. -/
def Obligations.StepKeepsMemoryCanonical : Prop := ∀ s t : State, Inv s → step s = .next t → Inv t

/-- Words of the manual's examples (01, 04/R109, 05/R120, R132, R135, 06/R149, R178, 07/R188, R205, R208, 08/R229, R242,
R248, R256, R260, R261, 14/R386). -/
def Obligations.DecodesWordsOfTheManual : Prop :=
  let n : Slot := ⟨false, false, false, false, false, false, 0⟩
  decodeWords 0x85000006 0 = .ok (.loopLc 0 6) ∧
  decodeWords 0x8140000E 0 = .ok (.br 2 false 14) ∧
  decodeWords 0x86200000 0 = .ok (.lexit 1 false) ∧
  decodeWords 0x06421000 0 = .ok (.cmp 0 2 4 0 0) ∧
  decodeWords 0x09C11000 0 = .ok (.cmpi 0 1 4 0) ∧
  decodeWords 0x0A055678 0xFFFF1234 = .ok (.movi 5 0x12345678 0xFFFF) ∧
  decodeWords 0x0A840400 0xFFFFA000 = .ok (.lds 4 1 0 5 0xFFFF) ∧
  decodeWords 0x0D002400 0xFFFF4003 = .ok (.setstrd 0 9 false true 0 3 0xFFFF) ∧
  decodeWords 0x0E800000 0 = .ok .sms ∧
  decodeWords 0x10030871 0xFFFF0010 = .ok (.aadd 3 2 7 true 16 0xFFFF) ∧
  decodeWords 0x1C892090 0xFFFF0000 = .ok (.slchk 1 1 8 9 0 0xFFFF) ∧
  decodeWords 0x20004010 0 = .ok (.ldq n 0 0 1) ∧
  decodeWords 0x24040001 0 = .ok (.lCwait { n with pushUp := true } 1) ∧
  decodeWords 0x3001C020 0x00100104 = .ok (.cpyin { n with popUp := true } 0 2 64 ⟨16, false, false, 1⟩) ∧
  decodeWords 0x62000000 0 = .ok (.nops { n with pushDn := true }) ∧
  decodeWords 0x60506000 0 = .ok (.stq { n with pred := 5 } 8 0 0) ∧
  decodeWords 0x4000B101 0 = .ok (.vadd n 24 16 1) ∧
  decodeWords 0x41030422 0 = .ok (.vxor { n with first := true } 2 2 2) ∧
  decodeWords 0x40183010 0 = .ok (.vcpush { n with pred := 1 } 24 1 0) ∧
  decodeWords 0x400DC033 0xFFFF0040 = .ok (.rset n 0x100033 0xFFFF) ∧
  decodeWords 0x400C8040 0xFFFF060C = .ok (.mmul n 0 false 0 2 12 ⟨0xFFFF, false, false, 6⟩)

/-- No bit of an encoding is dropped (04). An event has no words. -/
def Obligations.DecodeOfEncode : Prop :=
  ∀ i : Instr, WellFormed i = true →
    match encode i with
    | [] => True
    | [a] => isLong a.toNat = false ∧ decodeWords a.toNat 0 = .ok i
    | [a, b] => isLong a.toNat = true ∧ decodeWords a.toNat b.toNat = .ok i
    | _ => False

/-- The other direction (04/R107: a nonzero field that must be zero, a reserved tag or opcode is no instruction). -/
def Obligations.EncodeOfDecode : Prop :=
  ∀ (a b : Word) (i : Instr), decodeWords a.toNat (if isLong a.toNat then b.toNat else 0) = .ok i →
    WellFormed i = true ∧ encode i = if isLong a.toNat then [a, b] else [a]

/-- Fetch, decode and exec (02/R13, R44; 04/R83, R84). The order among heats is `candidates`. -/
def Obligations.StepRunsTheDecodedWord : Prop :=
  ∀ (s : State) (core : Nat) (p : Seat) (rest : List Act) (h : Heat) (more : List Heat) (s1 s2 : State) (w0 w1 : Nat)
    (i : Instr),
    s.agenda = .slot core p :: rest →
    candidates { s with agenda := rest } core p = h :: more →
    s.heat? h.id.uid = some h →
    stopsHere h p = false → (h.seat p).check = none → atIterationEnd (h.seat p) = none →
    fetchWord { s with agenda := rest } h (h.seat p).pc = .ok (s1, w0) →
    (ownerOf w0).getD p = p →
    (if isLong w0 then
      ((h.seat p).inner.elim false fun l => (h.seat p).pc + 4 == l.stop) = false ∧
        fetchWord s1 h ((h.seat p).pc + 4) = .ok (s2, w1)
     else s2 = s1 ∧ w1 = 0) →
    decodeWords w0 w1 = .ok i →
    step s =
      match exec i { s2.putHeat h with cur := some ⟨h.id.uid, p, none⟩, waited := false } with
      | .next t =>
        if t.waited then serve p (more.map (·.id.uid)) { noteReady t h.id.uid p false (waitOf t h.id.uid p) with waited := false }
        else .next (markReady p (more.map (·.id.uid)) t)
      | .fault e => .fault e
      | .refused r => .refused r

/-- What step adds around exec: the interleaving is a DESIGN CHOICE (log 1); the clock is 10/R299, and its stop at 2^64 the model's (log 13). -/
def Obligations.StepTakesTheNextActAndClockAdvances : Prop :=
  (∀ (s : State) (rest : List Act),
    (∀ i, s.agenda = .event i :: rest → step s = exec i { s with agenda := rest }) ∧
    (∀ n, s.agenda = .tick n :: rest → step s = runTick { s with agenda := rest } n) ∧
    (s.agenda = [] → ∀ i, (ownSteps s)[s.rr]? = some (.event i) → step s = exec i { s with rr := s.rr + 1 }) ∧
    (s.agenda = [] → (ownSteps s)[s.rr]? = none → step s = runTick { s with rr := 0 } 1)) ∧
  (∀ (s : State) (n : Nat),
    (freeSlots s = [] → (n ≤ 1 ∨ (cycleBound s = false ∧ s.sched.elim false (·.live) = false)) → runTick s n = pass s n) ∧
    (freeSlots s = [] → cycleBound s = true → 1 < n →
      runTick s n = pass { s with agenda := .tick (n - 1) :: s.agenda } 1) ∧
    (freeSlots s = [] → ∃ k, k ≤ n ∧ (0 < n → 0 < k) ∧ runTick s n =
      if k < n then pass { s with agenda := .tick (n - k) :: s.agenda } k else pass s n) ∧
    ∀ t, freeSlots s ≠ [] → serveFirst (freeSlots s) s = .next t →
      (t.waited = false → runTick s (n + 1) = .next { t with agenda := .tick (n + 1) :: t.agenda }) ∧
      (t.waited = true → runTick s 1 = pass { t with waited := false } 1 ∧
        (0 < n → runTick s (n + 1) = pass { t with waited := false, agenda := .tick n :: t.agenda } 1))) ∧
  (∀ (s : State) (n : Nat), s.lamom.stage = .held → pass s n = .next s) ∧
  (∀ (s : State), s.lamom.stage = .held → ∃ t, exec .boardResetRelease s = .next t ∧ t.dev.clock = 0) ∧
  (∀ (s t : State) (n : Nat), s.lamom.stage ≠ .held → s.dev.lead = 0 → pass s n = .next t →
    t.dev.clock = s.dev.clock + n) ∧
  ∀ (s : State) (n : Nat), s.lamom.stage ≠ .held → s.dev.lead = 0 → s.dev.clock + n < 2 ^ 64 → ∃ t, pass s n = .next t

/-- 05/R127, R129, R133, R134. A write to s0 is discarded: see HardwiredRegisters. -/
def Obligations.IntegerWords : Prop :=
  (∀ (s : State) (h : Heat) (d a b : BitVec 6) (sh : BitVec 4),
    let w := Issue.c 1 [d, a, b] [a, b] true
    let x := (h.s a).v
    let y := (h.s b).v
    let is (i : Instr) (v : Dword) : Prop :=
      exec i s = .next (ranOn w .C s h s (h.setS d ⟨v, (h.s a).t || (h.s b).t⟩))
    Clear w .C s h → h.settled a → h.settled b →
      is (.add d a b) (x + y) ∧ is (.sub d a b) (x - y) ∧ is (.and d a b) (x &&& y) ∧ is (.or d a b) (x ||| y) ∧
      is (.xor d a b) (x ^^^ y) ∧ is (.shl d a b) (x <<< (y.toNat % 64)) ∧ is (.shr d a b) (x >>> (y.toNat % 64)) ∧
      is (.sar d a b) (x.sshiftRight (y.toNat % 64)) ∧
      is (.mul d a b) (BitVec.ofInt 64 (x.toInt * y.toInt)) ∧
      is (.mulh d a b) (BitVec.ofInt 64 (x.toInt * y.toInt / 2 ^ 64)) ∧
      is (.mulhn d a b) (BitVec.ofNat 64 (x.toNat * y.toNat / 2 ^ 64)) ∧
      is (.min d a b) (BitVec.ofInt 64 (Min.min x.toInt y.toInt)) ∧
      is (.max d a b) (BitVec.ofInt 64 (Max.max x.toInt y.toInt)) ∧
      is (.minn d a b) (BitVec.ofNat 64 (Min.min x.toNat y.toNat)) ∧
      is (.maxn d a b) (BitVec.ofNat 64 (Max.max x.toNat y.toNat)) ∧
      is (.lea d a b sh) (x + (y <<< sh.toNat))) ∧
  (∀ (s : State) (h : Heat) (d a sh : BitVec 6) (imm : BitVec 10) (i32 : BitVec 32) (stamp : BitVec 16),
    let w := Issue.c 1 [d, a] [a] true
    let x := (h.s a).v
    let is (w : Issue) (i : Instr) (v : TVal) : Prop := exec i s = .next (ranOn w .C s h s (h.setS d v))
    let dest (i : Instr) (v : Dword) : Prop := is w i ⟨v, (h.s a).t⟩
    (Clear w .C s h → h.settled a →
      dest (.addi d a imm) (x + imm.signExtend 64) ∧ dest (.andi d a imm) (x &&& imm.signExtend 64) ∧
      dest (.ori d a imm) (x ||| imm.signExtend 64) ∧ dest (.xori d a imm) (x ^^^ imm.signExtend 64) ∧
      dest (.shli d a sh) (x <<< sh.toNat) ∧ dest (.shri d a sh) (x >>> sh.toNat) ∧
      dest (.sari d a sh) (x.sshiftRight sh.toNat)) ∧
    (Clear (Issue.cLong [d] [] true stamp) .C s h →
      is (Issue.cLong [d] [] true stamp) (.movi d i32 stamp) ⟨i32.signExtend 64, false⟩) ∧
    (Clear (Issue.cLong [d] [d] true stamp) .C s h → h.settled d →
      is (Issue.cLong [d] [d] true stamp) (.movhi d i32 stamp)
        ⟨BitVec.ofNat 64 (i32.toNat * 2 ^ 32 + (h.s d).v.toNat % 2 ^ 32), (h.s d).t⟩))

/-- 05/R130, with the quotients and remainders of R129. -/
def Obligations.DivisionNeverTraps : Prop :=
  (∀ (s : State) (h : Heat) (d a b : BitVec 6),
    let w := Issue.c 1 [d, a, b] [a, b] true
    let x := (h.s a).v
    let y := (h.s b).v
    let is (i : Instr) (v : Dword) : Prop :=
      exec i s = .next (ranOn w .C s h s (h.setS d ⟨v, (h.s a).t || (h.s b).t⟩))
    Clear w .C s h → h.settled a → h.settled b →
      (y = 0 → is (.div d a b) (BitVec.allOnes 64) ∧ is (.divn d a b) (BitVec.allOnes 64) ∧ is (.rem d a b) x ∧
        is (.remn d a b) x) ∧
      (y ≠ 0 → is (.div d a b) (BitVec.ofInt 64 (x.toInt.tdiv y.toInt)) ∧
        is (.divn d a b) (BitVec.ofNat 64 (x.toNat / y.toNat)) ∧
        is (.rem d a b) (BitVec.ofInt 64 (x.toInt.tmod y.toInt)) ∧
        is (.remn d a b) (BitVec.ofNat 64 (x.toNat % y.toNat))) ∧
      (x = BitVec.intMin 64 → y = BitVec.allOnes 64 → is (.div d a b) (BitVec.intMin 64) ∧ is (.rem d a b) 0)) ∧
  ∀ (w : Issue) (p : Seat) (s : State) (h : Heat) (d : BitVec 6) (v : TVal) (k : Heat),
    Clear w p s h → (ranOn w p s h s (h.setS d v)).heat? h.id.uid = some k →
      k.x = h.x ∧ k.ctl = h.ctl ∧ k.fault = h.fault

/-- 05/R129, R131; 04/R92. -/
def Obligations.BitFieldWords : Prop :=
  ∀ (s : State) (h : Heat) (d a b : BitVec 6),
    let w1 := Issue.c 1 [d, a] [a] true
    let w2 := Issue.c 1 [d, a, b] [a, b] true
    let x := (h.s a).v
    let lo := (h.s b).v.toNat % 64
    let n := (h.s b).v.toNat / 256 % 64 + 1
    let is (w : Issue) (i : Instr) (v : TVal) : Prop := exec i s = .next (ranOn w .C s h s (h.setS d v))
    (Clear w1 .C s h → h.settled a →
      (∃ k, is w1 (.clz d a) ⟨BitVec.ofNat 64 k, (h.s a).t⟩ ∧ k ≤ 64 ∧ x.toNat < 2 ^ (64 - k) ∧
        (k < 64 → 2 ^ (63 - k) ≤ x.toNat)) ∧
      is w1 (.popc d a) ⟨BitVec.ofNat 64 ((List.range 64).filter x.getLsbD).length, (h.s a).t⟩) ∧
    (∀ c : BitVec 4, c.toNat ≤ 2 → Clear (w1.of (.sext d a c)) .C s h → h.settled a →
      is (w1.of (.sext d a c)) (.sext d a c) ⟨(x.setWidth (8 * 2 ^ c.toNat)).signExtend 64, (h.s a).t⟩) ∧
    (∀ c : BitVec 4, c.toNat ≤ 2 → Clear (w1.of (.zext d a c)) .C s h → h.settled a →
      is (w1.of (.zext d a c)) (.zext d a c) ⟨BitVec.ofNat 64 (x.toNat % 2 ^ (8 * 2 ^ c.toNat)), (h.s a).t⟩) ∧
    (Clear w2 .C s h → h.settled a → h.settled b →
      (∀ sgn, ∃ v, is w2 (.bfx d a b sgn) ⟨v, (h.s a).t || (h.s b).t⟩ ∧
        ∀ i, i < 64 → v.getLsbD i = if i < n then x.getLsbD (lo + i) else (sgn && x.getLsbD (lo + n - 1))) ∧
      ∀ neg bp, is w2 (.sel d a b neg bp)
        ⟨if ((h.b bp).v ^^ neg) = true then x else (h.s b).v, (h.s a).t || (h.s b).t || (h.b bp).t⟩) ∧
    (Clear (Issue.c 1 [d, a, b] [d, a, b] true) .C s h → h.settled d → h.settled a → h.settled b →
      ∃ v, is (Issue.c 1 [d, a, b] [d, a, b] true) (.bfi d a b) ⟨v, (h.s d).t || (h.s a).t || (h.s b).t⟩ ∧
        ∀ i, i < 64 → v.getLsbD i = if lo ≤ i ∧ i < lo + n then x.getLsbD (i - lo) else (h.s d).v.getLsbD i)

/-- 05/R132; 04/R92. -/
def Obligations.CompareWords : Prop :=
  ∀ (s : State) (h : Heat) (comb bp : BitVec 3) (a b : BitVec 6) (cond : BitVec 4) (cond3 : BitVec 3) (imm : BitVec 10),
    let c (k : Nat) (x y : Dword) : Bool :=
      match k with
      | 0 => decide (x.toInt = y.toInt)
      | 1 => decide (x.toInt ≠ y.toInt)
      | 2 => decide (x.toInt < y.toInt)
      | 3 => decide (y.toInt ≤ x.toInt)
      | 4 => decide (x.toNat < y.toNat)
      | _ => decide (y.toNat ≤ x.toNat)
    let w := (Issue.c 1 [a, b] [a, b] false).of (.cmp comb bp a b cond)
    let wi := (Issue.c 1 [a] [a] false).of (.cmpi cond3 bp a imm)
    let t := (h.s a).t || (h.s b).t
    let v := c cond.toNat (h.s a).v (h.s b).v
    (Clear w .C s h → h.settled a → h.settled b →
      exec (.cmp comb bp a b cond) s = .next (ranOn w .C s h s (h.setB bp
        (if comb = 0 then ⟨v, t⟩ else if comb = 1 then ⟨(h.b bp).v && v, (h.b bp).t || t⟩
         else ⟨(h.b bp).v || v, (h.b bp).t || t⟩)))) ∧
    (Clear wi .C s h → h.settled a →
      exec (.cmpi cond3 bp a imm) s = .next (ranOn wi .C s h s (h.setB bp
        ⟨c cond3.toNat (h.s a).v (imm.signExtend 64), (h.s a).t⟩)))

/-- 04/R91, 08/R231: the one place where registers are read and written. k0 holds all ones from heat start. -/
def Obligations.HardwiredRegisters : Prop :=
  ∀ (h : Heat) (p : Seat) (tt : Nat) (v : TVal) (b : TBit),
    h.s 0 = ⟨0, false⟩ ∧ h.b 0 = ⟨true, false⟩ ∧ (h.settled 0 → readS h p 0 = .ok ⟨0, false⟩) ∧
    h.setS 0 v = h ∧ h.landS 0 tt v = h ∧ h.setB 0 b = h ∧ h.setK 0 v = h ∧
    (∀ n : BitVec 6, n ≠ 0 → (h.setS n v).s n = v) ∧ (∀ n m : BitVec 6, m ≠ n → (h.setS n v).s m = h.s m) ∧
    (∀ n : BitVec 3, n ≠ 0 → (h.setB n b).b n = b) ∧ (∀ n m : BitVec 3, m ≠ n → (h.setB n b).b m = h.b m) ∧
    (∀ n : BitVec 3, n ≠ 0 → (h.setK n v).k n = v) ∧ (∀ n m : BitVec 3, m ≠ n → (h.setK n v).k m = h.k m) ∧
    ∀ id t cs core slot now spad asr first last,
      (startHeat id t cs core slot now spad asr first last).k 0 = ⟨BitVec.allOnes 64, false⟩

/-- The frame of the integer words (05/R127). -/
def Obligations.RegisterWordFrame : Prop :=
  ∀ (s t : State) (d a b : BitVec 6) (sh : BitVec 4) (f : Bool) (bp comb cond3 : BitVec 3) (c : BitVec 4)
    (imm : BitVec 10) (i32 : BitVec 32) (stamp : BitVec 16) (i : Instr),
    (i ∈ ([.add d a b, .sub d a b, .and d a b, .or d a b, .xor d a b, .shl d a b, .shr d a b, .sar d a b, .mul d a b,
        .mulh d a b, .mulhn d a b, .div d a b, .divn d a b, .rem d a b, .remn d a b, .min d a b, .max d a b,
        .minn d a b, .maxn d a b, .clz d a, .popc d a, .bfx d a b f, .bfi d a b, .sel d a b f bp, .sext d a c,
        .zext d a c, .lea d a b sh, .addi d a imm, .andi d a imm, .ori d a imm, .xori d a imm, .shli d a b, .shri d a b,
        .sari d a b, .movi d i32 stamp, .movhi d i32 stamp] : List Instr) → exec i s = .next t →
      HeatsKept (fun h k => (∀ n, n ≠ d → k.s n = h.s n) ∧ k.c.b = h.c.b ∧ k.c.lc = h.c.lc ∧
        k.c.strides = h.c.strides ∧ SameLXS h k ∧ SameCtl h k ∧ k.fifo = h.fifo) s t ∧
      SameMemory s t ∧ SameDevice s t) ∧
    (i ∈ ([.cmp comb bp a b c, .cmpi cond3 bp a imm] : List Instr) → exec i s = .next t →
      HeatsKept (fun h k => (∀ n, k.s n = h.s n) ∧ (∀ n, n ≠ bp → k.b n = h.b n) ∧ k.c.lc = h.c.lc ∧
        k.c.strides = h.c.strides ∧ SameLXS h k ∧ SameCtl h k ∧ k.fifo = h.fifo) s t ∧
      SameMemory s t ∧ SameDevice s t)

/-- The parts of `ran` that every completion statement below shares (02/R15, R22, R30), and the tokens in R21's own terms:
FIFO 0 is L to X, 1 X to S, 2 S to L, 3 X to L, 4 S to X and 5 L to S. -/
def Obligations.ExecutedWordGoesOn : Prop :=
  ∀ (w : Issue) (p : Seat) (s s' : State) (h h' k : Heat) (len : Nat),
    s'.heat? h.id.uid = some k → h'.id.uid = h.id.uid → h'.seat p = h.seat p →
    let t := ran w p s h s' h' (nextWord h' len)
    ∃ r, t.heat? h.id.uid = some r ∧ (r.seat p).tt = h.tt p + 1 ∧
      (r.seat p).pc = (h.seat p).pc + BitVec.ofNat 64 (4 * len) ∧
      (r.seat p).lastIssue = some s.now ∧ (r.seat p).wait = none ∧
      (r.seat p).passed = (if (h.seat p).atBoundary then (h.seat p).passed + 1 else (h.seat p).passed) ∧
      (∀ q, q ≠ p → r.seat q = h'.seat q) ∧ r.c = h'.c ∧ SameLXS h' r ∧ SameCtl h' r ∧
      (w.slot = none → r.fifo = h'.fifo ∧ r.hidden = h'.hidden) ∧
      (∀ sl, w.slot = some sl → p ≠ .C →
        let gone (f : Fin 6) : Bool :=
          (p == .L && ((sl.popUp && f == 2) || (sl.popDn && f == 3))) ||
          (p == .X && ((sl.popUp && f == 0) || (sl.popDn && f == 4))) ||
          (p == .S && ((sl.popUp && f == 1) || (sl.popDn && f == 5)))
        let come (f : Fin 6) : Bool :=
          (p == .L && ((sl.pushDn && f == 0) || (sl.pushUp && f == 5))) ||
          (p == .X && ((sl.pushDn && f == 1) || (sl.pushUp && f == 3))) ||
          (p == .S && ((sl.pushDn && f == 2) || (sl.pushUp && f == 4)))
        let shown := decide (writtenAt h h' ≤ s.now)
        (∀ f : Fin 6, r.fifo[f] = h'.fifo[f] - (gone f).toNat + (come f && shown).toNat) ∧
        ∀ f n, (f, n) ∈ r.hidden ↔ (f, n) ∈ h'.hidden ∨
          (shown = false ∧ n = writtenAt h h' ∧ ∃ g : Fin 6, g.val = f ∧ come g = true)) ∧
      (∀ u, u ≠ h.id.uid → t.heat? u = s'.heat? u) ∧ t.mem = s'.mem ∧ t.net = s'.net ∧ t.dev = s'.dev ∧
      t.cmds = s'.cmds ∧ t.waited = false

/-- 02/R23. -/
def Obligations.SkippedWordMovesNoToken : Prop :=
  (∀ (w : Issue) (p : Seat) (s : State) (h : Heat) (c : Cursor) (body : State → Heat → Effect),
    s.acting = some (h, c) → c.handler = none → stopsHere h p = false → debugHeld s h p = false → unresolved w h p = false →
    (due s h p w = .free ∨ due s h p w = .now) → misfit s h w = false → holdWait s h p w = none →
    executes s h p w = .ok false →
    issueG w p body s = .next (ran { w with slot := none } p s h s h (nextWord h w.len))) ∧
  (∀ (w : Issue) (p : Seat) (s : State) (h r : Heat),
    (ran { w with slot := none } p s h s h (nextWord h w.len)).heat? h.id.uid = some r → r.fifo = h.fifo) ∧
  ∀ (now : Nat) (h : Heat) (p owner : Seat) (len : Nat) (i : Option Instr),
    let k := passForeign now h p owner len i
    k.fifo = h.fifo ∧ k.hidden = h.hidden ∧ k.c = h.c ∧ SameLXS h k ∧ SameCtl h k

/-- 05/R111 to R113, R125, R126, R128; 02/R20. A seat that goes to the kernel address stands at a boundary (02/R30): see goTo. -/
def Obligations.ControlWords : Prop :=
  ((∀ (s : State) (h : Heat), Clear (Issue.c 1 [] [] false) .C s h →
    exec .nop s = .next (ranOn (Issue.c 1 [] [] false) .C s h s h)) ∧
  (∀ (s : State) (h : Heat) (w : Slot),
    (Clear ((Issue.short w []).of (.nopl w)) .L s h →
      exec (.nopl w) s = .next (ranOn ((Issue.short w []).of (.nopl w)) .L s h s h)) ∧
    (Clear ((Issue.short w []).of (.nopx w)) .X s h →
      exec (.nopx w) s = .next (ranOn ((Issue.short w []).of (.nopx w)) .X s h s h)) ∧
    (Clear ((Issue.short w []).of (.nops w)) .S s h →
      exec (.nops w) s = .next (ranOn ((Issue.short w []).of (.nops w)) .S s h s h))) ∧
  ∀ (s : State) (h : Heat) (p : Seat) (d : BitVec 24),
    let v := h.seat p
    let dest := v.pc + d.signExtend 64 * 4
    (Clear (sharedIssue true) p s h →
      exec .nopa s = .next (ran (sharedIssue true) p s h s h (nextWord h 1)) ∧
      (targetOk v dest = true → exec (.jmp d) s = .next (ran (sharedIssue true) p s h s h (goTo h dest)))) ∧
    (Clear (sharedIssue false) p s h →
      (v.ret.length < 16 → exec (.call d) s =
        .next (ran (sharedIssue false) p s h s h fun u => goTo h dest { u with ret := (v.pc + 4) :: v.ret })) ∧
      (∀ a t, v.ret = a :: t → v.inner = none →
        exec .ret s = .next (ran (sharedIssue false) p s h s h fun u => goTo h a { u with ret := t })) ∧
      (h.id.coxed = false → exec .stroke s = .next (ran (sharedIssue false) p s h s h (nextWord h 1))) ∧
      (h.id.coxed = true → s.now = nextStroke h v * s.dev.strokeLen → exec .stroke s =
        .next (ran (sharedIssue false) p s h s h fun u =>
          nextWord h 1 { u with strokeBase := s.now, strokeNo := nextStroke h v, strokeSeen := true })) ∧
      exec .hend s = .next (ran (sharedIssue false) p s h s h fun u =>
        { u with ended := true, loops := [], ret := [], check := none, exits := [] }))) ∧
  (∀ (s : State) (h : Heat) (bp : BitVec 3) (neg : Bool) (d : BitVec 20),
    let w := sharedIssue true
    (let dest := h.C.pc + d.signExtend 64 * 4
     let taken := (h.b bp).v ^^ neg
     let kept := h.outcomes.filter fun e => !e.taken_ h
     let e : OutcomeEntry := ⟨h.tt .C, h.C.pc, taken, 0, [], false, false, false⟩
     Clear w .C s h → kept.length < 16 → (taken = true → targetOk h.C dest = true) →
       exec (.br bp neg d) s = .next (ran w .C s h s (countControl { h with outcomes := kept ++ [e] } (h.b bp).t)
         (if taken = true then goTo h dest else nextWord h 1))) ∧
    ∀ (p : Seat) (e : OutcomeEntry), p ≠ .C → Clear w p s h → outcomeAt h (h.tt p) = some e →
      exec (.br bp neg d) s = .next (ran w p s h s (takeOutcome h p (h.tt p))
        (if e.taken = true then goTo h ((h.seat p).pc + d.signExtend 64 * 4) else nextWord h 1)))

/-- 05/R116 to R124. -/
def Obligations.LoopWords : Prop :=
  (∀ (s : State) (h : Heat) (lc : BitVec 3) (body : BitVec 12) (count : BitVec 11),
    let kept := h.outcomes.filter fun e => !e.taken_ h
    let strides := (h.c.strides.toList.drop (4 * h.C.loops.length)).take 4
    let n := h.c.lc.toList.getD lc.toNat ⟨0, false⟩
    let e (k : Nat) : OutcomeEntry := ⟨h.tt .C, h.C.pc, false, k, strides, false, false, false⟩
    h.C.loops.length < 6 → endsBeyond h.C body.toNat = false → kept.length < 16 →
      (Clear ((sharedIssue false).of (.loopLc lc body)) .C s h → exec (.loopLc lc body) s =
        .next (ran ((sharedIssue false).of (.loopLc lc body)) .C s h s
          (countControl { h with outcomes := kept ++ [e n.v.toNat] } n.t) (enterLoop h body.toNat n.v.toNat strides))) ∧
      (Clear ((sharedIssue false).of (.loopImm count body)) .C s h → exec (.loopImm count body) s =
        .next (ran ((sharedIssue false).of (.loopImm count body)) .C s h s
          { h with outcomes := kept ++ [e count.toNat] } (enterLoop h body.toNat count.toNat strides)))) ∧
  (∀ (s : State) (h : Heat) (p : Seat) (e : OutcomeEntry) (lc : BitVec 3) (body : BitVec 12),
    p ≠ .C → outcomeAt h (h.tt p) = some e → Clear ((sharedIssue false).of (.loopLc lc body)) p s h →
      exec (.loopLc lc body) s = .next (ran ((sharedIssue false).of (.loopLc lc body)) p s h s
        (takeOutcome h p (h.tt p)) (enterLoop h body.toNat e.count e.strides))) ∧
  (∀ (s : State) (h : Heat) (p : Seat) (e : OutcomeEntry) (count : BitVec 11) (body : BitVec 12),
    p ≠ .C → outcomeAt h (h.tt p) = some e → Clear ((sharedIssue false).of (.loopImm count body)) p s h →
      exec (.loopImm count body) s = .next (ran ((sharedIssue false).of (.loopImm count body)) p s h s
        (takeOutcome h p (h.tt p)) (enterLoop h body.toNat e.count e.strides))) ∧
  (∀ (h : Heat) (v : SeatState) (body n : Nat) (strides : List StrideSlot),
    let stop := v.pc + 4 + BitVec.ofNat 64 (4 * body)
    (n = 0 → (enterLoop h body n strides v).pc = stop ∧ (enterLoop h body n strides v).loops = v.loops) ∧
    (n ≠ 0 → (enterLoop h body n strides v).pc = v.pc + 4 ∧ (enterLoop h body n strides v).loops =
      ⟨v.pc, v.pc + 4, stop, n, 1, v.ret.length, strides⟩ :: v.loops)) ∧
  (∀ (s : State) (h : Heat) (c : Cursor) (l : Level) (rest : List Level),
    s.acting = some (h, c) → (h.seat c.seat).loops = l :: rest → l.depth = (h.seat c.seat).ret.length →
    (h.seat c.seat).pc = l.stop →
    ∃ t r, exec .iterationEnd s = .next t ∧ t.heat? h.id.uid = some r ∧
      (1 < l.remain → (r.seat c.seat).pc = l.start ∧
        (r.seat c.seat).loops = { l with remain := l.remain - 1, iter := l.iter + 1 } :: rest) ∧
      (¬ 1 < l.remain → (r.seat c.seat).pc = l.stop ∧ (r.seat c.seat).loops = rest) ∧
      (r.seat c.seat).tt = (h.seat c.seat).tt ∧ r.c = h.c ∧ r.fifo = h.fifo ∧
      (c.seat = .C ∨ c.seat = .X → r.pL = h.pL ∧ r.pS = h.pS) ∧
      (c.seat = .L → r.pS = h.pS ∧ ∀ n : BitVec 4, (r.p .L n).v =
        (l.strides.filter fun x => x.en && !x.seatS && x.p == n).foldl (fun a x => a + x.stride.v) (h.p .L n).v) ∧
      (c.seat = .S → r.pL = h.pL ∧ ∀ n : BitVec 4, (r.p .S n).v =
        (l.strides.filter fun x => x.en && x.seatS && x.p == n).foldl (fun a x => a + x.stride.v) (h.p .S n).v)) ∧
  (∀ (s : State) (h : Heat) (bp : BitVec 3) (neg : Bool) (l : Level) (rest : List Level),
    let taken := (h.b bp).v ^^ neg
    let kept := h.outcomes.filter fun e => !e.taken_ h
    let e : OutcomeEntry := ⟨h.tt .C, h.C.pc, taken, 0, [], false, false, false⟩
    Clear (sharedIssue false) .C s h → h.C.loops = l :: rest → l.depth = h.C.ret.length → kept.length < 16 →
      exec (.lexit bp neg) s = .next (ran (sharedIssue false) .C s h (resolvePast s h.id.uid (h.tt .C) taken)
        (countControl { h with outcomes := kept ++ [e] } (h.b bp).t)
        (if taken = true then leaveLoop h l (h.tt .C) s.nextId else nextWord h 1))) ∧
  (∀ (s : State) (h : Heat) (p : Seat) (bp : BitVec 3) (neg : Bool) (l : Level) (rest : List Level),
    p ≠ .C → Clear (sharedIssue false) p s h → (h.seat p).loops = l :: rest → l.depth = (h.seat p).ret.length →
      (∀ e, outcomeAt h (h.tt p) = some e → exec (.lexit bp neg) s = .next (ran (sharedIssue false) p s h s
        (takeOutcome h p (h.tt p)) (if e.taken = true then leaveLoop h l (h.tt p) s.nextId else nextWord h 1))) ∧
      (outcomeAt h (h.tt p) = none → exec (.lexit bp neg) s =
        .next (ran (sharedIssue false) p s h s h fun u => { nextWord h 1 u with check := some (checkpoint h p) }))) ∧
  (∀ (h : Heat) (l : Level) (tt next : Nat) (v : SeatState),
    (leaveLoop h l tt next v).pc = l.stop ∧ (leaveLoop h l tt next v).loops = v.loops.tail ∧
      (leaveLoop h l tt next v).exits = v.exits ++ [⟨tt, next⟩]) ∧
  ∀ (s : State) (h : Heat) (u : Nat), s.heat? u = some h → h.id.uid = u →
    (∃ p, (h.seat p).ended = false) →
    (∀ p, (h.seat p).ended = false → ∃ e rest, (h.seat p).exits = e :: rest ∧
      ∀ c ∈ s.cmdsOfSeat u p, e.last ≤ c.id) →
    ∃ t r, exec (.lexitDrain u) s = .next t ∧ t.heat? u = some r ∧ r.fifo = Vector.replicate 6 0 ∧ r.hidden = [] ∧
      (∀ p, (r.seat p).exits = (h.seat p).exits.tail ∧ (r.seat p).pc = (h.seat p).pc) ∧ r.c = h.c ∧ SameLXS h r

/-- 05/R135, R136; 02/R18. The value of a load is read at its issue (log 3). -/
def Obligations.ScalarLoadsAndStores : Prop :=
  (∀ (s : State) (h : Heat) (d a : BitVec 6) (off : BitVec 23) (wd : BitVec 3) (stamp : BitVec 16),
    let w := (Issue.cLong [d, a] [a] true stamp).of (.lds d a off wd stamp)
    let va := (h.s a).v + off.signExtend 64
    let n := 2 ^ (wd.toNat / 2)
    let value (x : Nat) : Dword :=
      if wd.toNat % 2 = 1 then (BitVec.ofNat (8 * n) x).signExtend 64 else BitVec.ofNat 64 (x % 2 ^ (8 * n))
    Clear w .C s h → h.settled a → va.toNat % n = 0 → Readable s h h.core va n → CellFree s h va n .read →
      ∃ s1 data, loadAt s h h.core va n = .ok (s1, data) ∧ exec (.lds d a off wd stamp) s = .next (ranOn w .C s h
        { claim s1 s.nextId s1.nextId with nextId := s1.nextId + 1 }
        { countRead h va.toNat data with
          pend := h.pend ++ [⟨s1.nextId, if d = 0 then none else some d, h.tt .C,
            some ⟨value (leNat (data.map (·.1))), (h.s a).t || data.any (·.2)⟩, h.C.pc, va, none, false⟩] })) ∧
  (∀ (s : State) (h : Heat) (q : Pending) (v : TVal) (d : BitVec 6),
    (s.heats.find? fun k => k.pend.any fun x => x.id == q.id) = some h → (h.pend.find? fun x => x.id == q.id) = some q →
    q.value = some v → q.dst = some d → q.ctx = none → q.cancelled = false → riding s q.id = false →
    buffered s h q.id = false → loadUnanswered s h q = false → s.net.badBeats.contains q.id = false →
    haltExempt s h = true ∨ (∀ j x, s.job? h.id.job = some j → j.halt = some x → x.step.isSome = true) →
    exec (.loadReturn q.id) s = .next ({ s with atomics := s.atomics.filter fun a => a.id != q.id }.putHeat
      ({ h with pend := h.pend.filter fun x => x.id != q.id }.landS d q.tt v))) ∧
  ∀ (s : State) (h : Heat) (d a : BitVec 6) (off : BitVec 23) (wd : BitVec 3) (stamp : BitVec 16),
    let w := (Issue.cLong [d, a] [d, a] false stamp).of (.sts d a off wd stamp)
    let va := (h.s a).v + off.signExtend 64
    let n := 2 ^ (wd.toNat / 2)
    let data := (leBytes n (h.s d).v.toNat).map fun b => (b, (h.s d).t || (h.s a).t)
    Clear w .C s h → h.settled a → h.settled d → va.toNat % n = 0 → CellFree s h va n .write →
      Writable s h h.core va n ((h.s d).t || (h.s a).t) → ∃ s1, storeAt s h h.core va data = .ok s1 ∧
      exec (.sts d a off wd stamp) s = .next (ranOn w .C s h s1 (countStored h va.toNat data))

/-- 02/R18, R19: the register file with its version buffer. -/
def Obligations.LandedLoadIsWhatReadersSee : Prop :=
  ∀ (h : Heat) (p : Seat) (n : BitVec 6) (v : TVal) (tt : Nat), n ≠ 0 →
    (h.setS n v).s n = v ∧
    (p ≠ .C → (h.seat p).ended = false → (h.seat p).seen = [] → h.pendingOn n (h.tt p) = false → h.versC = [] →
      readS (h.setS n v) p n = .ok (if h.tt p ≤ h.tt .C then h.s n else v)) ∧
    ((∀ x ∈ h.versC, x.reg = .s n → x.tt ≤ tt) → (h.landS n tt v).s n = v) ∧
    ((∃ x ∈ h.versC, x.reg = .s n ∧ tt < x.tt) → (h.landS n tt v).s n = h.s n) ∧
    ∀ m, m ≠ n → (h.landS n tt v).s m = h.s m

/-- The frame of the scalar accesses; the address stored to is the meaning's own. -/
def Obligations.ScalarStoreFrame : Prop :=
  ∀ (s t : State) (d a : BitVec 6) (off : BitVec 23) (wd : BitVec 3) (stamp : BitVec 16),
    (exec (.lds d a off wd stamp) s = .next t →
      SameBytes s t ∧ HeatsKept (fun h k => k.c = h.c ∧ SameLXS h k ∧ k.co = h.co) s t ∧
        t.dev = { s.dev with gated := t.dev.gated, touched := t.dev.touched, requests := t.dev.requests }) ∧
    (exec (.sts d a off wd stamp) s = .next t →
      HeatsKept (fun h k => k.c = h.c ∧ SameLXS h k ∧ k.co = h.co) s t ∧
      t.dev = { s.dev with gated := t.dev.gated, touched := t.dev.touched, requests := t.dev.requests } ∧
      ∀ die pa, assoc (pa / 128) s.mem.sealedLines = none →
        (∀ h s1 f, s.actor = some h →
          resolve s h h.core ((h.s a).v + off.signExtend 64) .write = .ok (s1, f) →
          pa < f.pa ∨ f.pa + 2 ^ (wd.toNat / 2) ≤ pa) →
        (viewByte t die pa).1 = (viewByte s die pa).1)

/-- 05/R137, R138 and the rules that define the numbers from 0x040. The text time that a counted cycle belongs to is log
80. -/
def Obligations.SpecialRegisterWords : Prop :=
  (∀ (s : State) (h : Heat) (d : BitVec 6) (n : BitVec 10) (v : Dword) (t : Bool),
    let w : Issue := { Issue.c 1 [d] [] true with handler := false }
    let row (k : BitVec 10) (x : Dword) (y : Bool) : Prop := n = k ∧ v = x ∧ t = y
    Clear w .C s h →
    (row 0x000 (BitVec.ofNat 64 (h.slot % 4 + 4 * (h.core % 256))) (!h.id.coxed) ∨
      row 0x001 (BitVec.ofNat 64 h.ctl.slipw) false ∨ row 0x002 (BitVec.ofNat 64 h.ctl.tokwdog) false ∨
      row 0x003 (BitVec.ofNat 64 (h.ctl.prio % 4 + 4 * (h.effective s % 4))) (!h.id.coxed) ∨
      row 0x004 (BitVec.ofNat 64 h.ctl.specsup) false ∨ row 0x010 (BitVec.ofNat 64 s.dev.strokeLen) false ∨
      row 0x011 (if h.id.coxed then 1 else 0) false ∨ row 0x012 1 false ∨
      row 0x020 (BitVec.ofNat 64 s.dev.ageCap) false ∨ row 0x040 (h.ctl.asrstat.setWidth 64) false ∨
      row 0x041 (BitVec.ofNat 64 cowin) false ∨ row 0x042 h.ctl.xferbar false ∨
      row 0x044 (BitVec.ofNat 64 s.dev.leaseMax) false ∨ row 0x045 (BitVec.ofNat 64 h.ctl.cobRights) false ∨
      row 0x046 h.ctl.cobImg false ∨ row 0x047 (BitVec.ofNat 64 h.ctl.profSel) false ∨
      ((h.tt .C ≤ h.tt (profSeatOf h.ctl.profSel) ∨ (h.seat (profSeatOf h.ctl.profSel)).ended = true) ∧
        row 0x048 (BitVec.ofNat 64 (profCount h h.ctl.profSel)) (!h.id.coxed)) ∨ row 0x049 s.dev.rebalCtl false ∨
      row 0x04A s.dev.clkAlign false ∨ row 0x04B s.dev.gateCtl false) →
    exec (.csrr d n) s = .next (ranOn w .C s h s (h.setS d ⟨v, t⟩))) ∧
  (∀ (s : State) (h : Heat) (d : BitVec 6),
    let w : Issue := { Issue.c 1 [d] [] true with handler := false }
    let early := h.x.statLog.filter fun e => decide (e.1 < h.tt .C)
    let v := early.foldl (fun a e => a ||| e.2) h.x.stat
    Clear w .C s h → (h.tt .C ≤ h.tt .X ∨ h.X.ended = true) →
      exec (.csrr d 0x043) s = .next (ranOn w .C s h s
        ({ h with x := { h.x with stat := v, statLog := h.x.statLog.filter fun e => !decide (e.1 < h.tt .C) } }.setS d
          ⟨v.setWidth 64, false⟩))) ∧
  (∀ (s : State) (h : Heat) (a : BitVec 6) (n : BitVec 10),
    let w : Issue := { Issue.c 1 [a] [a] (n == 0x042) with handler := false }
    let x := (h.s a).v
    let is (s' : State) (c : HeatCtl) : Prop := exec (.csrw a n) s = .next (ranOn w .C s h s' { h with ctl := c })
    Clear w .C s h → h.settled a →
      (n = 0x002 → is s { h.ctl with tokwdog := x.toNat % 2 ^ 32 }) ∧
      (n = 0x004 → is s { h.ctl with specsup := Min.min x.toNat (2 ^ 32 - 1) }) ∧
      (n = 0x040 → is s { h.ctl with asrstat := x.setWidth 5 }) ∧
      (n = 0x045 → is s { h.ctl with cobRights := x.toNat % 8 }) ∧
      (n = 0x046 → is s { h.ctl with cobImg := x &&& 0xFFFFFFFFFFFFF000 }) ∧
      (n = 0x047 → x.toNat / 256 % 256 ≤ 137 →
        is s { h.ctl with profSel := x.toNat % 4 + 256 * (x.toNat / 256 % 256) }) ∧
      (n = 0x020 → s.privileged h = true → 256 ≤ x.toNat → x.toNat ≤ 65535 →
        is { s with dev := { s.dev with ageCap := x.toNat } } h.ctl) ∧
      (n = 0x044 → s.privileged h = true → 1 ≤ x.toNat → x.toNat ≤ 256 →
        is { s with dev := { s.dev with leaseMax := x.toNat } } h.ctl) ∧
      (n = 0x049 → s.privileged h = true → ∀ s', writeRebal s x = some s' → is s' h.ctl) ∧
      (n = 0x04A → s.privileged h = true → is (writeClkAlign s x) h.ctl) ∧
      (n = 0x04B → s.privileged h = true → is (writeGate s x) h.ctl) ∧
      (n = 0x042 → exec (.csrw a n) s = .next (ranOn w .C s h s { h with
        versC := keepVersions h [.L, .X, .S] h.versC ++ [⟨.xferbar, h.tt .C, ⟨h.ctl.xferbar, false⟩⟩]
        ctl := { h.ctl with xferbar := x &&& 0xFFFFFFFFFFFFFFF1 } })) ∧
      (n = 0x043 → (h.tt .C ≤ h.tt .X ∨ h.X.ended = true) →
        exec (.csrw a n) s = .next (ranOn w .C s h s { h with x := { h.x with
          stat := x.setWidth 5, statLog := h.x.statLog.filter fun e => !decide (e.1 < h.tt .C) } })))

/-- 05/R137; 20/R421, R422; the ranges of 05/R138, 08/R252, 20/R443 and 22/R465. Privilege before value is log 24
(DEDUCED). -/
def Obligations.SpecialRegisterFaults : Prop :=
  ∀ (s : State) (h : Heat) (d a : BitVec 6) (n : BitVec 10),
    let x := (h.s a).v
    let assigned := [0x000, 0x001, 0x002, 0x003, 0x004, 0x010, 0x011, 0x012, 0x020, 0x040, 0x041, 0x042, 0x043, 0x044,
      0x045, 0x046, 0x047, 0x048, 0x049, 0x04A, 0x04B]
    let readOnly := [0x000, 0x001, 0x003, 0x010, 0x011, 0x012, 0x041, 0x048]
    Sound h .C → s.heat? h.id.uid = some h →
    (Clear { Issue.c 1 [d] [] true with handler := false } .C s h → n.toNat ∉ assigned →
      Raises (.csrr d n) .C s h clsIllegal 0 0) ∧
    (Clear { Issue.c 1 [a] [a] (n == 0x042) with handler := false } .C s h → h.settled a →
      (n.toNat ∉ assigned ∨ n.toNat ∈ readOnly → Raises (.csrw a n) .C s h clsIllegal 0 0) ∧
      (n.toNat ∈ [0x020, 0x044, 0x049, 0x04A, 0x04B] → s.privileged h = false →
        Raises (.csrw a n) .C s h clsPrivilege 0 0) ∧
      (s.privileged h = true → n.toNat = 0x020 → x.toNat < 256 ∨ 65535 < x.toNat →
        Raises (.csrw a n) .C s h clsIllegal 0 0) ∧
      (s.privileged h = true → n.toNat = 0x044 → x.toNat < 1 ∨ 256 < x.toNat →
        Raises (.csrw a n) .C s h clsIllegal 0 0) ∧
      (n.toNat = 0x047 → 137 < x.toNat / 2 ^ 8 % 2 ^ 8 → Raises (.csrw a n) .C s h clsIllegal 0 0) ∧
      (s.privileged h = true → n.toNat = 0x049 →
        x.toNat / 2 ^ 8 % 2 ^ 8 < 10 ∨ 200 < x.toNat / 2 ^ 8 % 2 ^ 8 ∨ x.toNat / 2 ^ 16 % 2 ^ 16 = 0 →
        Raises (.csrw a n) .C s h clsIllegal 0 0))

/-- 05/R139; what the heat does then is 20/R423. -/
def Obligations.TrapAndBreakpoint : Prop :=
  (∀ code : BitVec 10, decodeWords (0x0C800000 + code.toNat) 0 = .ok (.trap code) ∧
    decodeWords (0x0F400000 + code.toNat) 0 = .ok (.bkpt code)) ∧
  ∀ (s : State) (h : Heat) (code : BitVec 10),
    let w := Issue.seatOnly [] [] false
    Clear w .C s h → s.heat? h.id.uid = some h →
      (Sound h .C → Raises (.trap code) .C s h 0x14 0 (BitVec.ofNat 64 code.toNat)) ∧
      (Sound h .C → (∀ j, s.job? h.id.job = some j → j.debugger = false) →
        Raises (.bkpt code) .C s h 0x13 0 (BitVec.ofNat 64 code.toNat)) ∧
      (∀ j, s.job? h.id.job = some j → j.debugger = true →
        exec (.bkpt code) s = .next (ranOn w .C s h (haltJob s h.id.job 1 0) h))

/-- 05/R120, R140 to R142; 06/R174. That PRIO clamps its operand as a signed number is a DESIGN CHOICE (log 24). -/
def Obligations.CountAndClockWords : Prop :=
  ∀ (s : State) (h : Heat) (d a : BitVec 6) (lc lvl : BitVec 3) (seatS en : Bool) (slot : BitVec 2) (p sel : BitVec 4)
    (stamp : BitVec 16),
    let x := h.s a
    let clamp (lo hi : Int) : Nat := (Max.max lo (Min.min hi x.v.toInt)).toNat
    let wa := Issue.seatOnly [a] [a] false
    let wd := Issue.seatOnly [d] [] true
    (∀ hl : lc.toNat < 6, Clear (wa.of (.setlc lc a)) .C s h → h.settled a →
      exec (.setlc lc a) s = .next (ranOn (wa.of (.setlc lc a)) .C s h s
        { h with c := { h.c with lc := h.c.lc.set lc.toNat ⟨BitVec.ofNat 64 (clamp 0 (2 ^ 32 - 1)), x.t⟩ hl } })) ∧
    (∀ hl : 4 * lvl.toNat + slot.toNat < 24,
      let w : Issue := { (Issue.cLong [a] [a] false stamp).of (.setstrd lvl a seatS en slot p stamp) with handler := false }
      Clear w .C s h → h.settled a → exec (.setstrd lvl a seatS en slot p stamp) s = .next (ranOn w .C s h s
        { h with c := { h.c with strides := h.c.strides.set (4 * lvl.toNat + slot.toNat) ⟨seatS, en, p, x⟩ hl } })) ∧
    (Clear wa .C s h → h.settled a →
      exec (.setslip a) s = .next (ranOn wa .C s h s { h with ctl := { h.ctl with slipw := clamp 4 256 } }) ∧
      exec (.prio a) s = .next (ranOn wa .C s h s { h with ctl := { h.ctl with prio := clamp 0 3 } })) ∧
    (Clear wd .C s h →
      exec (.rdclk d) s = .next (ranOn wd .C s h s (h.setS d ⟨BitVec.ofNat 64 s.dev.clock, true⟩)) ∧
      (h.id.coxed = false → exec (.rdstroke d) s =
        .next (ranOn wd .C s h s (h.setS d ⟨BitVec.ofNat 64 (s.dev.clock / s.dev.strokeLen), true⟩))) ∧
      (h.id.coxed = true → exec (.rdstroke d) s = .next (ranOn wd .C s h s (h.setS d
        ⟨BitVec.ofNat 64 (if h.C.strokeSeen then h.C.strokeNo else h.firstStroke - 1), false⟩)))) ∧
    (Clear (wd.of (.self d sel)) .C s h → ∀ v : Dword,
      ((sel = 0 ∧ v = BitVec.ofNat 64 h.id.launch) ∨ (sel = 1 ∧ v = BitVec.ofNat 64 h.id.index) ∨
        (sel = 2 ∧ v = BitVec.ofNat 64 h.id.graph) ∨ (sel = 3 ∧ v = BitVec.ofNat 64 (phaseId s h.id.phase)) ∨
        (sel = 4 ∧ v = BitVec.ofNat 64 h.id.job) ∨ (sel = 5 ∧ v = (h.claim.map (·.2)).getD 0) ∨
        (sel = 6 ∧ v = (h.claim.map (·.1)).getD 0)) →
      exec (.self d sel) s = .next (ranOn (wd.of (.self d sel)) .C s h s (h.setS d ⟨v, false⟩)))

/-- 05/R143 to R145; 06/R174. -/
def Obligations.EventAndYieldWords : Prop :=
  (∀ (s : State) (h : Heat) (d a : BitVec 6), Clear (Issue.seatOnly [d, a] [a] true) .C s h → h.settled a →
    h.id.coxed = false →
    let w := Issue.seatOnly [d, a] [a] true
    (h.hold = .none → h.ctl.latch = true → exec (.wfe d a) s = .next (ranOn w .C s h s
      ({ h with ctl := { h.ctl with latch := false } }.setS d ⟨1, true⟩))) ∧
    (∀ since limit, h.hold = .wfe since limit → h.ctl.latch = true → exec (.wfe d a) s = .next (ranOn w .C s h s
      ({ h with hold := .none, ctl := { h.ctl with latch := false } }.setS d ⟨1, true⟩))) ∧
    (h.hold = .wfeOver → exec (.wfe d a) s = .next (ranOn w .C s h s ({ h with hold := .none }.setS d ⟨0, true⟩))) ∧
    (h.hold = .none → h.ctl.latch = false → ∃ t r, exec (.wfe d a) s = .next t ∧
      (s.heat? h.id.uid = some h → t.heat? h.id.uid = some r) ∧ t.waited = true ∧
      (t.heat? h.id.uid = some r → r.hold = .wfe s.now (h.s a).v.toNat ∧ r.c = h.c ∧ r.C.pc = h.C.pc))) ∧
  (∀ (s : State) (h : Heat) (u since limit : Nat), s.heat? u = some h →
    (h.hold = .wfe since limit → limit ≠ 0 → limit ≤ s.now - since → h.ctl.latch = false →
      exec (.wfeTimeout u) s = .next (s.putHeat { h with hold := .wfeOver })) ∧
    (h.hold = .yielded since limit → limit ≤ s.now - since →
      exec (.yieldExpiry u) s = .next (s.putHeat { h with hold := .none })) ∧
    (h.hold = .yielded since limit → since < s.now →
      (∀ k ∈ s.heats, k.core = h.core → k.onCore = true → k.id.uid ≠ h.id.uid → wasReady s k = false) →
      exec (.yieldExpiry u) s = .next (s.putHeat { h with hold := .none }))) ∧
  (∀ (s : State) (h : Heat) (a : BitVec 6), Clear (Issue.seatOnly [a] [a] false) .C s h → h.settled a →
    h.id.coxed = false → exec (.yieldi a) s = .next (ranOn (Issue.seatOnly [a] [a] false) .C s h s
      (if (h.s a).v.toInt ≤ 0 then h else { h with hold := .yielded s.now (Min.min (h.s a).v.toNat 65535) }))) ∧
  (∀ (s : State) (h : Heat), Clear (Issue.seatOnly [] [] false) .C s h →
    let w := Issue.seatOnly [] [] false
    (h.id.detached = false → exec .sms s =
      .next (ranOn w .C s h (s.onLaunch h.id.job h.id.launch fun l => { l with sms := true }) h)) ∧
    (h.id.detached = true → exec .sms s = .next (ranOn w .C s h s h)) ∧
    (∀ l, s.launch? h.id.job h.id.launch = some l → l.preds = [] → exec .wpv s = .next (ranOn w .C s h s h)) ∧
    (predecessorFailed s h = false → predecessorsVisible s h = true →
      exec .wpv s = .next (ranOn w .C s h (joinPredecessors s h) h))) ∧
  (∀ (s : State) (h : Heat), Clear (Issue.c 1 [] [] false) .C s h → Sound h .C → s.heat? h.id.uid = some h →
    Raises .hret .C s h clsIllegal 0 0) ∧
  ∀ (s : State) (h : Heat) (c : Cursor) (k : Handler), s.acting = some (h, c) → c.handler = some k.id →
    (s.handlers.find? fun x => x.id == k.id) = some k → k.count < 256 →
    ∃ t r, exec .hret s = .next t ∧ (∀ x ∈ t.handlers, x.id ≠ k.id) ∧ t.heat? h.id.uid = some r ∧ r.ctl.latch = true ∧
      r.c = h.c

/-- 04/R107, R108; 02/R28; 05/R114. -/
def Obligations.IllegalWordsRaiseTheFault : Prop :=
  (∀ (s : State) (h : Heat) (c : Cursor) (p : Seat), s.acting = some (h, c) → c.seat = p → c.handler = none →
    stopsHere h p = false → debugHeld s h p = false → Sound h p → Raises .illegalEncoding p s h 0x01 0 0) ∧
  (∀ (s : State) (h : Heat) (c : Cursor) (p : Seat) (w : Issue) (body : State → Heat → Effect),
    s.acting = some (h, c) → c.handler = none → stopsHere h p = false → debugHeld s h p = false → Sound h p →
    (w.bad = true ∨ (∃ n ∈ w.names, 8 * h.type.sGroups ≤ n.toNat) ∨ (∃ n ∈ w.vnames, 4 * h.type.vGroups ≤ n.toNat) ∨
      ∃ t, w.stamp = some t ∧ h.id.coxed = true ∧ (t = 0xFFFF ∨ s.dev.strokeLen ≤ t.toNat)) →
    issueG w p body s = .next (stay w p s h (.fault 0x01 0 0))) ∧
  (∀ (s : State) (h : Heat) (p : Seat), Clear (sharedIssue true) p s h → Sound h p →
    Raises (.fetchFailure false) p s h 0x04 (h.seat p).pc 0 ∧ Raises (.fetchFailure true) p s h 0x05 (h.seat p).pc 0)

/-- 20/R423 to R426, R431, R435. -/
def Obligations.TakingAFault : Prop :=
  (∀ (s : State) (h : Heat) (f : FaultInfo),
    (h.stop = none → (takeFault s h f).status = .stopping ∧ (takeFault s h f).fault = some f ∧
      ∃ st, (takeFault s h f).stop = some st ∧ st.cause = .fault ∧ st.since = s.now) ∧
    (∀ st g, h.stop = some st → st.cause = .fault → h.fault = some g →
      (takeFault s h f).secondary = Min.min (h.secondary + 1) 255 ∧
      (takeFault s h f).fault =
        (if g.clock = s.now ∧ seatNum f.seat < seatNum g.seat then some f else some g)) ∧
    (∀ st, h.stop = some st → st.cause = .cancel → st.since ≠ s.now → takeFault s h f = h) ∧
    (∀ st, h.stop = some st → (st.cause = .cancel ∧ st.since = s.now) ∨ st.cause = .suspend ∨ st.cause = .preempt →
      (takeFault s h f).fault = some f ∧ ∃ su, (takeFault s h f).stop = some su ∧ su.cause = .fault) ∧
    (takeFault s h f).c = h.c ∧ SameLXS h (takeFault s h f) ∧ SameCtl h (takeFault s h f)) ∧
  (∀ (s : State) (h : Heat) (p : Seat) (f : FaultInfo), s.heat? h.id.uid = some h →
    ∃ r, (raiseFault s h (some p) f).heat? h.id.uid = some r ∧ (r.seat p).stopped = true ∧ r.c = h.c ∧
      (∀ q, (r.seat q).pc = (h.seat q).pc) ∧ (raiseFault s h (some p) f).mem = s.mem) ∧
  (∀ (s : State) (h k : Heat) (p : Seat) (f : FaultInfo), h.stop = none → h.type.gang = true → h.id.detached = false →
    s.heat? k.id.uid = some k → k.id.uid ≠ h.id.uid → k.id.job = h.id.job → k.id.launch = h.id.launch →
    k.id.detached = false → k.status = .resident →
    ∃ r st, (raiseFault s h (some p) f).heat? k.id.uid = some r ∧ r.status = .stopping ∧ r.stop = some st ∧
      st.cause = .cancel ∧ st.since = s.now) ∧
  ∀ (s : State) (h : Heat) (u : Nat), s.heat? u = some h → h.id.uid = u →
    ∃ r, (retireRecord s u).heat? u = some r ∧ r.freed = true ∧ r.spad = [] ∧ r.asr = [] ∧ r.record = none ∧
      r.status = h.status

/-- 06/R147 to R156: issue. The application is ATOMIC_APPLY's. -/
def Obligations.AtomicWordsSendTheirPacket : Prop :=
  ∀ (s s1 s2 : State) (h : Heat) (d a b : BitVec 6) (wide : Bool) (off stamp : BitVec 16) (form : BitVec 2) (f : Frame)
    (parts : List Nat),
    let va := (h.s a).v + off.signExtend 64
    let cell (op : BitVec 7) (form : Nat) : Nat × Nat :=
      if op = 0x4D ∨ (op = 0x4E ∧ 2 ≤ form) then (96, 32)
      else if (0x4A ≤ op.toNat ∧ op.toNat ≤ 0x4C) ∨ form = 0 then (4, 4) else (8, 8)
    let sends (i : Instr) (op : BitVec 7) (form : Nat) (dst b old : BitVec 6) : Prop :=
      let w := (Issue.cLong [dst, a, b] [a, b, old] true stamp).of i
      let acc : Access := if op = 0x4E then .read else if op = 0x4F then .write else .atomic
      let seq := nextSeq s2 h.core
      let s4 := rideAtomic s2 h f.pa (some (s2.nextId + 1))
      let s3 := if f.kind = .peer then sendOut s4 (h.s b) else s4
      Clear w .C s h → h.settled b → h.settled old → resolve s h h.core va acc = .ok (s1, f) →
        va.toNat % (cell op form).2 = 0 → cellParts s1 h va acc (cell op form).1 f.pa = .ok (s2, parts) →
        watchHit s2 h.id.job va.toNat (cell op form).1 true (op != 0x4E) = none →
        exec i s = .next (ranOn w .C s h
          { s3 with
            atomics := s2.atomics ++ [⟨s3.nextId, h.core, seq, h.id.uid, op, form, va, f.pa, parts, h.s b, (h.s old).v,
              (h.s a).t, f.clean, heatClock s2 h.id.uid, false, false, s2.now, h.C.pc⟩]
            seqs := assocSet h.core (seq + 1) s2.seqs
            nextId := s3.nextId + 1 }
          { h with pend := h.pend ++
            [⟨s3.nextId, if dst = 0 then none else some dst, h.tt .C, none, h.C.pc, va, none, false⟩] })
    let n := if wide then 1 else 0
    h.settled a → (f.kind = .asr ∨ f.kind = .peer) → (s.atomics.filter fun x => x.core == h.core).length < 64 →
      sends (.aadd d a b wide off stamp) 0x40 n d b 0 ∧ sends (.amin d a b wide off stamp) 0x41 n d b 0 ∧
      sends (.amax d a b wide off stamp) 0x42 n d b 0 ∧ sends (.aminn d a b wide off stamp) 0x43 n d b 0 ∧
      sends (.amaxn d a b wide off stamp) 0x44 n d b 0 ∧ sends (.aand d a b wide off stamp) 0x45 n d b 0 ∧
      sends (.aor d a b wide off stamp) 0x46 n d b 0 ∧ sends (.axor d a b wide off stamp) 0x47 n d b 0 ∧
      sends (.axchg d a b wide off stamp) 0x48 n d b 0 ∧ sends (.acas d a b wide off stamp) 0x49 n d b d ∧
      sends (.faadd d a b off stamp) 0x4A 0 d b 0 ∧ sends (.famin d a b off stamp) 0x4B 0 d b 0 ∧
      sends (.famax d a b off stamp) 0x4C 0 d b 0 ∧ sends (.laadd a b form off stamp) 0x4D form.toNat 0 b 0 ∧
      sends (.ald d a form off stamp) 0x4E form.toNat d 0 0 ∧ sends (.ast a b wide off stamp) 0x4F n 0 b 0

/-- 06/R149 to R152, R154, R156; 12/R355. That a resent packet counts on the die of the core that sends it is the model's
reading of 20/R433's counters (log 12). -/
def Obligations.AtomicAppliesItsOperation : Prop :=
  let applies (s : State) (p : Packet) (h : Heat) (q : Pending) : Prop :=
    Inv s ∧ (s.atomics.find? fun k => k.id == p.id && !k.applied) = some p ∧ mustHold s p = false ∧
    s.heat? p.heat = some h ∧ h.id.uid = p.heat ∧ (h.pend.find? fun k => k.id == p.id) = some q
  let fresh (s : State) (p : Packet) : Prop := savedReply s p = none
  let sound (s : State) (pa n : Nat) : Prop :=
    kindOf pa = some .asr ∧ (∀ i, i < n → s.mem.poisoned (pa + i) = false) ∧ ∀ i, i < n → (pa + i) / 128 ∉ s.mem.errors
  let cell (s : State) (pa n : Nat) : Nat := leNat ((List.range n).map fun i => cellGet s.mem.cells (pa + i))
  let oldTaint (s : State) (pa n : Nat) : Bool := (List.range (n / 4)).any fun i => s.mem.tainted (pa + 4 * i)
  let answers (t : State) (p : Packet) (h : Heat) (v : TVal) (c : BitVec 5) : Prop :=
    ∃ r k, t.heat? p.heat = some r ∧ (r.pend.find? fun k => k.id == p.id) = some k ∧ k.value = some v ∧ r.c = h.c ∧
      r.ctl.asrstat = h.ctl.asrstat ||| c
  let kept (s t : State) (pa n : Nat) : Prop :=
    ∀ y, y < pa ∨ pa + n ≤ y → cellGet t.mem.cells y = cellGet s.mem.cells y
  ((∀ (s : State) (p : Packet) (h : Heat) (q : Pending),
    let w := if p.form = 0 then 32 else 64
    let n := w / 8
    let old := cell s p.pa n
    let x := p.operand.v.toNat % 2 ^ w
    let sg (y : Nat) : Int := if 2 ^ (w - 1) ≤ y then (y : Int) - 2 ^ w else y
    let after : Nat :=
      if p.op = 0x40 then (old + x) % 2 ^ w
      else if p.op = 0x41 then (if sg x < sg old then x else old)
      else if p.op = 0x42 then (if sg old < sg x then x else old)
      else if p.op = 0x43 then Min.min old x
      else if p.op = 0x44 then Max.max old x
      else if p.op = 0x45 then old &&& x
      else if p.op = 0x46 then old ||| x
      else if p.op = 0x47 then old ^^^ x
      else if p.op = 0x48 ∨ p.op = 0x4F then x
      else if p.op = 0x4E then old
      else (if old = p.expected.toNat % 2 ^ w then x else old)
    applies s p h q → fresh s p →
      ((0x40 ≤ p.op.toNat ∧ p.op.toNat ≤ 0x49) ∨ p.op = 0x4F ∨ p.op = 0x4E) → p.form ≤ 1 → p.clean = false →
      p.parts = [p.pa] → sound s p.pa n →
      ∃ t, exec (.atomicApply p.id) s = .next t ∧ cell t p.pa n = after ∧ kept s t p.pa n ∧
        (p.op = 0x4E → t.mem = s.mem) ∧
        answers t p h ⟨if p.op.toNat ≤ 0x42 then (BitVec.ofNat w old).signExtend 64 else BitVec.ofNat 64 old,
          oldTaint s p.pa n || p.addrTaint⟩ 0) ∧
  (∀ (s : State) (p : Packet) (h : Heat) (q : Pending),
    let old := cell s p.pa 4
    let x := p.operand.v.toNat % 2 ^ 32
    let new : Nat × Conds := if p.op = 0x4A then f32Add rne old x else f32.minMax (p.op == 0x4C) old x
    applies s p h q → fresh s p → (p.op = 0x4A ∨ p.op = 0x4B ∨ p.op = 0x4C) → p.form = 0 → p.clean = false →
      p.parts = [p.pa] → sound s p.pa 4 →
      ∃ t, exec (.atomicApply p.id) s = .next t ∧ cell t p.pa 4 = new.1 % 2 ^ 32 ∧ kept s t p.pa 4 ∧
        answers t p h ⟨BitVec.ofNat 64 old, oldTaint s p.pa 4 || p.addrTaint⟩ new.2.bits) ∧
  (∀ (s : State) (p : Packet) (h : Heat) (q : Pending),
    let x : Sys2Proof.Machine.Num := if p.form = 0 then f32.decode (p.operand.v.toNat % 2 ^ 32)
      else if p.form = 1 then ofInt p.operand.v.toInt else ofInt p.operand.v.toNat
    applies s p h q → fresh s p → p.form ≤ 3 → p.parts = [p.pa, p.pa + 32, p.pa + 64] → p.pa % 32 = 0 →
      sound s p.pa 96 →
      (p.op = 0x4D → ∃ t, exec (.atomicApply p.id) s = .next t ∧
        readAcc t p.parts = (readAcc s p.parts).add x ∧ kept s t p.pa 96 ∧
        answers t p h ⟨0, false⟩ { Conds.none with invalid := x.signals }.bits) ∧
      (p.op = 0x4E → p.form = 2 → ∃ t, exec (.atomicApply p.id) s = .next t ∧ t.mem = s.mem ∧
        answers t p h ⟨BitVec.ofNat 64 ((readAcc s p.parts).retire (.float f32) rne).1, false⟩
          ((readAcc s p.parts).retire (.float f32) rne).2.bits) ∧
      (p.op = 0x4E → p.form = 3 → ∃ t, exec (.atomicApply p.id) s = .next t ∧ t.mem = s.mem ∧
        answers t p h ⟨BitVec.ofNat 64 (readAcc s p.parts).flags, false⟩ 0)) ∧
  (∀ (s : State) (p : Packet) (h : Heat) (r : Reply) (q : Pending), applies s p h q →
    savedReply s p = some r →
    ∃ t, exec (.atomicApply p.id) s = .next t ∧ t.mem = s.mem ∧ answers t p h r.value 0) ∧
  (∀ (s : State) (p : Packet) (h : Heat) (q : Pending), (s.atomics.find? fun k => k.id == p.id) = some p →
    s.heat? p.heat = some h → (h.pend.find? fun k => k.id == p.id) = some q →
    ∃ t k l, exec (.atomicRetry p.id) s = .next t ∧ t.mem = s.mem ∧ t.replies = s.replies ∧
      (t.atomics.find? fun x => x.id == p.id) = some { p with applied := false, resent := true } ∧ t.heat? p.heat = some k ∧
      (k.pend.find? fun x => x.id == p.id) = some l ∧ l.value = none ∧
      ∀ d : Fin 4, t.lamom.counters[d].atomicRetries =
        s.lamom.counters[d].atomicRetries + if d.val = p.core / 64 then 1 else 0)) ∧
  ∀ (s : State) (beat : LinkBeat) (core addr : Nat) (seq : BitVec 16) (resent wide taint : Bool) (v : BitVec 64),
    let n := if wide then 8 else 4
    let sent (t : State) (x : BitVec 64) (y : Bool) : Prop := t.net.outbox = s.net.outbox ++ [⟨x, y, s.now⟩]
    let old : BitVec 64 := BitVec.ofNat 64 (cell s addr n)
    Inv s → kindOf addr = some .asr → addr % n = 0 → (∀ c, s.sched = some c → c.live = false) →
    (∀ f ∈ s.net.forwards, precedes s (dieOf addr) beat.clock f = false) →
    (resent = true → ∀ r ∈ s.replies, r.crew = homeCrew addr → r.core = 256 + core → r.seq ≠ seq) →
    (∃ t, exec (.peerAsrAccess addr ⟨beat, core, seq, resent, .store wide, taint⟩ v) s = .next t ∧
      cell t addr n = v.toNat % 2 ^ (8 * n) ∧ kept s t addr n ∧ oldTaint t addr n = taint ∧
      sent t old (oldTaint s addr n) ∧ t.heats = s.heats) ∧
    (sound s addr n →
      ∃ t, exec (.peerAsrAccess addr ⟨beat, core, seq, resent, .load wide, taint⟩ v) s = .next t ∧ t.mem = s.mem ∧ t.heats = s.heats ∧
        sent t old (oldTaint s addr n))

/-- 06/R157. -/
def Obligations.FencesWaitForWhatTheyOrder : Prop :=
  ∀ (s : State) (h : Heat) (sc : BitVec 4),
    let w (i : Instr) := (Issue.c 1 [] [] false).of i
    let goes (i : Instr) : Prop := Clear (w i) .C s h → exec i s = .next (ranOn (w i) .C s h s h)
    let waits (i : Instr) : Prop := Clear (w i) .C s h → due s h .C (w i) ≠ .now →
      ∃ t, exec i s = .next t ∧ t.waited = true ∧ t.mem = s.mem ∧
        ∀ r, t.heat? h.id.uid = some r → r.C.pc = h.C.pc ∧ r.C.tt = h.C.tt ∧ r.c = h.c
    let applied := ∀ a ∈ s.atomics, a.heat = h.id.uid → a.applied = true
    (sc = 0 → goes (.fence sc) ∧ goes (.fencea sc) ∧ goes (.fencer sc)) ∧
    (trailing h = [] → applied → unperformed s h.id.uid sc.toNat = false → h.pend = [] → goes (.fence sc)) ∧
    (trailing h = [] → h.pend = [] → goes (.fencea sc)) ∧
    (trailing h = [] → applied → unperformed s h.id.uid sc.toNat = false → goes (.fencer sc)) ∧
    (sc ≠ 0 → ¬ applied → waits (.fence sc) ∧ waits (.fencer sc)) ∧
    (sc ≠ 0 → h.pend ≠ [] → waits (.fence sc) ∧ waits (.fencea sc))

/-- 06/R158 to R160, R180. -/
def Obligations.BarrierWords : Prop :=
  let counted (h : Heat) (s : State) (f : Frame) (va : Dword) (b : BarObj) (t : Bool) : Heat :=
    let gen := (readBar s h.die f.pa).gen
    let arrived := if b.gen = gen then assocSet f.pa gen h.ctl.arrived
      else h.ctl.arrived.filter fun e => e.1 != f.pa
    countStored (countRead { h with ctl := { h.ctl with arrived := arrived } } va.toNat (viewBytes s h.die f.pa 16))
      va.toNat (barBytes s h f b t)
  (∀ b : BarObj, b.settle =
    if b.arrivals = 0 ∧ b.inbound = 0 ∧ b.outbound = 0 then { b with gen := (b.gen + 1) % 16, arrivals := b.expected }
    else b) ∧
  (∀ (s s1 : State) (h : Heat) (a b : BitVec 6) (off stamp : BitVec 16) (f : Frame),
    let w : Issue := { (Issue.cLong [a, b] [a, b] false stamp).of (.barinit a b off stamp) with handler := false }
    let n := (h.s b).v.toNat
    let t := (h.s b).t || (h.s a).t
    Clear w .C s h → h.settled a → h.settled b → 0 < n → n < 2 ^ 28 →
      barrierWord s h ((h.s a).v + off.signExtend 64) .write = .ok (s1, f) → (f.clean && t) = false →
      exec (.barinit a b off stamp) s = .next (ranOn w .C s h
        (writeBar s1 h f ⟨((readBar s1 h.die f.pa).gen + 1) % 16, n, n, 0, 0⟩ t)
        (counted h s1 f ((h.s a).v + off.signExtend 64) ⟨((readBar s1 h.die f.pa).gen + 1) % 16, n, n, 0, 0⟩ t))) ∧
  (∀ (s s1 : State) (h : Heat) (d a : BitVec 6) (f : Frame),
    let w := Issue.seatOnly [d, a] [a] true
    let x := h.s a
    let b := readBar s1 h.die f.pa
    Clear w .C s h → h.settled a → barrierWord s h x.v .write = .ok (s1, f) → (f.clean && x.t) = false →
      fenceWait s h (barrierScope f) ⟨true, false⟩ (.barrier f.pa) = none →
      (b.arrivals ≠ 0 → exec (.bararr d a) s = .next (ranOn w .C s h
        (stepBar (bringClock s1 h.id.uid h.die f.pa) h f x.v { b with arrivals := b.arrivals - 1 } x.t)
        ((counted h s1 f x.v { b with arrivals := b.arrivals - 1 }.settle x.t).setS d ⟨BitVec.ofNat 64 b.gen, false⟩))) ∧
      (b.arrivals = 0 → ∃ t, exec (.bararr d a) s = .next t ∧ t.waited = true ∧ t.mem = s.mem)) ∧
  (∀ (s s1 : State) (h : Heat) (a b : BitVec 6) (f : Frame),
    let w := Issue.seatOnly [a, b] [a, b] false
    Clear w .C s h → h.settled a → h.settled b → barrierWord s h (h.s a).v .read = .ok (s1, f) →
      ((readBar s1 h.die f.pa).gen ≠ (h.s b).v.toNat % 16 →
        exec (.barwait a b) s = .next (ranOn w .C s h
          (rideRead (bringClock s1 h.id.uid h.die f.pa) h h.core f.pa 2)
          (countRead h (h.s a).v.toNat (viewBytes s1 h.die f.pa 16)))) ∧
      ((readBar s1 h.die f.pa).gen = (h.s b).v.toNat % 16 →
        ∃ t, exec (.barwait a b) s = .next t ∧ t.waited = true ∧ t.mem = s.mem)) ∧
  ∀ (s : State) (h : Heat) (f : Frame) (b : BarObj) (t : Bool), Inv s → f.kind = .spad → kindOf f.pa = some .spad →
    kindOf (f.pa + 15) = some .spad →
    b.gen < 16 → b.expected < 2 ^ 28 → b.arrivals < 2 ^ 32 → b.inbound < 2 ^ 32 → b.outbound < 2 ^ 32 →
    readBar (writeBar s h f b t) h.die f.pa = b

/-- 06/R161, R162; 12/R359. -/
def Obligations.DeviceBarrierEndsWithItsLastArrival : Prop :=
  ∀ (s : State) (h : Heat) (id : BitVec 6) (l : Launch) (b : DevBar),
    let w := Issue.seatOnly [] [] false
    let s1 := s.onDevBar h.id.job l.id id.toNat fun b =>
      { b with arrived := numIns h.id.index b.arrived, clock := clockMax (heatClock s h.id.uid) b.clock }
    let passes (t : State) (clk : List Nat) : Prop := exec (.dbar id) s =
      .next (ranOn w .C s h (passRound (mergeClock t h.id.uid clk) h) { h with hold := .none })
    Clear w .C s h → s.launch? h.id.job h.id.launch = some l → l.id = h.id.launch → h.type.gang = true →
      h.id.detached = false → l.mask.getLsbD id.toNat = true → s.devBar? h.id.job l.id id.toNat = some b →
      (h.hold = .none → fenceWait s h 4 ⟨true, false⟩ (.deviceBarrier id.toNat) = none →
        allArrived s1 { b with arrived := numIns h.id.index b.arrived } = true →
        passes (settleDevBar s1 h id.toNat) (clockMax (heatClock s h.id.uid) b.clock)) ∧
      (h.hold = .none → fenceWait s h 4 ⟨true, false⟩ (.deviceBarrier id.toNat) = none →
        allArrived s1 { b with arrived := numIns h.id.index b.arrived } = false →
        ∃ t c, exec (.dbar id) s = .next t ∧ t.waited = true ∧ t.devBar? h.id.job l.id id.toNat = some c ∧
          c.gen = b.gen ∧ c.arrived = numIns h.id.index b.arrived) ∧
      ∀ g, h.hold = .dbar id.toNat g → g ≠ b.gen → b.arrived = [] → passes s b.doneClock

/-- 06/R163; 07/R197, R203. -/
def Obligations.CompletionObjectWords : Prop :=
  (∀ (s : State) (h : Heat) (d a : BitVec 6),
    let w := Issue.seatOnly [d, a] [a] true
    let js := objects (h.s a).v
    Clear w .C s h → h.settled a → lateCommand h .C js = none →
      ((∀ j ∈ js, h.busyFor .C j = false) → exec (.waitcoAll d a) s = .next (ranOn w .C s h s
        (h.setS d ⟨BitVec.ofNat 64 (js.countP (h.errorFor .C)), false⟩))) ∧
      ((∃ j ∈ js, h.busyFor .C j = true) → ∃ t, exec (.waitcoAll d a) s = .next t ∧ t.waited = true ∧ t.mem = s.mem) ∧
      (js = [] → exec (.waitcoAny d a) s = .next (ranOn w .C s h s (h.setS d ⟨BitVec.allOnes 64, true⟩))) ∧
      (∀ i, js.find? (fun i => !h.busyFor .C i) = some i → exec (.waitcoAny d a) s = .next (ranOn w .C s h s
        (h.setS d ⟨BitVec.ofNat 64 i, js.length != 1⟩))) ∧
      ∃ v, exec (.testco d a) s = .next (ranOn w .C s h s (h.setS d ⟨v, true⟩)) ∧
        ∀ j, j < 64 → v.getLsbD j = ((h.s a).v.getLsbD j && !h.busyFor .C j)) ∧
  ∀ (s : State) (h : Heat) (w : Slot) (co : BitVec 6),
    (h.busyFor .L co.toNat = false → Clear ((Issue.short w []).of (.lCwait w co)) .L s h → (h.ahead .L fun k => k == .cmd co) = none →
      exec (.lCwait w co) s = .next (ranOn ((Issue.short w []).of (.lCwait w co)) .L s h s h)) ∧
    (h.busyFor .S co.toNat = false → Clear ((Issue.short w []).of (.sCwait w co)) .S s h → (h.ahead .S fun k => k == .cmd co) = none →
      exec (.sCwait w co) s = .next (ranOn ((Issue.short w []).of (.sCwait w co)) .S s h s h))

/-- 06/R164 to R167; 07/R194; 12/R359. The launch's number is a DESIGN CHOICE (log 15: R165 asks only that it is unique),
the entry of the core's queue log 27. -/
def Obligations.SpawnCancelAndWaitWords : Prop :=
  (∀ (s : State) (h : Heat) (j : Job) (d a b : BitVec 6) (n : BitVec 4) (c : Ctl),
    let w : Issue := { (Issue.cLong [d, a] [a] true c.stamp).of (.spawn d a c) with engine := some 0, handler := false }
    let cs := regRange b n.toNat
    let wt : Issue := { (Issue.cLong ([d, a, b] ++ cs) (a :: cs) true c.stamp).of (.spawnt d a b n c) with
      engine := some 0, handler := false }
    let id := j.nextLaunch
    let busyObj (op : Nat) : Heat := { h.begin c.co.toNat .C 0 op with cmdCount := h.cmdCount + 1 }
    let spawns (i : Instr) (w : Issue) (op : Nat) (r : Option Admitted) : Prop :=
      match r with
      | some m => ∃ t l, exec i s = .next (ranOn w .C s h t ((busyObj op).setS d ⟨BitVec.ofNat 64 id, false⟩)) ∧
          t.launches = s.launches ++ [l] ∧ l.id = id ∧ l.job = h.id.job ∧ l.phase = h.id.phase ∧ l.type = m.type ∧
          l.dims = m.dims ∧ l.total = m.total ∧ l.coords = m.coords ∧ l.die = h.die ∧ l.preds = [] ∧
          l.spawners = [(h.id.uid, c.co.toNat)] ∧ t.mem = s.mem ∧
          (∃ r k, t.requests = s.requests ++ [r] ∧ r.launch = id ∧ r.job = h.id.job ∧ r.handed = false ∧
            t.cmds = s.cmds ++ [k] ∧ k.kind = .hand r.id ∧ k.co = some c.co.toNat ∧ k.phase = .queued) ∧
          (∃ k, t.job? h.id.job = some k ∧ k.nextLaunch = id + 1)
      | none => ∃ k : Heat, exec i s = .next (ranOn w .C s h s (k.setS d ⟨0, false⟩)) ∧ k.c = h.c ∧
          (k.obj c.co.toNat).state = 2 ∧ (k.obj c.co.toNat).status.getLsbD 6 = true ∧ k.ctl.latch = true
    h.id.coxed = false → s.job? h.id.job = some j → h.settled a → h.busy c.co.toNat = false →
    trailing h = [] → queueWait s h = none →
      (Clear w .C s h → spawns (.spawn d a c) w 0x60 (admitRecord s j h.die (h.s a).v)) ∧
      (Clear wt .C s h → (∀ r ∈ cs, h.settled r) → spawns (.spawnt d a b n c) wt 0x61
        (admitTask s j h.die (h.s a).v.toNat (cs.map fun r => (h.s r).v.setWidth 32)))) ∧
  ∀ (s : State) (h : Heat) (d a b : BitVec 6) (lvl : BitVec 4), h.settled a → h.settled b →
    (let w := (Issue.seatOnly [d, a, b] [a, b] true).of (.cancel d a b lvl)
     let r := cancelLevel (s.putHeat h) h.id.job lvl.toNat (h.s a).v.toNat (h.s b).v.toNat
     Clear w .C s h → h.id.coxed = false → exec (.cancel d a b lvl) s =
       .next (ranOn w .C s h r.1 (((r.1.heat? h.id.uid).getD h).setS d ⟨if r.2 = true then 1 else 0, true⟩))) ∧
    (let w := (Issue.seatOnly [d, a, b] [a, b] true).of (.waitc d a b lvl)
     let r := levelSummary s h lvl.toNat (h.s a).v.toNat (h.s b).v.toNat
     Clear w .C s h →
       let answers (v : TVal) : Prop := exec (.waitc d a b lvl) s = .next (ranOn w .C s h
         (joinLevel s h lvl.toNat (h.s a).v.toNat) (({ h with hold := .none } : Heat).setS d v))
       (r = none → answers ⟨0, true⟩) ∧
       (∀ v, r = some v → v.testBit 0 = true ∨ v.testBit 4 = true → answers ⟨BitVec.ofNat 64 v, false⟩) ∧
       (∀ v, r = some v → v.testBit 0 = false → v.testBit 4 = false →
         ∃ t, exec (.waitc d a b lvl) s = .next t ∧ t.waited = true ∧ t.mem = s.mem))

/-- 02/R36: cancelLevel is what CANCEL, the cancel packet and the job's kill use. Levels: 0 heat, 1 launch, 2 graph,
3 phase, 4 job (06/R166). -/
def Obligations.CancelReachesTheHeatsOfItsLevel : Prop :=
  ∀ (s : State) (job lvl a b u : Nat) (h : Heat), s.heat? u = some h → h.id.uid = u →
    let t := (cancelLevel s job lvl a b).1
    let stops : Prop :=
      (h.status = .resident → ∃ r st, t.heat? u = some r ∧ r.status = .stopping ∧ r.stop = some st ∧
        st.cause = .cancel ∧ r.c = h.c ∧ SameLXS h r) ∧
      (∀ st, h.status = .stopping → h.stop = some st → st.cause = .suspend ∨ st.cause = .preempt →
        ∃ r, t.heat? u = some r ∧ r.status = .stopping ∧ r.stop = some { st with cancelAfter := true } ∧ r.c = h.c ∧
          SameLXS h r) ∧
      (h.status = .suspended → ∃ r, t.heat? u = some r ∧ r.status = .cancelled ∧ r.c = h.c)
    let standing (l : Launch) : Prop := l.indexList.contains b = true ∧
      match s.member? job a b with
      | some m => m.status.final = false
      | none => l.cut = false ∧ l.discarded.contains b = false
    (∀ l, s.launch? job l.id = some l → launchDone s l = false →
      (lvl = 1 ∧ l.id = a) ∨ (lvl = 2 ∧ l.graph = a ∧ ∃ g ∈ s.graphs, g.job = job ∧ g.id = a) ∨
        (lvl = 3 ∧ ∃ q ∈ s.phases, q.uid = l.phase ∧ q.job = job ∧ q.id = a ∧ phaseDone s q = false) ∨ lvl = 4 ∨
        (lvl = 0 ∧ l.id = a ∧ l.type.gang = true ∧ standing l) →
      (cancelLevel s job lvl a b).2 = true ∧
      (∃ k, t.launch? job l.id = some k ∧ k.cancelled = true ∧ k.cut = true) ∧
      (h.id.job = job → h.id.launch = l.id → h.id.detached = false → stops)) ∧
    (lvl = 4 → (cancelLevel s job lvl a b).2 = true ∧ (h.id.job = job → h.id.detached = true → stops) ∧
      ∀ j, s.job? job = some j → ∃ k, t.job? job = some k ∧ k.killed = true ∧ k.cancelled = true) ∧
    (∀ l, lvl = 0 → s.launch? job a = some l → launchDone s l = false → l.type.gang = false → standing l →
      (cancelLevel s job lvl a b).2 = true ∧ (s.member? job a b = some h → stops) ∧
      (s.member? job a b = none → ∃ k, t.launch? job a = some k ∧ b ∈ k.discarded ∧ k.cancelled = true)) ∧
    (h.id.job ≠ job → t.heat? u = some h) ∧ t.mem = s.mem

/-- 06/R180. The taint of memory is read at the issue: a DESIGN CHOICE (log 3). -/
def Obligations.TaintWords : Prop :=
  ∀ (s s1 : State) (h : Heat) (d a : BitVec 6) (clr : Bool) (sel : BitVec 2) (data : List (Byte × Bool)),
    let w := Issue.c 1 [d, a] [a] true
    let x := h.s a
    (Clear w .C s h → h.settled a →
      exec (.taintq d a) s = .next (ranOn w .C s h s (h.setS d ⟨if x.t then 1 else 0, false⟩)) ∧
      exec (.tclr d a) s = .next (ranOn w .C s h s
        ({ h with ctl := { h.ctl with
          tCleared := if x.t then Min.min (h.ctl.tCleared + 1) (2 ^ 32 - 1) else h.ctl.tCleared } }.setS d ⟨x.v, false⟩)) ∧
      (x.v.toNat % 4 = 0 → cellWait s h x.v 4 .read = .ok () → loadAt s h h.core x.v 4 = .ok (s1, data) →
        exec (.taintqMem d a) s = .next (ranOn w .C s h { claim s1 s.nextId s1.nextId with nextId := s1.nextId + 1 }
          { h with pend := h.pend ++ [⟨s1.nextId, if d = 0 then none else some d, h.tt .C,
            some ⟨if data.any (·.2) then 1 else 0, false⟩, h.C.pc, x.v, none, false⟩] }))) ∧
    (Clear (Issue.seatOnly [d] [] true) .C s h → ∀ v : Nat,
      ((sel = 0 ∧ v = h.ctl.tStored) ∨ (sel = 1 ∧ v = h.ctl.tControl) ∨ (sel = 2 ∧ v = h.ctl.tCleared) ∨
        (sel = 3 ∧ v = h.ctl.tRead)) →
      ∃ c, exec (.tcnt d clr sel) s = .next (ranOn (Issue.seatOnly [d] [] true) .C s h s
          ({ h with ctl := c }.setS d ⟨BitVec.ofNat 64 v, false⟩)) ∧
        (clr = false → c = h.ctl) ∧
        (clr = true → c = { h.ctl with
          tStored := if sel = 0 then 0 else h.ctl.tStored, tControl := if sel = 1 then 0 else h.ctl.tControl
          tCleared := if sel = 2 then 0 else h.ctl.tCleared, tRead := if sel = 3 then 0 else h.ctl.tRead }))

/-- 07/R186, R188, R218. -/
def Obligations.PointerDescriptorAndRingWords : Prop :=
  (∀ (s : State) (h : Heat) (w : Slot) (p q : BitVec 4) (sa : BitVec 6) (imm : BitVec 10) (x : TVal),
    (readS h .L sa = .ok x → Clear ((Issue.short w [sa]).of (.lPset w p sa)) .L s h →
      exec (.lPset w p sa) s = .next (ranOn ((Issue.short w [sa]).of (.lPset w p sa)) .L s h s
        { h with pL := h.pL.set p.toNat x })) ∧
    (readS h .S sa = .ok x → Clear ((Issue.short w [sa]).of (.sPset w p sa)) .S s h →
      exec (.sPset w p sa) s = .next (ranOn ((Issue.short w [sa]).of (.sPset w p sa)) .S s h s
        { h with pS := h.pS.set p.toNat x })) ∧
    (Clear ((Issue.short w []).of (.lPadd w p imm)) .L s h →
      exec (.lPadd w p imm) s = .next (ranOn ((Issue.short w []).of (.lPadd w p imm)) .L s h s
        { h with pL := h.pL.set p.toNat ⟨h.pL[p.toNat].v + imm.signExtend 64, h.pL[p.toNat].t⟩ })) ∧
    (Clear ((Issue.short w []).of (.sPadd w p imm)) .S s h →
      exec (.sPadd w p imm) s = .next (ranOn ((Issue.short w []).of (.sPadd w p imm)) .S s h s
        { h with pS := h.pS.set p.toNat ⟨h.pS[p.toNat].v + imm.signExtend 64, h.pS[p.toNat].t⟩ })) ∧
    ∀ (en : Bool) (ring : BitVec 3) (fmt : BitVec 4) (e1 : BitVec 9) (stamp : BitVec 16),
      let d : QDesc := ⟨fmt, e1.toNat + 1, (x.v.setWidth 32).toInt, ((x.v >>> 32).setWidth 32).toInt,
        if en then some ring else none, x.t⟩
      let h' := h.setStream q { h.stream q with desc := some d, taken := 0 }
      let wl := (Issue.long w stamp [sa]).of (.lQset w q sa en ring fmt e1 stamp)
      let ws := (Issue.long w stamp [sa]).of (.sQset w q sa en ring fmt e1 stamp)
      (h.stream q).entries = [] → elemsOk fmt e1 = true →
      (q.toNat < 8 → (en = true → ringWait h .L ring = none) → readS h .L sa = .ok x → Clear wl .L s h →
        exec (.lQset w q sa en ring fmt e1 stamp) s = .next (ranOn wl .L s h s h')) ∧
      (8 ≤ q.toNat → q.toNat < 12 → (en = true → ringWait h .S ring = none) → readS h .S sa = .ok x → Clear ws .S s h →
        exec (.sQset w q sa en ring fmt e1 stamp) s = .next (ranOn ws .S s h s h'))) ∧
  (∀ (s : State) (h : Heat) (w : Slot) (g : BitVec 3) (n : BitVec 11) (r : Ring),
    let wl := (Issue.short w []).of (.rpush w g n)
    let ws := (Issue.short w []).of (.rpop w g n)
    (ringWait h .L g = none → Clear wl .L s h → h.g[g.toNat] = some r → r.c ≠ 0 → n ≠ 0 → n.toNat ≤ 2 ^ r.c →
      r.tiles.length + n.toNat ≤ 2 ^ r.c → exec (.rpush w g n) s = .next (ranOn wl .L s h s
        (h.setRing g (some { r with tiles := r.tiles ++ List.replicate n.toNat ⟨none, 0, 0, false⟩ })))) ∧
    (ringWait h .S g = none → Clear ws .S s h → h.g[g.toNat] = some r → r.c ≠ 0 → n ≠ 0 → n.toNat ≤ 2 ^ r.c →
      n.toNat ≤ r.tiles.length → exec (.rpop w g n) s = .next (ranOn ws .S s h s
        (h.setRing g (some { r with head := (r.head + n.toNat) % 2 ^ r.c, tiles := r.tiles.drop n.toNat })))) ∧
    (ringWait h .L g = none → Clear wl .L s h → Sound h .L → s.heat? h.id.uid = some h → n ≠ 0 →
      (h.g[g.toNat] = none ∨ ∃ r, h.g[g.toNat] = some r ∧ (r.c = 0 ∨ 2 ^ r.c < n.toNat)) →
      Raises (.rpush w g n) .L s h 0x12 0 0) ∧
    (ringWait h .S g = none → Clear ws .S s h → Sound h .S → s.heat? h.id.uid = some h → n ≠ 0 →
      (h.g[g.toNat] = none ∨ ∃ r, h.g[g.toNat] = some r ∧ (r.c = 0 ∨ 2 ^ r.c < n.toNat)) →
      Raises (.rpop w g n) .S s h 0x12 0 0) ∧
    (n = 0 → s.heat? h.id.uid = some h →
      (Clear wl .L s h → Sound h .L → Raises (.rpush w g n) .L s h 0x01 0 0) ∧
      (Clear ws .S s h → Sound h .S → Raises (.rpop w g n) .S s h 0x01 0 0)))

/-- 07/R191, R192. Reading and pushing at the issue (log 3), and the unwrapped elements of a ring-bound data stream in GATQ
(log 63), are DESIGN CHOICEs. -/
def Obligations.StreamLoadWords : Prop :=
  ∀ (s s1 : State) (h : Heat) (w : Slot) (q p : BitVec 4) (upd qi : BitVec 2) (d : QDesc) (k : TVal)
    (parts : List (Chunk × List (Byte × Bool))),
    let ptr := h.p .L p
    let t := ptr.t || d.taint || k.t
    readK h .L w.pred = .ok k → q.toNat < 8 → descOf h .L q = .ok d → (h.stream q).entries.length < 4 →
      (∀ (strided : Bool) (cs : List Chunk),
        let i : Instr := if strided then .ldqs w q p upd else .ldq w q p upd
        let img := imageOf parts
        let bits := if fmtBits d.fmt = 0 then img.bits
          else img.bits &&& BitVec.ofNat 2048 (2 ^ (d.elems * fmtBits d.fmt) - 1)
        Clear ((Issue.short w []).of i) .L s h → streamPlan h .L d ptr.v strided k.v = .ok cs →
          loadMany s h cs = .ok (s1, parts) →
          exec i s = .next (ranOn ((Issue.short w []).of i) .L s h s1 (advance
            (pushEntry (countReads h parts) q ⟨bits, img.taint ||| allTaint t⟩) .L p d upd))) ∧
      (∀ idx : VReg,
        let es := elementsOf d ptr.v idx k.v
        Clear ((Issue.short w []).of (.gatq w q p qi)) .L s h → fmtBits d.fmt = 32 →
          headEntry h (12 + qi.setWidth 4) .X = .ok idx → elementCheck es = none →
          loadMany s h (es.map fun e => ⟨e.2.1, 4, 4 * e.1⟩) = .ok (s1, parts) →
          ∃ e, exec (.gatq w q p qi) s = .next (ranOn ((Issue.short w []).of (.gatq w q p qi)) .L s h s1
              (popEntry (pushEntry (countReads h parts) q e) (12 + qi.setWidth 4))) ∧
            e.bits = (imageOf parts).bits)

/-- 07/R191, R192; 03/R63. The unwrapped elements of a ring-bound data stream in SCATQ are a DESIGN CHOICE (log 63). -/
def Obligations.StreamStoreWords : Prop :=
  ∀ (s s1 : State) (h : Heat) (w : Slot) (q p : BitVec 4) (upd qi : BitVec 2) (d : QDesc) (k : TVal) (e : VReg),
    let ptr := h.p .S p
    let t := ptr.t || d.taint || k.t
    let bb := blockBytes d.fmt
    let lane (i : Nat) : Bool := if fmtBits d.fmt ≠ 0 then e.taint.getLsbD (i / 4) else
      (List.range 64).any fun j => decide (i / bb * bb / 4 ≤ j ∧ 4 * j < i / bb * bb + bb) && e.taint.getLsbD j
    let half (i : Nat) : Bool := fmtBits d.fmt == 4 && d.elems % 2 == 1 && i + 1 == d.rowBytes
    readK h .S w.pred = .ok k → 8 ≤ q.toNat → q.toNat < 12 → descOf h .S q = .ok d → headEntry h q .X = .ok e →
      (∀ (strided : Bool) (cs : List Chunk),
        let i : Instr := if strided then .stqs w q p upd else .stq w q p upd
        let plain := cs.map fun c => (c.va, (List.range c.n).map fun n => (e.byte (c.at_ + n), t || lane (c.at_ + n)))
        let data := cs.map fun c => (c.va, (List.range c.n).map fun n =>
          let old := oldByte s h (c.va + BitVec.ofNat 64 n)
          if half (c.at_ + n) then
            ((e.byte (c.at_ + n) &&& 0x0F) ||| (old.1 &&& 0xF0), t || lane (c.at_ + n) || old.2)
          else (e.byte (c.at_ + n), t || lane (c.at_ + n)))
        Clear ((Issue.short w []).of i) .S s h → streamPlan h .S d ptr.v strided k.v = .ok cs →
          storeMany s h data = .ok s1 →
          exec i s = .next (ranOn ((Issue.short w []).of i) .S s h s1
            (advance (popEntry (countStores h plain) q) .S p d upd))) ∧
      (∀ idx : VReg,
        let es := elementsOf d ptr.v idx k.v
        let data := es.map fun x => (x.2.1, (List.range 4).map fun i =>
          (e.byte (4 * x.1 + i), t || x.2.2 || e.taint.getLsbD x.1))
        Clear ((Issue.short w []).of (.scatq w q p qi)) .S s h → fmtBits d.fmt = 32 →
          headEntry h (12 + qi.setWidth 4) .X = .ok idx → elementCheck es = none → storeMany s h data = .ok s1 →
          exec (.scatq w q p qi) s = .next (ranOn ((Issue.short w []).of (.scatq w q p qi)) .S s h s1
            (popEntry (popEntry (countStores h data) (12 + qi.setWidth 4)) q)))

/-- The frame of L's and S's short words; the bytes stored are those of the meaning's own plan. -/
def Obligations.StreamWordFrame : Prop :=
  ∀ (s t : State) (w : Slot) (q p : BitVec 4) (upd qi : BitVec 2) (sa co : BitVec 6) (imm : BitVec 10) (en : Bool)
    (ring : BitVec 3) (fmt : BitVec 4) (e1 : BitVec 9) (stamp : BitVec 16) (n : BitVec 11) (i : Instr),
    let woken := t.dev = { s.dev with gated := t.dev.gated, touched := t.dev.touched, requests := t.dev.requests }
    let outside (data : Heat → List (Dword × List (Byte × Bool)) → Prop) : Prop :=
      ∀ die pa, assoc (pa / 128) s.mem.sealedLines = none →
        (∀ h c l, s.acting = some (h, c) → data h l → ¬ storedTo h s l pa) → (viewByte t die pa).1 = (viewByte s die pa).1
    let row (strided : Bool) (h : Heat) (l : List (Dword × List (Byte × Bool))) : Prop :=
      ∃ k d e cs, readK h .S w.pred = .ok k ∧ descOf h .S q = .ok d ∧ headEntry h q .X = .ok e ∧
        streamPlan h .S d (h.p .S p).v strided k.v = .ok cs ∧
        l = rowStores s h d cs (rowData d e ((h.p .S p).t || d.taint || k.t) cs)
    let elements (h : Heat) (l : List (Dword × List (Byte × Bool))) : Prop :=
      ∃ k d e idx, readK h .S w.pred = .ok k ∧ descOf h .S q = .ok d ∧ headEntry h q .X = .ok e ∧
        headEntry h (12 + qi.setWidth 4) .X = .ok idx ∧ l = (elementsOf d (h.p .S p).v idx k.v).map fun x =>
          (x.2.1, withTaint ((h.p .S p).t || d.taint || k.t || x.2.2 || e.taint.getLsbD x.1)
            ((List.range 4).map fun i => e.byte (4 * x.1 + i)))
    (i ∈ ([.nopl w, .nops w, .lPset w p sa, .sPset w p sa, .lPadd w p imm, .sPadd w p imm,
        .lQset w q sa en ring fmt e1 stamp, .sQset w q sa en ring fmt e1 stamp, .lCwait w co, .sCwait w co,
        .rpush w ring n, .rpop w ring n] : List Instr) → exec i s = .next t →
      SameMemory s t ∧ SameDevice s t ∧ HeatsKept (fun h k => k.c = h.c ∧ k.x = h.x ∧ SameCtl h k) s t) ∧
    (i ∈ ([.ldq w q p upd, .ldqs w q p upd, .gatq w q p qi] : List Instr) → exec i s = .next t →
      SameBytes s t ∧ woken ∧ HeatsKept (fun h k => k.c = h.c ∧ k.x = h.x ∧ k.pS = h.pS ∧ k.g = h.g ∧
        ∀ r, r ≠ q → r ≠ 12 + qi.setWidth 4 → k.stream r = h.stream r) s t) ∧
    (i ∈ ([.stq w q p upd, .stqs w q p upd, .scatq w q p qi] : List Instr) → exec i s = .next t →
      woken ∧ HeatsKept (fun h k => k.c = h.c ∧ k.x = h.x ∧ k.pL = h.pL ∧ k.g = h.g ∧
        ∀ r, r ≠ q → r ≠ 12 + qi.setWidth 4 → k.stream r = h.stream r) s t) ∧
    (exec (.stq w q p upd) s = .next t → outside (row false)) ∧
    (exec (.stqs w q p upd) s = .next t → outside (row true)) ∧
    (exec (.scatq w q p qi) s = .next t → outside elements)

/-- 07/R194 to R225; 08/R234: the issue of commands. What they do is EngineEvents'. -/
def Obligations.EngineCommandWords : Prop :=
  (∀ (s : State) (h : Heat) (p : Seat) (out : Bool), (h.seat p).seen = [] →
    let x := (versionAt h.versC .xferbar (h.tt p) ⟨h.ctl.xferbar, false⟩).v
    let va := x &&& 0xFFFFFFFFFFFFFFF0
    (x.getLsbD 0 = false → startTransfer s h p (some out) = .ok (s, none)) ∧
    (x.getLsbD 0 = true → stashWait s h va 16 = none → ∀ s2, countTransfer s h va out true = .ok s2 →
      startTransfer s h p (some out) = .ok (s2, some (va, out)))) ∧
  ∀ (s s1 s2 : State) (h : Heat) (xf : Option (Dword × Bool)) (w : Slot) (c : Ctl) (kt : TVal),
    let wi (names : List (BitVec 6)) (eng op : Nat) (i : Instr) : Issue :=
      ((Issue.long w c.stamp names).of i).command eng op c
    let after (p : Seat) (op : Nat) (kind : CmdKind) : State :=
      { s2 with cmds := s2.cmds ++ [newCmd s2 h p c op kind (some c.co.toNat) xf], nextId := s2.nextId + 1 }
    let begun (p : Seat) (op : Nat) (kind : CmdKind) : Heat :=
      { h.begin c.co.toNat p (engineOf kind) op with
        cmdCount := h.cmdCount + 1, hnd := if p = .L then none else h.hnd }
    let settled (p : Seat) : Prop := (h.ahead p (· == .stash)) = none ∧ readK h p w.pred = .ok kt
    let queues (i : Instr) (names : List (BitVec 6)) (p : Seat) (op : Nat) (kind : CmdKind) : Prop :=
      Clear (wi names (engineOf kind) op i) p s h → settled p →
        exec i s = .next (ranOn (wi names (engineOf kind) op i) p s h (after p op (kind.taint kt.t))
          (begun p op kind))
    let room (p : Seat) : Prop := p = .L → h.hnd = none ∨ waitingHandlers s h.core < 8
    let atOnce (i : Instr) (names : List (BitVec 6)) (eng op : Nat) (p : Seat) : Prop :=
      Clear (wi names eng op i) p s h → settled p → room p →
        ∃ t r, exec i s = .next (ranOn (wi names eng op i) p s h t r) ∧ (r.obj c.co.toNat).state = 2 ∧ r.c = h.c
    let counts (p : Seat) (out : Bool) : Prop := startTransfer s1 h p (some out) = .ok (s2, xf)
    let plain : Prop := s1 = s ∧ s2 = s ∧ xf = none
    h.busy c.co.toNat = false → (queued s1 h.core).length < 32 →
      (∀ (ptr : BitVec 4) (sa : BitVec 6) (len : BitVec 12) (x : TVal) (n : Nat),
        let q := h.p .L ptr
        let i := Instr.cpyin w ptr sa len c
        s1 = s → counts .L false → readS h .L sa = .ok x → lengthOf h .L len = .ok n → n < 2 ^ 32 →
          x.v.toNat % 4 = 0 → q.v.toNat % 4 = 0 → n % 4 = 0 → overlap x.v.toNat q.v.toNat n = false →
          (n ≠ 0 → queues i (sa :: lengthScalar len) .L 0x07 (.copy x.v.toNat q.v.toNat n (x.t || q.t))) ∧
          (n = 0 → atOnce i (sa :: lengthScalar len) 1 0x07 .L)) ∧
      (∀ (ptr : BitVec 4) (sa : BitVec 6) (len : BitVec 12) (x : TVal) (n : Nat),
        let q := h.p .S ptr
        let i := Instr.cpyout w ptr sa len c
        s1 = s → counts .S true → readS h .S sa = .ok x → lengthOf h .S len = .ok n → n < 2 ^ 32 →
          x.v.toNat % 4 = 0 → q.v.toNat % 4 = 0 → n % 4 = 0 → overlap q.v.toNat x.v.toNat n = false →
          (n ≠ 0 → queues i (sa :: lengthScalar len) .S 0x07 (.copy q.v.toNat x.v.toNat n (x.t || q.t))) ∧
          (n = 0 → atOnce i (sa :: lengthScalar len) 1 0x07 .S)) ∧
      (∀ (ptr : BitVec 4) (sa : BitVec 6) (n : BitVec 11) (retire : Bool) (x : TVal),
        let q := h.p .S ptr
        s1 = s → counts .S true → readS h .S sa = .ok x → x.v.toNat % (if retire then 32 else 4) = 0 → n ≠ 0 →
          q.v.toNat % 4 = 0 → queues (.asrcpy w ptr sa n retire c) [sa] .S 0x0A
            (.asrcpy x.v.toNat q.v.toNat n.toNat retire (x.t || q.t))) ∧
      (∀ (pb pi : BitVec 4) (disp : BitVec 14) (r : GatherRec) (bag : Option Bag),
        let z : TVal := ⟨0, false⟩
        counts .L false → readGather s h .L disp c false = .ok (s1, r) → currentBag h r = .ok bag →
          gatherRing h .L r = .ok () →
          (r.n ≠ 0 → queues (.gatr w pb pi disp c) [] .L 0x08 (.gatr r (h.p .L pb) (h.p .L pi)
            (if r.kind = 2 then h.p .L (BitVec.ofNat 4 r.operand) else z)
            (if r.tagMode = 2 then h.p .L (BitVec.ofNat 4 r.tagPtr) else z) (bag.map (·.id)))) ∧
          (r.n = 0 → atOnce (.gatr w pb pi disp c) [] 2 0x08 .L)) ∧
      (∀ (pb pi : BitVec 4) (disp : BitVec 14) (r : GatherRec),
        counts .S true → readGather s h .S disp c true = .ok (s1, r) → gatherRing h .S r = .ok () →
          (r.n ≠ 0 → queues (.scatr w pb pi disp c) [] .S 0x08 (.scatr r (h.p .S pb) (h.p .S pi)
            (if r.kind = 2 then h.p .S (BitVec.ofNat 4 r.operand) else ⟨0, false⟩))) ∧
          (r.n = 0 → atOnce (.scatr w pb pi disp c) [] 2 0x08 .S)) ∧
      (∀ (tag : BitVec 4) (sa lines1 : BitVec 6) (x : TVal), plain → readS h .L sa = .ok x → x.v.toNat % 128 = 0 →
        queues (.ldblk w tag sa lines1 c) [sa] .L 0x09 (.ldblk tag x.v (lines1.toNat + 1))) ∧
      (∀ tag : BitVec 4, s1 = s → Clear (wi [] 7 0x09 (.ldblkRel w tag c)) .L s h → room .L →
        ∃ t r, exec (.ldblkRel w tag c) s = .next (ranOn (wi [] 7 0x09 (.ldblkRel w tag c)) .L s h t r) ∧
          r.blocks = h.blocks.filter (fun b => b.tag != tag) ∧ (r.obj c.co.toNat).state = 2 ∧
          (r.obj c.co.toNat).status.getLsbD 4 = false ∧ r.c = h.c ∧ t.mem = s.mem) ∧
      (∀ slot : BitVec 4, plain → (mappedSlots s h.id.uid).contains slot = true →
        queues (.stunmap w slot c) [] .L 0x0C (.stflush [slot] true) ∧
        queues (.stflush w false slot c) [] .L 0x0D (.stflush [slot] false)) ∧
      (∀ slot : BitVec 4, plain →
        queues (.stflush w true slot c) [] .L 0x0D (.stflush (mappedSlots s h.id.uid) false)) ∧
      (∀ (disp : BitVec 22) (b : Bag), readBag disp s h = .ok (s1, b) → s2 = s1 → xf = none →
        Clear (wi [] 3 0x0E (.bagopen w disp c)) .L s h → exec (.bagopen w disp c) s =
          .next (ranOn (wi [] 3 0x0E (.bagopen w disp c)) .L s h (after .L 0x0E (.bagopen b.id))
            { begun .L 0x0E (.bagopen b.id) with bags := h.bags ++ [b] })) ∧
      (∀ (disp : BitVec 22) (b : Bag), plain → bagNamed h .S (displace h.S.pc disp) = .ok b →
        Clear (wi [] 3 0x09 (.bagclose w disp c)) .S s h → exec (.bagclose w disp c) s =
          .next (ranOn (wi [] 3 0x09 (.bagclose w disp c)) .S s h (after .S 0x09 (.bagclose b.id))
            { begun .S 0x09 (.bagclose b.id) with
              bags := mapIf (fun x => x.id == b.id) (fun x => { x with closeTT := some (h.tt .S) }) h.bags })) ∧
      ∀ (ptr : BitVec 4) (g seq rank n src dst : Nat) (sig : CollSig) (t : Bool),
        let k := CmdKind.coll g seq rank n sig src dst t
        collPrep ptr s h = .ok (s1, k, false) → s2 = s1 → xf = none → settled .S →
          Clear (wi [] 5 0x0B (.coll w ptr c)) .S s h →
          exec (.coll w ptr c) s = .next (ranOn (wi [] 5 0x0B (.coll w ptr c)) .S s h
            (nextColl (after .S 0x0B (k.taint kt.t)) h.id.job g) (begun .S 0x0B k))

/-- 07/R204, R220, R221, R224; 20/R451; 02/R22. That an address within a page counts from its page, and bits 63:48 of it do
not count, is a DESIGN CHOICE (log 77). -/
def Obligations.HierarchyWords : Prop :=
  (∀ (s : State) (h : Heat) (w : Slot) (sa : BitVec 6) (x : TVal) (stamp : BitVec 16), readS h .L sa = .ok x →
    (∀ (level : BitVec 2) (lines1 : BitVec 8),
      let wi := (Issue.long w stamp [sa]).of (.pref w sa level lines1 stamp)
      Clear wi .L s h → exec (.pref w sa level lines1 stamp) s = .next (ranOn wi .L s h s h)) ∧
    (∀ (ptr slot : BitVec 4) (lines : BitVec 16),
      let wi := (Issue.long w stamp [sa]).of (.stmap w ptr sa slot lines stamp)
      let q := (h.p .L ptr).v
      let off := q.toNat - localBase
      let n := 128 * lines.toNat
      Clear wi .L s h → q.toNat % 128 = 0 → x.v.toNat % 128 = 0 →
        (∀ t ∈ s.stashes, t.heat = h.id.uid → t.slot ≠ slot) → localBase ≤ q.toNat → off + n ≤ 4096 * h.spad.length →
        mappedOver s h.id.uid off n = false → localRange s h x.v lines.toNat = false →
        lines ≠ 0 → lines.toNat ≤ 16384 →
        exec (.stmap w ptr sa slot lines stamp) s = .next (ranOn wi .L s h { s with stashes := s.stashes ++
          [⟨h.id.uid, h.tt .L + 1, slot, off, x.v, lines.toNat, [], []⟩] } h)) ∧
    (∀ (size : BitVec 2) (pages1 : BitVec 14),
      let wi := (Issue.long w stamp [sa]).of (.invm w sa size pages1 stamp)
      Clear wi .L s h →
        (s.privileged h = true → exec (.invm w sa size pages1 stamp) s = .next (ranOn wi .L s h s { h with
          invm := some (aheadOfMarker s h.id.job), marker := some (x.v, pages1.toNat + 1, size.toNat) })) ∧
        (s.privileged h = false → Sound h .L → Raises (.invm w sa size pages1 stamp) .L s h clsPrivilege 0 0))) ∧
  (∀ (s : State) (h : Heat) (u : Nat) (ids : List Nat) (b : Dword) (n z : Nat), s.heat? u = some h →
    h.invm = some ids → h.marker = some (b, n, z) → (∀ c ∈ s.cmds, c.id ∉ ids) →
    ∃ t, exec (.invmComplete u) s = .next t ∧
      (∀ e, e ∈ t.tlb ↔ e ∈ s.tlb ∧ ¬ (e.job = h.id.job ∧ (z = 2 ∨
        let unit := if z = 0 then 65536 else 16777216
        let pg := if e.big then 16777216 else 65536
        let lo := b.toNat % 2 ^ 48 / unit * unit
        e.page * pg < lo + n * unit ∧ lo < (e.page + 1) * pg))) ∧
      t.mem = s.mem ∧ t.cmds = s.cmds ∧ ∃ r, t.heat? u = some r ∧ r.invm = none ∧ r.c = h.c ∧ SameLXS h r ∧
        ∀ f : Fin 6, r.fifo[f] = h.fifo[f] + h.hidden.countP fun t => t == (f.val, openEnd)) ∧
  ∀ (s : State) (h : Heat) (w : Slot) (disp : BitVec 30) (stamp : BitVec 16),
    let wi := (Issue.long w stamp []).of (.hnd w disp stamp)
    Clear wi .L s h →
      (h.id.coxed = false → exec (.hnd w disp stamp) s =
        .next (ranOn wi .L s h s { h with hnd := some (h.L.pc + disp.signExtend 64 * 4) })) ∧
      (h.id.coxed = true → Sound h .L → Raises (.hnd w disp stamp) .L s h clsIllegal 0 0)

/-- 08/R228 to R236, R249, R250. Rounding is `Fmt.deliver` (03/R56 to R58), a function's value `Fun.value` (08/R236). -/
def Obligations.VectorWords : Prop :=
  (∀ (s : State) (h : Heat) (w : Slot) (va vd : BitVec 5) (vb : BitVec 4) (k : TVal) (a : VReg) (pop : Heat → Heat),
    let ty := h.x.types
    let n := ty.width
    let b := h.v vb
    let old : VReg := if vd.toNat < 16 then h.v (streamOf vd) else ⟨0, 0⟩
    let active (i : Nat) : Prop := i < 2048 / n ∧ k.v.getLsbD (i * n / 32) = true
    let goes (i : Instr) (regs srcs : List (BitVec 5)) (lat : Nat) (op : Nat → Nat × Conds) (taint : BitVec 64) : Prop :=
      let wi : Issue := { xIssue w regs i with xreads := (regsOf srcs).map .v }
      Clear wi .X s h → readable h srcs = true →
        ∃ (r : VReg) (c : Conds), exec i s = .next (ranOn wi .X s h s (markResult (s.now + lat) vd h
            (vecWrite (raiseX (pop h) c) vd k.v r k.t))) ∧
          r.taint = taint ∧ (∀ i, active i → r.elem n i = (op i).1 % 2 ^ n) ∧
          ∀ f ∈ [Conds.invalid, Conds.divZero, Conds.overflow, Conds.underflow, Conds.inexact],
            (f c = true ↔ ∃ i, active i ∧ f (op i).2 = true)
    let x (i : Nat) := a.elem n i
    let y (i : Nat) := b.elem n i
    let bin (i : Instr) (lat : Nat) (op : Nat → Nat → Nat × Conds) : Prop :=
      goes i [vd, va, vb.setWidth 5] [va, vb.setWidth 5] lat (fun i => op (x i) (y i)) (a.taint ||| b.taint)
    let un (i : Instr) (lat : Nat) (op : Nat → Nat × Conds) : Prop := goes i [vd, va] [va] lat (fun i => op (x i)) a.taint
    let val (v : Nat) : Nat × Conds := (v, Conds.none)
    readK h .X w.pred = .ok k → vecSource false h va = .ok (a, pop) → vecRoom false h vd = .ok () →
      (∀ f : Fmt, ty.t.toNat ≤ 2 → kindCode ty.t = .float f →
        bin (.vadd w vd va vb) 4 (fun x y => f.deliver ty.rm ((f.decode x).add ty.rm (f.decode y))) ∧
        bin (.vsub w vd va vb) 4 (fun x y => f.deliver ty.rm ((f.decode x).add ty.rm (f.decode y).neg)) ∧
        bin (.vmul w vd va vb) 4 (fun x y => f.deliver ty.rm ((f.decode x).mul (f.decode y))) ∧
        (vd.toNat < 16 → goes (.vfma w vd va vb) [vd, va, vb.setWidth 5] [vd, va, vb.setWidth 5] 4
          (fun i => f.deliver ty.rm (((f.decode (x i)).mul (f.decode (y i))).add ty.rm (f.decode (old.elem n i))))
          (a.taint ||| b.taint ||| old.taint)) ∧
        bin (.vmin w vd va vb) 4 (f.minMax false) ∧ bin (.vmax w vd va vb) 4 (f.minMax true) ∧
        un (.vabs w vd va) 4 (fun x => val (x % 2 ^ (n - 1))) ∧
        un (.vneg w vd va) 4 (fun x => val (if x < 2 ^ (n - 1) then x + 2 ^ (n - 1) else x - 2 ^ (n - 1))) ∧
        un (.vrcp w vd va) 8 (Fun.apply .rcp f ty.rm) ∧ un (.vrsq w vd va) 8 (Fun.apply .rsq f ty.rm) ∧
        un (.vexp2 w vd va) 8 (Fun.apply .exp2 f ty.rm) ∧ un (.vlog2 w vd va) 8 (Fun.apply .log2 f ty.rm)) ∧
      (∀ sg : Bool, 5 ≤ ty.t.toNat → kindCode ty.t = .int sg n →
        let sv (x : Nat) : Int := if sg = true ∧ 2 ^ (n - 1) ≤ x then (x : Int) - 2 ^ n else x
        bin (.vadd w vd va vb) 2 (fun x y => val (x + y)) ∧
        bin (.vsub w vd va vb) 2 (fun x y => val (x + (2 ^ n - y))) ∧
        bin (.vmul w vd va vb) 4 (fun x y => val (x * y)) ∧
        (vd.toNat < 16 → goes (.vfma w vd va vb) [vd, va, vb.setWidth 5] [vd, va, vb.setWidth 5] 4
          (fun i => val (x i * y i + old.elem n i)) (a.taint ||| b.taint ||| old.taint)) ∧
        bin (.vmin w vd va vb) 2 (fun x y => val (if sv x < sv y then x else y)) ∧
        bin (.vmax w vd va vb) 2 (fun x y => val (if sv x < sv y then y else x)) ∧
        un (.vabs w vd va) 2 (fun x => val (sv x).natAbs) ∧
        un (.vneg w vd va) 2 (fun x => val (2 ^ n - x))) ∧
      (ty.t.toNat ≤ 12 →
        bin (.vand w vd va vb) 2 (fun x y => val (x &&& y)) ∧ bin (.vor w vd va vb) 2 (fun x y => val (x ||| y)) ∧
        bin (.vxor w vd va vb) 2 (fun x y => val (x ^^^ y)) ∧
        bin (.vshl w vd va vb) 2 (fun x y => val (x * 2 ^ (y % n))) ∧
        bin (.vshr w vd va vb) 2 (fun x y => val (x / 2 ^ (y % n))) ∧
        bin (.vsar w vd va vb) 2 (fun x y => val
          (x / 2 ^ (y % n) + if 2 ^ (n - 1) ≤ x then 2 ^ n - 2 ^ (n - y % n) else 0)) ∧
        un (.vmov w vd va) 2 val)) ∧
  (∀ (s : State) (h : Heat) (w : Slot) (fmt af wf : BitVec 4) (rm : BitVec 3) (asg wsg : Bool),
    let is (i : Instr) (ty : XTypes) : Prop := Clear (xIssue w [] i) .X s h →
      exec i s = .next (ranOn (xIssue w [] i) .X s h s { h with x := { h.x with types := ty } })
    is (.sett w fmt rm) { h.x.types with t := fmt, rm := rm } ∧
    is (.settM w af wf asg wsg) { h.x.types with af := af, wf := wf, asg := asg, wsg := wsg } ∧
    is (.settO w fmt) { h.x.types with out := fmt }) ∧
  ∀ (neg : Bool) (e : Int), (∀ f : Fun, Fun.value f (.nan true) = (.nan true, Conds.none)) ∧
    Fun.value .rcp (.fin neg 0 e) = (.inf neg, { Conds.none with divZero := true }) ∧
    Fun.value .rsq (.fin neg 0 e) = (.inf neg, { Conds.none with divZero := true }) ∧
    Fun.value .log2 (.fin neg 0 e) = (.inf true, { Conds.none with divZero := true }) ∧
    Fun.value .rcp (.inf neg) = (.fin neg 0 0, Conds.none) ∧ Fun.value .exp2 (.inf true) = (.fin false 0 0, Conds.none)

/-- 08/R235, R237 to R241, R244, R246, R247. That VSCAN folds from the identity, so that an inclusive scan's element 0 is
op(identity, x_0) and not x_0 itself, is a DESIGN CHOICE (log 69). -/
def Obligations.LaneMovingWords : Prop :=
  ∀ (s : State) (h : Heat) (w : Slot) (va vd : BitVec 5) (vb : BitVec 4) (k : TVal) (a : VReg) (pop : Heat → Heat),
    let ty := h.x.types
    let n := ty.width
    let b := h.v vb
    let active (i : Nat) : Prop := i < 2048 / n ∧ k.v.getLsbD (i * n / 32) = true
    let goesTo (cb : Bool) (i : Instr) (w0 : Issue) (srcs : List (BitVec 5)) (lat : Nat) (whole : Bool)
        (pop : Heat → Heat) (P : VReg → Prop) : Prop :=
      let wi : Issue := { w0 with xreads := (regsOf srcs).map .v }
      Clear wi .X s h → readable h srcs = true → vecRoom cb h vd = .ok () → ∃ (r : VReg) (c : Conds),
        exec i s = .next (ranOn wi .X s h s (markResult (s.now + lat) vd h
          (vecWrite (raiseX (pop h) c) vd (if whole then BitVec.allOnes 64 else k.v) r k.t))) ∧ P r
    let goes := goesTo false
    let ab := [vd, va, vb.setWidth 5]
    readK h .X w.pred = .ok k → (vecSource false h va = .ok (a, pop) →
      goes (.vsel w vd va vb) { xIssue w ab (.vsel w vd va vb) with always := true } [va, vb.setWidth 5] 2 true pop
        (fun r => ∀ j, j < 64 → r.elem 32 j = (if k.v.getLsbD j then a.elem 32 j else b.elem 32 j) ∧
          r.taint.getLsbD j = (if k.v.getLsbD j then a.taint.getLsbD j else b.taint.getLsbD j)) ∧
      goes (.vperm w vd va vb) (xIssue w ab (.vperm w vd va vb)) [va, vb.setWidth 5] 3 false pop
        (fun r => ∀ j, j < 64 → r.elem 32 j = a.elem 32 (b.elem 32 j % 64) ∧
          r.taint.getLsbD j = (a.taint.getLsbD (b.elem 32 j % 64) || b.taint.getLsbD j)) ∧
      (∀ (sa : BitVec 6) (x : TVal), ty.t.toNat ≤ 12 → readS h .X sa = .ok x →
        goes (.vbcst w vd sa) { xIssue w [vd] (.vbcst w vd sa) with names := [sa], reads := [sa] } [] 2 false id
          (fun r => (∀ i, active i → r.elem n i = x.v.toNat % 2 ^ n) ∧ r.taint = allTaint x.t)) ∧
      (∀ sg : Bool, 5 ≤ ty.t.toNat → kindCode ty.t = .int sg n → goes (.vidx w vd) (xIssue w [vd] (.vidx w vd)) [] 2 false id
        (fun r => (∀ i, active i → r.elem n i = min i (if sg then 2 ^ (n - 1) - 1 else 2 ^ n - 1)) ∧ r.taint = 0)) ∧
      (∀ f : Fmt, ty.t.toNat ≤ 2 → kindCode ty.t = .float f → goes (.vidx w vd) (xIssue w [vd] (.vidx w vd)) [] 2 false id
        (fun r => (∀ i, active i → r.elem n i = (f.deliver ty.rm (.fin false i 0)).1 % 2 ^ n) ∧ r.taint = 0)) ∧
      (∀ fmt : BitVec 4, ty.t.toNat ≤ 12 → fmt.toNat ≤ 12 →
        let ws := (kindCode fmt).width
        goes (.vcvt w vd va fmt) (xIssue w [vd, va] (.vcvt w vd va fmt)) [va] 4 false pop (fun r =>
          ∀ i, active i → r.elem n i = if i < 2048 / max ws n then
            (convert (kindCode fmt) (kindCode ty.t) ty.rm (a.elem ws i)).1 % 2 ^ n else 0)) ∧
      (∀ (op : BitVec 4) (f : Nat → Nat → Nat × Conds) (e : Nat), wideOrInt ty = true → ty.t.toNat ≤ 12 →
        reduction op.toNat ty = some (f, e) →
        goes (.vred w vd va op) (xIssue w [vd, va] (.vred w vd va op)) [va] 8 true pop (fun r =>
          (∀ i, i < 2048 / n → r.elem n i = (tree f 9 (contributors n k.v a e)).1 % 2 ^ n) ∧
          r.taint = allTaint (a.taint &&& k.v != 0) ∧
          (op = 0 → 5 ≤ ty.t.toNat → ∀ i, i < 2048 / n → r.elem n i = (contributors n k.v a 0).sum % 2 ^ n))) ∧
      (∀ (op : BitVec 3) (excl : Bool) (f : Nat → Nat → Nat × Conds) (e : Nat), wideOrInt ty = true → ty.t.toNat ≤ 12 →
        reduction op.toNat ty = some (f, e) →
        goes (.vscan w vd va excl op) (xIssue w [vd, va] (.vscan w vd va excl op)) [va] 8 true pop (fun r =>
          ∀ i, i < 2048 / n → r.elem n i =
            (((contributors n k.v a e).take (if excl then i else i + 1)).foldl (fun x y => (f x y).1) e) % 2 ^ n)) ∧
      (∀ (d : QDesc) (p cw bytes : Nat), descOf h .X (streamOf vd) = .ok d → cbOf d.fmt = some (p, cw, bytes) →
        16 ≤ vd.toNat →
        let lane (i : Nat) : Sys2Proof.Machine.Num :=
          if k.v.getLsbD i = true ∧ i < d.elems then f32.decode (a.elem 32 i) else .fin false 0 0
        let block (m : Nat) : Nat := (cbBlock p cw ((List.range 32).map fun i => lane (32 * m + i))).1
        goesTo true (.vqnt w vd va) (xIssue w [vd, va] (.vqnt w vd va)) [va] 6 true pop (fun r => r.bits =
          BitVec.ofNat 2048 (((List.range (d.elems / 32)).map fun m => block m * 2 ^ (8 * bytes * m)).sum)))) ∧
      ∀ (d : QDesc) (p cw bytes : Nat), vecSource true h va = .ok (a, pop) → descOf h .X (streamOf va) = .ok d →
        cbOf d.fmt = some (p, cw, bytes) → 16 ≤ va.toNat →
        goes (.vdqn w vd va) (xIssue w [vd, va] (.vdqn w vd va)) [] 6 false pop (fun r => ∀ j, j < 64 → r.elem 32 j =
          if j < d.elems then (f32.deliver rne (cbValue p cw
            (fieldAt a.bits.toNat (8 * bytes * (j / 32)) (8 * bytes)) (j % 32))).1 % 2 ^ 32 else 0)

/-- 08/R242, R243, R248. -/
def Obligations.PredicateAndConditionalStreamWords : Prop :=
  (∀ (s : State) (h : Heat) (w : Slot) (kd : BitVec 3) (cond : BitVec 2) (va : BitVec 5) (vb : BitVec 4) (k : TVal)
    (a : VReg) (pop : Heat → Heat),
    let ty := h.x.types
    let n := ty.width
    let b := h.v vb
    let wi : Issue := { xIssue w [va, vb.setWidth 5] (.vcmp w kd cond va vb) with
      version := true, xreads := (regsOf [va, vb.setWidth 5]).map .v }
    readK h .X w.pred = .ok k → vecSource false h va = .ok (a, pop) → readable h [va, vb.setWidth 5] = true →
      wideOrInt ty = true → ty.t.toNat ≤ 12 → Clear wi .X s h →
      ∃ (bits : Dword) (c : Conds), exec (.vcmp w kd cond va vb) s = .next (ranOn wi .X s h s
          (markBusy (s.now + 2) (.k kd) ((raiseX (pop h) c).setK kd
            ⟨bits, k.t || (a.taint ||| b.taint) &&& k.v != 0⟩))) ∧
        (∀ sg, kindCode ty.t = .int sg n → ∀ j, j < 64 → (bits.getLsbD j = true ↔ k.v.getLsbD j = true ∧
          ∀ i, i < 32 / n →
            let x := intOf sg n (a.elem n (j * (32 / n) + i))
            let y := intOf sg n (b.elem n (j * (32 / n) + i))
            if cond = 0 then x = y else if cond = 1 then x ≠ y else if cond = 2 then x < y else x ≤ y)) ∧
        ∀ f, kindCode ty.t = .float f → ∀ j, j < 64 → (bits.getLsbD j = true ↔ k.v.getLsbD j = true ∧
          ∀ i, i < 32 / n →
            let x := f.decode (a.elem n (j * (32 / n) + i))
            let y := f.decode (b.elem n (j * (32 / n) + i))
            let ordered := ∀ s, x ≠ .nan s ∧ y ≠ .nan s
            if cond = 0 then x.eq y = true else if cond = 1 then x.eq y = false
            else if cond = 2 then x.lt y = true else ordered ∧ (x.lt y = true ∨ x.eq y = true))) ∧
  (∀ (s : State) (h : Heat) (w : Slot) (kd ka kb op : BitVec 3),
    let wi : Issue := { xIssue w [] (.kop w kd ka kb op) with version := true, xreads := [.k ka, .k kb] }
    let m := h.k w.pred
    let a := h.k ka
    let b := h.k kb
    let old := h.k kd
    h.xBusy (.k w.pred) = false → h.xBusy (.k ka) = false → h.xBusy (.k kb) = false → Clear wi .X s h →
      ∃ v : Dword, exec (.kop w kd ka kb op) s = .next (ranOn wi .X s h s (markBusy (s.now + 2) (.k kd)
          (h.setK kd ⟨v, a.t || b.t || m.t || (old.t && m.v != BitVec.allOnes 64)⟩))) ∧
        ∀ j, j < 64 → v.getLsbD j = if m.v.getLsbD j = false then old.v.getLsbD j else
          if op = 0 then a.v.getLsbD j && b.v.getLsbD j else if op = 1 then a.v.getLsbD j || b.v.getLsbD j
          else if op = 2 then a.v.getLsbD j ^^ b.v.getLsbD j else if op = 3 then a.v.getLsbD j && !b.v.getLsbD j
          else !a.v.getLsbD j) ∧
  (∀ (s : State) (h : Heat) (w : Slot) (vd va : BitVec 5) (form : BitVec 4) (d : QDesc) (a : VReg) (pop : Heat → Heat),
    let regs := if form = 2 then [] else [va]
    let wi : Issue := { xIssue w (vd :: regs) (.vcpush w vd va form) with xreads := (regsOf regs).map .v }
    let q := streamOf vd
    let m := h.k w.pred
    let all := (h.stream q).buf ++ if form = 2 then [] else
      ((List.range 64).filter m.v.getLsbD).map fun j => (BitVec.ofNat 32 (a.elem 32 j), a.taint.getLsbD j || m.t)
    let full := all.length / d.elems
    let rest := all.drop (d.elems * full)
    let out := (List.range full).map (fun i => entryOf ((all.drop (d.elems * i)).take d.elems)) ++
      if form ≠ 0 ∧ rest ≠ [] then [entryOf rest] else []
    let go := if form = 2 then id else pop
    descOf h .X q = .ok d → fmtBits d.fmt = 32 → 0 < d.elems → (h.stream q).buf.length < d.elems →
      16 ≤ vd.toNat → (form ≠ 2 → vecSource false h va = .ok (a, pop)) → readable h regs = true → form.toNat ≤ 2 →
      (h.stream q).entries.length + out.length ≤ 4 → Clear wi .X s h →
      exec (.vcpush w vd va form) s = .next (ranOn wi .X s h s (markResult (s.now + 3) vd h
        ((go h).setStream q { (go h).stream q with
          entries := ((go h).stream q).entries ++ out, buf := if form = 0 then rest else [] })))) ∧
  (∀ (s : State) (h : Heat) (w : Slot) (vd va : BitVec 5) (vb form : BitVec 4),
    let bad (i : Instr) (regs srcs : List (BitVec 5)) : Prop :=
      Clear { xIssue w regs i with xreads := (regsOf srcs).map .v } .X s h → readable h srcs = true → Sound h .X →
        s.heat? h.id.uid = some h → Raises i .X s h 0x01 0 0
    let pushed := if form = 2 then [] else [va]
    (16 ≤ vd.toNat → bad (.vfma w vd va vb) [vd, va, vb.setWidth 5] [vd, va, vb.setWidth 5]) ∧
    (vd.toNat < 16 → bad (.vqnt w vd va) [vd, va] [va] ∧ bad (.vcpush w vd va form) (vd :: pushed) pushed) ∧
    (va.toNat < 16 → bad (.vdqn w vd va) [vd, va] []) ∧
    (16 ≤ vd.toNat ∨ va.toNat < 16 → bad (.vcpop w vd va form) [vd, va] [])) ∧
  ∀ (s : State) (h : Heat) (w : Slot) (vd va : BitVec 5) (form : BitVec 4) (d : QDesc),
    let wi := xIssue w [vd, va] (.vcpop w vd va form)
    let q := streamOf va
    let m := h.k w.pred
    let es := (h.stream q).entries
    let pos := (h.stream q).taken
    let n := ((List.range 64).filter m.v.getLsbD).length
    let before (j : Nat) : Nat := pos + ((List.range j).filter m.v.getLsbD).length
    let left := (pos + n) % d.elems
    let gone := (pos + n) / d.elems
    let drop := form = 1 ∧ left ≠ 0
    vd.toNat < 16 → 16 ≤ va.toNat → descOf h .X q = .ok d → fmtBits d.fmt = 32 → pos < d.elems → pos + n ≤ d.elems * es.length → Clear wi .X s h →
      ∃ r : VReg, exec (.vcpop w vd va form) s = .next (ranOn wi .X s h s (markResult (s.now + 3) vd h (vecWrite
          (h.setStream q { h.stream q with entries := es.drop (if drop then gone + 1 else gone), taken := if drop then 0 else left })
          vd m.v r m.t))) ∧
        ∀ j, j < 64 → m.v.getLsbD j = true →
          ∃ e, es[before j / d.elems]? = some e ∧ r.elem 32 j = e.elem 32 (before j % d.elems) ∧
            r.taint.getLsbD j = e.taint.getLsbD (before j % d.elems)

/-- The frame of X's words on the vector engine. -/
def Obligations.VectorWordFrame : Prop :=
  ∀ (s t : State) (w : Slot) (vd va : BitVec 5) (vb fmt af wf op4 form : BitVec 4) (rm kd ka kb op : BitVec 3)
    (cond : BitVec 2) (sa : BitVec 6) (asg wsg : Bool) (i : Instr),
    let kept (h k : Heat) : Prop := k.c = h.c ∧ k.pL = h.pL ∧ k.pS = h.pS ∧ k.g = h.g ∧ SameCtl h k
    let others (h k : Heat) : Prop := ∀ n : BitVec 4, ¬ (vd.toNat < 16 ∧ n = streamOf vd) → k.v n = h.v n
    (i ∈ ([.vadd w vd va vb, .vsub w vd va vb, .vmul w vd va vb, .vfma w vd va vb, .vmin w vd va vb, .vmax w vd va vb,
        .vabs w vd va, .vneg w vd va, .vand w vd va vb, .vor w vd va vb, .vxor w vd va vb, .vshl w vd va vb,
        .vshr w vd va vb, .vsar w vd va vb, .vmov w vd va, .vrcp w vd va, .vrsq w vd va, .vexp2 w vd va, .vlog2 w vd va,
        .vidx w vd, .vbcst w vd sa, .vperm w vd va vb, .vcvt w vd va fmt, .vsel w vd va vb, .vred w vd va op4,
        .vscan w vd va asg op, .vqnt w vd va, .vdqn w vd va, .vcpush w vd va form, .vcpop w vd va form] : List Instr) →
      exec i s = .next t →
      SameMemory s t ∧ SameDevice s t ∧ HeatsKept (fun h k => kept h k ∧ others h k ∧ k.x.k = h.x.k ∧
        k.x.types = h.x.types) s t) ∧
    (i ∈ ([.vcmp w kd cond va vb, .kop w kd ka kb op] : List Instr) → exec i s = .next t →
      SameMemory s t ∧ SameDevice s t ∧ HeatsKept (fun h k => kept h k ∧ k.x.v = h.x.v ∧ k.x.types = h.x.types ∧
        ∀ n : BitVec 3, n ≠ kd → k.k n = h.k n) s t) ∧
    (i ∈ ([.sett w fmt rm, .settM w af wf asg wsg, .settO w fmt] : List Instr) → exec i s = .next t →
      SameMemory s t ∧ SameDevice s t ∧ HeatsKept (fun h k => kept h k ∧ k.x.v = h.x.v ∧ k.x.k = h.x.k ∧ k.q = h.q) s t)

/-- 08/R251 to R271: the issue of the array's commands. The word, the cycle and the cause of the overrun behind LEASE are log
72 (DEDUCED). -/
def Obligations.MatrixWords : Prop :=
  (∀ (s : State) (h : Heat) (w : Slot) (c : Ctl),
    let l := leaseOf s h.crew
    let ty := h.x.types
    let wi (names : List (BitVec 6)) (eng op : Nat) (i : Instr) : Issue :=
      ((Issue.long w c.stamp names).of i).command eng op c
    let after (c : Ctl) (co : Option Nat) (op : Nat) (kind : CmdKind) (last : Option Nat) : State :=
      putLease { s with
          cmds := s.cmds ++ [{ newCmd s h .X c op kind co none with phase := .running }]
          nextId := s.nextId + 1 }
        { l with left := l.left - 1, lastMwld := last }
    let queues (i : Instr) (names : List (BitVec 6)) (op : Nat) (kind : CmdKind) : Prop :=
      Clear (wi names (engineOf kind) op i) .X s h → exec i s = .next (ranOn (wi names (engineOf kind) op i) .X s h
        (after c (some c.co.toNat) op kind l.lastMwld)
        { h.begin c.co.toNat .X (engineOf kind) op with cmdCount := h.cmdCount + 1 })
    let atOnce (i : Instr) (names : List (BitVec 6)) (op : Nat) : Prop :=
      Clear (wi names 4 op i) .X s h → ∃ t r, exec i s = .next (ranOn (wi names 4 op i) .X s h t r) ∧
        (r.obj c.co.toNat).state = 2 ∧ r.c = h.c ∧ t.mem = s.mem
    leased s h = true → (matrixOf s h.id.uid).length < 8 → (h.ahead .X (· == .stash)) = none →
      (∀ (g : BitVec 3) (k1 n1 : BitVec 8),
        let k := k1.toNat + 1
        let n := n1.toNat + 1
        let kind := CmdKind.mwld g k n ty.wf
        let i := Instr.mwld w g k1 n1 c.stamp
        let wl : Issue := { (Issue.long w c.stamp []).of i with engine := some 4 }
        ty.pairOk = true → countOk ty.wf n = true → arrayRing h g (k * rowBytes ty.wf n) true = .ok () →
          firstTile h (tileReady h g) = .ok () → Clear wl .X s h →
          exec i s = .next (ranOn wl .X s h (after (plainCtl c.stamp) none 0x30 kind (some s.nextId))
            { h with cmdCount := h.cmdCount + 1 })) ∧
      (h.busy c.co.toNat = false →
        (∀ (src dst : BitVec 3) (srcQ largest dist : Bool) (dk : BitVec 2) (sr : BitVec 6) (kr1 : BitVec 4)
          (p : Product) (kind : CmdKind) (now : Bool),
          prodPrep p src srcQ dk dst sr s h = .ok (kind, now) →
          let is (i : Instr) (op : Nat) : Prop := (now = false → queues i [sr] op kind) ∧ (now = true → atOnce i [sr] op)
          (∃ off t mw rows, kind = .prod p src srcQ dk.toNat dst rows off ty mw t) ∧
          (p = .mmul → is (.mmul w src srcQ dk dst sr c) 0x32) ∧
          (p = .mdist → is (.mdist w src srcQ dk dst sr c) 0x33) ∧
          (p = .mtopk (kr1.toNat + 1) largest dist → is (.mtopk w src srcQ dk dst largest kr1 dist sr c) 0x34)) ∧
        (∀ (g : BitVec 3) (acc exact : Bool) (disp : BitVec 17) (b : Bag) (mw k n : Nat),
          ty.pairOk = true → bagNamed h .X (displace h.X.pc disp) = .ok b → lastTile s h = some (mw, k, n) →
          countOk ty.af k = true → bagFits b ty n acc exact = true → arrayRing h g (rowBytes ty.af k) false = .ok () →
          inAsr h b.acc b.regionSize = true → firstTile h (tileReady h g || b.phase == .closed) = .ok () →
          (acc = true → queues (.mbag w g acc exact disp c) [] 0x31 (.mbag g b.id acc exact ty mw)) ∧
          (acc = false → Clear (wi [] 3 0x31 (.mbag w g acc exact disp c)) .X s h →
            exec (.mbag w g acc exact disp c) s = .next (ranOn (wi [] 3 0x31 (.mbag w g acc exact disp c)) .X s h
              (after c (some c.co.toNat) 0x31 (.mbag g b.id acc exact ty mw) l.lastMwld)
              { h.begin c.co.toNat .X 3 0x31 with
                cmdCount := h.cmdCount + 1
                bags := mapIf (fun x => x.id == b.id) (fun x => { x with steered := true }) h.bags }))) ∧
        (∀ (force : Bool) (disp : BitVec 17) (b : Bag), bagClosed h (displace h.X.pc disp) = .ok b →
          retireFormat b.kind ty.out = true →
          queues (.mret w force disp c) [] 0x35 (.mret (some b.id) force b.kind b.cells b.tags b.acc ty false)) ∧
        ∀ (kind : BitVec 2) (n1 : BitVec 8) (sr : BitVec 6) (x : TVal),
          let rows := x.v.toNat % 2 ^ 32
          let off := x.v.toNat / 2 ^ 40
          let n := n1.toNat + 1
          readS h .X sr = .ok x → rows ≤ 2 ^ 24 → x.v.toNat / 2 ^ 32 % 2 ^ 8 = 0 → off % 32 = 0 →
          inAsr h off (rows * n * cellSize kind.toNat) = true →
          (retireFormat kind.toNat ty.out = true →
            (rows ≠ 0 → queues (.mretRegion w kind n1 sr c) [sr] 0x35
              (.mret none false kind.toNat n rows off ty x.t)) ∧
            (rows = 0 → atOnce (.mretRegion w kind n1 sr c) [sr] 0x35)) ∧
          (rows ≠ 0 → queues (.mclr w kind n1 sr c) [sr] 0x36 (.mclr kind.toNat n rows off)) ∧
          (rows = 0 → atOnce (.mclr w kind n1 sr c) [sr] 0x36))) ∧
  (∀ (s : State) (h : Heat) (w : Slot) (c : Ctl) (g src dst : BitVec 3) (k1 n1 : BitVec 8) (srcQ largest dist acc exact
      force : Bool) (dk kind : BitVec 2) (sr : BitVec 6) (kr1 : BitVec 4) (disp : BitVec 17),
    let wi (names : List (BitVec 6)) (i : Instr) : Issue := (Issue.long w c.stamp names).of i
    let none_ (i : Instr) (wi : Issue) : Prop := Clear wi .X s h → Raises i .X s h clsNoLease 0 0
    let without (i : Instr) (names : List (BitVec 6)) (eng op : Nat) : Prop := none_ i ((wi names i).command eng op c)
    leased s h = false → (h.ahead .X (· == .stash)) = none → Sound h .X →
      none_ (.mwld w g k1 n1 c.stamp) { wi [] (.mwld w g k1 n1 c.stamp) with engine := some 4 } ∧
      without (.mmul w src srcQ dk dst sr c) [sr] 4 0x32 ∧ without (.mdist w src srcQ dk dst sr c) [sr] 4 0x33 ∧
      without (.mtopk w src srcQ dk dst largest kr1 dist sr c) [sr] 4 0x34 ∧
      without (.mbag w g acc exact disp c) [] 3 0x31 ∧ without (.mret w force disp c) [] 4 0x35 ∧
      without (.mretRegion w kind n1 sr c) [sr] 4 0x35 ∧ without (.mclr w kind n1 sr c) [sr] 4 0x36) ∧
  ∀ (s : State) (h : Heat) (w : Slot),
    let l := leaseOf s h.crew
    (∀ n1 : BitVec 8, Clear ((Issue.short w []).of (.lease w n1)) .X s h → leased s h = false →
      (l.holder = some h.id.uid → l.granted = true → exec (.lease w n1) s = .next
        (ranOn ((Issue.short w []).of (.lease w n1)) .X s h (putLease s { l with granted := false }) h)) ∧
      (∀ text stamp, l.holder ≠ some h.id.uid → leaseOverdue s h = some (.heldBehind text stamp) →
        exec (.lease w n1) s = .next { raiseFault s h (some .X)
          (faultInfo s h .X clsOverrun 0 (overrunStatus stamp 7 0) text none false 15) with waited := false }) ∧
      (l.holder ≠ some h.id.uid → leaseOverdue s h = none → ∃ t, exec (.lease w n1) s = .next t ∧ t.waited = true ∧ t.mem = s.mem ∧
        (arrayStuck s h = false → (leaseOf t h.crew).requests = (if (assoc h.id.uid l.requests).isSome then l.requests
          else l.requests ++ [(h.id.uid, Min.min (n1.toNat + 1) s.dev.leaseMax)])) ∧
        ∀ r, t.heat? h.id.uid = some r → r.X.pc = h.X.pc ∧ r.c = h.c)) ∧
    (Clear ((Issue.short w []).of (.unlease w)) .X s h →
      exec (.unlease w) s = .next (ranOn ((Issue.short w []).of (.unlease w)) .X s h
        (if l.holder = some h.id.uid then putLease s { l with left := 0 } else s) h)) ∧
    (Clear ((Issue.short w []).of (.mwait w)) .X s h → matrixOf s h.id.uid = [] →
      exec (.mwait w) s = .next (ranOn ((Issue.short w []).of (.mwait w)) .X s h s h)) ∧
    ∀ (f : BitVec 30) (stamp : BitVec 16),
      let wi := (Issue.long w stamp []).of (.rset w f stamp)
      let g := (ringOf f).1
      let r := (ringOf f).2
      Clear wi .X s h → ringBad h g r = false → r.base + r.span ≤ 4096 * h.spad.length →
        (∀ c ∈ s.cmdsOf h.id.uid, c.kind.names g = false) →
        r.tiles = [] ∧ r.head = 0 ∧ exec (.rset w f stamp) s = .next (ranOn wi .X s h s (h.setRing g (some r)))

/-- 07/R194 to R209; 08/R252, R254, R263; 12/R359. What a command does whole, at its completion, is log 4; that the hand-over
waits for the heat's atomics is log 21. -/
def Obligations.EngineEvents : Prop :=
  let working (s : State) (c : Cmd) (h : Heat) : Prop := s.heat? c.heat = some h ∧
    (s.cmds.find? fun x => x.id == c.id && x.works && !x.spent && !engineHeld s x && !unmapHeld s x) = some c
  let keep (s : State) (id : Nat) (c : Cmd) : State := { s with cmds := mapIf (fun x => x.id == id) (fun _ => c) s.cmds }
  (∀ (s : State) (core : Nat) (c : Cmd), (queued s core).find? (fun c => c.phase == .queued && !engineHeld s c) = some c →
    (running s core).length < 16 → behindMarker s c = false →
    ((∀ r, c.kind ≠ .hand r) → exec (.engineCommandStart core) s = .next { s with
      cmds := mapIf (fun x => x.id == c.id) (fun x => { x with phase := .running, since := s.now }) s.cmds }) ∧
    (∀ r, c.kind = .hand r → (∃ p ∈ s.atomics, p.heat = c.heat ∧ p.id < c.id ∧ p.applied = false) →
      exec (.engineCommandStart core) s = .next s) ∧
    (∀ r, c.kind = .hand r → (∀ p ∈ s.atomics, p.heat = c.heat → p.id < c.id → p.applied = true) →
      ∃ t, exec (.engineCommandStart core) s = .next t ∧ (∀ x ∈ t.cmds, x.id ≠ c.id) ∧
      (∀ q ∈ t.requests, q.id = r → q.handed = true) ∧ (∀ q ∈ t.resumes, q.id = r → q.handed = true) ∧
      t.heats = s.heats ∧ t.mem = s.mem)) ∧
  (∀ (s : State) (c : Cmd) (h : Heat) (pos : Nat), working s c h →
    let lands (x : RowResult Cmd) : Prop := exec (.gatherRowLand c.id pos) s = .next (match x with
      | .wait => s
      | .ok s1 c1 => keep (nameWord s.nextId c.word s1.performed) c.id c1
      | .fault s1 cls => keep s1.performed c.id { c with badRow := some pos, fault := some (cls, BitVec.ofNat 64 pos) })
    (∀ r pb pi dst tag bag, c.kind = .gatr r pb pi dst tag bag → c.owes r.n pos = true →
      lands (gatherRow (s.performs c) h c r pb pi dst tag bag pos) ∧
      (bag = none → r.kind = 2 → ∀ s1 s2 src t id bad, rowPlan (s.performs c) h c r pb pi tag pos true = .ok s1 (src, t, id) →
        moveRow s1 h c src (dst.v + BitVec.ofNat 64 (pos * 2 ^ r.scale)) (2 ^ r.scale) (t || dst.t) = .ok s2 bad →
        exec (.gatherRowLand c.id pos) s = .next (keep (nameWord s.nextId c.word s2.performed) c.id
          { c with settled := numIns pos c.settled, prog := c.prog + 1, poisonCopied := c.poisonCopied || bad }))) ∧
    (∀ r pb pi src, c.kind = .scatr r pb pi src → c.owes r.n pos = true → lands (scatterRow (s.performs c) h c r pb pi src pos))) ∧
  (∀ (s : State) (h : Heat) (c : Cmd) (p : Product) (src : BitVec 3) (dk n mw : Nat) (ty : XTypes) (taint : Bool)
    (w : Weights) (e : VReg) (pop : Heat → Heat), tileFor s h mw = some w →
    vecSource true h (16 + src.setWidth 5) = .ok (e, pop) → entryReady h src = true → depthLeft s h = true →
    let size := rowBytes ty.af w.k
    let out := arrayRow w (rowValues ty.af (e.bits.toNat % 2 ^ (8 * size)) w.k) p.dist
    ∃ t k, readProd s h c p src true dk n ty mw taint = some (t, k) ∧ k.rows = c.rows ∧ k.entered = c.entered + 1 ∧
      k.inside = c.inside ++ [⟨s.now + w.k + w.n + 12, out.1, stick 0 out.2,
        taint || (List.range ((size + 3) / 4)).any e.taint.getLsbD || w.taint, 0, false⟩] ∧ t.mem = s.mem) ∧
  (∀ (s : State) (c : Cmd) (h : Heat) (r : InRow) (rest : List InRow), s.heat? c.heat = some h → c.inside = r :: rest →
    (s.cmds.find? fun k => k.id == c.id && !k.spent && arrayTurn s k && rowDue s k && !engineHeld s k && !unmapHeld s k) =
      some c →
    (∀ p src q dk dst n off ty mw taint, c.kind = .prod p src q dk dst n off ty mw taint → roomOver s h dk dst = false →
      let put := putOut ((if dk < 2 then streamOut s h else s).performs c) h c p dk dst off c.rows ty r.taint r.results
      (rowRoom h dk dst = false → exec (.arrayRowResult c.id) s = .next s) ∧
      (∀ s1 x, rowRoom h dk dst = true → put = .ok s1 x → exec (.arrayRowResult c.id) s = .next (keep
        (nameWord s.nextId c.word s1.performed) c.id
        { c with rows := c.rows + 1, prog := c.rows + 1, inside := rest, conds := stick (c.conds ||| r.conds) x })) ∧
      (∀ s1 cls, rowRoom h dk dst = true → put = .fault s1 cls →
        ∃ k va, exec (.arrayRowResult c.id) s = .next (keep s1.performed c.id k) ∧ k.readDone = true ∧ k.inside = [] ∧
          k.rows = c.rows ∧ k.stopAt = some (cls, va)) ∧
      (dk = 1 → (∀ k l d, p ≠ .mtopk k l d) → rowRoom h dk dst = true →
        ∃ t g k, exec (.arrayRowResult c.id) s = .next t ∧ t.heat? c.heat = some g ∧
          (g.stream (8 + dst.setWidth 4)).entries.getLast? = some k ∧
          k.bits = packBits (fmtBits ty.out) (deliverRow ty r.results).1 ∧ t.mem = s.mem ∧ g.c = h.c)) ∧
    (∀ g bag acc exact ty mw b, c.kind = .mbag g bag acc exact ty mw → h.bag? bag = some b →
      let x := putBag (s.performs c) h c b acc ty r
      exec (.arrayRowResult c.id) s = .next (keep x.1.performed c.id
        { c with rows := c.rows + 1, prog := c.rows + 1, inside := rest, conds := stick (c.conds ||| r.conds) x.2.1
                 zeroed := c.zeroed + if x.2.2 = true then 1 else 0 }))) ∧
  (∀ (s : State) (c : Cmd) (h : Heat), (∃ p src q dk dst n off ty mw t, c.kind = .prod p src q dk dst n off ty mw t) ∨
      (∃ g bag acc exact ty mw, c.kind = .mbag g bag acc exact ty mw) →
    arrayTurn s c = true → c.readDone = true → c.inside = [] →
    performCmd s h c = some (s, { c with spent := true, fault := c.stopAt, extra := c.matrixDetail })) ∧
  (∀ (s : State) (c : Cmd) (h : Heat) (co : Nat),
    (s.cmds.find? fun x => x.id == c.id && x.works && !engineHeld s x) = some c → c.spent = true → c.orphan = false →
    c.co = some co → co < 64 → (c.hnd = none ∨ handlerRoom s c.core = true) → c.xfer = none →
    s.heat? c.heat = some h → h.id.uid = c.heat → c.past = none →
    (c.fault = none → ∃ t r, exec (.commandComplete c.id) s = .next t ∧ (∀ x ∈ t.cmds, x.id ≠ c.id) ∧
      t.heat? c.heat = some r ∧ (r.obj co).state = 2 ∧ (r.obj co).progress = BitVec.ofNat 64 c.prog ∧
      (r.obj co).detail = BitVec.ofNat 320 c.report ∧ r.ctl.latch = true ∧ r.c = h.c ∧
      (∀ target, c.hnd = some target → ∃ k ∈ t.handlers, k.heat = c.heat ∧ k.target = target ∧ k.index = c.index ∧
        k.running = false)) ∧
    (∀ f, c.fault = some f → c.suppressed = true → ∃ t r, exec (.commandComplete c.id) s = .next t ∧
      t.heat? c.heat = some r ∧ (r.obj co).state = 2 ∧ (r.obj co).status.getLsbD 4 = true ∧
      (r.obj co).faultAddr = f.2 ∧ r.ctl.specsup = Min.min (h.ctl.specsup + 1) (2 ^ 32 - 1) ∧ r.status = h.status) ∧
    (∀ f, c.fault = some f → c.suppressed = false → h.stop = none → ∃ t r g, exec (.commandComplete c.id) s = .next t ∧
      t.heat? c.heat = some r ∧ (r.obj co).state = 2 ∧ r.status = .stopping ∧ r.fault = some g ∧ g.cls = f.1 ∧
      g.addr = f.2 ∧ g.seat = c.seat)) ∧
  (∀ (s : State) (c : Cmd) (h : Heat) (va : Dword) (out : Bool),
    (s.cmds.find? fun x => x.id == c.id && x.works && x.xfer.isSome && !engineHeld s x) = some c → c.spent = true →
    c.fault = none → c.xfer = some (va, out) → s.heat? c.heat = some h →
    (c.xferDone = false → exec (.transferPerformed c.id) s = .next (keepCmd
      (match countTransfer (s.performs c) h va out false with
       | .ok s1 => s1.performed
       | .error _ => s) { c with xferDone := true })) ∧
    (c.xferDone = true → exec (.transferPerformed c.id) s = .next (keepCmd s c))) ∧
  (∀ (s : State) (crew : Nat),
    let l := settleLease s (leaseOf s crew)
    let asking := l.requests.filterMap fun r => s.heat? r.1
    let after (h : Heat) : Nat := (h.core % 4 + 3 - l.lastCore) % 4
    let grants (ok : Heat → Prop) : Prop := ∃ t h, exec (.leaseGrant crew) s = .next t ∧ h ∈ asking ∧ ok h ∧
      (leaseOf t crew).holder = some h.id.uid ∧ (leaseOf t crew).granted = true ∧ (leaseOf t crew).weights = none ∧
      (leaseOf t crew).left = (assoc h.id.uid l.requests).getD 1 ∧ t.heats = s.heats ∧ t.mem = s.mem
    l.holder = none →
      (s.sched.filter (·.live) = none → asking ≠ [] → grants fun h => ∀ k ∈ asking, after h ≤ after k) ∧
      (asking = [] → exec (.leaseGrant crew) s = .next (putLease s l)) ∧
      ∀ c core, s.sched = some c → c.live = true →
        (let order := (c.leases.filter fun e => e.1 == crew).map (·.2)
         order[l.turn % order.length]? = some core) →
        (∃ h ∈ asking, h.core % 4 = core) → grants fun h => h.core % 4 = core) ∧
  (∀ (s : State) (core : Nat) (k : Handler), (s.handlers.filter fun k => k.core == core && k.running).length < 2 →
    (s.handlers.find? fun k => k.core == core && !k.running && !handlerHeld s k.heat) = some k →
    (s.handlers.find? fun x => x.id == k.id) = some k →
    ∃ t r, exec (.handlerStart core) s = .next t ∧ (t.handlers.find? fun x => x.id == k.id) = some r ∧
      r.running = true ∧ r.pc = k.target ∧ r.count = 0 ∧ r.s[1] = ⟨BitVec.ofNat 64 k.obj, false⟩ ∧
      r.s[2] = ⟨k.status, false⟩ ∧ r.s[3] = ⟨k.progress, false⟩ ∧ r.s[4] = ⟨0, false⟩ ∧ t.heats = s.heats ∧ t.mem = s.mem) ∧
  ∀ (s s1 s2 : State) (h : Heat) (c : Cmd) (src dst n : Nat) (t : Bool) (data : List (Byte × Bool)),
    c.kind = .copy src dst n t → 0 < n → dst < 2 ^ 64 → dst % 128 + n ≤ 128 → c.prog = 0 → engineHeld s c = false →
    engineSpan s h c.index (BitVec.ofNat 64 src) n = .ok (s1, data, false) →
    engineWrite s1 h (BitVec.ofNat 64 dst) (data.map fun x => (x.1, x.2 || t)) false = .ok s2 →
    performCmd s h c = some (s2, { c with spent := true, prog := n })

/-- 06/R168 to R173; 13/R376 to R383. DROPCO of an unreadable COB and the failure of RESUME_PLACEMENT are log 46 (DEDUCED), the
alignment of a COB's address is log 84 (DESIGN CHOICE). -/
def Obligations.ContinuationWordsAndEvents : Prop :=
  let word (i : Instr) (used : List (BitVec 6)) (writes : Bool) (c : Ctl) : Issue :=
    { (Issue.cLong used (if writes then used.drop 1 else used) writes c.stamp).of i with engine := some 0, handler := false }
  (∀ (s : State) (h : Heat) (f : Frame) (gen code : Nat), Inv s → kindOf f.pa = some .asr → gen * 16 + code < 2 ^ 64 →
    claimCell (setClaim s h f gen code) f = gen * 16 + code ∧
    ∀ y, y < f.pa ∨ f.pa + 8 ≤ y → cellGet (setClaim s h f gen code).mem.cells y = cellGet s.mem.cells y) ∧
  (∀ (s : State) (h : Heat) (a b : BitVec 6),
    let w := (Issue.seatOnly [a, b] [a, b] false).of (.suspend a b)
    let x := (h.s a).v
    h.id.coxed = false → h.settled a → h.settled b → h.ahead .C SeenKind.isOpen = none → openBags h .C = .ok [] → Clear w .C s h →
      (∀ cell s1 p f, (h.claim = none ∧ cell = (h.s b).v ∧ cell ≠ 0) ∨
          (∃ g, h.claim = some (cell, g) ∧ ((h.s b).v = 0 ∨ (h.s b).v = cell)) →
        pastFinal h = false → x.toNat % 256 = 0 → resolve s h h.core x .write = .ok (s1, p) → claimFrame s h cell = .ok f →
        let asked : Heat := { h with susp := some ⟨x, cell, h.ctl.cobRights, h.ctl.cobImg, false, none⟩ }
        exec (.suspend a b) s = .next (ranOn w .C s h s (match h.stop with
          | none => stopFor s .suspend asked
          | some st => if st.cause = .preempt then asked else h))) ∧
      ((h.claim = none ∧ (h.s b).v = 0) ∨ (∃ cell g, h.claim = some (cell, g) ∧ (h.s b).v ≠ 0 ∧ (h.s b).v ≠ cell) ∨
          pastFinal h = true → Sound h .C → Raises (.suspend a b) .C s h clsIllegal 0 0)) ∧
  (∀ (s : State) (h : Heat) (u : Nat) (r : SuspendReq) (st : Stop), s.heat? u = some h → h.id.uid = u →
    h.susp = some r → h.stop = some st →
    let s0 : State := { s with cmds := s.cmds.map fun c =>
      if c.heat == u && (c.phase matches .marked ..) then { c with phase := .queued } else c }
    let stash := (s0.stashes.filter fun t => t.heat == u).flatMap fun t => t.dirty.map fun k => (t, k)
    let faulted (cls : BitVec 8) (va : Dword) : Prop := ∃ t k i, exec (.heatSuspended u) s = .next t ∧
      t.heat? u = some k ∧ k.status = .stopping ∧ k.fault = some i ∧ i.cls = cls ∧ i.addr = va ∧ i.clock = s.now
    (suspending h = false ∨ allStopped h = false → exec (.heatSuspended u) s = .next s) ∧
    (suspending h = true → allStopped h = true → bagPending h = true → ∃ t k, exec (.heatSuspended u) s = .next t ∧
      t.heat? u = some k ∧ k.stop = some { st with upTo := st.upTo + 1 } ∧ (∀ p, (k.seat p).stopped = false) ∧
      SameC h k ∧ SameLXS h k ∧ t.mem = s.mem) ∧
    (suspending h = true → allStopped h = true → bagPending h = false →
      (unsettled s0 h = true → exec (.heatSuspended u) s = .next s0) ∧
      (unsettled s0 h = false →
        match writeBackLines h stash 0 s0 with
        | (_, _, some (cls, va)) => faulted cls va
        | (s1, _, none) =>
          match writeCob s1 h r with
          | .error (.fault cls va _) => faulted cls va
          | .error _ => exec (.heatSuspended u) s = .next s1
          | .ok (_, gen, f) => ∃ t k, exec (.heatSuspended u) s = .next t ∧ t.heat? u = some k ∧
            k.status = (if st.cancelAfter then .cancelled else .suspended) ∧ k.freed = true ∧ k.spad = [] ∧ k.asr = [] ∧
            k.claim = some (r.claim, BitVec.ofNat 64 gen) ∧ (∀ c ∈ t.cmds, c.heat = u → c.orphan = true) ∧
            (Inv s → kindOf f.pa = some .asr → gen < 2 ^ 60 → claimCell t f = gen * 16 + 1)))) ∧
  (∀ (s : State) (h : Heat) (j : Job) (d a : BitVec 6) (c : Ctl),
    let w := word (.resume d a c) [d, a] true c
    let x := (h.s a).v
    h.id.coxed = false → h.settled a → s.job? h.id.job = some j → Clear w .C s h →
      match readHeader s h x, readNat s h (x + 0x9000) 4 with
      | .ok (s1, v), .ok (_, pending) =>
        let hd := headerOf v
        (cobAccepted s j h.die v pending = false → Sound h .C → Raises (.resume d a c) .C s h clsContVersion x 0) ∧
        (cobAccepted s j h.die v pending = true → hd.job ≠ h.id.job → hd.rights.testBit 0 = false → Sound h .C →
          Raises (.resume d a c) .C s h clsContRights x 0) ∧
        ∀ u f, cobAccepted s j h.die v pending = true → (hd.job = h.id.job ∨ hd.rights.testBit 0 = true) →
          claimAccess s1 h (BitVec.ofNat 64 hd.claim) = .ok (u, f) → cellBusy u h.id.uid f.pa 8 = false →
          (claimCell u f ≠ hd.gen * 16 + 1 → claimCell u f ≠ hd.gen * 16 + 4 → Sound h .C →
            Raises (.resume d a c) .C s h clsDoubleResume x 0) ∧
          (claimCell u f = hd.gen * 16 + 1 → trailing h = [] → h.busy c.co.toNat = false →
            (queued u h.core).length < 32 →
            let s2 := setClaim u h f hd.gen 2
            exec (.resume d a c) s = .next (ranOn w .C s h
              { s2 with
                resumes := s2.resumes ++ [⟨s2.nextId + 1, h.id.job, x, BitVec.ofNat 64 hd.gen,
                  (h.id.uid, c.co.toNat), h.die, false, hd.launch, false⟩]
                cmds := s2.cmds ++ [handCmd s2 h c.co.toNat 0x65 (s2.nextId + 1)]
                nextId := s2.nextId + 2 }
              ({ h.begin c.co.toNat .C 0 0x65 with cmdCount := h.cmdCount + 1 }.setS d ⟨BitVec.ofNat 64 hd.gen, false⟩)))
      | .error (.fault cls va _), _ => cls ≠ clsUncorrectable → Sound h .C → Raises (.resume d a c) .C s h cls va 0
      | .ok _, .error (.fault cls va _) => cls ≠ clsUncorrectable → Sound h .C → Raises (.resume d a c) .C s h cls va 0
      | _, _ => True) ∧
  (∀ (s s1 : State) (r : ResumeReq) (k : Heat) (j : Job) (img : List (Byte × Bool)) (t : TaskType) (core : Nat),
    let v := leNat (img.map (·.1))
    let hd := headerOf (leNat ((img.take 256).map (·.1)))
    let reader := { k with core := if k.onCore then k.core else 64 * r.die }
    s.dev.computeOn = true → coxedMode s = false → (s.resumes.find? fun x => x.id == r.id && x.handed) = some r →
      s.heat? r.resumer.1 = some k → s.job? r.job = some j → readSpan s reader r.cob fixedPart = .ok (s1, img) →
      taskType? s j r.die hd.type = some t → findCore s1 r.die t = some core →
      match resumeOn s1 reader r hd t img core with
      | .ok s2 => exec (.resumePlacement r.id) s = .next s2 ∧
        let id := (resumedId s1 (if (s1.job? hd.job).isSome then hd.job else r.job) hd).1
        let want := restoreHeat (heatOn s1 id t [] core 0 0) img v
        ∃ m, s2.heat? id.uid = some m ∧ m.core = core ∧ SameC want m ∧ SameLXS want m ∧ m.ctl = want.ctl ∧
          m.C = want.C ∧ m.L = want.L ∧ m.X = want.X ∧ m.S = want.S ∧
          m.claim = some (BitVec.ofNat 64 hd.claim, BitVec.ofNat 64 hd.gen)
      | .error (.fault cls va _) =>
        let u := foundBy s k cls va noCommand
        exec (.resumePlacement r.id) s = .next
          { u.onHeat k.id.uid (fun h => if r.linked = true then h else
              h.finish r.resumer.2 { Status.start .C 0 0x65 with cls := cls.toNat } 0 r.cob 0) with
            resumes := u.resumes.filter fun x => x.id != r.id }
      | .error _ => exec (.resumePlacement r.id) s = .next s) ∧
  (∀ (h : Heat) (img : List (Byte × Bool)) (v : Nat),
    let r := restoreHeat h img v
    let word (o : Nat) : Dword := BitVec.ofNat 64 (v / 2 ^ (8 * o) % 2 ^ 64)
    (∀ n : Fin 64, r.c.s[n] = ⟨word (0x900 + 8 * n.val), v / 2 ^ (8 * 0xB00) % 2 ^ 64 / 2 ^ n.val % 2 = 1⟩) ∧
    (∀ n : Fin 16, r.pL[n].v = word (0xB80 + 8 * n.val) ∧ r.pS[n].v = word (0xC00 + 8 * n.val)) ∧
    (∀ n : Fin 16, r.x.v[n].bits = BitVec.ofNat 2048 (v / 2 ^ (8 * (0x1100 + 256 * n.val)))) ∧
    r.C.pc = word 0x100 ∧ r.L.pc = word 0x140 ∧ r.X.pc = word 0x180 ∧ r.S.pc = word 0x1C0 ∧
    r.x.k[0] = ⟨BitVec.allOnes 64, false⟩ ∧ r.core = h.core ∧ r.status = h.status ∧
    ∀ p, (r.seat p).atBoundary = true) ∧
  (∀ (s : State) (h : Heat) (d a b : BitVec 6) (c : Ctl),
    let w := word (.copyco d a b c) [d, a, b] false c
    h.id.coxed = false → h.settled d → h.settled a → h.settled b → (h.s b).v.toNat % 256 = 0 → Clear w .C s h →
      match readHeader s h (h.s a).v with
      | .ok (s1, v) =>
        let hd := headerOf v
        let kind := CmdKind.copyco (h.s a).v (h.s b).v (h.s d).v (BitVec.ofNat 64 hd.claim) hd.gen
        (hd.job ≠ h.id.job → hd.rights.testBit 1 = false → Sound h .C →
          Raises (.copyco d a b c) .C s h clsContRights (h.s a).v 0) ∧
        ∀ new u f, (hd.job = h.id.job ∨ hd.rights.testBit 1 = true) → claimFrame s1 h (h.s d).v = .ok new →
          claimAccess s1 h (BitVec.ofNat 64 hd.claim) = .ok (u, f) → cellBusy u h.id.uid f.pa 8 = false →
          cellBusy u h.id.uid new.pa 8 = false →
          (claimCell u f ≠ hd.gen * 16 + 1 → Sound h .C →
            Raises (.copyco d a b c) .C s h clsDoubleResume (h.s a).v 0) ∧
          (claimCell u f = hd.gen * 16 + 1 → trailing h = [] → h.busy c.co.toNat = false →
            (queued u h.core).length < 32 →
            let s2 := setClaim u h f hd.gen 4
            exec (.copyco d a b c) s = .next (ranOn w .C s h
              { s2 with
                cmds := s2.cmds ++ [blankCmd s2 h .C 0x66 kind (some c.co.toNat)]
                nextId := s2.nextId + 1 }
              { h.begin c.co.toNat .C 0 0x66 with cmdCount := h.cmdCount + 1 }))
      | .error (.fault cls va _) => cls ≠ clsUncorrectable → Sound h .C → Raises (.copyco d a b c) .C s h cls va 0
      | .error _ => True) ∧
  (∀ (s : State) (h : Heat) (d a : BitVec 6),
    let w := (Issue.seatOnly [d, a] [a] true).of (.dropco d a)
    let x := (h.s a).v
    let answers (t : State) (v : Dword) : Prop :=
      exec (.dropco d a) s = .next (ranOn w .C s h t (h.setS d ⟨v, true⟩))
    h.settled a → Clear w .C s h →
      match readHeader s h x with
      | .ok (s1, v) =>
        let hd := headerOf v
        (hd.job ≠ h.id.job → hd.rights.testBit 2 = false → answers s1 0) ∧
        ∀ u f, (hd.job = h.id.job ∨ hd.rights.testBit 2 = true) →
          claimAccess s1 h (BitVec.ofNat 64 hd.claim) = .ok (u, f) → cellBusy u h.id.uid f.pa 8 = false →
          (claimCell u f ≠ hd.gen * 16 + 1 → answers u 0) ∧
          (claimCell u f = hd.gen * 16 + 1 →
            match storeAt (setClaim u h f hd.gen 3) h h.core (x + 16) (withTaint false (leBytes 4 3)) with
            | .ok s2 => answers (match continued s2 hd.job hd with
                | none => s2
                | some k => endSuspended (s2.putHeat { k with status := .dropped }) k
                    fun l => { l with dropped := true }) 1
            | .error (.fault cls va _) =>
              cls ≠ clsUncorrectable → Sound h .C → ∃ st, Raises (.dropco d a) .C s h cls va st
            | .error _ => True)
      | .error (.fault cls va _) => cls ≠ clsUncorrectable → Sound h .C → Raises (.dropco d a) .C s h cls va 0
      | .error _ => True) ∧
  ∀ (s : State) (c : Cmd) (h : Heat), (s.cmds.find? fun x => x.id == c.id && !x.parked) = some c →
    s.heat? c.heat = some h → suspending h = true → allStopped h = true → bagPending h = false →
    c.spent = false → (c.phase = .queued ∨ c.phase = .running) → (parkedOf s h.id.uid).length < 32 →
    parkable s h c = true →
    (4096 ≤ s.now - settlingSince h → exec (.settleTimeout c.id) s = .next { s with
      cmds := mapIf (fun x => x.id == c.id) (fun x => { x with parked := true, fault := none, badRow := none }) s.cmds }) ∧
    (s.now - settlingSince h < 4096 → exec (.settleTimeout c.id) s = .next s)

/-- 13/R384, R385. That the resets change nothing else and a returned command is not stolen again is log 47 (DEDUCED). -/
def Obligations.RelocationEvents : Prop :=
  let put (s : State) (id : Nat) (f : Cmd → Cmd) : State := { s with cmds := mapIf (fun x => x.id == id) f s.cmds }
  (∀ (s : State) (id thief : Nat), exec (.commandSteal id thief) s = .next (
    match s.cmds.find? fun c => c.core / 4 == thief / 4 && c.core != thief && stealable s c with
    | none => s
    | some c => if c.id = id ∧ engineIdle s thief = true ∧ thief < 256 then
        put s id fun x => { x with phase := .marked thief s.now }
      else s)) ∧
  (∀ (s : State) (c : Cmd), stealable s c = true → c.phase = .queued ∧ c.reloc = true ∧ c.relocAbort = false ∧
    behindMarker s c = false ∧ 512 ≤ s.now - c.since ∧
    ∀ h, s.heat? c.heat = some h → h.id.coxed = false ∧ settling h = false) ∧
  (∀ (s : State) (core : Nat), engineIdle s core = true →
    (∀ c ∈ s.cmds, c.copies = true → c.core ≠ core ∧ c.performer ≠ core) ∧ 256 ≤ s.now - (assoc core s.dev.engLast).getD 0) ∧
  (∀ (s : State) (c : Cmd) (thief since : Nat), (∀ x ∈ s.cmds, x.id = c.id → x = c) → c ∈ s.cmds →
    c.phase = .marked thief since → c.orphan = false →
    (s.now - since ≤ 16 → (∀ h, s.heat? c.heat = some h → settling h = false) →
      ∃ t, exec (.stealAcknowledge c.id) s = .next t ∧
      (t.cmds.find? fun x => x.id == c.id) = some { c with phase := .held thief } ∧ t.mem = s.mem ∧ t.heats = s.heats) ∧
    (∀ h, s.heat? c.heat = some h → settling h = true → ∃ t, exec (.stealAcknowledge c.id) s = .next t ∧
      (t.cmds.find? fun x => x.id == c.id) = some { c with phase := .queued } ∧ t.mem = s.mem ∧ t.heats = s.heats) ∧
    (16 < s.now - since → (∀ h, s.heat? c.heat = some h → settling h = false) →
      exec (.stealAcknowledge c.id) s = .next s) ∧
    (16 ≤ s.now - since → ∃ t, exec (.stealMarkTimeout c.id) s = .next t ∧
      (t.cmds.find? fun x => x.id == c.id) = some { c with phase := .queued } ∧ t.mem = s.mem ∧ t.heats = s.heats) ∧
    (∃ t, exec (.thiefReset thief) s = .next t ∧
      (t.cmds.find? fun x => x.id == c.id) = some { c with phase := .queued }) ∧
    ∀ core, ∃ t, exec (.engineCommandStart core) s = .next t ∧ (t.cmds.find? fun x => x.id == c.id) = some c) ∧
  (∀ (s : State) (c : Cmd) (h : Heat) (thief : Nat), s.cmds = [c] → c.phase = .held thief → c.orphan = false →
    s.heat? c.heat = some h →
    ((h.status = .resident ∨ ∃ st, h.stop = some st ∧ (st.cause = .suspend ∨ st.cause = .preempt)) →
      exec (.thiefReset thief) s = .next { s with cmds := [{ c with
        phase := .queued, relocAbort := true, spent := false, fault := none, prog := 0, settled := [], unlanded := 0
        zeroed := 0, absorbed := none, poisonCopied := false, badRow := none, extra := 0 }] }) ∧
    (∀ st, h.status = .stopping → h.stop = some st → (st.cause = .fault ∨ st.cause = .cancel) →
      h.id.uid = c.heat → c.xfer = none → ∀ n < 64, c.co = some n → ∃ t k, exec (.thiefReset thief) s = .next t ∧
        t.cmds = [] ∧ t.mem = s.mem ∧ t.heat? c.heat = some k ∧ (k.obj n).state = 2 ∧
        (k.obj n).status.getLsbD 8 = true ∧ (k.obj n).status.getLsbD 4 = true ∧
        (k.obj n).status.toNat / 2 ^ 24 % 256 = clsRelocAbort.toNat)) ∧
  ∀ (s : State) (core : Nat), exec (.victimCoreReset core) s = .next { s with
    cmds := s.cmds.map fun c => 
      if c.core == core && (c.phase matches .held .. || c.phase matches .marked ..) then { c with orphan := true } else c }

/-- 06/R175 to R179; 13/R369, R372, R373. A slot is the generation in bits 63:48 and the index below. -/
def Obligations.SlalomWords : Prop :=
  (∀ (s s1 : State) (h : Heat) (a b : BitVec 6) (kk : BitVec 4) (w1 : BitVec 12) (stamp : BitVec 16),
    let w : Issue := { (Issue.cLong [a, b] [a, b] false stamp).of (.slwin a b kk w1 stamp) with handler := false }
    let n := (h.s a).v.toNat
    let base := h.s b
    Clear w .C s h → h.settled a → h.settled b → h.type.gang = true → h.id.detached = false → n < 2 ^ 48 →
      base.v.toNat % (8 * 2 ^ (10 + kk.toNat)) = 0 →
      (s.slalom? h.id.job h.id.launch = none →
        clearGate h base.t (8 * 2 ^ (10 + kk.toNat) / 128) base.v s = .ok s1 → s1.slaloms = s.slaloms →
        ∃ t c, exec (.slwin a b kk w1 stamp) s = .next (ranOn w .C s h t (if base.t = true then { h with ctl := { h.ctl with
          tStored := Min.min (h.ctl.tStored + 8 * 2 ^ (10 + kk.toNat) / 4) (2 ^ 32 - 1) } } else h)) ∧ t.slalom? h.id.job h.id.launch = some c ∧
          c.n = n ∧ c.base = base.v ∧ c.k = kk.toNat ∧ c.w = w1.toNat + 1 ∧ c.window = 0 ∧ c.members = [h.id.index] ∧
          c.reports = [] ∧ (c.list, c.fresh) = fillWindow n (w1.toNat + 1) 0 [] ∧ t.mem = s1.mem) ∧
      ∀ c, s.slalom? h.id.job h.id.launch = some c → c.n = n → c.base = base.v → c.k = kk.toNat → c.w = w1.toNat + 1 →
        exec (.slwin a b kk w1 stamp) s = .next (ranOn w .C s h
          (s.onSlalom h.id.job h.id.launch fun c => { c with members := numIns h.id.index c.members }) h)) ∧
  (∀ (k : Nat) (c : Dword), gateSlot k c < 2 ^ (10 + k)) ∧
  (∀ (s s1 : State) (h : Heat) (c : Slalom) (commit : Bool) (d : BitVec 6), slalomOf s h = .ok (s1, c, commit) →
    let w := Issue.seatOnly [d] [] true
    let share := myShare s1 h c
    let pos := match h.cursor with
      | some k => if k.gen % 65536 = c.window % 65536 ∧ k.commit = commit then k.pos else 0
      | none => 0
    let at_ : Heat := { h with cursor := some ⟨Min.min (pos + 1) share.length, c.window, commit⟩ }
    Clear w .C s h →
      (c.list = [] → exec (.slnext d) s = .next (ranOn w .C s h s1 (h.setS d ⟨BitVec.allOnes 64 - 1, false⟩))) ∧
      (c.list ≠ [] → ∀ i, share[pos]? = some i →
        exec (.slnext d) s = .next (ranOn w .C s h s1 (at_.setS d ⟨BitVec.ofNat 64 i, false⟩))) ∧
      (c.list ≠ [] → share.length ≤ pos →
        exec (.slnext d) s = .next (ranOn w .C s h s1 (at_.setS d ⟨BitVec.allOnes 64, false⟩)))) ∧
  (∀ (s s1 s2 : State) (h : Heat) (c : Slalom) (commit : Bool) (a b : BitVec 6) (off stamp : BitVec 16)
    (comb bp : BitVec 3) (f : Frame),
    let w (i : Instr) : Issue := { (Issue.cLong [a, b] [a, b] false stamp).of i with handler := false }
    let i := (h.s b).v.toNat
    let t := (h.s a).t || (h.s b).t
    let va := c.base + BitVec.ofNat 64 (8 * gateSlot c.k ((h.s a).v + off.signExtend 64))
    let slot := viewNat s2 h.die f.pa 8
    let mine := c.window % 65536 * 2 ^ 48 + i
    h.settled a → h.settled b → slalomOf s h = .ok (s1, c, commit) → i < 2 ^ 48 →
      cellWait s1 h va 8 .atomic = .ok () → gateFrame s1 h va .atomic = .ok (s2, f) → f.pa / 128 ∉ s2.mem.errors →
      (∀ k, k < 8 → s2.mem.poisoned (f.pa + k) = false) →
      let rode := rideAtomic (cellClock s2 h.id.uid h.die f.pa) h f.pa none
      let data (v : Nat) := withTaint t (leBytes 8 v)
      let read (h1 : Heat) := countRead h1 va.toNat (viewBytes s2 h.die f.pa 8)
      let goes (i : Instr) (stored : Option Nat) (h1 : Heat) : Prop := Clear (w i) .C s h →
        (stored.isSome → f.clean = true → t = false) →
        watchHit s2 h.id.job va.toNat 8 true stored.isSome = none → exec i s = .next (match stored with
          | none => ranOn (w i) .C s h rode (read h1)
          | some v => ranOn (w i) .C s h (writePhys rode h.id.uid h.die f.pa f.key (data v))
              (countStored (read h1) va.toNat (data v)))
      let faults (i : Instr) (cls : BitVec 8) : Prop := Clear (w i) .C s h → Sound h .C → Raises i .C s h cls va 0
      (commit = false → goes (.slres a b off stamp)
        (if slot / 2 ^ 48 = c.window % 65536 ∧ slot % 2 ^ 48 ≤ i ∧ slot ≠ 2 ^ 64 - 1 then none else some mine) h) ∧
      (commit = true → goes (.slchk comb bp a b off stamp) none
        (h.setB bp (combine comb (h.b bp) ⟨slot == mine, false⟩))) ∧
      (commit = true → goes (.slreset a b off stamp) (if slot = mine then some (2 ^ 64 - 1) else none) h) ∧
      (commit = true → slot = mine → f.clean = true → t = true → faults (.slreset a b off stamp) clsTaintedStore) ∧
      let wrong (i : Instr) : Prop := Clear (w i) .C s h → Sound h .C → Raises i .C s h clsIllegal 0 0
      (commit = true → wrong (.slres a b off stamp)) ∧
      (commit = false → wrong (.slchk comb bp a b off stamp) ∧ wrong (.slreset a b off stamp))) ∧
  ∀ (s s1 : State) (h : Heat) (c : Slalom) (a : BitVec 6) (neg : Bool) (bp : BitVec 3),
    let w := Issue.seatOnly [a] [a] false
    let i := (h.s a).v.toNat
    h.settled a → slalomOf s h = .ok (s1, c, true) → Clear w .C s h →
      (i ∈ myShare s1 h c → (∀ r ∈ c.reports, r.1 ≠ i) → exec (.sldone a neg bp) s = .next (ranOn w .C s h
        (s1.onSlalom h.id.job h.id.launch fun c => { c with reports := c.reports ++ [(i, (h.b bp).v != neg)] }) h)) ∧
      (i ∉ myShare s1 h c ∨ (∃ r ∈ c.reports, r.1 = i) → Sound h .C → Raises (.sldone a neg bp) .C s h clsIllegal 0 0)

/-- 21/R453 to R456, R461; 22/R462 to R464. -/
def Obligations.PowerUpTripsAndClocks : Prop :=
  let failed (s t : State) (code : Word) : Prop :=
    t.lamom.stage = .safe ∧ t.lamom.failCode = code ∧ t.lamom.failClock = s.now ∧ t.mem = s.mem ∧ t.dev = s.dev ∧
      ∀ q, q < 64 → (queueRegs t q).stat = 0x502 ∧ (queueRegs t q).running = false
  (∀ s : State, ∃ t, exec .boardResetRelease s = .next t ∧ t.lamom.stage = .rom ∧ t.lamom.fused = s.lamom.fused ∧
    t.lamom.measures = Vector.replicate 8 0 ∧ t.dev = DevRegs.reset ∧ t.jobs = [] ∧ t.heats = []) ∧
  (∀ (s : State) (ok : Bool) (i : Instr) (now next : Stage) (code : Word),
    (i, now, next, code) ∈ [(.rom ok, Stage.rom, Stage.verify, (0x01 : Word)), (.arrays ok, .arrays, .sram, 0x10),
      (.sram ok, .sram, .dram, 0x11), (.dram ok, .dram, .links, 0x12)] →
    (s.lamom.stage ≠ now → exec i s = .next s) ∧
    (s.lamom.stage = now → ok = true → exec i s = .next { s with lamom := { s.lamom with stage := next } }) ∧
    (s.lamom.stage = now → ok = false → ∃ t, exec i s = .next t ∧ failed s t code)) ∧
  (∀ (s : State) (a b : FirmwareImage), s.lamom.stage = .verify →
    let digest (i : FirmwareImage) : BitVec 512 := shake256 (i.head ++ i.stored.take i.length)
    let good (i : FirmwareImage) : Prop :=
      shake256 i.key = Config.fusedKeyDigest ∧ Config.falconVerify i.key (digest i) i.signature = true
    ∃ t, exec (.verify a b) s = .next t ∧
    (good a → good b → s.lamom.fused ≤ a.version → s.lamom.fused ≤ b.version →
      t = { s with lamom := { s.lamom with
        stage := .measure, images := (digest a, digest b)
        booted := if a.version < b.version then a.version else b.version } }) ∧
    ((¬ good a ∨ good a ∧ s.lamom.fused ≤ a.version ∧ ¬ good b) → failed s t 0x02) ∧
    ((good a ∧ a.version < s.lamom.fused ∨ good a ∧ s.lamom.fused ≤ a.version ∧ good b ∧ b.version < s.lamom.fused) →
      failed s t 0x03)) ∧
  (∀ s : State, s.lamom.stage = .measure → ∃ t, exec (.measure true) s = .next t ∧ t.lamom.stage = .arrays ∧
    t.lamom.measures[0] = extended s.lamom.measures[0] Config.fuseDigest ∧
    t.lamom.measures[1] = extended s.lamom.measures[1] s.lamom.images.1 ∧
    t.lamom.measures[2] = extended s.lamom.measures[2] s.lamom.images.2 ∧
    t.lamom.measures[3] = extendedBy s.lamom.measures[3] (selfTest s.lamom) ∧
    ∀ m : Fin 8, 4 ≤ m.val → t.lamom.measures[m] = s.lamom.measures[m]) ∧
  (∀ (s : State) (die cxl : Bool) (cs : List LinkTraining), s.lamom.stage = .links → ∃ t, exec (.links die cxl cs) s = .next t ∧
    (die = false → failed s t 0x13) ∧ (die = true → cxl = false → failed s t 0x14) ∧
    (die = true → cxl = true → (∃ n, n < 12 ∧ cs[n]? = some .failed) → failed s t 0x15 ∧
      ∃ n, n < 12 ∧ cs[n]? = some .failed ∧ t.lamom.failLink = some n ∧ ∀ m, m < n → cs[m]? ≠ some .failed) ∧
    (die = true → cxl = true → (∀ n, n < 12 → cs[n]? ≠ some .failed) → t.lamom.stage = .ready ∧ t.mem = s.mem ∧
      t.dev.clkAlign.toNat / 2 ^ 32 % 2 ^ 16 = (match cs[s.dev.clkAlign.toNat % 16]? with
        | some (.trained l) => l % 2 ^ 16
        | _ => 0) ∧
      t.dev.links.length = 12 ∧ ∀ n, n < 12 → t.dev.links[n]? = some
        (match cs[n]? with
         | some (.trained l) => { n := n, cabled := true, up := true, latency := l, delay := none }
         | _ => { n := n, cabled := false, up := false, latency := 0, delay := none }))) ∧
  (∀ s : State, s.lamom.stage = .ready → ∃ t, exec .ready s = .next t ∧ t.lamom.stage = .up ∧ t.dev.computeOn = !s.dev.tripped ∧
    (s.net.replicas = [] → s.net.forwards = [] → ∀ die pa, pa < hostBase ∨ spadBase ≤ pa → viewByte t die pa = (0, false)) ∧
    ∀ pa, hostBase ≤ pa → pa < spadBase → cellGet t.mem.cells pa = cellGet s.mem.cells pa) ∧
  (∀ (s : State) (i : Instr), i ∈ [Instr.thermalTrip, .powerTrip] → ∃ t, exec i s = .next t ∧
    t.dev = { s.dev with computeOn := false, tripped := true } ∧
    (∀ j, s.job? j.id = some j → j.complete = false → ∃ k, t.job? j.id = some k ∧ k.killed = true ∧ k.cancelled = true) ∧
    (∀ j l, s.job? j.id = some j → j.complete = false → s.launch? j.id l.id = some l → l.job = j.id → launchDone s l = false →
      ∃ k, t.launch? j.id l.id = some k ∧ k.faulted = true ∧ k.cut = true) ∧
    ∃ e, t.lamom.log.getLast? = some e ∧ e.clock = s.now ∧ e.unit = Config.tripUnit) ∧
  (∀ s : State, (s.dev.tripped = true → exec .computeReenable s = .next { s with
      dev := { s.dev with computeOn := s.lamom.stage == .up, tripped := false } }) ∧
    (s.dev.tripped = false → exec .computeReenable s = .next s)) ∧
  (∀ (s : State) (v : BitVec 64), s.dev.clkAlign.getLsbD 63 = false → s.sched = none → s.dev.peerCoxed = [] →
    64 ≤ v.toNat / 2 ^ 16 % 2 ^ 16 → v.toNat / 2 ^ 16 % 2 ^ 16 ≤ 4096 →
    ∃ t, exec (.clkalignStart v) s = .next t ∧ t.dev.clock = s.dev.clock ∧
      (v.getLsbD 4 = true → t.dev.clkAlign.getLsbD 62 = true ∧ t.dev.clkAlign.getLsbD 63 = false) ∧
      (v.getLsbD 4 = false → t.dev.clkAlign.getLsbD 63 = true)) ∧
  (∀ (s : State) (pc : Nat) (ends : List Nat), s.dev.clkAlign.getLsbD 63 = true → pc < 2 ^ 64 →
    (∃ t, exec (.clockAligned false pc ends) s = .next t ∧ t.dev.clkAlign.getLsbD 63 = false ∧
      t.dev.clkAlign.getLsbD 62 = s.dev.clkAlign.getLsbD 62 ∧ t.dev.clock = s.dev.clock) ∧
    (s.dev.lead = 0 → s.dev.clock ≤ pc → ∃ t, exec (.clockAligned true pc ends) s = .next t ∧ t.dev.clock = pc ∧
      t.dev.clkAlign.getLsbD 62 = true ∧ t.dev.clkAlign.getLsbD 63 = false ∧
      t.dev.links = mapIf (fun k => k.cabled && ends.contains k.n)
        (fun k => { k with delay := some (k.latency + s.dev.clkAlign.toNat / 2 ^ 16 % 2 ^ 16) }) s.dev.links) ∧
    (s.dev.lead = 0 → pc < s.dev.clock → exec (.clockAligned true pc ends) s = .next { s with
      dev := { s.dev with alignEnds := ends, lead := s.dev.clock - pc, half := false } })) ∧
  ∀ (s : State) (link : Nat), ∃ t, exec (.linkDown link) s = .next t ∧ t.dev.clock = s.dev.clock ∧
    (∀ k ∈ t.dev.links, k.n = link → k.up = false) ∧
    (s.dev.clkAlign.toNat % 16 = link → s.dev.clkAlign.getLsbD 4 = false → t.dev.clkAlign.getLsbD 62 = false) ∧
    (s.dev.clkAlign.toNat % 16 ≠ link → t.dev.clkAlign = s.dev.clkAlign)

/-- 20/R433; 21/R454 to R460; the refusals are the mailbox's (log 9), Lamom's count of cycles is log 78. -/
def Obligations.MailboxAndAttestation : Prop :=
  let told (s : State) (r : Response) : State := { s with lamom := { s.lamom with answers := s.lamom.answers ++ [r] } }
  (∀ s : State, s.lamom.stage = .up ∨ s.lamom.stage = .safe →
    (∃ b, exec .readSelfTestReport s = .next (told s (.bytes b)) ∧ b.length = 64 ∧
      leNat (b.take 4) = 0x0010075C ∧ leNat ((b.drop 4).take 4) = s.lamom.failCode.toNat ∧
      leNat ((b.drop 8).take 8) = s.lamom.failClock % 2 ^ 64 ∧
      (∀ n, n < 12 → s.lamom.failLink = some n → leNat (b.drop 16) = n / 3 + 4 * n) ∧
      (s.lamom.failCode = 0 → s.lamom.failLink = none → ∀ x ∈ b.drop 16, x = 0)) ∧
    exec .readErrorLog s = .next (told s (.log s.lamom.log s.lamom.counters)) ∧
    (∀ m : Fin 8, exec (.readMeasurementRegister m) s = .next (told s (.bytes (leBytes 64 s.lamom.measures[m].toNat)))) ∧
    (∃ t, exec .advanceSecurityVersion s = .next t ∧ t.lamom.answers = s.lamom.answers ++ [.ok] ∧
      s.lamom.booted ≤ t.lamom.fused ∧ s.lamom.fused ≤ t.lamom.fused ∧
      (t.lamom.fused = s.lamom.booted ∨ t.lamom.fused = s.lamom.fused)) ∧
    exec .getVersion s = .next { told s (.value 0x13) with
      lamom := { (told s (.value 0x13)).lamom with spdm := .version } }) ∧
  (∀ (s : State) (op : BitVec 16), 0xC000 ≤ op.toNat → op.toNat ∉ [0xC000, 0xC001, 0xC002, 0xC003, 0xC004, 0xC010, 0xC011,
      0xC020, 0xC021, 0xC022, 0xC023, 0xC024, 0xC025] →
    exec (.mailboxUnsupported op) s = .next (told s .unsupported)) ∧
  (∀ (s : State) (m slot owner : Nat) (d key : BitVec 512), s.lamom.stage = .safe →
    exec (.extendRegister m d) s = .next (told s .notInSafe) ∧
    exec (.keyLoad slot key owner) s = .next (told s .notInSafe) ∧
    exec (.keyUnload slot) s = .next (told s .notInSafe)) ∧
  (∀ (s : State) (m : Nat) (d : BitVec 512), s.lamom.stage = .up →
    (∀ h : 4 ≤ m ∧ m < 8, s.jobs = [] → ∃ t, exec (.extendRegister m d) s = .next t ∧
      t.lamom.answers = s.lamom.answers ++ [.ok] ∧
      ∀ n : Fin 8, t.lamom.measures[n] = if n.val = m
        then shake256 (leBytes 64 s.lamom.measures[n].toNat ++ leBytes 64 d.toNat) else s.lamom.measures[n]) ∧
    ((m < 4 ∨ 8 ≤ m ∨ s.jobs ≠ []) → exec (.extendRegister m d) s = .next (told s .refused))) ∧
  (∀ (s : State) (slot owner : Nat) (key : BitVec 512), s.lamom.stage = .up →
    (s.lamom.spdm = .session → slot < 8192 → keySlot s slot = none → ∃ t, exec (.keyLoad slot key owner) s = .next t ∧
      keySlot t slot = some ⟨slot, key, owner⟩ ∧ t.lamom.answers = s.lamom.answers ++ [.ok] ∧
      ∀ n, n ≠ slot → keySlot t n = keySlot s n) ∧
    ((s.lamom.spdm ≠ .session ∨ keySlot s slot ≠ none) →
      exec (.keyLoad slot key owner) s = .next (told s .refused))) ∧
  (∀ (s : State) (slot : Nat), s.lamom.stage = .up →
    (s.lamom.spdm = .session → keySlot s slot ≠ none → ∃ t, exec (.keyUnload slot) s = .next t ∧
      keySlot t slot = none ∧ (∀ n, n ≠ slot → keySlot t n = keySlot s n) ∧
      t.lamom.answers = s.lamom.answers ++ [.ok] ∧
      ∀ l ∈ linesUnder s slot, (assoc l s.mem.lineKey = some slot → assoc l t.mem.sealedLines ≠ none) ∧
        assoc l t.net.fillKeys = none ∧ (∀ f ∈ t.net.forwards, f.addr / 128 ≠ l) ∧ (∀ c ∈ t.net.l1, c.2 ≠ l) ∧
        ∀ r ∈ t.net.replicas, r.line ≠ l) ∧
    ((s.lamom.spdm ≠ .session ∨ keySlot s slot = none) → exec (.keyUnload slot) s = .next (told s .refused))) ∧
  ∀ (s : State) (nonce : BitVec 256) (share : BitVec 512), s.lamom.stage = .up ∨ s.lamom.stage = .safe →
    let goes (i : Instr) (next : Spdm) (r : Response) : Prop :=
      exec i s = .next { told s r with lamom := { (told s r).lamom with spdm := next } }
    let no (i : Instr) : Prop := exec i s = .next (told s .refused)
    (if s.lamom.spdm = .version then goes .getCapabilities .capabilities (.bytes Config.capabilities)
      else no .getCapabilities) ∧
    (if s.lamom.spdm = .capabilities ∧ s.lamom.offer = (true, true) then
      goes .negotiateAlgorithms .negotiated (.algorithms true true) else no .negotiateAlgorithms) ∧
    (if s.lamom.spdm = .exchanged then goes .finish .session .ok else no .finish) ∧
    if s.lamom.spdm = .negotiated ∨ s.lamom.spdm = .exchanged ∨ s.lamom.spdm = .session then
      (∃ b, exec (.keyExchange share) s = .next { told s (.bytes b) with lamom := { (told s (.bytes b)).lamom with
        spdm := .exchanged, ide := some (Config.sessionKey share) } }) ∧
      (∃ b, goes .getDigests s.lamom.spdm (.bytes b) ∧ b = leBytes 64 (shake256 (Config.certificate s.lamom.measures[1])).toNat) ∧
      goes .getCertificate s.lamom.spdm (.bytes (Config.certificate s.lamom.measures[1])) ∧
      goes (.challenge nonce) s.lamom.spdm
        (.bytes (Config.falconSign s.lamom.measures[1] (leBytes 32 nonce.toNat))) ∧
      ∀ m : Fin 8, let r := leBytes 64 s.lamom.measures[m].toNat
        goes (.getMeasurements (m.val + 1) nonce) s.lamom.spdm
          (.bytes (r ++ Config.falconSign s.lamom.measures[1] (r ++ leBytes 32 nonce.toNat)))
    else no (.keyExchange share) ∧ no .getDigests ∧ no .getCertificate ∧ no (.challenge nonce) ∧
      ∀ m, no (.getMeasurements m nonce)

/-- 20/R437 to R442, R446; 21/R457. The refusals and the kept attach rest on logs 9, 52 and 56. -/
def Obligations.DebuggerCommandsAndSamples : Prop :=
  let told (s : State) (r : Response) : List Response := s.lamom.answers ++ [r]
  (∀ (s : State) (job : Nat), s.lamom.stage = .up →
    (∃ t, exec (.debuggerAttach job) s = .next t ∧ t.lamom.answers = told s .ok ∧ job ∈ t.lamom.debuggers ∧
      ∀ j, s.job? job = some j → t.job? job = some { j with debugger := true }) ∧
    (∃ t, exec (.debuggerDetach job) s = .next t ∧ t.lamom.answers = told s .ok ∧
      ∀ j, s.job? job = some j → t.job? job = some { j with debugger := false }) ∧
    ∀ j, s.job? job = some j → j.complete = false →
      (∀ n base lg rd wr, n < 4 → 3 ≤ lg → lg ≤ 16 → base.toNat % 2 ^ lg = 0 →
        ∃ t k, exec (.setWatchpoint job n base lg rd wr) s = .next t ∧ t.lamom.answers = told s .ok ∧
          t.job? job = some k ∧ (∀ w ∈ k.watch, w.n = n → w = ⟨n, base, lg, rd, wr⟩ ∧ (rd || wr) = true) ∧
          (rd || wr → (⟨n, base, lg, rd, wr⟩ : Watch) ∈ k.watch) ∧
          ∀ w : Watch, w.n ≠ n → (w ∈ k.watch ↔ w ∈ j.watch)) ∧
      (∀ n base lg rd wr, (4 ≤ n ∨ lg < 3 ∨ 16 < lg ∨ base.toNat % 2 ^ lg ≠ 0) →
        ∃ t, exec (.setWatchpoint job n base lg rd wr) s = .next t ∧ t.lamom.answers = told s .refused ∧ t.jobs = s.jobs) ∧
      (j.halt = none → ∀ v, ∃ t k hl, exec (.haltRequest job v) s = .next t ∧ t.lamom.answers = told s .ok ∧
        t.job? job = some k ∧ k.halt = some hl ∧ hl.reason = 0 ∧ hl.since = s.now ∧ hl.step = none ∧
        (∀ h, v = some h.id.uid → s.heat? h.id.uid = some h → h.id.job = job → h.status = .faulted →
          ∃ k, t.heat? h.id.uid = some k ∧ k.secondary = min (h.secondary + 1) 255) ∧
        ∀ h, s.heat? h.id.uid = some h → h.id.job = job →
          ¬(v = some h.id.uid ∧ h.status = .faulted) →
          t.heat? h.id.uid = some (if cannotHalt s h then { h with haltPending := true } else h)) ∧
      (∀ hl, j.halt = some hl → ∃ t k, exec (.release job) s = .next t ∧ t.lamom.answers = told s .ok ∧
        t.job? job = some k ∧ k.halt = none ∧ k.lastHalt = some { hl with step := none } ∧
        (∀ h ∈ t.heats, h.id.job = job → h.haltPending = false) ∧ (∀ l ∈ t.launches, l.job = job → l.held = false) ∧
        ∀ r ∈ t.queues, (∃ b, r.inHand = some (job, b)) → r.held = false) ∧
      (j.halt = none → ∃ t, exec (.release job) s = .next t ∧ t.lamom.answers = told s .refused ∧ t.jobs = s.jobs) ∧
      ∀ hl, j.halt = some hl → hl.entries.length < 1000 → ∃ b, exec (.readHaltRecord job) s = .next { s with
          lamom := { s.lamom with answers := told s (.halt b j.haltedCycles) } } ∧
        b.length = 64 + 32 * hl.entries.length ∧
        leNat (b.take 4) = 0x5C + 2 * 256 + (16 + 8 * hl.entries.length) * 65536 ∧
        leNat ((b.drop 4).take 4) = (hl.reason + hl.number * 256) % 2 ^ 32 ∧
        leNat ((b.drop 8).take 8) = hl.since % 2 ^ 64) ∧
  (∀ (s : State) (job n lg u : Nat) (p : Seat) (base : BitVec 64) (rd wr : Bool) (i : Instr), s.lamom.stage = .safe →
    i ∈ [Instr.debuggerAttach job, .debuggerDetach job, .setWatchpoint job n base lg rd wr, .haltRequest job none,
      .release job, .stepRelease u p n, .readHaltRecord job] →
    exec i s = .next { s with lamom := { s.lamom with answers := told s .notInSafe } }) ∧
  (∀ (s : State) (h : Heat) (j : Job) (hl : Halt) (u : Nat) (p : Seat) (n : Nat), s.lamom.stage = .up → s.heat? u = some h →
    s.job? h.id.job = some j → j.halt = some hl → hl.step = none → h.onCore = true → 1 ≤ n →
    ∃ t k, exec (.stepRelease u p n) s = .next t ∧ t.lamom.answers = told s .ok ∧ t.job? h.id.job = some k ∧
      k.halt = some { hl with step := some (u, p, n) }) ∧
  (∀ (s : State) (h : Heat) (u : Nat), s.heat? u = some h → h.id.uid = u → h.haltPending = true →
    (cannotHalt s h = true → exec (.haltPendingHalt u) s = .next s) ∧
    (cannotHalt s h = false → ∃ t, exec (.haltPendingHalt u) s = .next t ∧
      t.heat? u = some { h with haltPending := false })) ∧
  (∀ (s : State) (h : Heat) (u : Nat) (v : BitVec 64) (tt : Bool), s.heat? u = some h → h.id.uid = u → h.onCore = true →
    jobHalted s h.id.job = true → haltExempt s h = false →
    (∀ n : BitVec 6, n ≠ 0 → writeBacks h n = [] → ∃ t k, exec (.debugRegisterWrite u (.s n) v tt) s = .next t ∧
      t.heat? u = some k ∧ k.s n = ⟨v, tt⟩ ∧ ∀ m, m ≠ n → k.s m = h.s m) ∧
    (∀ n : BitVec 6, n ≠ 0 → writeBacks h n ≠ [] → ∃ t k, exec (.debugRegisterWrite u (.s n) v tt) s = .next t ∧
      t.heat? u = some k ∧ (∀ q ∈ k.pend, q.dst = some n → q.ctx = none → q.cancelled = true) ∧
      ∀ j, s.job? h.id.job = some j → ∃ x hl hl', t.job? h.id.job = some x ∧ j.halt = some hl ∧ x.halt = some hl' ∧
        hl'.entries = hl.entries ++ (writeBacks h n).map (haltEntry h n)) ∧
    (∀ n : BitVec 3, n ≠ 0 → ∃ t k, exec (.debugRegisterWrite u (.b n) v tt) s = .next t ∧ t.heat? u = some k ∧
      k.b n = ⟨v.getLsbD 0, tt⟩) ∧
    (∀ n : BitVec 3, ∀ hn : n.toNat < 6, ∃ t k, exec (.debugRegisterWrite u (.lc n) v tt) s = .next t ∧
      t.heat? u = some k ∧ k.c.lc[n.toNat] = ⟨v, tt⟩) ∧
    (∀ n : BitVec 4, ∃ t k, exec (.debugRegisterWrite u (.pL n) v tt) s = .next t ∧ t.heat? u = some k ∧
      k.p .L n = ⟨v, tt⟩ ∧ k.pS = h.pS) ∧
    (∀ n : BitVec 4, ∃ t k, exec (.debugRegisterWrite u (.pS n) v tt) s = .next t ∧ t.heat? u = some k ∧
      k.p .S n = ⟨v, tt⟩ ∧ k.pL = h.pL) ∧
    (∀ n : BitVec 3, n ≠ 0 → ∃ t k, exec (.debugRegisterWrite u (.k n) v tt) s = .next t ∧ t.heat? u = some k ∧
      k.k n = ⟨v, tt⟩) ∧
    (∀ (n : BitVec 4) (lane : BitVec 6), ∃ t k, exec (.debugRegisterWrite u (.v n lane) v tt) s = .next t ∧
      t.heat? u = some k ∧ ((k.v n).bits >>> (32 * lane.toNat)).setWidth 32 = v.setWidth 32 ∧
      (k.v n).taint.getLsbD lane.toNat = tt) ∧
    (∀ (n : BitVec 4) (e : Nat) (lane : BitVec 6), ∃ t k, exec (.debugRegisterWrite u (.q n e lane) v tt) s = .next t ∧
      t.heat? u = some k ∧ k.q[n.toNat].entries.length = h.q[n.toNat].entries.length ∧
      ∀ x, k.q[n.toNat].entries[e]? = some x →
        (x.bits >>> (32 * lane.toNat)).setWidth 32 = v.setWidth 32 ∧ x.taint.getLsbD lane.toNat = tt) ∧
    (∃ t k, exec (.debugRegisterWrite u (.csr 0x001) v tt) s = .next t ∧ t.heat? u = some k ∧
      k.ctl.slipw = clampS v 4 256 ∧ k.c = h.c) ∧
    (∃ t k, exec (.debugRegisterWrite u (.csr 0x003) v tt) s = .next t ∧ t.heat? u = some k ∧
      k.ctl.prio = v.toNat % 4 ∧ k.c = h.c) ∧
    (∃ t k, exec (.debugRegisterWrite u (.csr 0x043) v tt) s = .next t ∧ t.heat? u = some k ∧
      k.x.stat = v.setWidth 5 ∧ k.c = h.c) ∧
    (∀ n t0 k0, n ∉ [0x001, 0x003, 0x020, 0x043, 0x044, 0x049, 0x04A, 0x04B] → csrStore s h (BitVec.toNat (w := 10) n) v = some (t0, k0) →
      ∃ t k, exec (.debugRegisterWrite u (.csr n) v tt) s = .next t ∧ t.heat? u = some k ∧ k = { h with ctl := k0.ctl })) ∧
  (∀ (s : State) (h : Heat) (u : Nat) (r : DebugReg) (v : BitVec 64) (tt : Bool), s.heat? u = some h →
    jobHalted s h.id.job = false → exec (.debugRegisterWrite u r v tt) s = .next s) ∧
  ∀ (s : State) (j : Job) (job : Nat), s.job? job = some j →
    let period := if j.trapQ = 0 then 0 else 64 * (trapField s j 0 48 / 2 ^ 16)
    ((period = 0 ∨ j.coxed = true ∨ s.now < j.sampled + period) → exec (.sampleTick job) s = .next s) ∧
    (period ≠ 0 → j.coxed = false → j.complete = false → j.sampled + period ≤ s.now →
      ∃ t k, exec (.sampleTick job) s = .next t ∧ t.job? job = some k ∧
        k.sampled = j.sampled + (s.now - j.sampled) / period * period ∧ t.heats = s.heats)

/-- 19/R402 to R408, R416, R418; 20/R434, R435; 10/R302. `Dispatched` says that the packet is dispatched, from the ring or
from the hand. The model's choices in it: what a PREEMPT of a heat that is not resident answers (log 53), and the packet in
hand and the image address of a PREEMPT (log 51). -/
def Obligations.HostPackets : Prop :=
  let waits (s t : State) (q : Nat) (bs : List Byte) (w : PacketWait) : Prop :=
    ∃ p, t.packets = s.packets ++ [p] ∧ p.q = q ∧ p.wait = w ∧ p.tag = BitVec.ofNat 16 (part bs 6 7) ∧
      p.signal = (part bs 1 1).testBit 1 ∧ p.intr = (part bs 1 1).testBit 2
  (∀ (s s1 : State) (j : Job) (q : Nat) (bs : List Byte), Dispatched s q 0 bs s1 j → zeros bs 8 55 = true →
    exec (.nopPacket q) s = .next (finishNow s1 q bs 1)) ∧
  (∀ (s s1 : State) (j : Job) (q : Nat) (bs : List Byte), Dispatched s q 1 bs s1 j → zeros bs 16 55 = true →
    ∃ t l r, exec (.launchPacket q) s = .next t ∧ t.launches = s1.launches ++ [l] ∧ l.job = j.id ∧ l.preds = [] ∧
      l.die = q / 16 ∧ l.enqueued = false ∧ t.requests = s1.requests ++ [r] ∧ r.job = j.id ∧ r.launch = l.id ∧
      r.recAddr = some (BitVec.ofNat 64 (part bs 8 15)) ∧ r.handed = true ∧ waits s1 t q bs (.launch j.id l.id) ∧
      ∃ g ∈ t.graphs, g.id = l.graph ∧ g.job = j.id ∧ g.phase = l.phase ∧ g.refused = false) ∧
  (∀ (s s1 : State) (j : Job) (q : Nat) (bs : List Byte), Dispatched s q 2 bs s1 j → zeros bs 16 55 = true →
    let es := graphOf (takePhase s1 j.id bs).1 j (q / 16) (BitVec.ofNat 64 (part bs 8 15))
    ∃ t g ls, exec (.graphPacket q) s = .next t ∧ t.graphs = s1.graphs ++ [g] ∧ g.job = j.id ∧ g.refused = es.isNone ∧
      t.launches = s1.launches ++ ls ∧ ls.length = (es.getD []).length ∧ (∀ l ∈ ls, l.graph = g.id ∧ l.job = j.id) ∧
      waits s1 t q bs (.graph g.id)) ∧
  (∀ (s s1 : State) (j : Job) (q : Nat) (bs : List Byte), Dispatched s q 3 bs s1 j → zeros bs 8 55 = true →
    ∃ t, exec (.pclose q) s = .next t ∧ (∃ p ∈ t.phases, p.job = j.id ∧ p.id = part bs 2 3 ∧ p.closed = true ∧
      waits s1 t q bs (.phase p.uid)) ∧ t.launches = s1.launches) ∧
  (∀ (s s1 : State) (j : Job) (q : Nat) (bs : List Byte), Dispatched s q 4 bs s1 j → part bs 16 16 ≤ 4 →
    zeros bs 17 19 = true → zeros bs 24 55 = true →
    let r := cancelLevel s1 j.id (part bs 16 16) (part bs 8 15) (part bs 20 23)
    exec (.cancelPacket q) s = .next (finishNow r.1 q bs (if r.2 then 5 else 1))) ∧
  (∀ (s s1 : State) (j : Job) (q : Nat) (bs : List Byte), Dispatched s q 5 bs s1 j → zeros bs 24 55 = true →
    let va : Dword := BitVec.ofNat 64 (part bs 8 15)
    (va.toNat % 8 ≠ 0 → exec (.writePacket q) s = .next (finishNow s1 q bs 33)) ∧
    (va.toNat % 8 = 0 →
      match jobFrame s1 j (q / 16) va .write with
      | .error _ => exec (.writePacket q) s = .next (finishNow s1 q bs 33)
      | .ok f =>
        let s2 := writePhys s1 noHeat (q / 16) f.pa f.key (withTaint false (leBytes 8 (part bs 16 23)))
        ∃ t, exec (.writePacket q) s = .next t ∧ t.mem = s2.mem ∧ t.net = s2.net ∧ waits s1 t q bs .write)) ∧
  (∀ (s s1 : State) (j : Job) (q : Nat) (bs : List Byte), Dispatched s q 6 bs s1 j → zeros bs 16 55 = true →
    let va : Dword := BitVec.ofNat 64 (part bs 8 15)
    let alone := (∀ k ∈ s1.jobs, k.complete = false → k.id = j.id) ∧ coxedMode s1 = false
    (¬ alone → exec (.coxedPacket q) s = .next (finishNow s1 q bs 33)) ∧
    (alone →
      match imageAt s1 j (q / 16) va with
      | none => exec (.coxedPacket q) s = .next (finishNow s1 q bs 33)
      | some m => ∃ t c, exec (.coxedPacket q) s = .next t ∧ t.sched = some c ∧ c.job = j.id ∧ c.start = m.start ∧
        c.slots = m.slots ∧ c.entries = m.entries ∧ c.leases = m.leases ∧ c.draws = m.draws ∧ c.refresh = m.refresh ∧
        c.live = true ∧ c.broken = false ∧ t.dev.strokeLen = 2 ^ m.lg ∧ t.dev.bucket = [] ∧ t.dev.gated = [] ∧
        t.tlb = [] ∧ t.net.replicas = [] ∧ (∀ l ∈ t.leases, l.turn = 0) ∧
        (∀ x ∈ t.stashes, x.filled = [] ∧ x.dirty = []) ∧ waits s1 t q bs (.coxed j.id))) ∧
  (∀ (s s1 : State) (j : Job) (q : Nat) (bs : List Byte), Dispatched s q 7 bs s1 j → part bs 24 25 % 4096 = 0 →
    part bs 40 40 < 8 → zeros bs 41 55 = true →
    let ends (bits : Nat) : Prop := exec (.preemptPacket q) s = .next (finishNow s1 q bs bits)
    match s1.member? j.id (part bs 32 35) (part bs 36 39) with
    | none => ends 33
    | some h =>
      (h.status ≠ .resident → ends 9) ∧
      (h.status = .resident →
        match claimRule h (BitVec.ofNat 64 (part bs 16 23)) with
        | none => ends 33
        | some cell =>
          (part bs 8 15 % 256 ≠ 0 → ends 33) ∧
          (part bs 8 15 % 256 = 0 → s1.heat? h.id.uid = some h →
            ∃ t k r, exec (.preemptPacket q) s = .next t ∧ t.heat? h.id.uid = some k ∧ k.status = .stopping ∧
              (∃ st, k.stop = some st ∧ st.cause = .preempt) ∧ k.susp = some r ∧
              r.cob = BitVec.ofNat 64 (part bs 8 15) ∧ r.claim = cell ∧ r.rights = part bs 40 40 ∧
              r.image = BitVec.ofNat 64 (part bs 24 31) ∧ waits s1 t q bs (.preempt h.id.uid)))) ∧
  (∀ (s : State) (q : Nat), let r := queueRegs s q
    (hasTurn s q = true → (r.inHand = none → r.running = true ∧ r.cons ≠ r.prod) ∧ (r.inHand ≠ none → r.held = false) ∧
      (∀ k, assoc (q / 16) s.dev.cpTurn ≠ some (k, s.now)) ∧
      ∀ k c p, assoc (q / 16) s.dev.cpTurn = some (k, c) → p / 16 = q / 16 → offers s p = true →
        (q + 15 * (k + 1)) % 16 ≤ (p + 15 * (k + 1)) % 16) ∧
    (∀ s1 j ty bs, Dispatched s q ty bs s1 j → ∀ p, p / 16 = q / 16 → hasTurn s1 p = false) ∧
    (hasTurn s q = true → r.inHand = none → headBad s q = false → (part (headBytes s q) 1 1).testBit 0 = true →
      ∀ p ∈ s.packets, p.q ≠ q)) ∧
  ∀ (s : State) (q : Nat) (i : Instr) (ty : Nat) (ok : Bool),
    let bs := headBytes s q
    (i, ty, ok) ∈ [(Instr.nopPacket q, 0, zeros bs 8 55), (.launchPacket q, 1, zeros bs 16 55),
      (.graphPacket q, 2, zeros bs 16 55), (.pclose q, 3, zeros bs 8 55),
      (.cancelPacket q, 4, decide (part bs 16 16 ≤ 4) && zeros bs 17 19 && zeros bs 24 55),
      (.writePacket q, 5, zeros bs 24 55), (.coxedPacket q, 6, zeros bs 16 55),
      (.preemptPacket q, 7, decide (part bs 24 25 % 4096 = 0) && decide (part bs 40 40 < 8) && zeros bs 41 55)] →
    let stops (stat : Dword) : Prop := ∃ t, exec i s = .next t ∧ (queueRegs t q).stat = stat ∧
      (queueRegs t q).cons = (queueRegs s q).cons ∧ t.packets = s.packets ∧ t.launches = s.launches
    (hasTurn s q = false → exec i s = .next s) ∧
    (∀ job b, hasTurn s q = true → (queueRegs s q).inHand = some (job, b) →
      (part b 0 0 ≠ ty → exec i s = .next s) ∧
      (part b 0 0 = ty → (∀ j, s.job? job = some j → j.killed = true ∨ j.complete = true) →
        exec i s = .next (noteTurn (putQueue s { queueRegs s q with inHand := none }) q))) ∧
    (hasTurn s q = true → (queueRegs s q).inHand = none →
      (headBad s q = true → stops 0x402) ∧
      (headBad s q = false → 7 < part bs 0 0 → stops 0x202) ∧
      (headBad s q = false → part bs 0 0 ≤ 7 → part bs 0 0 ≠ ty → exec i s = .next s) ∧
      (headBad s q = false → part bs 0 0 = ty → ty ≤ 7 → (headerOk bs = false ∨ ok = false) → stops 0x202) ∧
      (headBad s q = false → part bs 0 0 = ty → headerOk bs = true → ok = true →
        (queueJob s q = none → stops 0x302) ∧
        ∀ s1 j, queueJob s q = some (s1, j) → packetBreak s1 q ≠ [] → ∃ t, exec i s = .next t ∧
          (queueRegs t q).held = true ∧ (queueRegs t q).inHand = some (j.id, bs) ∧
          (queueRegs t q).cons = (queueRegs s q).cons + 1 ∧ t.packets = s.packets ∧ t.launches = s1.launches ∧
          ∀ k, s1.job? j.id = some k → k.halt = none → ∃ x hl, t.job? j.id = some x ∧ x.halt = some hl ∧ hl.reason = 3))

/-- 19/R401 to R403, R417; 12/R351 to R354, R356; 22/R465 to R467. The model's choices in it: the doorbell of a queue that
does not run (log 51), the move among several (log 7), and the lines that an L1D way loses (log 82). -/
def Obligations.HostRegistersAndSlices : Prop :=
  (∀ (s : State) (q : Nat) (p : Word), let r := queueRegs s q
    (r.polls = true → exec (.qdoor q p) s = .next s) ∧
    (r.polls = false → (r.running = false ∨ p = r.prod) → exec (.qdoor q p) s = .next s) ∧
    (r.polls = false → r.running = true → p ≠ r.prod → (p - r.cons).toNat ≤ r.size → (p - r.prod).toNat < 2 ^ 31 →
      ∃ t, exec (.qdoor q p) s = .next t ∧ queueRegs t q = { r with prod := p }) ∧
    (r.polls = false → r.running = true → p ≠ r.prod → (r.size < (p - r.cons).toNat ∨ 2 ^ 31 ≤ (p - r.prod).toNat) →
      ∃ t, exec (.qdoor q p) s = .next t ∧ queueRegs t q = { r with stat := 0x102 }) ∧
    (r.polls = false → exec (.qpollChange q) s = .next s) ∧
    (r.polls = true → r.running = true →
      let w : Word := BitVec.ofNat 32 (viewNat s (q / 16) (hostPa r.poll.toNat) 4)
      w ≠ r.prod → (w - r.cons).toNat ≤ r.size → (w - r.prod).toNat < 2 ^ 31 →
      ∃ t, exec (.qpollChange q) s = .next t ∧ queueRegs t q = { r with prod := w })) ∧
  (∀ (s : State) (q : Nat) (v : Word), let r := queueRegs s q
    ((v.toNat % 32 < 4 ∨ 16 < v.toNat % 32) → exec (.qctl q v) s = .next s) ∧
    (q < 64 → 4 ≤ v.toNat % 32 → v.toNat % 32 ≤ 16 → r.enabled = false → v.getLsbD 31 = true → s.lamom.stage ≠ .safe →
      ∃ t, exec (.qctl q v) s = .next t ∧ queueRegs t q = { r with
        ctl := v &&& 0xC03F001F, cons := 0, prod := 0, stat := 1 }) ∧
    (q < 64 → 4 ≤ v.toNat % 32 → v.toNat % 32 ≤ 16 → r.enabled = false → (v.getLsbD 31 = false ∨ s.lamom.stage = .safe) →
      ∃ t, exec (.qctl q v) s = .next t ∧ queueRegs t q = { r with ctl := v &&& 0x403F001F }) ∧
    (q < 64 → 4 ≤ v.toNat % 32 → v.toNat % 32 ≤ 16 → r.enabled = true → v.getLsbD 31 = false → s.lamom.stage ≠ .safe →
      ∃ t, exec (.qctl q v) s = .next t ∧ queueRegs t q = { r with
        ctl := (v &&& 0xC03F0000) ||| (r.ctl &&& 31), stat := r.stat &&& 0xFFFFFFFFFFFFFFFE }) ∧
    (q < 64 → 4 ≤ v.toNat % 32 → v.toNat % 32 ≤ 16 → r.enabled = true → v.getLsbD 31 = true → s.lamom.stage ≠ .safe →
      ∃ t, exec (.qctl q v) s = .next t ∧ queueRegs t q = { r with ctl := (v &&& 0xC03F0000) ||| (r.ctl &&& 31) })) ∧
  (∀ (s : State) (q : Nat) (v : Dword), q < 64 → let r := queueRegs s q
    (r.enabled = true → ∀ x ∈ [HostReg.qbase q, .qjob q, .qpoll q], exec (.registerWrite x v) s = .next s) ∧
    (r.enabled = false →
      (∃ t, exec (.registerWrite (.qbase q) v) s = .next t ∧ queueRegs t q = { r with base := v &&& ~~~0xFFE }) ∧
      (∃ t, exec (.registerWrite (.qjob q) v) s = .next t ∧ queueRegs t q = { r with job := v &&& ~~~63 }) ∧
      (∃ t, exec (.registerWrite (.qpoll q) v) s = .next t ∧ queueRegs t q = { r with poll := v &&& ~~~7 }))) ∧
  (∀ (s : State) (v : Dword) (n : Nat), exec (.registerWrite .winbase v) s = .next { s with
      dev := { s.dev with winBase := v.toNat % 16 } } ∧
    exec (.registerWrite (.unlisted n) v) s = .next s ∧
    ((∀ j ∈ s.jobs, j.complete = true) → exec (.devnum v) s = .next { s with
      dev := { s.dev with devNum := v.toNat % 1024 } }) ∧
    ((∃ j ∈ s.jobs, j.complete = false) → exec (.devnum v) s = .next s)) ∧
  (∀ (s : State) (off : Nat), ∃ v, (hostRead off s).net.outbox = s.net.outbox ++ [⟨v, false, s.now⟩] ∧
    (hostRead off s).mem = s.mem ∧ (hostRead off s).queues = s.queues ∧ (4 * 2 ^ 24 ≤ off → v = 0) ∧
    (∀ die, die < 4 → ∀ n, n < 16 → let at_ := off - die * 2 ^ 24 - 0x1000 - n * 0x40
      let r := queueRegs s (16 * die + n)
      die * 2 ^ 24 + 0x1000 + n * 0x40 ≤ off →
        (at_ = 0 → v = r.base) ∧ (at_ = 0x08 → v = r.job) ∧ (at_ = 0x10 → v = r.ctl.setWidth 64) ∧
        (at_ = 0x20 → v = r.cons.setWidth 64) ∧ (at_ = 0x28 → v = r.poll) ∧ (at_ = 0x30 → v = r.stat)) ∧
    (off = 0x3000 → v = BitVec.ofNat 64 s.dev.winBase) ∧ (off = 0x3008 → v = BitVec.ofNat 64 s.dev.devNum) ∧
    (∀ die n, die < 4 → n < 8 → off = die * 2 ^ 24 + 0x2000 + 8 * n →
      v = ((s.dev.cmp.find? fun c => c.1 == die && c.2.1 == n).map (·.2.2)).getD 0) ∧
    (∀ die o, die < 4 → o < 2 ^ 24 → off = die * 2 ^ 24 + o →
      ¬ (0x1000 ≤ o ∧ o < 0x1400 ∧ o % 0x40 ∈ [0, 8, 0x10, 0x18, 0x20, 0x28, 0x30]) →
      ¬ (0x2000 ≤ o ∧ o < 0x2040 ∧ o % 8 = 0) → ¬ (die = 0 ∧ (o = 0x3000 ∨ o = 0x3008)) →
      ¬ (0x100000 ≤ o ∧ o < 0x120000 ∧ o % 0x1000 = 0) → ¬ (0x200000 ≤ o ∧ o < 0x204000 ∧ o % 4 = 0) → v = 0) ∧
    ∀ die, die < 4 → (∀ sl, sl < 32 → off = die * 2 ^ 24 + 0x100000 + sl * 0x1000 → v = (wayReg s die sl).setWidth 64) ∧
      ∀ b, b < 4096 → off = die * 2 ^ 24 + 0x200000 + 4 * b → v = BitVec.ofNat 64 (bucketSlice s die b)) ∧
  (∀ (s : State) (die n : Nat) (v : Dword), die < 4 → n < 8 → ∃ t c, exec (.registerWrite (.pktcmp die n) v) s = .next t ∧
    (t.dev.cmp.find? fun c => c.1 == die && c.2.1 == n) = some (die, n, c) ∧ c.getLsbD 63 = v.getLsbD 63 ∧
    c.getLsbD 62 = v.getLsbD 62 ∧ (v.getLsbD 61 = true → c.getLsbD 61 = false) ∧
    (v.getLsbD 62 = false → c.toNat % 2 ^ 48 / 4 = v.toNat % 2 ^ 48 / 4) ∧
    (v.getLsbD 62 = true → c.toNat % 2 ^ 48 / 4 = v.toNat % 256 / 4)) ∧
  (∀ (s : State) (die b : Nat) (v : Word), die < 4 → b < 4096 →
    (s.sched.elim false (·.live) = false → ∃ t, exec (.bucketTableEntry die b v) s = .next t ∧
      bucketSlice t die b = v.toNat % 32 ∧ ∀ d x, (d, x) ≠ (die, b) → bucketSlice t d x = bucketSlice s d x) ∧
    (s.sched.elim false (·.live) = true → exec (.bucketTableEntry die b v) s = .next s)) ∧
  (∀ (s : State) (die sl : Nat) (m : BitVec 16), die < 4 → sl < 32 →
    ((wayReg s die sl).getLsbD 31 = false → s.dev.wayCmd = [] → (∃ t, exec (.flushWays die sl m) s = .next t ∧
      (wayReg t die sl).getLsbD 31 = true ∧ t.mem = s.mem ∧ (inMove s die sl = false →
        ∃ u, exec (.wayFlushDone die sl) t = .next u ∧ (wayReg u die sl).getLsbD 31 = false ∧
          emptied u die sl = m.toNat ∧
          (s.mem.errors = [] → u.mem.cells = s.mem.cells ∧ u.mem.taint = s.mem.taint))) ∧
      (12 < ((List.range 16).filter m.getLsbD).length → inMove s die sl = false →
        ∃ t, exec (.setScratchMask die sl m) s = .next t ∧ wayReg t die sl = ((wayReg s die sl).setWidth 16).setWidth 32 ||| 0x40000000 ∧
          t.mem = s.mem) ∧
      (((List.range 16).filter m.getLsbD).length ≤ 12 → inMove s die sl = false → s.sched = none →
        m &&& ~~~((wayReg s die sl).setWidth 16) &&& ~~~(BitVec.ofNat 16 (emptied s die sl)) = 0 →
        ∃ t, exec (.setScratchMask die sl m) s = .next t ∧ wayReg t die sl = m.setWidth 32 ∧
          (∀ w o, w < 16 → m.getLsbD w ≠ (wayReg s die sl).getLsbD w → o < 262144 →
            cellGet t.mem.cells (wayBase die sl w + o) = 0)) ∧
      (inMove s die sl = true → ∀ cmd ∈ [1, 2, 3],
        ∃ t, exec (.registerWrite (.slwayctl die sl) (BitVec.ofNat 64 (cmd * 2 ^ 16 + m.toNat))) s = .next t ∧
          wayReg t die sl = ((wayReg s die sl).setWidth 16).setWidth 32 ||| 0x80000000 ∧
          t.dev.wayCmd = [(die, sl, cmd, m.toNat)] ∧ t.mem = s.mem ∧ exec (.wayFlushDone die sl) t = .next t) ∧
      (inMove s die sl = false →
        ∃ t, exec (.registerWrite (.slwayctl die sl) (BitVec.ofNat 64 (3 * 2 ^ 16 + m.toNat))) s = .next t ∧
          wayReg t die sl = ((wayReg s die sl).setWidth 16).setWidth 32 ||| 0x40000000 ∧ t.mem = s.mem)) ∧
    ((wayReg s die sl).getLsbD 31 = true → ∃ t, exec (.setScratchMask die sl m) s = .next t ∧
      wayReg t die sl = wayReg s die sl ||| 0x40000000 ∧ t.mem = s.mem)) ∧
  (∀ (s : State) (die : Nat),
    ((s.dev.rebalCtl.getLsbD 0 = false ∨ s.sched.elim false (·.live) = true ∨ s.now < intervalEnd s die) →
      exec (.rebalanceInterval die) s = .next s) ∧
    (let load (n : Nat) : Nat := sliceLoad s die n
     let count (b : Nat) : Nat := ((s.dev.requests.find? fun e => e.1 == (die, b)).map (·.2)).getD 0
     let above (n : Nat) : Prop :=
       ((List.range 32).map load).sum * (100 + s.dev.rebalCtl.toNat / 2 ^ 8 % 2 ^ 8) < load n * 3200
     die < 4 → s.dev.rebalCtl.getLsbD 0 = true → s.sched.elim false (·.live) = false → intervalEnd s die ≤ s.now →
      ∃ t, exec (.rebalanceInterval die) s = .next t ∧ t.mem = s.mem ∧ t.dev.bucket = s.dev.bucket ∧
        (∀ e ∈ t.dev.requests, e.1.1 ≠ die) ∧ assoc die t.dev.intervalAt = some s.now ∧
        ((∃ m ∈ s.dev.moves, m.die = die) → t.dev.moves = s.dev.moves) ∧
        ((∀ n < 32, ¬ above n) → t.dev.moves = s.dev.moves) ∧
        (t.dev.moves = s.dev.moves ∨ ∃ m, t.dev.moves = s.dev.moves ++ [m] ∧ m.die = die ∧ m.src < 32 ∧ above m.src ∧
          m.src = bucketSlice s die m.bucket ∧ m.dst < 32 ∧ m.dst ≠ m.src ∧ takesBucket s die m.dst = true ∧
          (∀ n < 32, n ≠ m.src → takesBucket s die n = true → load m.dst ≤ load n) ∧
          ∀ e ∈ s.dev.requests, e.1.1 = die → bucketSlice s die e.1.2 = m.src → count e.1.2 ≤ count m.bucket) ∧
        ((∀ m ∈ s.dev.moves, m.die ≠ die) → (∃ n < 32, above n) →
          (∃ a b, a < 32 ∧ b < 32 ∧ a ≠ b ∧ takesBucket s die a = true ∧ takesBucket s die b = true) →
          ∃ m, t.dev.moves = s.dev.moves ++ [m])) ∧
    ∀ m, (s.dev.moves.find? fun m => m.die == die) = some m → s.dev.wayCmd = [] →
      ∃ t, exec (.bucketMoveDone die) s = .next t ∧ bucketSlice t die m.bucket = m.dst ∧ t.mem = s.mem ∧
        ∀ x ∈ t.dev.moves, x.die ≠ die) ∧
  ∀ (s : State) (u : GateUnit),
    (s.dev.gateCtl.getLsbD 0 = true → s.sched = none → gateable s u = true → unitIdle s u = true → u ∉ s.dev.gated →
      ∃ t, exec (.unitGate u) s = .next t ∧ t.dev = { s.dev with gated := s.dev.gated ++ [u] } ∧
        (∀ core w, u = .l1dWay core w → ∀ c ∈ t.net.l1, c.1 ≠ core) ∧
        (∀ die sl w o, u = .scratchWay die sl w → o < 262144 → cellGet t.mem.cells (wayBase die sl w + o) = 0) ∧
        (∀ core bank o, u = .spadBank core bank → o < 131072 →
          cellGet t.mem.cells (spadAddr core (bank * 131072) + o) = 0)) ∧
    ((s.dev.gateCtl.getLsbD 0 = false ∨ s.sched.elim false (·.live) = true ∨ gateable s u = false ∨
        unitIdle s u = false ∨ u ∈ s.dev.gated) →
      exec (.unitGate u) s = .next s) ∧
    exec (.unitWake u) s = .next { s with dev := { s.dev with gated := s.dev.gated.filter (· != u) } }

/-- 02/R24, R31 to R36, R44; 19/R413, R414, R419; 20/R423, R426, R429. -/
def Obligations.HeatsBeginAndEnd : Prop :=
  (∀ (s : State) (q : Request) (l : Launch) (j : Job), (s.requests.find? fun r => r.id == q.id && r.handed) = some q →
    s.launch? q.job q.launch = some l → s.job? q.job = some j → l.complete = false → l.cut = false →
    (q.recAddr = none → ∃ t k, exec (.launchEnqueue q.id) s = .next t ∧ t.launch? q.job q.launch = some k ∧
      k.enqueued = true ∧ k.type = l.type ∧ k.total = l.total ∧ ∀ r ∈ t.requests, r.id ≠ q.id) ∧
    ∀ va, q.recAddr = some va →
      let s1 := { s with requests := s.requests.filter fun x => x.id != q.id }
      (∀ a, admitRecord s1 j l.die va = some a → ∃ t k, exec (.launchEnqueue q.id) s = .next t ∧
        t.launch? q.job q.launch = some k ∧ k.enqueued = true ∧ k.refused = l.refused ∧ k.type = a.type ∧
        k.dims = a.dims ∧ k.order = a.order ∧ k.mask = a.mask ∧ k.total = a.total) ∧
      (admitRecord s1 j l.die va = none → ∃ t k, exec (.launchEnqueue q.id) s = .next t ∧
        t.launch? q.job q.launch = some k ∧ k.refused = true ∧ k.enqueued = l.enqueued)) ∧
  (∀ (s : State) (die : Nat), (coxedMode s = true ∨ s.dev.computeOn = false) → exec (.walkerPlace die) s = .next s) ∧
  (∀ (s : State) (die : Nat), (walkedNow s die = true ∨ lowerFirst s die = true ∨ 4 ≤ die) →
    exec (.walkerPlace die) s = .next s) ∧
  (∀ (s : State) (die : Nat) (l : Launch) (rest : List Launch), coxedMode s = false → s.dev.computeOn = true → die < 4 →
    (∀ e ∈ s.dev.walked, e.2.1 ≠ s.now) → lowerFirst s die = false →
    let s1 := { s with launches := mapIf (enumerable s die) (fun l => skipDiscarded l.total l) s.launches }
    walkerQueue s1 die = l :: rest → launchBreak s1 l = [] → s1.launch? l.job l.id = some l →
    (∀ c, l.type.gang = false → findCore s1 l.die l.type = some c →
      ∃ t k, exec (.walkerPlace die) s = .next t ∧ t.heats = s.heats ++ [k] ∧ k.core = c ∧ k.status = .resident ∧
        k.id.job = l.job ∧ k.id.launch = l.id ∧ k.id.index = l.nextIdx ∧ k.type = l.type ∧ k.C.pc = l.type.prologue ∧
        k.spad = (freeSpad s1 c).take l.type.spadUnits ∧
        t.launch? l.job l.id = some { l with nextIdx := l.nextIdx + 1, live := l.live + 1 }) ∧
    (l.type.gang = true → ∃ t, exec (.walkerPlace die) s = .next t ∧
      (t = s1 ∨ ∃ ks, t.heats = s.heats ++ ks ∧ ks.length = l.total ∧
        ∀ k ∈ ks, k.id.job = l.job ∧ k.id.launch = l.id ∧ k.status = .resident))) ∧
  (∀ (s : State) (h : Heat) (u : Nat) (p : Seat), s.heat? u = some h → h.id.uid = u → h.onCore = true →
    (∀ t0, (h.seat p).readySince = some t0 → (h.seat p).agedAt = none → s.dev.ageCap - 4 ≤ s.now - t0 →
      ∃ t k, exec (.heatAged u p) s = .next t ∧ t.heat? u = some k ∧ (k.seat p).agedAt = some s.now) ∧
    (∀ t0, (h.seat p).readySince = some t0 → s.now - t0 < s.dev.ageCap - 4 →
      ∃ t, exec (.heatAged u p) s = .next t ∧ t.heat? u = some h ∧ t.mem = s.mem) ∧
    ∀ n since, (h.seat p).wait = some ⟨.token n, since⟩ → (h.seat p).stopped = false → (h.seat p).ended = false →
      h.stop = none →
      ((h.ctl.tokwdog = 0 ∨ s.now - since ≤ h.ctl.tokwdog) → exec (.tokenWatchdog u p) s = .next s) ∧
      (h.ctl.tokwdog ≠ 0 → h.ctl.tokwdog < s.now - since →
        Raises (.tokenWatchdog u p) p s h clsToken 0 0)) ∧
  (∀ (s : State) (h : Heat) (u : Nat), s.heat? u = some h → h.id.uid = u → h.onCore = true → h.stop = none →
    allEnded h = true → drained s h = true → h.id.trapTask = false →
    ∃ t k, exec (.heatEnd u) s = .next t ∧ t.heat? u = some k ∧ k.status = .ended ∧ k.freed = true ∧ k.spad = [] ∧
      k.asr = [] ∧ k.bags = [] ∧ (∀ x ∈ t.stashes, x.heat ≠ u) ∧
      ∀ l, h.id.detached = false → s.launch? h.id.job h.id.launch = some l →
        ∃ m, t.launch? h.id.job h.id.launch = some m ∧ m.live = l.live - 1 ∧ m.faulted = l.faulted ∧
          m.cancelled = l.cancelled) ∧
  (∀ (s : State) (h : Heat) (u : Nat), s.heat? u = some h → h.onCore = true →
    (allEnded h = false ∨ drained s h = false) → exec (.heatEnd u) s = .next s) ∧
  (∀ (s : State) (h : Heat) (u : Nat) (st : Stop), s.heat? u = some h → h.id.uid = u → h.status = .stopping →
    h.stop = some st → st.cause = .cancel → atRest s h = true → h.id.trapTask = false →
    ∃ t k, exec (.heatCancelled u) s = .next t ∧ t.heat? u = some k ∧ k.status = .cancelled ∧ k.freed = true ∧
      k.spad = [] ∧ k.asr = [] ∧ (∀ b ∈ k.bags, b.phase ≠ .opened ∧ b.phase ≠ .failed) ∧
      ∀ l, h.id.detached = false → s.launch? h.id.job h.id.launch = some l →
        ∃ m, t.launch? h.id.job h.id.launch = some m ∧ m.live = l.live - 1 ∧ m.cancelled = true) ∧
  (∀ (s : State) (h : Heat) (u : Nat) (st : Stop) (f : FaultInfo), s.heat? u = some h → h.id.uid = u →
    h.status = .stopping → h.stop = some st → st.cause = .fault → h.fault = some f → atRest s h = true →
    h.id.trapTask = false → h.freed = false →
    let idx := (writeTrap (abandonBags s h) h.id.job h.die h.id.launch h.id.index (trapBytes h f)).2
    ∃ t k, exec (.heatFaulted u) s = .next t ∧ t.heat? u = some k ∧ k.status = .faulted ∧ k.record = idx ∧
      k.freed = idx.isNone ∧ (∀ b ∈ k.bags, b.phase ≠ .opened ∧ b.phase ≠ .failed) ∧
      ∀ l, h.id.detached = false → s.launch? h.id.job h.id.launch = some l →
        ∃ m, t.launch? h.id.job h.id.launch = some m ∧ m.live = l.live - 1 ∧ m.faulted = true ∧
          m.faultedHeats = l.faultedHeats + 1) ∧
  ∀ (h : Heat) (f : FaultInfo), (trapBytes h f).length = 64 ∧
    leNat ((trapBytes h f).take 4) = 0x0010015C ∧
    (trapBytes h f)[4]? = some f.cls ∧
    leNat (((trapBytes h f).drop 4).take 4) / 256 % 4 = seatNum f.seat ∧
    leNat (((trapBytes h f).drop 8).take 4) = h.id.launch % 2 ^ 32 ∧
    leNat (((trapBytes h f).drop 12).take 4) = h.id.index % 2 ^ 32 ∧
    leNat (((trapBytes h f).drop 32).take 8) = f.text.toNat ∧
    leNat (((trapBytes h f).drop 40).take 8) = f.clock % 2 ^ 64 ∧
    leNat (((trapBytes h f).drop 48).take 8) = f.engStatus.toNat ∧
    leNat (((trapBytes h f).drop 56).take 8) = f.addr.toNat

/-- 07/R222, R226; 10/R301, R308, R312, R316, R319; 12/R363 to R365, R367; 19/R400; 20/R426, R452. That a late message is
performed is the model's reading (log 54). -/
def Obligations.FabricAndCoxedEvents : Prop :=
  let bytesAt (t : State) (pa : Nat) (v : Dword) : Prop :=
    ∀ i, i < 8 → cellGet t.mem.cells (pa + i) = v.extractLsb' (8 * i) 8
  let overrun (t : State) (u cause : Nat) : Prop := ∃ k f, t.heat? u = some k ∧ k.status = .stopping ∧ k.fault = some f ∧
    f.cls = clsOverrun ∧ f.engStatus.toNat / 2 ^ 16 = cause
  let uncharged (s : State) (heat : Option Nat) : Prop :=
    heat = none ∨ ∃ u, heat = some u ∧ ∀ h, s.heat? u = some h → h.status.final = true
  let broken (s t : State) (job : Nat) : Prop := (∃ c, t.sched = some c ∧ c.broken = true) ∧
    ∀ j, s.job? job = some j → ∃ k, t.job? job = some k ∧ k.overrun = true
  (∀ (s : State) (f : Forward), (s.net.forwards.find? fun g => g.id == f.id) = some f →
    ((riding s f.id = true ∨ messageHeld s f.heat = true ∨ s.net.forwards.any (comesFirst s f) = true) → exec (.writeForwardApply f.id) s = .next s) ∧
    (riding s f.id = false → messageHeld s f.heat = false → s.net.forwards.any (comesFirst s f) = false → f.toHome = true →
      ∃ t, exec (.writeForwardApply f.id) s = .next t ∧ t.mem = s.mem.putAll f.parts ∧
      (∀ d ∈ holders s f.addr, ∃ g ∈ t.net.forwards, g.dst = d ∧ g.toHome = false ∧ g.parts = f.parts ∧
        g.clock = f.clock) ∧ t.net.replicas = s.net.replicas) ∧
    (riding s f.id = false → messageHeld s f.heat = false → s.net.forwards.any (comesFirst s f) = false → f.toHome = false →
      ∃ t, exec (.writeForwardApply f.id) s = .next t ∧ t.mem = s.mem ∧ (∀ g ∈ t.net.forwards, g.id ≠ f.id) ∧
      t.net.replicas = mapIf (fun r => r.die == f.dst && r.line == f.addr / 128) (fun r =>
        (s.net.forwards.filter (shownAfter f)).foldl (fun r g => r.putAll g.parts g.clock) (r.putAll f.parts f.clock))
        s.net.replicas)) ∧
  (∀ (s : State) (core line : Nat),
    (lineBusy s core line = false → exec (.probeArrival core line) s = .next { s with
      net := { s.net with l1 := s.net.l1.filter (· != (core, line)) } }) ∧
    (lineBusy s core line = true → exec (.probeArrival core line) s = .next { s with
      net := { s.net with probes := s.net.probes ++ [⟨core, line⟩] } })) ∧
  (∀ (s : State) (addr : Nat) (v : Dword),
    let pa := s.dev.winBase * 2 ^ 34 + addr / 8 * 8 % 2 ^ 34
    (s.lamom.stage = .safe → exec (.hostHdmAccess true addr v) s = .next s ∧
      ∃ t, exec (.hostHdmAccess false addr v) s = .next t ∧ t.net.outbox = s.net.outbox ++ [⟨0, false, s.now⟩] ∧
        t.mem = s.mem) ∧
    (s.lamom.stage ≠ .safe → Inv s →
      ((∀ f ∈ s.net.forwards, precedes s (homeDie pa) (heatClock s noHeat) f = false ∧
          ¬ (f.toHome = true ∧ f.addr / 128 = pa / 128)) →
        ∃ t, exec (.hostHdmAccess true addr v) s = .next t ∧ bytesAt t pa v) ∧
      ((∃ f ∈ s.net.forwards, precedes s (homeDie pa) (heatClock s noHeat) f = true ∨
          (f.toHome = true ∧ f.addr / 128 = pa / 128 ∧ f.wdie ≠ homeDie pa ∧ observed f (dieClock s (homeDie pa)) = true)) →
        ∃ t g, exec (.hostHdmAccess true addr v) s = .next t ∧ t.net.forwards = s.net.forwards ++ [g] ∧ g.toHome = true ∧
          g.dst = homeDie pa ∧ g.addr = pa ∧ g.data = withTaint false (leBytes 8 v.toNat))) ∧
    (s.lamom.stage ≠ .safe → assoc (pa / 128) s.mem.sealedLines = none → ∃ t, exec (.hostHdmAccess false addr v) s = .next t ∧
      t.net.outbox = s.net.outbox ++ [⟨BitVec.ofNat 64 (viewNat s (homeDie pa) pa 8), false, s.now⟩] ∧ t.mem = s.mem)) ∧
  (∀ (s : State), ∃ t, exec .cxlFlushReadComplete s = .next t ∧ t.net.posted = [] ∧ t.net.flushed = true ∧
    t.mem = s.net.posted.foldl (fun m p => m.put p.addr (withTaint false p.bytes)) s.mem ∧
    ∀ p, s.net.posted = [p] → Inv s → ∀ i, ∀ hi : i < p.bytes.length, cellGet t.mem.cells (p.addr + i) = p.bytes[i]) ∧
  (∀ (s : State) (p : Posted), (s.net.posted.find? fun x => x.id == p.id) = some p →
    ∃ t e, exec (.hostRejectedWrite p.id) s = .next t ∧ t.mem = s.mem ∧ t.heats = s.heats ∧
      t.net.posted = s.net.posted.filter (fun x => x.id != p.id) ∧ t.lamom.log.getLast? = some e ∧
      e.line = p.addr / 128 * 128 ∧ e.clock = s.now) ∧
  (∀ (s : State) (x : Stash) (line : Nat),
    (s.stashes.find? fun t => t.heat == x.heat && t.slot == BitVec.ofNat 4 x.slot.toNat) = some x →
    (∀ h, s.heat? x.heat = some h → let va := x.global + BitVec.ofNat 64 (128 * line)
      Unwatched s h va 128 false true ∧ ∃ r, translate s h h.core va .write = .ok r) →
    ∃ t, exec (.stashLineWriteBack x.heat x.slot.toNat line) s = .next t ∧
      (s.mem.errors = [] → t.mem.cells = s.mem.cells ∧ t.mem.taint = s.mem.taint) ∧
      (line ∈ x.dirty → ∀ y ∈ t.stashes, y.heat = x.heat → y.slot = x.slot → line ∉ y.dirty) ∧
      (line ∉ x.dirty → ∀ y ∈ t.stashes, y.heat = x.heat → y.slot = x.slot → line ∉ y.filled)) ∧
  (∀ (s : State) (j : Job) (m : LinkBeat) (g seq : Nat), s.job? j.id = some j → s.sched.elim false (·.live) = false →
    (∃ t k, exec (.collAbortMessage j.id g ⟨m, seq⟩) s = .next t ∧ t.job? j.id = some k ∧ g ∈ k.aborted) ∧
    ∀ c h k rank n sig src dst tt, s.cmds = [c] → c.kind = .coll g k rank n sig src dst tt → c.orphan = false →
      c.xfer = none → c.fault = none → s.heat? c.heat = some h → h.id.uid = c.heat → h.id.job = j.id → seq ≤ k →
      ∀ o < 64, c.co = some o → ∃ t m1, exec (.collAbortMessage j.id g ⟨m, seq⟩) s = .next t ∧ t.cmds = [] ∧
        t.heat? c.heat = some m1 ∧ (m1.obj o).state = 2 ∧ (m1.obj o).status.getLsbD 7 = true ∧
        (m1.obj o).status.getLsbD 4 = true) ∧
  (∀ (s : State) (m : LinkBeat) (i : Instr) (b : BeatLoad) (addr core job group seq rank : Nat) (n : BitVec 16) (v : Dword)
    (tt re : Bool) (op : PeerOp) (sig : CollSig) (data : List (Word × Bool)),
    (i, b) ∈ [(Instr.fjaroitaBeatArrival m addr v tt, m.reply.elim (BeatLoad.write addr v tt) .reply),
      (.peerAsrAccess addr ⟨m, core, n, re, op, tt⟩ v, .access core n re addr op ⟨v, tt⟩),
      (.collPartnerMessage job group seq rank sig ⟨m, data⟩, .part ⟨job, group, seq, rank, sig, data⟩),
      (.cancelMessage ⟨m, job⟩, .cancel job), (.collAbortMessage job group ⟨m, seq⟩, .abort job group seq)] →
    let waits : Prop := ∃ d, b.die = some d ∧ ∃ f ∈ s.net.forwards, precedes s d m.clock f = true
    let held (t : State) (due : Nat) : Prop := (∃ x, t.net.beats = s.net.beats ++ [x] ∧ x.load = b ∧ x.due = due ∧
      x.clock = m.clock ∧ x.link = m.link ∧ x.heat = m.heat ∧ x.sent = false) ∧ t.mem = s.mem ∧ t.heats = s.heats ∧ t.sched = s.sched ∧ t.net.parts = s.net.parts
    (s.sched.elim false (·.live) = false →
      (¬ waits → exec i s = .next (perform s b m.clock)) ∧ (waits → ∃ t, exec i s = .next t ∧ held t s.now)) ∧
    ∀ c, s.sched = some c → c.live = true →
      let due := m.sent + ((s.dev.links.find? fun k => k.n == m.link).bind (·.delay)).getD 0
      (s.now ≤ due → ∃ t, exec i s = .next t ∧ held t due) ∧
      (due < s.now → ∃ t p, exec i s = .next t ∧ ((¬ waits ∧ p = perform s b m.clock) ∨ (waits ∧ held p s.now)) ∧
        t = messageOverrun p c.job (m.link / 3) m.heat (m.reply.bind (accessWord s)) 0x0C m.link ∧
        (uncharged p m.heat → broken p t c.job) ∧
        ∀ u h, m.heat = some u → p.heat? u = some h → h.id.uid = u → h.status.final = false → h.stop = none →
          overrun t u 0x0C ∧ t.mem = p.mem ∧ t.net.parts = p.net.parts)) ∧
  (∀ (s : State) (b : Beat), (s.net.beats.find? fun x => x.id == b.id) = some b →
    let waits : Prop := ∃ d, b.load.die = some d ∧ ∃ f ∈ s.net.forwards, precedes s d b.clock f = true
    ((s.now < b.due ∨ waits) → exec (.beatRelease b.id) s = .next s) ∧
    (b.due ≤ s.now → ¬ waits → coxedMode s = true → b.sent = false → ∃ t m, exec (.beatRelease b.id) s = .next t ∧
      t.net.msgs = s.net.msgs ++ [m] ∧ m.heat = b.heat ∧ m.carries = some b.id ∧ m.ready = s.now ∧ m.legs = beatRoute s b ∧
      (t.net.beats.find? fun x => x.id == b.id) = some { b with sent := true } ∧ t.mem = s.mem ∧ t.heats = s.heats) ∧
    (b.due ≤ s.now → ¬ waits → (coxedMode s = false ∨ b.sent = true) →
      (riding s b.id = true → exec (.beatRelease b.id) s = .next s) ∧
      (riding s b.id = false → exec (.beatRelease b.id) s = .next
        (perform { s with net := { s.net with beats := s.net.beats.filter fun x => x.id != b.id } } b.load b.clock)))) ∧
  (∀ (s : State) (addr : Nat) (v : Dword) (tt : Bool) (clk : List Nat), Inv s → kindOf addr = some .asr → addr % 8 = 0 →
    let t := perform s (.write addr v tt) clk
    bytesAt t addr v ∧ s.heats = t.heats ∧ (∀ i, i < 8 → t.mem.tainted (addr + i) = tt) ∧
      ∀ y, y < addr ∨ addr + 8 ≤ y → cellGet t.mem.cells y = cellGet s.mem.cells y) ∧
  (∀ (s : State) (p : CollPart) (clk : List Nat),
    ((s.job? p.job = none ∨ ∃ x ∈ collParts s p.job p.group p.seq, x.rank = p.rank) → perform s (.part p) clk = s) ∧
    ∀ j, s.job? p.job = some j → (∀ x ∈ collParts s p.job p.group p.seq, x.rank ≠ p.rank) →
      perform s (.part p) clk = { s with net := { s.net with parts := s.net.parts ++ [p] } }) ∧
  (∀ (s : State) (id core : Nat) (n : BitVec 16) (re : Bool) (addr : Nat) (op : PeerOp) (v : TVal) (clk : List Nat),
    (∃ t, perform s (.reply id) clk = t ∧ id ∈ t.net.answered ∧ t.mem = s.mem ∧ t.heats = s.heats) ∧
    perform s (.access core n re addr op v) clk = applyPeer s (peerPacket core n re addr op v clk)) ∧
  (∀ (s : State) (m : DrawMsg), (s.net.msgs.find? fun x => x.id == m.id) = some m →
    let gone (t : State) : Prop := t.net.msgs = s.net.msgs.filter fun x => x.id != m.id
    (s.sched.elim false (·.live) = false → ∃ t, exec (.drawMessageEntry m.id) s = .next t ∧ gone t ∧ t.heats = s.heats) ∧
    ∀ c, s.sched = some c → c.live = true →
      (m.legs = [] → m.ready ≤ s.now → ∃ t, exec (.drawMessageEntry m.id) s = .next t ∧ gone t ∧ t.heats = s.heats) ∧
      (m.legs = [] → s.now < m.ready → exec (.drawMessageEntry m.id) s = .next s) ∧
      ∀ l rest, m.legs = l :: rest →
        let bus : Prop := (legStrips l).1 = (legStrips l).2
        (¬ bus → owned c l = [] → ∃ t, exec (.drawMessageEntry m.id) s = .next t ∧ gone t ∧
          (uncharged s m.heat → broken s t c.job) ∧
          (∀ n, m.carries = some n → (∀ a ∈ t.atomics, a.id ≠ n) ∧ (∀ b ∈ t.net.beats, b.id ≠ n) ∧
            (∀ f ∈ t.net.forwards, f.heat ≠ noHeat → f.id ≠ n) ∧ ∀ h ∈ t.heats, ∀ q ∈ h.pend, q.id ≠ n) ∧
          ∀ u h, m.heat = some u → s.heat? u = some h → h.id.uid = u → h.status.final = false → h.stop = none →
            overrun t u 0x0B ∧ ∀ w k f, m.word = some w → t.heat? u = some k → k.fault = some f →
              f.seat = w.seat ∧ f.text = (w.text &&& 0xFFFFFFFFFFFF) ∧ f.cmdIndex = w.cmd ∧ f.engine = w.engine) ∧
        ((bus ∨ owned c l ≠ []) → m.ready ≤ s.now → mayEnter s c l = true →
          ∃ t, exec (.drawMessageEntry m.id) s = .next t ∧ t.heats = s.heats ∧
            (t.net.msgs.find? fun x => x.id == m.id) = some { m with
              ready := startsAt c l (s.now + legCycles l rest), legs := rest, entered := some (s.now, l) }) ∧
        ((bus ∨ owned c l ≠ []) → (s.now < m.ready ∨ mayEnter s c l = false) →
          exec (.drawMessageEntry m.id) s = .next s)) ∧
  (∀ (c : Sched) (l : DrawLeg) (n : Nat),
    ((l.dst < 80 ∨ 112 ≤ l.dst) → startsAt c l n = n) ∧
    (80 ≤ l.dst → l.dst < 112 → n ≤ startsAt c l n ∧
      (∀ x, n ≤ x → x < startsAt c l n → c.refresh.getLsbD (x % c.slots) = true) ∧
      ((∃ k < c.slots, c.refresh.getLsbD k = false) → c.refresh.getLsbD (startsAt c l n % c.slots) = false))) ∧
  (∀ (s : State) (c : Sched) (n : Nat) (e : HeatEntry), s.sched = some c → c.entries[n]? = some e → c.live = true →
    e.placed = false → 1 ≤ e.span → s.dev.computeOn = true →
    (s.now < placeCycle s c e → exec (.coxedPlacement n) s = .next s) ∧
    ∀ l, placeCycle s c e ≤ s.now → s.launch? c.job e.launch = some l → l.cut = false → l.complete = false →
      ((∀ h ∈ s.heats, h.core = e.core → h.onCore = false) →
        (∀ j, s.job? c.job = some j → j.coxed = true) →
        ∃ t k, exec (.coxedPlacement n) s = .next t ∧ t.heats = s.heats ++ [k] ∧ k.core = e.core ∧
          k.status = .resident ∧ k.id.index = e.index ∧ k.id.launch = l.id ∧ k.id.coxed = true ∧
          k.lastStroke + 1 = c.start + e.start + e.span ∧
          (∀ u ∈ k.spad, ∀ o, o < 4096 → cellGet t.mem.cells (spadAddr k.core (u * 4096) + o) = 0) ∧
          ∀ u ∈ k.asr, ∀ o, o < 4096 → cellGet t.mem.cells (asrAddr k.crew (u * 4096) + o) = 0) ∧
      ∀ h, (s.heats.find? fun h => h.core == e.core && h.onCore) = some h → s.heat? h.id.uid = some h → h.stop = none →
        ∃ t, exec (.coxedPlacement n) s = .next t ∧ t.heats.length = s.heats.length ∧ overrun t h.id.uid 0x0A) ∧
  (∀ (s : State) (h : Heat) (u : Nat), s.heat? u = some h → h.id.uid = u → h.id.coxed = true → h.onCore = true →
    h.spanOver = false →
    (s.now < (h.lastStroke + 1) * s.dev.strokeLen → exec (.spanEnd u) s = .next s) ∧
    ((h.lastStroke + 1) * s.dev.strokeLen ≤ s.now → h.stop = none →
      ∃ t, exec (.spanEnd u) s = .next t ∧ overrun t u 0x0A)) ∧
  ∀ (s : State) (j : Job) (clk : List Nat), s.job? j.id = some j →
    (j.complete = true → perform s (.cancel j.id) clk = s) ∧
    (j.complete = false → ∃ t k, perform s (.cancel j.id) clk = t ∧ t.job? j.id = some k ∧ k.killed = true ∧
      k.cancelled = true ∧ k.overrun = true ∧
      ∀ l, s.launch? j.id l.id = some l → l.job = j.id → launchDone s l = false →
        ∃ m, t.launch? j.id l.id = some m ∧ m.cut = true ∧ m.cancelled = true ∧ m.overrun = true)

/-- Rules of the whole machine: 10/R299 and 22/R464 (the clock is never set back), 21/R453 (compute stays disabled in
every state except READY), 21/R455. -/
def Obligations.NothingIsSetBack : Prop :=
  (∀ s t : State, step s = .next t → s.lamom.fused ≤ t.lamom.fused) ∧
  (∀ s t : State, step s = .next t → s.dev.clock ≤ t.dev.clock ∨ (t.lamom.stage = .rom ∧ t.dev.clock = 0)) ∧
  (∀ s t : State, (s.dev.computeOn = true → s.lamom.stage = .up) → step s = .next t →
    (t.dev.computeOn = true → t.lamom.stage = .up)) ∧
  (State.reset.dev.computeOn = true → State.reset.lamom.stage = .up)
end

