-- ==== Sys2Proof/Laws/Exec.lean ====
section
/-!
SUPPORT. What exec does with each constructor: the meaning of its arm.
-/

namespace Sys2Proof.Machine

variable (s : State)

theorem exec_nopa : exec .nopa s = execNopa s := rfl
theorem exec_br bp neg disp : exec (.br bp neg disp) s = execBr bp neg disp s := rfl
theorem exec_jmp disp : exec (.jmp disp) s = execJmp disp s := rfl
theorem exec_call disp : exec (.call disp) s = execCall disp s := rfl
theorem exec_ret : exec .ret s = execRet s := rfl
theorem exec_loopLc lc body : exec (.loopLc lc body) s = execLoopLc lc body s := rfl
theorem exec_loopImm count body : exec (.loopImm count body) s = execLoopImm count body s := rfl
theorem exec_iterationEnd : exec .iterationEnd s = execIterationEnd s := rfl
theorem exec_lexit bp neg : exec (.lexit bp neg) s = execLexit bp neg s := rfl
theorem exec_lexitDrain heat : exec (.lexitDrain heat) s = execLexitDrain heat s := rfl
theorem exec_stroke : exec .stroke s = execStroke s := rfl
theorem exec_hend : exec .hend s = execHend s := rfl
theorem exec_nop : exec .nop s = execNop s := rfl
theorem exec_add d a b : exec (.add d a b) s = execAdd d a b s := rfl
theorem exec_sub d a b : exec (.sub d a b) s = execSub d a b s := rfl
theorem exec_and d a b : exec (.and d a b) s = execAnd d a b s := rfl
theorem exec_or d a b : exec (.or d a b) s = execOr d a b s := rfl
theorem exec_xor d a b : exec (.xor d a b) s = execXor d a b s := rfl
theorem exec_shl d a b : exec (.shl d a b) s = execShl d a b s := rfl
theorem exec_shr d a b : exec (.shr d a b) s = execShr d a b s := rfl
theorem exec_sar d a b : exec (.sar d a b) s = execSar d a b s := rfl
theorem exec_mul d a b : exec (.mul d a b) s = execMul d a b s := rfl
theorem exec_mulh d a b : exec (.mulh d a b) s = execMulh d a b s := rfl
theorem exec_mulhn d a b : exec (.mulhn d a b) s = execMulhn d a b s := rfl
theorem exec_div d a b : exec (.div d a b) s = execDiv d a b s := rfl
theorem exec_divn d a b : exec (.divn d a b) s = execDivn d a b s := rfl
theorem exec_rem d a b : exec (.rem d a b) s = execRem d a b s := rfl
theorem exec_remn d a b : exec (.remn d a b) s = execRemn d a b s := rfl
theorem exec_min d a b : exec (.min d a b) s = execMin d a b s := rfl
theorem exec_max d a b : exec (.max d a b) s = execMax d a b s := rfl
theorem exec_minn d a b : exec (.minn d a b) s = execMinn d a b s := rfl
theorem exec_maxn d a b : exec (.maxn d a b) s = execMaxn d a b s := rfl
theorem exec_clz d a : exec (.clz d a) s = execClz d a s := rfl
theorem exec_popc d a : exec (.popc d a) s = execPopc d a s := rfl
theorem exec_bfx d a b sgn : exec (.bfx d a b sgn) s = execBfx d a b sgn s := rfl
theorem exec_bfi d a b : exec (.bfi d a b) s = execBfi d a b s := rfl
theorem exec_sel d a b neg bp : exec (.sel d a b neg bp) s = execSel d a b neg bp s := rfl
theorem exec_cmp comb bp a b cond : exec (.cmp comb bp a b cond) s = execCmp comb bp a b cond s := rfl
theorem exec_sext d a w : exec (.sext d a w) s = execSext d a w s := rfl
theorem exec_zext d a w : exec (.zext d a w) s = execZext d a w s := rfl
theorem exec_lea d a b sh : exec (.lea d a b sh) s = execLea d a b sh s := rfl
theorem exec_addi d a imm : exec (.addi d a imm) s = execAddi d a imm s := rfl
theorem exec_andi d a imm : exec (.andi d a imm) s = execAndi d a imm s := rfl
theorem exec_ori d a imm : exec (.ori d a imm) s = execOri d a imm s := rfl
theorem exec_xori d a imm : exec (.xori d a imm) s = execXori d a imm s := rfl
theorem exec_shli d a sh : exec (.shli d a sh) s = execShli d a sh s := rfl
theorem exec_shri d a sh : exec (.shri d a sh) s = execShri d a sh s := rfl
theorem exec_sari d a sh : exec (.sari d a sh) s = execSari d a sh s := rfl
theorem exec_cmpi cond bp a imm : exec (.cmpi cond bp a imm) s = execCmpi cond bp a imm s := rfl
theorem exec_movi d imm stamp : exec (.movi d imm stamp) s = execMovi d imm stamp s := rfl
theorem exec_movhi d imm stamp : exec (.movhi d imm stamp) s = execMovhi d imm stamp s := rfl
theorem exec_lds d a off w stamp : exec (.lds d a off w stamp) s = execLds d a off w stamp s := rfl
theorem exec_sts d a off w stamp : exec (.sts d a off w stamp) s = execSts d a off w stamp s := rfl
theorem exec_loadReturn id : exec (.loadReturn id) s = execLoadReturn id s := rfl
theorem exec_csrr d n : exec (.csrr d n) s = execCsrr d n s := rfl
theorem exec_csrw a n : exec (.csrw a n) s = execCsrw a n s := rfl
theorem exec_trap code : exec (.trap code) s = execTrap code s := rfl
theorem exec_setlc lc a : exec (.setlc lc a) s = execSetlc lc a s := rfl
theorem exec_setstrd lvl a seatS en slot p stamp : exec (.setstrd lvl a seatS en slot p stamp) s = execSetstrd lvl a seatS en slot p stamp s := rfl
theorem exec_setslip a : exec (.setslip a) s = execSetslip a s := rfl
theorem exec_prio a : exec (.prio a) s = execPrio a s := rfl
theorem exec_rdclk d : exec (.rdclk d) s = execRdclk d s := rfl
theorem exec_rdstroke d : exec (.rdstroke d) s = execRdstroke d s := rfl
theorem exec_wfe d a : exec (.wfe d a) s = execWfe d a s := rfl
theorem exec_wfeTimeout heat : exec (.wfeTimeout heat) s = execWfeTimeout heat s := rfl
theorem exec_sms : exec .sms s = execSms s := rfl
theorem exec_wpv : exec .wpv s = execWpv s := rfl
theorem exec_hret : exec .hret s = execHret s := rfl
theorem exec_bkpt code : exec (.bkpt code) s = execBkpt code s := rfl
theorem exec_aadd d a b wide off stamp : exec (.aadd d a b wide off stamp) s = execAadd d a b wide off stamp s := rfl
theorem exec_amin d a b wide off stamp : exec (.amin d a b wide off stamp) s = execAmin d a b wide off stamp s := rfl
theorem exec_amax d a b wide off stamp : exec (.amax d a b wide off stamp) s = execAmax d a b wide off stamp s := rfl
theorem exec_aminn d a b wide off stamp : exec (.aminn d a b wide off stamp) s = execAminn d a b wide off stamp s := rfl
theorem exec_amaxn d a b wide off stamp : exec (.amaxn d a b wide off stamp) s = execAmaxn d a b wide off stamp s := rfl
theorem exec_aand d a b wide off stamp : exec (.aand d a b wide off stamp) s = execAand d a b wide off stamp s := rfl
theorem exec_aor d a b wide off stamp : exec (.aor d a b wide off stamp) s = execAor d a b wide off stamp s := rfl
theorem exec_axor d a b wide off stamp : exec (.axor d a b wide off stamp) s = execAxor d a b wide off stamp s := rfl
theorem exec_axchg d a b wide off stamp : exec (.axchg d a b wide off stamp) s = execAxchg d a b wide off stamp s := rfl
theorem exec_acas d a b wide off stamp : exec (.acas d a b wide off stamp) s = execAcas d a b wide off stamp s := rfl
theorem exec_faadd d a b off stamp : exec (.faadd d a b off stamp) s = execFaadd d a b off stamp s := rfl
theorem exec_famin d a b off stamp : exec (.famin d a b off stamp) s = execFamin d a b off stamp s := rfl
theorem exec_famax d a b off stamp : exec (.famax d a b off stamp) s = execFamax d a b off stamp s := rfl
theorem exec_laadd a b form off stamp : exec (.laadd a b form off stamp) s = execLaadd a b form off stamp s := rfl
theorem exec_ald d a form off stamp : exec (.ald d a form off stamp) s = execAld d a form off stamp s := rfl
theorem exec_ast a b wide off stamp : exec (.ast a b wide off stamp) s = execAst a b wide off stamp s := rfl
theorem exec_atomicApply id : exec (.atomicApply id) s = execAtomicApply id s := rfl
theorem exec_fence scope : exec (.fence scope) s = execFence scope s := rfl
theorem exec_fencea scope : exec (.fencea scope) s = execFencea scope s := rfl
theorem exec_fencer scope : exec (.fencer scope) s = execFencer scope s := rfl
theorem exec_barinit a b off stamp : exec (.barinit a b off stamp) s = execBarinit a b off stamp s := rfl
theorem exec_bararr d a : exec (.bararr d a) s = execBararr d a s := rfl
theorem exec_barwait a b : exec (.barwait a b) s = execBarwait a b s := rfl
theorem exec_waitcoAll d a : exec (.waitcoAll d a) s = execWaitcoAll d a s := rfl
theorem exec_waitcoAny d a : exec (.waitcoAny d a) s = execWaitcoAny d a s := rfl
theorem exec_testco d a : exec (.testco d a) s = execTestco d a s := rfl
theorem exec_dbar id : exec (.dbar id) s = execDbar id s := rfl
theorem exec_spawn d a c : exec (.spawn d a c) s = execSpawn d a c s := rfl
theorem exec_spawnt d a b n c : exec (.spawnt d a b n c) s = execSpawnt d a b n c s := rfl
theorem exec_cancel d a b lvl : exec (.cancel d a b lvl) s = execCancel d a b lvl s := rfl
theorem exec_waitc d a b lvl : exec (.waitc d a b lvl) s = execWaitc d a b lvl s := rfl
theorem exec_suspend a b : exec (.suspend a b) s = execSuspend a b s := rfl
theorem exec_resume d a c : exec (.resume d a c) s = execResume d a c s := rfl
theorem exec_copyco d a b c : exec (.copyco d a b c) s = execCopyco d a b c s := rfl
theorem exec_dropco d a : exec (.dropco d a) s = execDropco d a s := rfl
theorem exec_yieldi a : exec (.yieldi a) s = execYieldi a s := rfl
theorem exec_yieldExpiry heat : exec (.yieldExpiry heat) s = execYieldExpiry heat s := rfl
theorem exec_self d sel : exec (.self d sel) s = execSelf d sel s := rfl
theorem exec_slwin a b kk w1 stamp : exec (.slwin a b kk w1 stamp) s = execSlwin a b kk w1 stamp s := rfl
theorem exec_slres a b off stamp : exec (.slres a b off stamp) s = execSlres a b off stamp s := rfl
theorem exec_slchk comb bp a b off stamp : exec (.slchk comb bp a b off stamp) s = execSlchk comb bp a b off stamp s := rfl
theorem exec_sldone a neg bp : exec (.sldone a neg bp) s = execSldone a neg bp s := rfl
theorem exec_slnext d : exec (.slnext d) s = execSlnext d s := rfl
theorem exec_slreset a b off stamp : exec (.slreset a b off stamp) s = execSlreset a b off stamp s := rfl
theorem exec_taintq d a : exec (.taintq d a) s = execTaintq d a s := rfl
theorem exec_taintqMem d a : exec (.taintqMem d a) s = execTaintqMem d a s := rfl
theorem exec_tclr d a : exec (.tclr d a) s = execTclr d a s := rfl
theorem exec_tcnt d clr sel : exec (.tcnt d clr sel) s = execTcnt d clr sel s := rfl
theorem exec_nopl w : exec (.nopl w) s = execNopl w s := rfl
theorem exec_ldq w q p upd : exec (.ldq w q p upd) s = execLdq w q p upd s := rfl
theorem exec_ldqs w q p upd : exec (.ldqs w q p upd) s = execLdqs w q p upd s := rfl
theorem exec_gatq w q p qi : exec (.gatq w q p qi) s = execGatq w q p qi s := rfl
theorem exec_lQset w q sa ringEn ring fmt elems1 stamp : exec (.lQset w q sa ringEn ring fmt elems1 stamp) s = execLQset w q sa ringEn ring fmt elems1 stamp s := rfl
theorem exec_lPset w p sa : exec (.lPset w p sa) s = execLPset w p sa s := rfl
theorem exec_lPadd w p imm : exec (.lPadd w p imm) s = execLPadd w p imm s := rfl
theorem exec_cpyin w p sa len c : exec (.cpyin w p sa len c) s = execCpyin w p sa len c s := rfl
theorem exec_gatr w pb pi disp c : exec (.gatr w pb pi disp c) s = execGatr w pb pi disp c s := rfl
theorem exec_ldblk w tag sa lines1 c : exec (.ldblk w tag sa lines1 c) s = execLdblk w tag sa lines1 c s := rfl
theorem exec_ldblkRel w tag c : exec (.ldblkRel w tag c) s = execLdblkRel w tag c s := rfl
theorem exec_pref w sa level lines1 stamp : exec (.pref w sa level lines1 stamp) s = execPref w sa level lines1 stamp s := rfl
theorem exec_stmap w p sa slot lines stamp : exec (.stmap w p sa slot lines stamp) s = execStmap w p sa slot lines stamp s := rfl
theorem exec_stunmap w slot c : exec (.stunmap w slot c) s = execStunmap w slot c s := rfl
theorem exec_stflush w all slot c : exec (.stflush w all slot c) s = execStflush w all slot c s := rfl
theorem exec_bagopen w disp c : exec (.bagopen w disp c) s = execBagopen w disp c s := rfl
theorem exec_invm w sa size pages1 stamp : exec (.invm w sa size pages1 stamp) s = execInvm w sa size pages1 stamp s := rfl
theorem exec_invmComplete heat : exec (.invmComplete heat) s = execInvmComplete heat s := rfl
theorem exec_lCwait w co : exec (.lCwait w co) s = execLCwait w co s := rfl
theorem exec_rpush w ring n : exec (.rpush w ring n) s = execRpush w ring n s := rfl
theorem exec_hnd w disp stamp : exec (.hnd w disp stamp) s = execHnd w disp stamp s := rfl
theorem exec_nops w : exec (.nops w) s = execNops w s := rfl
theorem exec_stq w q p upd : exec (.stq w q p upd) s = execStq w q p upd s := rfl
theorem exec_stqs w q p upd : exec (.stqs w q p upd) s = execStqs w q p upd s := rfl
theorem exec_scatq w q p qi : exec (.scatq w q p qi) s = execScatq w q p qi s := rfl
theorem exec_sQset w q sa ringEn ring fmt elems1 stamp : exec (.sQset w q sa ringEn ring fmt elems1 stamp) s = execSQset w q sa ringEn ring fmt elems1 stamp s := rfl
theorem exec_sPset w p sa : exec (.sPset w p sa) s = execSPset w p sa s := rfl
theorem exec_sPadd w p imm : exec (.sPadd w p imm) s = execSPadd w p imm s := rfl
theorem exec_cpyout w p sa len c : exec (.cpyout w p sa len c) s = execCpyout w p sa len c s := rfl
theorem exec_scatr w pb pi disp c : exec (.scatr w pb pi disp c) s = execScatr w pb pi disp c s := rfl
theorem exec_bagclose w disp c : exec (.bagclose w disp c) s = execBagclose w disp c s := rfl
theorem exec_asrcpy w p sa n retire c : exec (.asrcpy w p sa n retire c) s = execAsrcpy w p sa n retire c s := rfl
theorem exec_coll w p c : exec (.coll w p c) s = execColl w p c s := rfl
theorem exec_rpop w ring n : exec (.rpop w ring n) s = execRpop w ring n s := rfl
theorem exec_sCwait w co : exec (.sCwait w co) s = execSCwait w co s := rfl
theorem exec_nopx w : exec (.nopx w) s = execNopx w s := rfl
theorem exec_sett w fmt rm : exec (.sett w fmt rm) s = execSett w fmt rm s := rfl
theorem exec_settM w af wf asg wsg : exec (.settM w af wf asg wsg) s = execSettM w af wf asg wsg s := rfl
theorem exec_settO w fmt : exec (.settO w fmt) s = execSettO w fmt s := rfl
theorem exec_vadd w vd va vb : exec (.vadd w vd va vb) s = execVadd w vd va vb s := rfl
theorem exec_vsub w vd va vb : exec (.vsub w vd va vb) s = execVsub w vd va vb s := rfl
theorem exec_vmul w vd va vb : exec (.vmul w vd va vb) s = execVmul w vd va vb s := rfl
theorem exec_vfma w vd va vb : exec (.vfma w vd va vb) s = execVfma w vd va vb s := rfl
theorem exec_vmin w vd va vb : exec (.vmin w vd va vb) s = execVmin w vd va vb s := rfl
theorem exec_vmax w vd va vb : exec (.vmax w vd va vb) s = execVmax w vd va vb s := rfl
theorem exec_vabs w vd va : exec (.vabs w vd va) s = execVabs w vd va s := rfl
theorem exec_vneg w vd va : exec (.vneg w vd va) s = execVneg w vd va s := rfl
theorem exec_vand w vd va vb : exec (.vand w vd va vb) s = execVand w vd va vb s := rfl
theorem exec_vor w vd va vb : exec (.vor w vd va vb) s = execVor w vd va vb s := rfl
theorem exec_vxor w vd va vb : exec (.vxor w vd va vb) s = execVxor w vd va vb s := rfl
theorem exec_vshl w vd va vb : exec (.vshl w vd va vb) s = execVshl w vd va vb s := rfl
theorem exec_vshr w vd va vb : exec (.vshr w vd va vb) s = execVshr w vd va vb s := rfl
theorem exec_vsar w vd va vb : exec (.vsar w vd va vb) s = execVsar w vd va vb s := rfl
theorem exec_vcmp w kd cond va vb : exec (.vcmp w kd cond va vb) s = execVcmp w kd cond va vb s := rfl
theorem exec_vsel w vd va vb : exec (.vsel w vd va vb) s = execVsel w vd va vb s := rfl
theorem exec_vmov w vd va : exec (.vmov w vd va) s = execVmov w vd va s := rfl
theorem exec_vbcst w vd sa : exec (.vbcst w vd sa) s = execVbcst w vd sa s := rfl
theorem exec_vidx w vd : exec (.vidx w vd) s = execVidx w vd s := rfl
theorem exec_vcvt w vd va fmt : exec (.vcvt w vd va fmt) s = execVcvt w vd va fmt s := rfl
theorem exec_vrcp w vd va : exec (.vrcp w vd va) s = execVrcp w vd va s := rfl
theorem exec_vrsq w vd va : exec (.vrsq w vd va) s = execVrsq w vd va s := rfl
theorem exec_vexp2 w vd va : exec (.vexp2 w vd va) s = execVexp2 w vd va s := rfl
theorem exec_vlog2 w vd va : exec (.vlog2 w vd va) s = execVlog2 w vd va s := rfl
theorem exec_vred w vd va op : exec (.vred w vd va op) s = execVred w vd va op s := rfl
theorem exec_vscan w vd va excl op : exec (.vscan w vd va excl op) s = execVscan w vd va excl op s := rfl
theorem exec_vperm w vd va vb : exec (.vperm w vd va vb) s = execVperm w vd va vb s := rfl
theorem exec_vqnt w vd va : exec (.vqnt w vd va) s = execVqnt w vd va s := rfl
theorem exec_vdqn w vd va : exec (.vdqn w vd va) s = execVdqn w vd va s := rfl
theorem exec_kop w kd ka kb op : exec (.kop w kd ka kb op) s = execKop w kd ka kb op s := rfl
theorem exec_vcpush w vd va form : exec (.vcpush w vd va form) s = execVcpush w vd va form s := rfl
theorem exec_vcpop w vd va form : exec (.vcpop w vd va form) s = execVcpop w vd va form s := rfl
theorem exec_mwld w ring k1 n1 stamp : exec (.mwld w ring k1 n1 stamp) s = execMwld w ring k1 n1 stamp s := rfl
theorem exec_mbag w ring acc exact disp c : exec (.mbag w ring acc exact disp c) s = execMbag w ring acc exact disp c s := rfl
theorem exec_mmul w src srcQ dk dst sr c : exec (.mmul w src srcQ dk dst sr c) s = execMmul w src srcQ dk dst sr c s := rfl
theorem exec_mdist w src srcQ dk dst sr c : exec (.mdist w src srcQ dk dst sr c) s = execMdist w src srcQ dk dst sr c s := rfl
theorem exec_mtopk w src srcQ dk dst largest kr1 dist sr c : exec (.mtopk w src srcQ dk dst largest kr1 dist sr c) s = execMtopk w src srcQ dk dst largest kr1 dist sr c s := rfl
theorem exec_mret w force disp c : exec (.mret w force disp c) s = execMret w force disp c s := rfl
theorem exec_mretRegion w kind n1 sr c : exec (.mretRegion w kind n1 sr c) s = execMretRegion w kind n1 sr c s := rfl
theorem exec_mclr w kind n1 sr c : exec (.mclr w kind n1 sr c) s = execMclr w kind n1 sr c s := rfl
theorem exec_rset w f stamp : exec (.rset w f stamp) s = execRset w f stamp s := rfl
theorem exec_mwait w : exec (.mwait w) s = execMwait w s := rfl
theorem exec_lease w n1 : exec (.lease w n1) s = execLease w n1 s := rfl
theorem exec_unlease w : exec (.unlease w) s = execUnlease w s := rfl
theorem exec_leaseGrant crew : exec (.leaseGrant crew) s = execLeaseGrant crew s := rfl
theorem exec_arrayRowResult cmd : exec (.arrayRowResult cmd) s = execArrayRowResult cmd s := rfl
theorem exec_engineCommandStart core : exec (.engineCommandStart core) s = execEngineCommandStart core s := rfl
theorem exec_gatherRowLand cmd pos : exec (.gatherRowLand cmd pos) s = execGatherRowLand cmd pos s := rfl
theorem exec_transferPerformed cmd : exec (.transferPerformed cmd) s = execTransferPerformed cmd s := rfl
theorem exec_commandComplete cmd : exec (.commandComplete cmd) s = execCommandComplete cmd s := rfl
theorem exec_handlerStart core : exec (.handlerStart core) s = execHandlerStart core s := rfl
theorem exec_tokenWatchdog heat seat : exec (.tokenWatchdog heat seat) s = execTokenWatchdog heat seat s := rfl
theorem exec_heatAged heat seat : exec (.heatAged heat seat) s = execHeatAged heat seat s := rfl
theorem exec_walkerPlace die : exec (.walkerPlace die) s = execWalkerPlace die s := rfl
theorem exec_launchEnqueue req : exec (.launchEnqueue req) s = execLaunchEnqueue req s := rfl
theorem exec_heatEnd heat : exec (.heatEnd heat) s = execHeatEnd heat s := rfl
theorem exec_heatFaulted heat : exec (.heatFaulted heat) s = execHeatFaulted heat s := rfl
theorem exec_heatCancelled heat : exec (.heatCancelled heat) s = execHeatCancelled heat s := rfl
theorem exec_heatSuspended heat : exec (.heatSuspended heat) s = execHeatSuspended heat s := rfl
theorem exec_resumePlacement req : exec (.resumePlacement req) s = execResumePlacement req s := rfl
theorem exec_coxedPlacement entry : exec (.coxedPlacement entry) s = execCoxedPlacement entry s := rfl
theorem exec_spanEnd heat : exec (.spanEnd heat) s = execSpanEnd heat s := rfl
theorem exec_drawMessageEntry msg : exec (.drawMessageEntry msg) s = execDrawMessageEntry msg s := rfl
theorem exec_beatRelease id : exec (.beatRelease id) s = execBeatRelease id s := rfl
theorem exec_writeForwardApply id : exec (.writeForwardApply id) s = execWriteForwardApply id s := rfl
theorem exec_sampleTick job : exec (.sampleTick job) s = execSampleTick job s := rfl
theorem exec_qpollChange q : exec (.qpollChange q) s = execQpollChange q s := rfl
theorem exec_nopPacket q : exec (.nopPacket q) s = execNopPacket q s := rfl
theorem exec_launchPacket q : exec (.launchPacket q) s = execLaunchPacket q s := rfl
theorem exec_graphPacket q : exec (.graphPacket q) s = execGraphPacket q s := rfl
theorem exec_pclose q : exec (.pclose q) s = execPclose q s := rfl
theorem exec_cancelPacket q : exec (.cancelPacket q) s = execCancelPacket q s := rfl
theorem exec_writePacket q : exec (.writePacket q) s = execWritePacket q s := rfl
theorem exec_coxedPacket q : exec (.coxedPacket q) s = execCoxedPacket q s := rfl
theorem exec_preemptPacket q : exec (.preemptPacket q) s = execPreemptPacket q s := rfl
theorem exec_wayFlushDone die slice : exec (.wayFlushDone die slice) s = execWayFlushDone die slice s := rfl
theorem exec_rebalanceInterval die : exec (.rebalanceInterval die) s = execRebalanceInterval die s := rfl
theorem exec_bucketMoveDone die : exec (.bucketMoveDone die) s = execBucketMoveDone die s := rfl
theorem exec_haltPendingHalt heat : exec (.haltPendingHalt heat) s = execHaltPendingHalt heat s := rfl
theorem exec_rom ok : exec (.rom ok) s = execRom ok s := rfl
theorem exec_verify lamomImg cpImg : exec (.verify lamomImg cpImg) s = execVerify lamomImg cpImg s := rfl
theorem exec_measure ok : exec (.measure ok) s = execMeasure ok s := rfl
theorem exec_arrays ok : exec (.arrays ok) s = execArrays ok s := rfl
theorem exec_sram ok : exec (.sram ok) s = execSram ok s := rfl
theorem exec_dram ok : exec (.dram ok) s = execDram ok s := rfl
theorem exec_links dieOk cxlOk cables : exec (.links dieOk cxlOk cables) s = execLinks dieOk cxlOk cables s := rfl
theorem exec_illegalEncoding : exec .illegalEncoding s = execIllegalEncoding s := rfl
theorem exec_fetchFailure protection : exec (.fetchFailure protection) s = execFetchFailure protection s := rfl
theorem exec_atomicRetry id : exec (.atomicRetry id) s = execAtomicRetry id s := rfl
theorem exec_settleTimeout cmd : exec (.settleTimeout cmd) s = execSettleTimeout cmd s := rfl
theorem exec_commandSteal cmd thief : exec (.commandSteal cmd thief) s = execCommandSteal cmd thief s := rfl
theorem exec_stealAcknowledge cmd : exec (.stealAcknowledge cmd) s = execStealAcknowledge cmd s := rfl
theorem exec_stealMarkTimeout cmd : exec (.stealMarkTimeout cmd) s = execStealMarkTimeout cmd s := rfl
theorem exec_thiefReset core : exec (.thiefReset core) s = execThiefReset core s := rfl
theorem exec_cancelMessage job : exec (.cancelMessage job) s = execCancelMessage job s := rfl
theorem exec_fjaroitaBeatArrival beat addr val taint : exec (.fjaroitaBeatArrival beat addr val taint) s = execFjaroitaBeatArrival beat addr val taint s := rfl
theorem exec_probeArrival core line : exec (.probeArrival core line) s = execProbeArrival core line s := rfl
theorem exec_hostHdmAccess wr addr val : exec (.hostHdmAccess wr addr val) s = execHostHdmAccess wr addr val s := rfl
theorem exec_collAbortMessage job group seq : exec (.collAbortMessage job group seq) s = execCollAbortMessage job group seq s := rfl
theorem exec_qdoor q p : exec (.qdoor q p) s = execQdoor q p s := rfl
theorem exec_qctl q v : exec (.qctl q v) s = execQctl q v s := rfl
theorem exec_devnum v : exec (.devnum v) s = execDevnum v s := rfl
theorem exec_bucketTableEntry die b v : exec (.bucketTableEntry die b v) s = execBucketTableEntry die b v s := rfl
theorem exec_registerWrite r v : exec (.registerWrite r v) s = execRegisterWrite r v s := rfl
theorem exec_flushWays die slice mask : exec (.flushWays die slice mask) s = execFlushWays die slice mask s := rfl
theorem exec_setScratchMask die slice mask : exec (.setScratchMask die slice mask) s = execSetScratchMask die slice mask s := rfl
theorem exec_clkalignStart v : exec (.clkalignStart v) s = execClkalignStart v s := rfl
theorem exec_clockAligned parentAligned parentClock ends : exec (.clockAligned parentAligned parentClock ends) s = execClockAligned parentAligned parentClock ends s := rfl
theorem exec_linkDown link : exec (.linkDown link) s = execLinkDown link s := rfl
theorem exec_unitGate u : exec (.unitGate u) s = execUnitGate u s := rfl
theorem exec_unitWake u : exec (.unitWake u) s = execUnitWake u s := rfl
theorem exec_readSelfTestReport : exec .readSelfTestReport s = execReadSelfTestReport s := rfl
theorem exec_readErrorLog : exec .readErrorLog s = execReadErrorLog s := rfl
theorem exec_readMeasurementRegister m : exec (.readMeasurementRegister m) s = execReadMeasurementRegister m s := rfl
theorem exec_extendRegister m digest : exec (.extendRegister m digest) s = execExtendRegister m digest s := rfl
theorem exec_advanceSecurityVersion : exec .advanceSecurityVersion s = execAdvanceSecurityVersion s := rfl
theorem exec_keyLoad slot key owner : exec (.keyLoad slot key owner) s = execKeyLoad slot key owner s := rfl
theorem exec_keyUnload slot : exec (.keyUnload slot) s = execKeyUnload slot s := rfl
theorem exec_debuggerAttach job : exec (.debuggerAttach job) s = execDebuggerAttach job s := rfl
theorem exec_debuggerDetach job : exec (.debuggerDetach job) s = execDebuggerDetach job s := rfl
theorem exec_setWatchpoint job n base log2len rd wr : exec (.setWatchpoint job n base log2len rd wr) s = execSetWatchpoint job n base log2len rd wr s := rfl
theorem exec_haltRequest job heat : exec (.haltRequest job heat) s = execHaltRequest job heat s := rfl
theorem exec_release job : exec (.release job) s = execRelease job s := rfl
theorem exec_stepRelease heat seat n : exec (.stepRelease heat seat n) s = execStepRelease heat seat n s := rfl
theorem exec_readHaltRecord job : exec (.readHaltRecord job) s = execReadHaltRecord job s := rfl
theorem exec_mailboxUnsupported opcode : exec (.mailboxUnsupported opcode) s = execMailboxUnsupported opcode s := rfl
theorem exec_debugRegisterWrite heat r v taint : exec (.debugRegisterWrite heat r v taint) s = execDebugRegisterWrite heat r v taint s := rfl
theorem exec_getVersion : exec .getVersion s = execGetVersion s := rfl
theorem exec_getCapabilities : exec .getCapabilities s = execGetCapabilities s := rfl
theorem exec_negotiateAlgorithms : exec .negotiateAlgorithms s = execNegotiateAlgorithms s := rfl
theorem exec_getDigests : exec .getDigests s = execGetDigests s := rfl
theorem exec_getCertificate : exec .getCertificate s = execGetCertificate s := rfl
theorem exec_challenge nonce : exec (.challenge nonce) s = execChallenge nonce s := rfl
theorem exec_getMeasurements index nonce : exec (.getMeasurements index nonce) s = execGetMeasurements index nonce s := rfl
theorem exec_keyExchange share : exec (.keyExchange share) s = execKeyExchange share s := rfl
theorem exec_finish : exec .finish s = execFinish s := rfl
theorem exec_boardResetRelease : exec .boardResetRelease s = execBoardResetRelease s := rfl
theorem exec_ready : exec .ready s = execReady s := rfl
theorem exec_thermalTrip : exec .thermalTrip s = execThermalTrip s := rfl
theorem exec_powerTrip : exec .powerTrip s = execPowerTrip s := rfl
theorem exec_computeReenable : exec .computeReenable s = execComputeReenable s := rfl
theorem exec_victimCoreReset core : exec (.victimCoreReset core) s = execVictimCoreReset core s := rfl
theorem exec_hostRejectedWrite id : exec (.hostRejectedWrite id) s = execHostRejectedWrite id s := rfl
theorem exec_cxlFlushReadComplete : exec .cxlFlushReadComplete s = execCxlFlushReadComplete s := rfl
theorem exec_peerAsrAccess addr access val : exec (.peerAsrAccess addr access val) s = execPeerAsrAccess addr access val s := rfl
theorem exec_collPartnerMessage job group seq rank sig data : exec (.collPartnerMessage job group seq rank sig data) s = execCollPartnerMessage job group seq rank sig data s := rfl
theorem exec_stashLineWriteBack heat slot line : exec (.stashLineWriteBack heat slot line) s = execStashLineWriteBack heat slot line s := rfl

end Sys2Proof.Machine
end

