-- ==== Sys2Proof/Laws/Issue.lean ====
section
/-!
SUPPORT. What the shared operations of issuing can do, said once: a word that its seat executes, a word that waits, a
word that does not fit.
-/

namespace Sys2Proof.Machine

variable {w : Issue} {p : Seat} {s s' : State} {h h' : Heat}

theorem Clear.attempt_ok (hc : Clear w p s h) {body : State → Heat → Effect} {go : SeatState → SeatState}
    (hb : body s h = .ok (s', h', go)) :
    attempt w p body s h = .ok (s', w.slot.elim h' fun sl => moveTokens s.now h p sl h', go) := by
  simp [attempt, hc.fits, hc.unheld, hc.executed, hc.tokens, hc.room, hb]

theorem Clear.issueSeat_ok (hc : Clear w p s h) {body : State → Heat → Effect} {go : SeatState → SeatState}
    (hb : body s h = .ok (s', h', go)) : issueSeat w p body s h = ran w p s h s' h' go := by
  have ha := hc.attempt_ok hb
  rcases hc.onTime with hd | hd <;>
    simp only [issueSeat, hc.going, hc.unhalted, hc.resolved, hd, ha, ran, Bool.false_eq_true, if_false]

/-- A word that its seat executes answers the state that its effect gives. -/
theorem issueG_clear (hc : Clear w p s h) {body : State → Heat → Effect} {go : SeatState → SeatState}
    (hb : body s h = .ok (s', h', go)) : issueG w p body s = .next (ran w p s h s' h' go) := by
  obtain ⟨c, hs, _, hn⟩ := hc.acts
  simp [issueG, hs, hn, hc.issueSeat_ok hb]

theorem issue_clear (hc : Clear w p s h) {body : State → Heat → Run (State × Heat)}
    (hb : body s h = .ok (s', h')) : issue w p body s = .next (ranOn w p s h s' h') := by
  unfold issue
  exact issueG_clear hc (by simp [hb])

theorem issueC_clear (hc : Clear w .C s h) {f : Heat → Run Heat} (hb : f h = .ok h') :
    issueC w f s = .next (ranOn w .C s h s h') := by
  unfold issueC
  exact issue_clear hc (by simp [hb])

/-- A C scalar that no load is to write reads as the register file has it. -/
theorem readS_settled {n : BitVec 6} (hn : h.settled n) : readS h .C n = .ok (h.s n) := by
  simp [readS, show h.pendingOn n (h.tt .C + 1) = false from hn]

theorem readS2_settled {a b : BitVec 6} (ha : h.settled a) (hb : h.settled b) :
    readS2 h a b = .ok (h.s a, h.s b) := by
  simp [readS2, readS_settled ha, readS_settled hb]

/-- A shared word is issued by the acting seat. -/
theorem issueShared_clear (hc : Clear w p s h) {body : Seat → State → Heat → Effect} {go : SeatState → SeatState}
    (hb : body p s h = .ok (s', h', go)) : issueShared w body s = .next (ran w p s h s' h' go) := by
  obtain ⟨c, hs, hp, _⟩ := hc.acts
  have hcur : s.cur = some c := by
    unfold State.acting at hs
    cases hk : s.cur with
    | none => simp [hk] at hs
    | some d =>
      cases hh : s.heat? d.heat with
      | none => simp [hk, hh] at hs
      | some k => simp [hk, hh] at hs; exact congrArg some hs.2
  have : (s.cur.elim Seat.C fun c => c.seat) = p := by simp [hcur, hp]
  simp only [issueShared, this]
  exact issueG_clear hc hb

/-- A word whose effect stays leaves the machine as `stay` says. -/
theorem issueG_stay (hc : Clear w p s h) {body : State → Heat → Effect} {e : Stay} (hb : body s h = .error e) :
    issueG w p body s = .next (stay w p s h e) := by
  obtain ⟨c, hs, _, hn⟩ := hc.acts
  have ha : attempt w p body s h = .error e := by
    simp [attempt, hc.fits, hc.unheld, hc.executed, hc.tokens, hc.room, hb]
  rcases hc.onTime with hd | hd <;> simp [issueG, hs, hn, issueSeat, hc.going, hc.unhalted, hc.resolved, hd, ha]

theorem issue_stay (hc : Clear w p s h) {body : State → Heat → Run (State × Heat)} {e : Stay}
    (hb : body s h = .error e) : issue w p body s = .next (stay w p s h e) := by
  unfold issue
  exact issueG_stay hc (by simp [hb])

/-- Whatever a word does, the machine goes on. -/
theorem issueG_next (body : State → Heat → Effect) (c : Cursor) (ha : s.acting = some (h, c)) (hc : c.handler = none) :
    issueG w p body s = .next (issueSeat w p body s h) := by
  simp [issueG, ha, hc]

end Sys2Proof.Machine
end

