-- ==== Sys2Proof/Laws/State.lean ====
section
/-!
SUPPORT. What the updates of the state and of a heat leave alone, field by field, so that no proof unfolds them.
-/

namespace Sys2Proof.Machine

/-! ## Updates of the state -/

section
variable (s : State)


@[simp] theorem State.putHeat_dev (h : Heat) : (s.putHeat h).dev = s.dev := rfl
@[simp] theorem State.putHeat_lamom (h : Heat) : (s.putHeat h).lamom = s.lamom := rfl
@[simp] theorem State.putHeat_mem (h : Heat) : (s.putHeat h).mem = s.mem := rfl
@[simp] theorem State.putHeat_net (h : Heat) : (s.putHeat h).net = s.net := rfl
@[simp] theorem State.putHeat_tlb (h : Heat) : (s.putHeat h).tlb = s.tlb := rfl
@[simp] theorem State.putHeat_queues (h : Heat) : (s.putHeat h).queues = s.queues := rfl
@[simp] theorem State.putHeat_packets (h : Heat) : (s.putHeat h).packets = s.packets := rfl
@[simp] theorem State.putHeat_jobs (h : Heat) : (s.putHeat h).jobs = s.jobs := rfl
@[simp] theorem State.putHeat_phases (h : Heat) : (s.putHeat h).phases = s.phases := rfl
@[simp] theorem State.putHeat_graphs (h : Heat) : (s.putHeat h).graphs = s.graphs := rfl
@[simp] theorem State.putHeat_launches (h : Heat) : (s.putHeat h).launches = s.launches := rfl
@[simp] theorem State.putHeat_requests (h : Heat) : (s.putHeat h).requests = s.requests := rfl
@[simp] theorem State.putHeat_resumes (h : Heat) : (s.putHeat h).resumes = s.resumes := rfl
@[simp] theorem State.putHeat_devBars (h : Heat) : (s.putHeat h).devBars = s.devBars := rfl
@[simp] theorem State.putHeat_slaloms (h : Heat) : (s.putHeat h).slaloms = s.slaloms := rfl
@[simp] theorem State.putHeat_sched (h : Heat) : (s.putHeat h).sched = s.sched := rfl
@[simp] theorem State.putHeat_cmds (h : Heat) : (s.putHeat h).cmds = s.cmds := rfl
@[simp] theorem State.putHeat_handlers (h : Heat) : (s.putHeat h).handlers = s.handlers := rfl
@[simp] theorem State.putHeat_stashes (h : Heat) : (s.putHeat h).stashes = s.stashes := rfl
@[simp] theorem State.putHeat_atomics (h : Heat) : (s.putHeat h).atomics = s.atomics := rfl
@[simp] theorem State.putHeat_replies (h : Heat) : (s.putHeat h).replies = s.replies := rfl
@[simp] theorem State.putHeat_seqs (h : Heat) : (s.putHeat h).seqs = s.seqs := rfl
@[simp] theorem State.putHeat_leases (h : Heat) : (s.putHeat h).leases = s.leases := rfl
@[simp] theorem State.putHeat_agenda (h : Heat) : (s.putHeat h).agenda = s.agenda := rfl
@[simp] theorem State.putHeat_cur (h : Heat) : (s.putHeat h).cur = s.cur := rfl
@[simp] theorem State.putHeat_waited (h : Heat) : (s.putHeat h).waited = s.waited := rfl
@[simp] theorem State.putHeat_performing (h : Heat) : (s.putHeat h).performing = s.performing := rfl
@[simp] theorem State.putHeat_rr (h : Heat) : (s.putHeat h).rr = s.rr := rfl
@[simp] theorem State.putHeat_freeCtr (h : Heat) : (s.putHeat h).freeCtr = s.freeCtr := rfl
@[simp] theorem State.putHeat_nextId (h : Heat) : (s.putHeat h).nextId = s.nextId := rfl

@[simp] theorem State.onHeat_dev (u : Nat) (f : Heat → Heat) : (s.onHeat u f).dev = s.dev := rfl
@[simp] theorem State.onHeat_lamom (u : Nat) (f : Heat → Heat) : (s.onHeat u f).lamom = s.lamom := rfl
@[simp] theorem State.onHeat_mem (u : Nat) (f : Heat → Heat) : (s.onHeat u f).mem = s.mem := rfl
@[simp] theorem State.onHeat_net (u : Nat) (f : Heat → Heat) : (s.onHeat u f).net = s.net := rfl
@[simp] theorem State.onHeat_tlb (u : Nat) (f : Heat → Heat) : (s.onHeat u f).tlb = s.tlb := rfl
@[simp] theorem State.onHeat_queues (u : Nat) (f : Heat → Heat) : (s.onHeat u f).queues = s.queues := rfl
@[simp] theorem State.onHeat_packets (u : Nat) (f : Heat → Heat) : (s.onHeat u f).packets = s.packets := rfl
@[simp] theorem State.onHeat_jobs (u : Nat) (f : Heat → Heat) : (s.onHeat u f).jobs = s.jobs := rfl
@[simp] theorem State.onHeat_phases (u : Nat) (f : Heat → Heat) : (s.onHeat u f).phases = s.phases := rfl
@[simp] theorem State.onHeat_graphs (u : Nat) (f : Heat → Heat) : (s.onHeat u f).graphs = s.graphs := rfl
@[simp] theorem State.onHeat_launches (u : Nat) (f : Heat → Heat) : (s.onHeat u f).launches = s.launches := rfl
@[simp] theorem State.onHeat_requests (u : Nat) (f : Heat → Heat) : (s.onHeat u f).requests = s.requests := rfl
@[simp] theorem State.onHeat_resumes (u : Nat) (f : Heat → Heat) : (s.onHeat u f).resumes = s.resumes := rfl
@[simp] theorem State.onHeat_devBars (u : Nat) (f : Heat → Heat) : (s.onHeat u f).devBars = s.devBars := rfl
@[simp] theorem State.onHeat_slaloms (u : Nat) (f : Heat → Heat) : (s.onHeat u f).slaloms = s.slaloms := rfl
@[simp] theorem State.onHeat_sched (u : Nat) (f : Heat → Heat) : (s.onHeat u f).sched = s.sched := rfl
@[simp] theorem State.onHeat_cmds (u : Nat) (f : Heat → Heat) : (s.onHeat u f).cmds = s.cmds := rfl
@[simp] theorem State.onHeat_handlers (u : Nat) (f : Heat → Heat) : (s.onHeat u f).handlers = s.handlers := rfl
@[simp] theorem State.onHeat_stashes (u : Nat) (f : Heat → Heat) : (s.onHeat u f).stashes = s.stashes := rfl
@[simp] theorem State.onHeat_atomics (u : Nat) (f : Heat → Heat) : (s.onHeat u f).atomics = s.atomics := rfl
@[simp] theorem State.onHeat_replies (u : Nat) (f : Heat → Heat) : (s.onHeat u f).replies = s.replies := rfl
@[simp] theorem State.onHeat_seqs (u : Nat) (f : Heat → Heat) : (s.onHeat u f).seqs = s.seqs := rfl
@[simp] theorem State.onHeat_leases (u : Nat) (f : Heat → Heat) : (s.onHeat u f).leases = s.leases := rfl
@[simp] theorem State.onHeat_agenda (u : Nat) (f : Heat → Heat) : (s.onHeat u f).agenda = s.agenda := rfl
@[simp] theorem State.onHeat_cur (u : Nat) (f : Heat → Heat) : (s.onHeat u f).cur = s.cur := rfl
@[simp] theorem State.onHeat_waited (u : Nat) (f : Heat → Heat) : (s.onHeat u f).waited = s.waited := rfl
@[simp] theorem State.onHeat_performing (u : Nat) (f : Heat → Heat) : (s.onHeat u f).performing = s.performing := rfl
@[simp] theorem State.onHeat_rr (u : Nat) (f : Heat → Heat) : (s.onHeat u f).rr = s.rr := rfl
@[simp] theorem State.onHeat_freeCtr (u : Nat) (f : Heat → Heat) : (s.onHeat u f).freeCtr = s.freeCtr := rfl
@[simp] theorem State.onHeat_nextId (u : Nat) (f : Heat → Heat) : (s.onHeat u f).nextId = s.nextId := rfl

@[simp] theorem State.onLaunch_dev (j i : Nat) (f : Launch → Launch) : (s.onLaunch j i f).dev = s.dev := rfl
@[simp] theorem State.onLaunch_lamom (j i : Nat) (f : Launch → Launch) : (s.onLaunch j i f).lamom = s.lamom := rfl
@[simp] theorem State.onLaunch_mem (j i : Nat) (f : Launch → Launch) : (s.onLaunch j i f).mem = s.mem := rfl
@[simp] theorem State.onLaunch_net (j i : Nat) (f : Launch → Launch) : (s.onLaunch j i f).net = s.net := rfl
@[simp] theorem State.onLaunch_tlb (j i : Nat) (f : Launch → Launch) : (s.onLaunch j i f).tlb = s.tlb := rfl
@[simp] theorem State.onLaunch_queues (j i : Nat) (f : Launch → Launch) : (s.onLaunch j i f).queues = s.queues := rfl
@[simp] theorem State.onLaunch_packets (j i : Nat) (f : Launch → Launch) : (s.onLaunch j i f).packets = s.packets := rfl
@[simp] theorem State.onLaunch_jobs (j i : Nat) (f : Launch → Launch) : (s.onLaunch j i f).jobs = s.jobs := rfl
@[simp] theorem State.onLaunch_phases (j i : Nat) (f : Launch → Launch) : (s.onLaunch j i f).phases = s.phases := rfl
@[simp] theorem State.onLaunch_graphs (j i : Nat) (f : Launch → Launch) : (s.onLaunch j i f).graphs = s.graphs := rfl
@[simp] theorem State.onLaunch_requests (j i : Nat) (f : Launch → Launch) : (s.onLaunch j i f).requests = s.requests := rfl
@[simp] theorem State.onLaunch_resumes (j i : Nat) (f : Launch → Launch) : (s.onLaunch j i f).resumes = s.resumes := rfl
@[simp] theorem State.onLaunch_devBars (j i : Nat) (f : Launch → Launch) : (s.onLaunch j i f).devBars = s.devBars := rfl
@[simp] theorem State.onLaunch_slaloms (j i : Nat) (f : Launch → Launch) : (s.onLaunch j i f).slaloms = s.slaloms := rfl
@[simp] theorem State.onLaunch_sched (j i : Nat) (f : Launch → Launch) : (s.onLaunch j i f).sched = s.sched := rfl
@[simp] theorem State.onLaunch_heats (j i : Nat) (f : Launch → Launch) : (s.onLaunch j i f).heats = s.heats := rfl
@[simp] theorem State.onLaunch_cmds (j i : Nat) (f : Launch → Launch) : (s.onLaunch j i f).cmds = s.cmds := rfl
@[simp] theorem State.onLaunch_handlers (j i : Nat) (f : Launch → Launch) : (s.onLaunch j i f).handlers = s.handlers := rfl
@[simp] theorem State.onLaunch_stashes (j i : Nat) (f : Launch → Launch) : (s.onLaunch j i f).stashes = s.stashes := rfl
@[simp] theorem State.onLaunch_atomics (j i : Nat) (f : Launch → Launch) : (s.onLaunch j i f).atomics = s.atomics := rfl
@[simp] theorem State.onLaunch_replies (j i : Nat) (f : Launch → Launch) : (s.onLaunch j i f).replies = s.replies := rfl
@[simp] theorem State.onLaunch_seqs (j i : Nat) (f : Launch → Launch) : (s.onLaunch j i f).seqs = s.seqs := rfl
@[simp] theorem State.onLaunch_leases (j i : Nat) (f : Launch → Launch) : (s.onLaunch j i f).leases = s.leases := rfl
@[simp] theorem State.onLaunch_agenda (j i : Nat) (f : Launch → Launch) : (s.onLaunch j i f).agenda = s.agenda := rfl
@[simp] theorem State.onLaunch_cur (j i : Nat) (f : Launch → Launch) : (s.onLaunch j i f).cur = s.cur := rfl
@[simp] theorem State.onLaunch_waited (j i : Nat) (f : Launch → Launch) : (s.onLaunch j i f).waited = s.waited := rfl
@[simp] theorem State.onLaunch_performing (j i : Nat) (f : Launch → Launch) : (s.onLaunch j i f).performing = s.performing := rfl
@[simp] theorem State.onLaunch_rr (j i : Nat) (f : Launch → Launch) : (s.onLaunch j i f).rr = s.rr := rfl
@[simp] theorem State.onLaunch_freeCtr (j i : Nat) (f : Launch → Launch) : (s.onLaunch j i f).freeCtr = s.freeCtr := rfl
@[simp] theorem State.onLaunch_nextId (j i : Nat) (f : Launch → Launch) : (s.onLaunch j i f).nextId = s.nextId := rfl

@[simp] theorem State.onLamom_dev (f : Lamom → Lamom) : (s.onLamom f).dev = s.dev := rfl
@[simp] theorem State.onLamom_mem (f : Lamom → Lamom) : (s.onLamom f).mem = s.mem := rfl
@[simp] theorem State.onLamom_net (f : Lamom → Lamom) : (s.onLamom f).net = s.net := rfl
@[simp] theorem State.onLamom_tlb (f : Lamom → Lamom) : (s.onLamom f).tlb = s.tlb := rfl
@[simp] theorem State.onLamom_queues (f : Lamom → Lamom) : (s.onLamom f).queues = s.queues := rfl
@[simp] theorem State.onLamom_packets (f : Lamom → Lamom) : (s.onLamom f).packets = s.packets := rfl
@[simp] theorem State.onLamom_jobs (f : Lamom → Lamom) : (s.onLamom f).jobs = s.jobs := rfl
@[simp] theorem State.onLamom_phases (f : Lamom → Lamom) : (s.onLamom f).phases = s.phases := rfl
@[simp] theorem State.onLamom_graphs (f : Lamom → Lamom) : (s.onLamom f).graphs = s.graphs := rfl
@[simp] theorem State.onLamom_launches (f : Lamom → Lamom) : (s.onLamom f).launches = s.launches := rfl
@[simp] theorem State.onLamom_requests (f : Lamom → Lamom) : (s.onLamom f).requests = s.requests := rfl
@[simp] theorem State.onLamom_resumes (f : Lamom → Lamom) : (s.onLamom f).resumes = s.resumes := rfl
@[simp] theorem State.onLamom_devBars (f : Lamom → Lamom) : (s.onLamom f).devBars = s.devBars := rfl
@[simp] theorem State.onLamom_slaloms (f : Lamom → Lamom) : (s.onLamom f).slaloms = s.slaloms := rfl
@[simp] theorem State.onLamom_sched (f : Lamom → Lamom) : (s.onLamom f).sched = s.sched := rfl
@[simp] theorem State.onLamom_heats (f : Lamom → Lamom) : (s.onLamom f).heats = s.heats := rfl
@[simp] theorem State.onLamom_cmds (f : Lamom → Lamom) : (s.onLamom f).cmds = s.cmds := rfl
@[simp] theorem State.onLamom_handlers (f : Lamom → Lamom) : (s.onLamom f).handlers = s.handlers := rfl
@[simp] theorem State.onLamom_stashes (f : Lamom → Lamom) : (s.onLamom f).stashes = s.stashes := rfl
@[simp] theorem State.onLamom_atomics (f : Lamom → Lamom) : (s.onLamom f).atomics = s.atomics := rfl
@[simp] theorem State.onLamom_replies (f : Lamom → Lamom) : (s.onLamom f).replies = s.replies := rfl
@[simp] theorem State.onLamom_seqs (f : Lamom → Lamom) : (s.onLamom f).seqs = s.seqs := rfl
@[simp] theorem State.onLamom_leases (f : Lamom → Lamom) : (s.onLamom f).leases = s.leases := rfl
@[simp] theorem State.onLamom_agenda (f : Lamom → Lamom) : (s.onLamom f).agenda = s.agenda := rfl
@[simp] theorem State.onLamom_cur (f : Lamom → Lamom) : (s.onLamom f).cur = s.cur := rfl
@[simp] theorem State.onLamom_waited (f : Lamom → Lamom) : (s.onLamom f).waited = s.waited := rfl
@[simp] theorem State.onLamom_performing (f : Lamom → Lamom) : (s.onLamom f).performing = s.performing := rfl
@[simp] theorem State.onLamom_rr (f : Lamom → Lamom) : (s.onLamom f).rr = s.rr := rfl
@[simp] theorem State.onLamom_freeCtr (f : Lamom → Lamom) : (s.onLamom f).freeCtr = s.freeCtr := rfl
@[simp] theorem State.onLamom_nextId (f : Lamom → Lamom) : (s.onLamom f).nextId = s.nextId := rfl

@[simp] theorem State.onJob_dev (j : Nat) (f : Job → Job) : (s.onJob j f).dev = s.dev := rfl
@[simp] theorem State.onJob_lamom (j : Nat) (f : Job → Job) : (s.onJob j f).lamom = s.lamom := rfl
@[simp] theorem State.onJob_mem (j : Nat) (f : Job → Job) : (s.onJob j f).mem = s.mem := rfl
@[simp] theorem State.onJob_net (j : Nat) (f : Job → Job) : (s.onJob j f).net = s.net := rfl
@[simp] theorem State.onJob_tlb (j : Nat) (f : Job → Job) : (s.onJob j f).tlb = s.tlb := rfl
@[simp] theorem State.onJob_queues (j : Nat) (f : Job → Job) : (s.onJob j f).queues = s.queues := rfl
@[simp] theorem State.onJob_packets (j : Nat) (f : Job → Job) : (s.onJob j f).packets = s.packets := rfl
@[simp] theorem State.onJob_phases (j : Nat) (f : Job → Job) : (s.onJob j f).phases = s.phases := rfl
@[simp] theorem State.onJob_graphs (j : Nat) (f : Job → Job) : (s.onJob j f).graphs = s.graphs := rfl
@[simp] theorem State.onJob_launches (j : Nat) (f : Job → Job) : (s.onJob j f).launches = s.launches := rfl
@[simp] theorem State.onJob_requests (j : Nat) (f : Job → Job) : (s.onJob j f).requests = s.requests := rfl
@[simp] theorem State.onJob_resumes (j : Nat) (f : Job → Job) : (s.onJob j f).resumes = s.resumes := rfl
@[simp] theorem State.onJob_devBars (j : Nat) (f : Job → Job) : (s.onJob j f).devBars = s.devBars := rfl
@[simp] theorem State.onJob_slaloms (j : Nat) (f : Job → Job) : (s.onJob j f).slaloms = s.slaloms := rfl
@[simp] theorem State.onJob_sched (j : Nat) (f : Job → Job) : (s.onJob j f).sched = s.sched := rfl
@[simp] theorem State.onJob_heats (j : Nat) (f : Job → Job) : (s.onJob j f).heats = s.heats := rfl
@[simp] theorem State.onJob_cmds (j : Nat) (f : Job → Job) : (s.onJob j f).cmds = s.cmds := rfl
@[simp] theorem State.onJob_handlers (j : Nat) (f : Job → Job) : (s.onJob j f).handlers = s.handlers := rfl
@[simp] theorem State.onJob_stashes (j : Nat) (f : Job → Job) : (s.onJob j f).stashes = s.stashes := rfl
@[simp] theorem State.onJob_atomics (j : Nat) (f : Job → Job) : (s.onJob j f).atomics = s.atomics := rfl
@[simp] theorem State.onJob_replies (j : Nat) (f : Job → Job) : (s.onJob j f).replies = s.replies := rfl
@[simp] theorem State.onJob_seqs (j : Nat) (f : Job → Job) : (s.onJob j f).seqs = s.seqs := rfl
@[simp] theorem State.onJob_leases (j : Nat) (f : Job → Job) : (s.onJob j f).leases = s.leases := rfl
@[simp] theorem State.onJob_agenda (j : Nat) (f : Job → Job) : (s.onJob j f).agenda = s.agenda := rfl
@[simp] theorem State.onJob_cur (j : Nat) (f : Job → Job) : (s.onJob j f).cur = s.cur := rfl
@[simp] theorem State.onJob_waited (j : Nat) (f : Job → Job) : (s.onJob j f).waited = s.waited := rfl
@[simp] theorem State.onJob_performing (j : Nat) (f : Job → Job) : (s.onJob j f).performing = s.performing := rfl
@[simp] theorem State.onJob_rr (j : Nat) (f : Job → Job) : (s.onJob j f).rr = s.rr := rfl
@[simp] theorem State.onJob_freeCtr (j : Nat) (f : Job → Job) : (s.onJob j f).freeCtr = s.freeCtr := rfl
@[simp] theorem State.onJob_nextId (j : Nat) (f : Job → Job) : (s.onJob j f).nextId = s.nextId := rfl

@[simp] theorem State.onSlalom_dev (j l : Nat) (f : Slalom → Slalom) : (s.onSlalom j l f).dev = s.dev := rfl
@[simp] theorem State.onSlalom_lamom (j l : Nat) (f : Slalom → Slalom) : (s.onSlalom j l f).lamom = s.lamom := rfl
@[simp] theorem State.onSlalom_mem (j l : Nat) (f : Slalom → Slalom) : (s.onSlalom j l f).mem = s.mem := rfl
@[simp] theorem State.onSlalom_net (j l : Nat) (f : Slalom → Slalom) : (s.onSlalom j l f).net = s.net := rfl
@[simp] theorem State.onSlalom_tlb (j l : Nat) (f : Slalom → Slalom) : (s.onSlalom j l f).tlb = s.tlb := rfl
@[simp] theorem State.onSlalom_queues (j l : Nat) (f : Slalom → Slalom) : (s.onSlalom j l f).queues = s.queues := rfl
@[simp] theorem State.onSlalom_packets (j l : Nat) (f : Slalom → Slalom) : (s.onSlalom j l f).packets = s.packets := rfl
@[simp] theorem State.onSlalom_jobs (j l : Nat) (f : Slalom → Slalom) : (s.onSlalom j l f).jobs = s.jobs := rfl
@[simp] theorem State.onSlalom_phases (j l : Nat) (f : Slalom → Slalom) : (s.onSlalom j l f).phases = s.phases := rfl
@[simp] theorem State.onSlalom_graphs (j l : Nat) (f : Slalom → Slalom) : (s.onSlalom j l f).graphs = s.graphs := rfl
@[simp] theorem State.onSlalom_launches (j l : Nat) (f : Slalom → Slalom) : (s.onSlalom j l f).launches = s.launches := rfl
@[simp] theorem State.onSlalom_requests (j l : Nat) (f : Slalom → Slalom) : (s.onSlalom j l f).requests = s.requests := rfl
@[simp] theorem State.onSlalom_resumes (j l : Nat) (f : Slalom → Slalom) : (s.onSlalom j l f).resumes = s.resumes := rfl
@[simp] theorem State.onSlalom_devBars (j l : Nat) (f : Slalom → Slalom) : (s.onSlalom j l f).devBars = s.devBars := rfl
@[simp] theorem State.onSlalom_sched (j l : Nat) (f : Slalom → Slalom) : (s.onSlalom j l f).sched = s.sched := rfl
@[simp] theorem State.onSlalom_heats (j l : Nat) (f : Slalom → Slalom) : (s.onSlalom j l f).heats = s.heats := rfl
@[simp] theorem State.onSlalom_cmds (j l : Nat) (f : Slalom → Slalom) : (s.onSlalom j l f).cmds = s.cmds := rfl
@[simp] theorem State.onSlalom_handlers (j l : Nat) (f : Slalom → Slalom) : (s.onSlalom j l f).handlers = s.handlers := rfl
@[simp] theorem State.onSlalom_stashes (j l : Nat) (f : Slalom → Slalom) : (s.onSlalom j l f).stashes = s.stashes := rfl
@[simp] theorem State.onSlalom_atomics (j l : Nat) (f : Slalom → Slalom) : (s.onSlalom j l f).atomics = s.atomics := rfl
@[simp] theorem State.onSlalom_replies (j l : Nat) (f : Slalom → Slalom) : (s.onSlalom j l f).replies = s.replies := rfl
@[simp] theorem State.onSlalom_seqs (j l : Nat) (f : Slalom → Slalom) : (s.onSlalom j l f).seqs = s.seqs := rfl
@[simp] theorem State.onSlalom_leases (j l : Nat) (f : Slalom → Slalom) : (s.onSlalom j l f).leases = s.leases := rfl
@[simp] theorem State.onSlalom_agenda (j l : Nat) (f : Slalom → Slalom) : (s.onSlalom j l f).agenda = s.agenda := rfl
@[simp] theorem State.onSlalom_cur (j l : Nat) (f : Slalom → Slalom) : (s.onSlalom j l f).cur = s.cur := rfl
@[simp] theorem State.onSlalom_waited (j l : Nat) (f : Slalom → Slalom) : (s.onSlalom j l f).waited = s.waited := rfl
@[simp] theorem State.onSlalom_performing (j l : Nat) (f : Slalom → Slalom) : (s.onSlalom j l f).performing = s.performing := rfl
@[simp] theorem State.onSlalom_rr (j l : Nat) (f : Slalom → Slalom) : (s.onSlalom j l f).rr = s.rr := rfl
@[simp] theorem State.onSlalom_freeCtr (j l : Nat) (f : Slalom → Slalom) : (s.onSlalom j l f).freeCtr = s.freeCtr := rfl
@[simp] theorem State.onSlalom_nextId (j l : Nat) (f : Slalom → Slalom) : (s.onSlalom j l f).nextId = s.nextId := rfl

@[simp] theorem State.onBag_dev (u i : Nat) (f : Bag → Bag) : (s.onBag u i f).dev = s.dev := rfl
@[simp] theorem State.onBag_lamom (u i : Nat) (f : Bag → Bag) : (s.onBag u i f).lamom = s.lamom := rfl
@[simp] theorem State.onBag_mem (u i : Nat) (f : Bag → Bag) : (s.onBag u i f).mem = s.mem := rfl
@[simp] theorem State.onBag_net (u i : Nat) (f : Bag → Bag) : (s.onBag u i f).net = s.net := rfl
@[simp] theorem State.onBag_tlb (u i : Nat) (f : Bag → Bag) : (s.onBag u i f).tlb = s.tlb := rfl
@[simp] theorem State.onBag_queues (u i : Nat) (f : Bag → Bag) : (s.onBag u i f).queues = s.queues := rfl
@[simp] theorem State.onBag_packets (u i : Nat) (f : Bag → Bag) : (s.onBag u i f).packets = s.packets := rfl
@[simp] theorem State.onBag_jobs (u i : Nat) (f : Bag → Bag) : (s.onBag u i f).jobs = s.jobs := rfl
@[simp] theorem State.onBag_phases (u i : Nat) (f : Bag → Bag) : (s.onBag u i f).phases = s.phases := rfl
@[simp] theorem State.onBag_graphs (u i : Nat) (f : Bag → Bag) : (s.onBag u i f).graphs = s.graphs := rfl
@[simp] theorem State.onBag_launches (u i : Nat) (f : Bag → Bag) : (s.onBag u i f).launches = s.launches := rfl
@[simp] theorem State.onBag_requests (u i : Nat) (f : Bag → Bag) : (s.onBag u i f).requests = s.requests := rfl
@[simp] theorem State.onBag_resumes (u i : Nat) (f : Bag → Bag) : (s.onBag u i f).resumes = s.resumes := rfl
@[simp] theorem State.onBag_devBars (u i : Nat) (f : Bag → Bag) : (s.onBag u i f).devBars = s.devBars := rfl
@[simp] theorem State.onBag_slaloms (u i : Nat) (f : Bag → Bag) : (s.onBag u i f).slaloms = s.slaloms := rfl
@[simp] theorem State.onBag_sched (u i : Nat) (f : Bag → Bag) : (s.onBag u i f).sched = s.sched := rfl
@[simp] theorem State.onBag_cmds (u i : Nat) (f : Bag → Bag) : (s.onBag u i f).cmds = s.cmds := rfl
@[simp] theorem State.onBag_handlers (u i : Nat) (f : Bag → Bag) : (s.onBag u i f).handlers = s.handlers := rfl
@[simp] theorem State.onBag_stashes (u i : Nat) (f : Bag → Bag) : (s.onBag u i f).stashes = s.stashes := rfl
@[simp] theorem State.onBag_atomics (u i : Nat) (f : Bag → Bag) : (s.onBag u i f).atomics = s.atomics := rfl
@[simp] theorem State.onBag_replies (u i : Nat) (f : Bag → Bag) : (s.onBag u i f).replies = s.replies := rfl
@[simp] theorem State.onBag_seqs (u i : Nat) (f : Bag → Bag) : (s.onBag u i f).seqs = s.seqs := rfl
@[simp] theorem State.onBag_leases (u i : Nat) (f : Bag → Bag) : (s.onBag u i f).leases = s.leases := rfl
@[simp] theorem State.onBag_agenda (u i : Nat) (f : Bag → Bag) : (s.onBag u i f).agenda = s.agenda := rfl
@[simp] theorem State.onBag_cur (u i : Nat) (f : Bag → Bag) : (s.onBag u i f).cur = s.cur := rfl
@[simp] theorem State.onBag_waited (u i : Nat) (f : Bag → Bag) : (s.onBag u i f).waited = s.waited := rfl
@[simp] theorem State.onBag_performing (u i : Nat) (f : Bag → Bag) : (s.onBag u i f).performing = s.performing := rfl
@[simp] theorem State.onBag_rr (u i : Nat) (f : Bag → Bag) : (s.onBag u i f).rr = s.rr := rfl
@[simp] theorem State.onBag_freeCtr (u i : Nat) (f : Bag → Bag) : (s.onBag u i f).freeCtr = s.freeCtr := rfl
@[simp] theorem State.onBag_nextId (u i : Nat) (f : Bag → Bag) : (s.onBag u i f).nextId = s.nextId := rfl

@[simp] theorem raiseVector_dev (v : Nat) : (raiseVector s v).dev = s.dev := rfl
@[simp] theorem raiseVector_lamom (v : Nat) : (raiseVector s v).lamom = s.lamom := rfl
@[simp] theorem raiseVector_mem (v : Nat) : (raiseVector s v).mem = s.mem := rfl
@[simp] theorem raiseVector_tlb (v : Nat) : (raiseVector s v).tlb = s.tlb := rfl
@[simp] theorem raiseVector_queues (v : Nat) : (raiseVector s v).queues = s.queues := rfl
@[simp] theorem raiseVector_packets (v : Nat) : (raiseVector s v).packets = s.packets := rfl
@[simp] theorem raiseVector_jobs (v : Nat) : (raiseVector s v).jobs = s.jobs := rfl
@[simp] theorem raiseVector_phases (v : Nat) : (raiseVector s v).phases = s.phases := rfl
@[simp] theorem raiseVector_graphs (v : Nat) : (raiseVector s v).graphs = s.graphs := rfl
@[simp] theorem raiseVector_launches (v : Nat) : (raiseVector s v).launches = s.launches := rfl
@[simp] theorem raiseVector_requests (v : Nat) : (raiseVector s v).requests = s.requests := rfl
@[simp] theorem raiseVector_resumes (v : Nat) : (raiseVector s v).resumes = s.resumes := rfl
@[simp] theorem raiseVector_devBars (v : Nat) : (raiseVector s v).devBars = s.devBars := rfl
@[simp] theorem raiseVector_slaloms (v : Nat) : (raiseVector s v).slaloms = s.slaloms := rfl
@[simp] theorem raiseVector_sched (v : Nat) : (raiseVector s v).sched = s.sched := rfl
@[simp] theorem raiseVector_heats (v : Nat) : (raiseVector s v).heats = s.heats := rfl
@[simp] theorem raiseVector_cmds (v : Nat) : (raiseVector s v).cmds = s.cmds := rfl
@[simp] theorem raiseVector_handlers (v : Nat) : (raiseVector s v).handlers = s.handlers := rfl
@[simp] theorem raiseVector_stashes (v : Nat) : (raiseVector s v).stashes = s.stashes := rfl
@[simp] theorem raiseVector_atomics (v : Nat) : (raiseVector s v).atomics = s.atomics := rfl
@[simp] theorem raiseVector_replies (v : Nat) : (raiseVector s v).replies = s.replies := rfl
@[simp] theorem raiseVector_seqs (v : Nat) : (raiseVector s v).seqs = s.seqs := rfl
@[simp] theorem raiseVector_leases (v : Nat) : (raiseVector s v).leases = s.leases := rfl
@[simp] theorem raiseVector_agenda (v : Nat) : (raiseVector s v).agenda = s.agenda := rfl
@[simp] theorem raiseVector_cur (v : Nat) : (raiseVector s v).cur = s.cur := rfl
@[simp] theorem raiseVector_waited (v : Nat) : (raiseVector s v).waited = s.waited := rfl
@[simp] theorem raiseVector_performing (v : Nat) : (raiseVector s v).performing = s.performing := rfl
@[simp] theorem raiseVector_rr (v : Nat) : (raiseVector s v).rr = s.rr := rfl
@[simp] theorem raiseVector_freeCtr (v : Nat) : (raiseVector s v).freeCtr = s.freeCtr := rfl
@[simp] theorem raiseVector_nextId (v : Nat) : (raiseVector s v).nextId = s.nextId := rfl

@[simp] theorem State.onCounters_dev (d : Nat) (f : Counters → Counters) : (s.onCounters d f).dev = s.dev := rfl
@[simp] theorem State.onCounters_mem (d : Nat) (f : Counters → Counters) : (s.onCounters d f).mem = s.mem := rfl
@[simp] theorem State.onCounters_net (d : Nat) (f : Counters → Counters) : (s.onCounters d f).net = s.net := rfl
@[simp] theorem State.onCounters_tlb (d : Nat) (f : Counters → Counters) : (s.onCounters d f).tlb = s.tlb := rfl
@[simp] theorem State.onCounters_queues (d : Nat) (f : Counters → Counters) : (s.onCounters d f).queues = s.queues := rfl
@[simp] theorem State.onCounters_packets (d : Nat) (f : Counters → Counters) : (s.onCounters d f).packets = s.packets := rfl
@[simp] theorem State.onCounters_jobs (d : Nat) (f : Counters → Counters) : (s.onCounters d f).jobs = s.jobs := rfl
@[simp] theorem State.onCounters_phases (d : Nat) (f : Counters → Counters) : (s.onCounters d f).phases = s.phases := rfl
@[simp] theorem State.onCounters_graphs (d : Nat) (f : Counters → Counters) : (s.onCounters d f).graphs = s.graphs := rfl
@[simp] theorem State.onCounters_launches (d : Nat) (f : Counters → Counters) : (s.onCounters d f).launches = s.launches := rfl
@[simp] theorem State.onCounters_requests (d : Nat) (f : Counters → Counters) : (s.onCounters d f).requests = s.requests := rfl
@[simp] theorem State.onCounters_resumes (d : Nat) (f : Counters → Counters) : (s.onCounters d f).resumes = s.resumes := rfl
@[simp] theorem State.onCounters_devBars (d : Nat) (f : Counters → Counters) : (s.onCounters d f).devBars = s.devBars := rfl
@[simp] theorem State.onCounters_slaloms (d : Nat) (f : Counters → Counters) : (s.onCounters d f).slaloms = s.slaloms := rfl
@[simp] theorem State.onCounters_sched (d : Nat) (f : Counters → Counters) : (s.onCounters d f).sched = s.sched := rfl
@[simp] theorem State.onCounters_heats (d : Nat) (f : Counters → Counters) : (s.onCounters d f).heats = s.heats := rfl
@[simp] theorem State.onCounters_cmds (d : Nat) (f : Counters → Counters) : (s.onCounters d f).cmds = s.cmds := rfl
@[simp] theorem State.onCounters_handlers (d : Nat) (f : Counters → Counters) : (s.onCounters d f).handlers = s.handlers := rfl
@[simp] theorem State.onCounters_stashes (d : Nat) (f : Counters → Counters) : (s.onCounters d f).stashes = s.stashes := rfl
@[simp] theorem State.onCounters_atomics (d : Nat) (f : Counters → Counters) : (s.onCounters d f).atomics = s.atomics := rfl
@[simp] theorem State.onCounters_replies (d : Nat) (f : Counters → Counters) : (s.onCounters d f).replies = s.replies := rfl
@[simp] theorem State.onCounters_seqs (d : Nat) (f : Counters → Counters) : (s.onCounters d f).seqs = s.seqs := rfl
@[simp] theorem State.onCounters_leases (d : Nat) (f : Counters → Counters) : (s.onCounters d f).leases = s.leases := rfl
@[simp] theorem State.onCounters_agenda (d : Nat) (f : Counters → Counters) : (s.onCounters d f).agenda = s.agenda := rfl
@[simp] theorem State.onCounters_cur (d : Nat) (f : Counters → Counters) : (s.onCounters d f).cur = s.cur := rfl
@[simp] theorem State.onCounters_waited (d : Nat) (f : Counters → Counters) : (s.onCounters d f).waited = s.waited := rfl
@[simp] theorem State.onCounters_performing (d : Nat) (f : Counters → Counters) : (s.onCounters d f).performing = s.performing := rfl
@[simp] theorem State.onCounters_rr (d : Nat) (f : Counters → Counters) : (s.onCounters d f).rr = s.rr := rfl
@[simp] theorem State.onCounters_freeCtr (d : Nat) (f : Counters → Counters) : (s.onCounters d f).freeCtr = s.freeCtr := rfl
@[simp] theorem State.onCounters_nextId (d : Nat) (f : Counters → Counters) : (s.onCounters d f).nextId = s.nextId := rfl

@[simp] theorem countLost_dev (d : Nat) : (countLost s d).dev = s.dev := rfl
@[simp] theorem countLost_mem (d : Nat) : (countLost s d).mem = s.mem := rfl
@[simp] theorem countLost_net (d : Nat) : (countLost s d).net = s.net := rfl
@[simp] theorem countLost_tlb (d : Nat) : (countLost s d).tlb = s.tlb := rfl
@[simp] theorem countLost_queues (d : Nat) : (countLost s d).queues = s.queues := rfl
@[simp] theorem countLost_packets (d : Nat) : (countLost s d).packets = s.packets := rfl
@[simp] theorem countLost_jobs (d : Nat) : (countLost s d).jobs = s.jobs := rfl
@[simp] theorem countLost_phases (d : Nat) : (countLost s d).phases = s.phases := rfl
@[simp] theorem countLost_graphs (d : Nat) : (countLost s d).graphs = s.graphs := rfl
@[simp] theorem countLost_launches (d : Nat) : (countLost s d).launches = s.launches := rfl
@[simp] theorem countLost_requests (d : Nat) : (countLost s d).requests = s.requests := rfl
@[simp] theorem countLost_resumes (d : Nat) : (countLost s d).resumes = s.resumes := rfl
@[simp] theorem countLost_devBars (d : Nat) : (countLost s d).devBars = s.devBars := rfl
@[simp] theorem countLost_slaloms (d : Nat) : (countLost s d).slaloms = s.slaloms := rfl
@[simp] theorem countLost_sched (d : Nat) : (countLost s d).sched = s.sched := rfl
@[simp] theorem countLost_heats (d : Nat) : (countLost s d).heats = s.heats := rfl
@[simp] theorem countLost_cmds (d : Nat) : (countLost s d).cmds = s.cmds := rfl
@[simp] theorem countLost_handlers (d : Nat) : (countLost s d).handlers = s.handlers := rfl
@[simp] theorem countLost_stashes (d : Nat) : (countLost s d).stashes = s.stashes := rfl
@[simp] theorem countLost_atomics (d : Nat) : (countLost s d).atomics = s.atomics := rfl
@[simp] theorem countLost_replies (d : Nat) : (countLost s d).replies = s.replies := rfl
@[simp] theorem countLost_seqs (d : Nat) : (countLost s d).seqs = s.seqs := rfl
@[simp] theorem countLost_leases (d : Nat) : (countLost s d).leases = s.leases := rfl
@[simp] theorem countLost_agenda (d : Nat) : (countLost s d).agenda = s.agenda := rfl
@[simp] theorem countLost_cur (d : Nat) : (countLost s d).cur = s.cur := rfl
@[simp] theorem countLost_waited (d : Nat) : (countLost s d).waited = s.waited := rfl
@[simp] theorem countLost_performing (d : Nat) : (countLost s d).performing = s.performing := rfl
@[simp] theorem countLost_rr (d : Nat) : (countLost s d).rr = s.rr := rfl
@[simp] theorem countLost_freeCtr (d : Nat) : (countLost s d).freeCtr = s.freeCtr := rfl
@[simp] theorem countLost_nextId (d : Nat) : (countLost s d).nextId = s.nextId := rfl

@[simp] theorem putQueue_dev (r : QueueRegs) : (putQueue s r).dev = s.dev := rfl
@[simp] theorem putQueue_lamom (r : QueueRegs) : (putQueue s r).lamom = s.lamom := rfl
@[simp] theorem putQueue_mem (r : QueueRegs) : (putQueue s r).mem = s.mem := rfl
@[simp] theorem putQueue_net (r : QueueRegs) : (putQueue s r).net = s.net := rfl
@[simp] theorem putQueue_tlb (r : QueueRegs) : (putQueue s r).tlb = s.tlb := rfl
@[simp] theorem putQueue_packets (r : QueueRegs) : (putQueue s r).packets = s.packets := rfl
@[simp] theorem putQueue_jobs (r : QueueRegs) : (putQueue s r).jobs = s.jobs := rfl
@[simp] theorem putQueue_phases (r : QueueRegs) : (putQueue s r).phases = s.phases := rfl
@[simp] theorem putQueue_graphs (r : QueueRegs) : (putQueue s r).graphs = s.graphs := rfl
@[simp] theorem putQueue_launches (r : QueueRegs) : (putQueue s r).launches = s.launches := rfl
@[simp] theorem putQueue_requests (r : QueueRegs) : (putQueue s r).requests = s.requests := rfl
@[simp] theorem putQueue_resumes (r : QueueRegs) : (putQueue s r).resumes = s.resumes := rfl
@[simp] theorem putQueue_devBars (r : QueueRegs) : (putQueue s r).devBars = s.devBars := rfl
@[simp] theorem putQueue_slaloms (r : QueueRegs) : (putQueue s r).slaloms = s.slaloms := rfl
@[simp] theorem putQueue_sched (r : QueueRegs) : (putQueue s r).sched = s.sched := rfl
@[simp] theorem putQueue_heats (r : QueueRegs) : (putQueue s r).heats = s.heats := rfl
@[simp] theorem putQueue_cmds (r : QueueRegs) : (putQueue s r).cmds = s.cmds := rfl
@[simp] theorem putQueue_handlers (r : QueueRegs) : (putQueue s r).handlers = s.handlers := rfl
@[simp] theorem putQueue_stashes (r : QueueRegs) : (putQueue s r).stashes = s.stashes := rfl
@[simp] theorem putQueue_atomics (r : QueueRegs) : (putQueue s r).atomics = s.atomics := rfl
@[simp] theorem putQueue_replies (r : QueueRegs) : (putQueue s r).replies = s.replies := rfl
@[simp] theorem putQueue_seqs (r : QueueRegs) : (putQueue s r).seqs = s.seqs := rfl
@[simp] theorem putQueue_leases (r : QueueRegs) : (putQueue s r).leases = s.leases := rfl
@[simp] theorem putQueue_agenda (r : QueueRegs) : (putQueue s r).agenda = s.agenda := rfl
@[simp] theorem putQueue_cur (r : QueueRegs) : (putQueue s r).cur = s.cur := rfl
@[simp] theorem putQueue_waited (r : QueueRegs) : (putQueue s r).waited = s.waited := rfl
@[simp] theorem putQueue_performing (r : QueueRegs) : (putQueue s r).performing = s.performing := rfl
@[simp] theorem putQueue_rr (r : QueueRegs) : (putQueue s r).rr = s.rr := rfl
@[simp] theorem putQueue_freeCtr (r : QueueRegs) : (putQueue s r).freeCtr = s.freeCtr := rfl
@[simp] theorem putQueue_nextId (r : QueueRegs) : (putQueue s r).nextId = s.nextId := rfl

@[simp] theorem queueError_dev (q c : Nat) : (queueError s q c).dev = s.dev := rfl
@[simp] theorem queueError_lamom (q c : Nat) : (queueError s q c).lamom = s.lamom := rfl
@[simp] theorem queueError_mem (q c : Nat) : (queueError s q c).mem = s.mem := rfl
@[simp] theorem queueError_net (q c : Nat) : (queueError s q c).net = s.net := rfl
@[simp] theorem queueError_tlb (q c : Nat) : (queueError s q c).tlb = s.tlb := rfl
@[simp] theorem queueError_packets (q c : Nat) : (queueError s q c).packets = s.packets := rfl
@[simp] theorem queueError_jobs (q c : Nat) : (queueError s q c).jobs = s.jobs := rfl
@[simp] theorem queueError_phases (q c : Nat) : (queueError s q c).phases = s.phases := rfl
@[simp] theorem queueError_graphs (q c : Nat) : (queueError s q c).graphs = s.graphs := rfl
@[simp] theorem queueError_launches (q c : Nat) : (queueError s q c).launches = s.launches := rfl
@[simp] theorem queueError_requests (q c : Nat) : (queueError s q c).requests = s.requests := rfl
@[simp] theorem queueError_resumes (q c : Nat) : (queueError s q c).resumes = s.resumes := rfl
@[simp] theorem queueError_devBars (q c : Nat) : (queueError s q c).devBars = s.devBars := rfl
@[simp] theorem queueError_slaloms (q c : Nat) : (queueError s q c).slaloms = s.slaloms := rfl
@[simp] theorem queueError_sched (q c : Nat) : (queueError s q c).sched = s.sched := rfl
@[simp] theorem queueError_heats (q c : Nat) : (queueError s q c).heats = s.heats := rfl
@[simp] theorem queueError_cmds (q c : Nat) : (queueError s q c).cmds = s.cmds := rfl
@[simp] theorem queueError_handlers (q c : Nat) : (queueError s q c).handlers = s.handlers := rfl
@[simp] theorem queueError_stashes (q c : Nat) : (queueError s q c).stashes = s.stashes := rfl
@[simp] theorem queueError_atomics (q c : Nat) : (queueError s q c).atomics = s.atomics := rfl
@[simp] theorem queueError_replies (q c : Nat) : (queueError s q c).replies = s.replies := rfl
@[simp] theorem queueError_seqs (q c : Nat) : (queueError s q c).seqs = s.seqs := rfl
@[simp] theorem queueError_leases (q c : Nat) : (queueError s q c).leases = s.leases := rfl
@[simp] theorem queueError_agenda (q c : Nat) : (queueError s q c).agenda = s.agenda := rfl
@[simp] theorem queueError_cur (q c : Nat) : (queueError s q c).cur = s.cur := rfl
@[simp] theorem queueError_waited (q c : Nat) : (queueError s q c).waited = s.waited := rfl
@[simp] theorem queueError_performing (q c : Nat) : (queueError s q c).performing = s.performing := rfl
@[simp] theorem queueError_rr (q c : Nat) : (queueError s q c).rr = s.rr := rfl
@[simp] theorem queueError_freeCtr (q c : Nat) : (queueError s q c).freeCtr = s.freeCtr := rfl
@[simp] theorem queueError_nextId (q c : Nat) : (queueError s q c).nextId = s.nextId := rfl

@[simp] theorem answer_dev (r : Response) : (answer s r).dev = s.dev := rfl
@[simp] theorem answer_mem (r : Response) : (answer s r).mem = s.mem := rfl
@[simp] theorem answer_net (r : Response) : (answer s r).net = s.net := rfl
@[simp] theorem answer_tlb (r : Response) : (answer s r).tlb = s.tlb := rfl
@[simp] theorem answer_queues (r : Response) : (answer s r).queues = s.queues := rfl
@[simp] theorem answer_packets (r : Response) : (answer s r).packets = s.packets := rfl
@[simp] theorem answer_jobs (r : Response) : (answer s r).jobs = s.jobs := rfl
@[simp] theorem answer_phases (r : Response) : (answer s r).phases = s.phases := rfl
@[simp] theorem answer_graphs (r : Response) : (answer s r).graphs = s.graphs := rfl
@[simp] theorem answer_launches (r : Response) : (answer s r).launches = s.launches := rfl
@[simp] theorem answer_requests (r : Response) : (answer s r).requests = s.requests := rfl
@[simp] theorem answer_resumes (r : Response) : (answer s r).resumes = s.resumes := rfl
@[simp] theorem answer_devBars (r : Response) : (answer s r).devBars = s.devBars := rfl
@[simp] theorem answer_slaloms (r : Response) : (answer s r).slaloms = s.slaloms := rfl
@[simp] theorem answer_sched (r : Response) : (answer s r).sched = s.sched := rfl
@[simp] theorem answer_heats (r : Response) : (answer s r).heats = s.heats := rfl
@[simp] theorem answer_cmds (r : Response) : (answer s r).cmds = s.cmds := rfl
@[simp] theorem answer_handlers (r : Response) : (answer s r).handlers = s.handlers := rfl
@[simp] theorem answer_stashes (r : Response) : (answer s r).stashes = s.stashes := rfl
@[simp] theorem answer_atomics (r : Response) : (answer s r).atomics = s.atomics := rfl
@[simp] theorem answer_replies (r : Response) : (answer s r).replies = s.replies := rfl
@[simp] theorem answer_seqs (r : Response) : (answer s r).seqs = s.seqs := rfl
@[simp] theorem answer_leases (r : Response) : (answer s r).leases = s.leases := rfl
@[simp] theorem answer_agenda (r : Response) : (answer s r).agenda = s.agenda := rfl
@[simp] theorem answer_cur (r : Response) : (answer s r).cur = s.cur := rfl
@[simp] theorem answer_waited (r : Response) : (answer s r).waited = s.waited := rfl
@[simp] theorem answer_performing (r : Response) : (answer s r).performing = s.performing := rfl
@[simp] theorem answer_rr (r : Response) : (answer s r).rr = s.rr := rfl
@[simp] theorem answer_freeCtr (r : Response) : (answer s r).freeCtr = s.freeCtr := rfl
@[simp] theorem answer_nextId (r : Response) : (answer s r).nextId = s.nextId := rfl

@[simp] theorem toStage_dev (g : Stage) : (toStage s g).dev = s.dev := rfl
@[simp] theorem toStage_mem (g : Stage) : (toStage s g).mem = s.mem := rfl
@[simp] theorem toStage_net (g : Stage) : (toStage s g).net = s.net := rfl
@[simp] theorem toStage_tlb (g : Stage) : (toStage s g).tlb = s.tlb := rfl
@[simp] theorem toStage_queues (g : Stage) : (toStage s g).queues = s.queues := rfl
@[simp] theorem toStage_packets (g : Stage) : (toStage s g).packets = s.packets := rfl
@[simp] theorem toStage_jobs (g : Stage) : (toStage s g).jobs = s.jobs := rfl
@[simp] theorem toStage_phases (g : Stage) : (toStage s g).phases = s.phases := rfl
@[simp] theorem toStage_graphs (g : Stage) : (toStage s g).graphs = s.graphs := rfl
@[simp] theorem toStage_launches (g : Stage) : (toStage s g).launches = s.launches := rfl
@[simp] theorem toStage_requests (g : Stage) : (toStage s g).requests = s.requests := rfl
@[simp] theorem toStage_resumes (g : Stage) : (toStage s g).resumes = s.resumes := rfl
@[simp] theorem toStage_devBars (g : Stage) : (toStage s g).devBars = s.devBars := rfl
@[simp] theorem toStage_slaloms (g : Stage) : (toStage s g).slaloms = s.slaloms := rfl
@[simp] theorem toStage_sched (g : Stage) : (toStage s g).sched = s.sched := rfl
@[simp] theorem toStage_heats (g : Stage) : (toStage s g).heats = s.heats := rfl
@[simp] theorem toStage_cmds (g : Stage) : (toStage s g).cmds = s.cmds := rfl
@[simp] theorem toStage_handlers (g : Stage) : (toStage s g).handlers = s.handlers := rfl
@[simp] theorem toStage_stashes (g : Stage) : (toStage s g).stashes = s.stashes := rfl
@[simp] theorem toStage_atomics (g : Stage) : (toStage s g).atomics = s.atomics := rfl
@[simp] theorem toStage_replies (g : Stage) : (toStage s g).replies = s.replies := rfl
@[simp] theorem toStage_seqs (g : Stage) : (toStage s g).seqs = s.seqs := rfl
@[simp] theorem toStage_leases (g : Stage) : (toStage s g).leases = s.leases := rfl
@[simp] theorem toStage_agenda (g : Stage) : (toStage s g).agenda = s.agenda := rfl
@[simp] theorem toStage_cur (g : Stage) : (toStage s g).cur = s.cur := rfl
@[simp] theorem toStage_waited (g : Stage) : (toStage s g).waited = s.waited := rfl
@[simp] theorem toStage_performing (g : Stage) : (toStage s g).performing = s.performing := rfl
@[simp] theorem toStage_rr (g : Stage) : (toStage s g).rr = s.rr := rfl
@[simp] theorem toStage_freeCtr (g : Stage) : (toStage s g).freeCtr = s.freeCtr := rfl
@[simp] theorem toStage_nextId (g : Stage) : (toStage s g).nextId = s.nextId := rfl

@[simp] theorem logError_dev (d : Nat) (e : LogEntry) : (logError s d e).dev = s.dev := by simp only [logError, State.onCounters]
@[simp] theorem logError_mem (d : Nat) (e : LogEntry) : (logError s d e).mem = s.mem := by simp only [logError, State.onCounters]
@[simp] theorem logError_net (d : Nat) (e : LogEntry) : (logError s d e).net = s.net := by simp only [logError, State.onCounters]
@[simp] theorem logError_tlb (d : Nat) (e : LogEntry) : (logError s d e).tlb = s.tlb := by simp only [logError, State.onCounters]
@[simp] theorem logError_queues (d : Nat) (e : LogEntry) : (logError s d e).queues = s.queues := by simp only [logError, State.onCounters]
@[simp] theorem logError_packets (d : Nat) (e : LogEntry) : (logError s d e).packets = s.packets := by simp only [logError, State.onCounters]
@[simp] theorem logError_jobs (d : Nat) (e : LogEntry) : (logError s d e).jobs = s.jobs := by simp only [logError, State.onCounters]
@[simp] theorem logError_phases (d : Nat) (e : LogEntry) : (logError s d e).phases = s.phases := by simp only [logError, State.onCounters]
@[simp] theorem logError_graphs (d : Nat) (e : LogEntry) : (logError s d e).graphs = s.graphs := by simp only [logError, State.onCounters]
@[simp] theorem logError_launches (d : Nat) (e : LogEntry) : (logError s d e).launches = s.launches := by simp only [logError, State.onCounters]
@[simp] theorem logError_requests (d : Nat) (e : LogEntry) : (logError s d e).requests = s.requests := by simp only [logError, State.onCounters]
@[simp] theorem logError_resumes (d : Nat) (e : LogEntry) : (logError s d e).resumes = s.resumes := by simp only [logError, State.onCounters]
@[simp] theorem logError_devBars (d : Nat) (e : LogEntry) : (logError s d e).devBars = s.devBars := by simp only [logError, State.onCounters]
@[simp] theorem logError_slaloms (d : Nat) (e : LogEntry) : (logError s d e).slaloms = s.slaloms := by simp only [logError, State.onCounters]
@[simp] theorem logError_sched (d : Nat) (e : LogEntry) : (logError s d e).sched = s.sched := by simp only [logError, State.onCounters]
@[simp] theorem logError_heats (d : Nat) (e : LogEntry) : (logError s d e).heats = s.heats := by simp only [logError, State.onCounters]
@[simp] theorem logError_cmds (d : Nat) (e : LogEntry) : (logError s d e).cmds = s.cmds := by simp only [logError, State.onCounters]
@[simp] theorem logError_handlers (d : Nat) (e : LogEntry) : (logError s d e).handlers = s.handlers := by simp only [logError, State.onCounters]
@[simp] theorem logError_stashes (d : Nat) (e : LogEntry) : (logError s d e).stashes = s.stashes := by simp only [logError, State.onCounters]
@[simp] theorem logError_atomics (d : Nat) (e : LogEntry) : (logError s d e).atomics = s.atomics := by simp only [logError, State.onCounters]
@[simp] theorem logError_replies (d : Nat) (e : LogEntry) : (logError s d e).replies = s.replies := by simp only [logError, State.onCounters]
@[simp] theorem logError_seqs (d : Nat) (e : LogEntry) : (logError s d e).seqs = s.seqs := by simp only [logError, State.onCounters]
@[simp] theorem logError_leases (d : Nat) (e : LogEntry) : (logError s d e).leases = s.leases := by simp only [logError, State.onCounters]
@[simp] theorem logError_agenda (d : Nat) (e : LogEntry) : (logError s d e).agenda = s.agenda := by simp only [logError, State.onCounters]
@[simp] theorem logError_cur (d : Nat) (e : LogEntry) : (logError s d e).cur = s.cur := by simp only [logError, State.onCounters]
@[simp] theorem logError_waited (d : Nat) (e : LogEntry) : (logError s d e).waited = s.waited := by simp only [logError, State.onCounters]
@[simp] theorem logError_performing (d : Nat) (e : LogEntry) : (logError s d e).performing = s.performing := by simp only [logError, State.onCounters]
@[simp] theorem logError_rr (d : Nat) (e : LogEntry) : (logError s d e).rr = s.rr := by simp only [logError, State.onCounters]
@[simp] theorem logError_freeCtr (d : Nat) (e : LogEntry) : (logError s d e).freeCtr = s.freeCtr := by simp only [logError, State.onCounters]
@[simp] theorem logError_nextId (d : Nat) (e : LogEntry) : (logError s d e).nextId = s.nextId := by simp only [logError, State.onCounters]

@[simp] theorem breakSchedule_dev (j : Nat) : (breakSchedule s j).dev = s.dev := rfl
@[simp] theorem breakSchedule_lamom (j : Nat) : (breakSchedule s j).lamom = s.lamom := rfl
@[simp] theorem breakSchedule_mem (j : Nat) : (breakSchedule s j).mem = s.mem := rfl
@[simp] theorem breakSchedule_net (j : Nat) : (breakSchedule s j).net = s.net := rfl
@[simp] theorem breakSchedule_tlb (j : Nat) : (breakSchedule s j).tlb = s.tlb := rfl
@[simp] theorem breakSchedule_queues (j : Nat) : (breakSchedule s j).queues = s.queues := rfl
@[simp] theorem breakSchedule_packets (j : Nat) : (breakSchedule s j).packets = s.packets := rfl
@[simp] theorem breakSchedule_phases (j : Nat) : (breakSchedule s j).phases = s.phases := rfl
@[simp] theorem breakSchedule_graphs (j : Nat) : (breakSchedule s j).graphs = s.graphs := rfl
@[simp] theorem breakSchedule_requests (j : Nat) : (breakSchedule s j).requests = s.requests := rfl
@[simp] theorem breakSchedule_resumes (j : Nat) : (breakSchedule s j).resumes = s.resumes := rfl
@[simp] theorem breakSchedule_devBars (j : Nat) : (breakSchedule s j).devBars = s.devBars := rfl
@[simp] theorem breakSchedule_slaloms (j : Nat) : (breakSchedule s j).slaloms = s.slaloms := rfl
@[simp] theorem breakSchedule_cmds (j : Nat) : (breakSchedule s j).cmds = s.cmds := rfl
@[simp] theorem breakSchedule_handlers (j : Nat) : (breakSchedule s j).handlers = s.handlers := rfl
@[simp] theorem breakSchedule_stashes (j : Nat) : (breakSchedule s j).stashes = s.stashes := rfl
@[simp] theorem breakSchedule_atomics (j : Nat) : (breakSchedule s j).atomics = s.atomics := rfl
@[simp] theorem breakSchedule_replies (j : Nat) : (breakSchedule s j).replies = s.replies := rfl
@[simp] theorem breakSchedule_seqs (j : Nat) : (breakSchedule s j).seqs = s.seqs := rfl
@[simp] theorem breakSchedule_leases (j : Nat) : (breakSchedule s j).leases = s.leases := rfl
@[simp] theorem breakSchedule_agenda (j : Nat) : (breakSchedule s j).agenda = s.agenda := rfl
@[simp] theorem breakSchedule_cur (j : Nat) : (breakSchedule s j).cur = s.cur := rfl
@[simp] theorem breakSchedule_waited (j : Nat) : (breakSchedule s j).waited = s.waited := rfl
@[simp] theorem breakSchedule_performing (j : Nat) : (breakSchedule s j).performing = s.performing := rfl
@[simp] theorem breakSchedule_rr (j : Nat) : (breakSchedule s j).rr = s.rr := rfl
@[simp] theorem breakSchedule_freeCtr (j : Nat) : (breakSchedule s j).freeCtr = s.freeCtr := rfl
@[simp] theorem breakSchedule_nextId (j : Nat) : (breakSchedule s j).nextId = s.nextId := rfl

@[simp] theorem retireRecord_dev (u : Nat) : (retireRecord s u).dev = s.dev := rfl
@[simp] theorem retireRecord_lamom (u : Nat) : (retireRecord s u).lamom = s.lamom := rfl
@[simp] theorem retireRecord_mem (u : Nat) : (retireRecord s u).mem = s.mem := rfl
@[simp] theorem retireRecord_net (u : Nat) : (retireRecord s u).net = s.net := rfl
@[simp] theorem retireRecord_tlb (u : Nat) : (retireRecord s u).tlb = s.tlb := rfl
@[simp] theorem retireRecord_queues (u : Nat) : (retireRecord s u).queues = s.queues := rfl
@[simp] theorem retireRecord_packets (u : Nat) : (retireRecord s u).packets = s.packets := rfl
@[simp] theorem retireRecord_jobs (u : Nat) : (retireRecord s u).jobs = s.jobs := rfl
@[simp] theorem retireRecord_phases (u : Nat) : (retireRecord s u).phases = s.phases := rfl
@[simp] theorem retireRecord_graphs (u : Nat) : (retireRecord s u).graphs = s.graphs := rfl
@[simp] theorem retireRecord_launches (u : Nat) : (retireRecord s u).launches = s.launches := rfl
@[simp] theorem retireRecord_requests (u : Nat) : (retireRecord s u).requests = s.requests := rfl
@[simp] theorem retireRecord_resumes (u : Nat) : (retireRecord s u).resumes = s.resumes := rfl
@[simp] theorem retireRecord_devBars (u : Nat) : (retireRecord s u).devBars = s.devBars := rfl
@[simp] theorem retireRecord_slaloms (u : Nat) : (retireRecord s u).slaloms = s.slaloms := rfl
@[simp] theorem retireRecord_sched (u : Nat) : (retireRecord s u).sched = s.sched := rfl
@[simp] theorem retireRecord_cmds (u : Nat) : (retireRecord s u).cmds = s.cmds := rfl
@[simp] theorem retireRecord_handlers (u : Nat) : (retireRecord s u).handlers = s.handlers := rfl
@[simp] theorem retireRecord_stashes (u : Nat) : (retireRecord s u).stashes = s.stashes := rfl
@[simp] theorem retireRecord_atomics (u : Nat) : (retireRecord s u).atomics = s.atomics := rfl
@[simp] theorem retireRecord_replies (u : Nat) : (retireRecord s u).replies = s.replies := rfl
@[simp] theorem retireRecord_seqs (u : Nat) : (retireRecord s u).seqs = s.seqs := rfl
@[simp] theorem retireRecord_leases (u : Nat) : (retireRecord s u).leases = s.leases := rfl
@[simp] theorem retireRecord_agenda (u : Nat) : (retireRecord s u).agenda = s.agenda := rfl
@[simp] theorem retireRecord_cur (u : Nat) : (retireRecord s u).cur = s.cur := rfl
@[simp] theorem retireRecord_waited (u : Nat) : (retireRecord s u).waited = s.waited := rfl
@[simp] theorem retireRecord_performing (u : Nat) : (retireRecord s u).performing = s.performing := rfl
@[simp] theorem retireRecord_rr (u : Nat) : (retireRecord s u).rr = s.rr := rfl
@[simp] theorem retireRecord_freeCtr (u : Nat) : (retireRecord s u).freeCtr = s.freeCtr := rfl
@[simp] theorem retireRecord_nextId (u : Nat) : (retireRecord s u).nextId = s.nextId := rfl

@[simp] theorem noteReady_dev (u : Nat) (p : Seat) (r : Bool) (w : Option Wait) : (noteReady s u p r w).dev = s.dev := rfl
@[simp] theorem noteReady_lamom (u : Nat) (p : Seat) (r : Bool) (w : Option Wait) : (noteReady s u p r w).lamom = s.lamom := rfl
@[simp] theorem noteReady_mem (u : Nat) (p : Seat) (r : Bool) (w : Option Wait) : (noteReady s u p r w).mem = s.mem := rfl
@[simp] theorem noteReady_net (u : Nat) (p : Seat) (r : Bool) (w : Option Wait) : (noteReady s u p r w).net = s.net := rfl
@[simp] theorem noteReady_tlb (u : Nat) (p : Seat) (r : Bool) (w : Option Wait) : (noteReady s u p r w).tlb = s.tlb := rfl
@[simp] theorem noteReady_queues (u : Nat) (p : Seat) (r : Bool) (w : Option Wait) : (noteReady s u p r w).queues = s.queues := rfl
@[simp] theorem noteReady_packets (u : Nat) (p : Seat) (r : Bool) (w : Option Wait) : (noteReady s u p r w).packets = s.packets := rfl
@[simp] theorem noteReady_jobs (u : Nat) (p : Seat) (r : Bool) (w : Option Wait) : (noteReady s u p r w).jobs = s.jobs := rfl
@[simp] theorem noteReady_phases (u : Nat) (p : Seat) (r : Bool) (w : Option Wait) : (noteReady s u p r w).phases = s.phases := rfl
@[simp] theorem noteReady_graphs (u : Nat) (p : Seat) (r : Bool) (w : Option Wait) : (noteReady s u p r w).graphs = s.graphs := rfl
@[simp] theorem noteReady_launches (u : Nat) (p : Seat) (r : Bool) (w : Option Wait) : (noteReady s u p r w).launches = s.launches := rfl
@[simp] theorem noteReady_requests (u : Nat) (p : Seat) (r : Bool) (w : Option Wait) : (noteReady s u p r w).requests = s.requests := rfl
@[simp] theorem noteReady_resumes (u : Nat) (p : Seat) (r : Bool) (w : Option Wait) : (noteReady s u p r w).resumes = s.resumes := rfl
@[simp] theorem noteReady_devBars (u : Nat) (p : Seat) (r : Bool) (w : Option Wait) : (noteReady s u p r w).devBars = s.devBars := rfl
@[simp] theorem noteReady_slaloms (u : Nat) (p : Seat) (r : Bool) (w : Option Wait) : (noteReady s u p r w).slaloms = s.slaloms := rfl
@[simp] theorem noteReady_sched (u : Nat) (p : Seat) (r : Bool) (w : Option Wait) : (noteReady s u p r w).sched = s.sched := rfl
@[simp] theorem noteReady_cmds (u : Nat) (p : Seat) (r : Bool) (w : Option Wait) : (noteReady s u p r w).cmds = s.cmds := rfl
@[simp] theorem noteReady_handlers (u : Nat) (p : Seat) (r : Bool) (w : Option Wait) : (noteReady s u p r w).handlers = s.handlers := rfl
@[simp] theorem noteReady_stashes (u : Nat) (p : Seat) (r : Bool) (w : Option Wait) : (noteReady s u p r w).stashes = s.stashes := rfl
@[simp] theorem noteReady_atomics (u : Nat) (p : Seat) (r : Bool) (w : Option Wait) : (noteReady s u p r w).atomics = s.atomics := rfl
@[simp] theorem noteReady_replies (u : Nat) (p : Seat) (r : Bool) (w : Option Wait) : (noteReady s u p r w).replies = s.replies := rfl
@[simp] theorem noteReady_seqs (u : Nat) (p : Seat) (r : Bool) (w : Option Wait) : (noteReady s u p r w).seqs = s.seqs := rfl
@[simp] theorem noteReady_leases (u : Nat) (p : Seat) (r : Bool) (w : Option Wait) : (noteReady s u p r w).leases = s.leases := rfl
@[simp] theorem noteReady_agenda (u : Nat) (p : Seat) (r : Bool) (w : Option Wait) : (noteReady s u p r w).agenda = s.agenda := rfl
@[simp] theorem noteReady_cur (u : Nat) (p : Seat) (r : Bool) (w : Option Wait) : (noteReady s u p r w).cur = s.cur := rfl
@[simp] theorem noteReady_waited (u : Nat) (p : Seat) (r : Bool) (w : Option Wait) : (noteReady s u p r w).waited = s.waited := rfl
@[simp] theorem noteReady_performing (u : Nat) (p : Seat) (r : Bool) (w : Option Wait) : (noteReady s u p r w).performing = s.performing := rfl
@[simp] theorem noteReady_rr (u : Nat) (p : Seat) (r : Bool) (w : Option Wait) : (noteReady s u p r w).rr = s.rr := rfl
@[simp] theorem noteReady_freeCtr (u : Nat) (p : Seat) (r : Bool) (w : Option Wait) : (noteReady s u p r w).freeCtr = s.freeCtr := rfl
@[simp] theorem noteReady_nextId (u : Nat) (p : Seat) (r : Bool) (w : Option Wait) : (noteReady s u p r w).nextId = s.nextId := rfl

@[simp] theorem markAborted_dev (j g : Nat) : (markAborted s j g).dev = s.dev := rfl
@[simp] theorem markAborted_lamom (j g : Nat) : (markAborted s j g).lamom = s.lamom := rfl
@[simp] theorem markAborted_mem (j g : Nat) : (markAborted s j g).mem = s.mem := rfl
@[simp] theorem markAborted_net (j g : Nat) : (markAborted s j g).net = s.net := rfl
@[simp] theorem markAborted_tlb (j g : Nat) : (markAborted s j g).tlb = s.tlb := rfl
@[simp] theorem markAborted_queues (j g : Nat) : (markAborted s j g).queues = s.queues := rfl
@[simp] theorem markAborted_packets (j g : Nat) : (markAborted s j g).packets = s.packets := rfl
@[simp] theorem markAborted_phases (j g : Nat) : (markAborted s j g).phases = s.phases := rfl
@[simp] theorem markAborted_graphs (j g : Nat) : (markAborted s j g).graphs = s.graphs := rfl
@[simp] theorem markAborted_launches (j g : Nat) : (markAborted s j g).launches = s.launches := rfl
@[simp] theorem markAborted_requests (j g : Nat) : (markAborted s j g).requests = s.requests := rfl
@[simp] theorem markAborted_resumes (j g : Nat) : (markAborted s j g).resumes = s.resumes := rfl
@[simp] theorem markAborted_devBars (j g : Nat) : (markAborted s j g).devBars = s.devBars := rfl
@[simp] theorem markAborted_slaloms (j g : Nat) : (markAborted s j g).slaloms = s.slaloms := rfl
@[simp] theorem markAborted_sched (j g : Nat) : (markAborted s j g).sched = s.sched := rfl
@[simp] theorem markAborted_heats (j g : Nat) : (markAborted s j g).heats = s.heats := rfl
@[simp] theorem markAborted_cmds (j g : Nat) : (markAborted s j g).cmds = s.cmds := rfl
@[simp] theorem markAborted_handlers (j g : Nat) : (markAborted s j g).handlers = s.handlers := rfl
@[simp] theorem markAborted_stashes (j g : Nat) : (markAborted s j g).stashes = s.stashes := rfl
@[simp] theorem markAborted_atomics (j g : Nat) : (markAborted s j g).atomics = s.atomics := rfl
@[simp] theorem markAborted_replies (j g : Nat) : (markAborted s j g).replies = s.replies := rfl
@[simp] theorem markAborted_seqs (j g : Nat) : (markAborted s j g).seqs = s.seqs := rfl
@[simp] theorem markAborted_leases (j g : Nat) : (markAborted s j g).leases = s.leases := rfl
@[simp] theorem markAborted_agenda (j g : Nat) : (markAborted s j g).agenda = s.agenda := rfl
@[simp] theorem markAborted_cur (j g : Nat) : (markAborted s j g).cur = s.cur := rfl
@[simp] theorem markAborted_waited (j g : Nat) : (markAborted s j g).waited = s.waited := rfl
@[simp] theorem markAborted_performing (j g : Nat) : (markAborted s j g).performing = s.performing := rfl
@[simp] theorem markAborted_rr (j g : Nat) : (markAborted s j g).rr = s.rr := rfl
@[simp] theorem markAborted_freeCtr (j g : Nat) : (markAborted s j g).freeCtr = s.freeCtr := rfl
@[simp] theorem markAborted_nextId (j g : Nat) : (markAborted s j g).nextId = s.nextId := rfl

@[simp] theorem setAlign_lamom (a b : Dword) : (setAlign s a b).lamom = s.lamom := rfl
@[simp] theorem setAlign_mem (a b : Dword) : (setAlign s a b).mem = s.mem := rfl
@[simp] theorem setAlign_net (a b : Dword) : (setAlign s a b).net = s.net := rfl
@[simp] theorem setAlign_tlb (a b : Dword) : (setAlign s a b).tlb = s.tlb := rfl
@[simp] theorem setAlign_queues (a b : Dword) : (setAlign s a b).queues = s.queues := rfl
@[simp] theorem setAlign_packets (a b : Dword) : (setAlign s a b).packets = s.packets := rfl
@[simp] theorem setAlign_jobs (a b : Dword) : (setAlign s a b).jobs = s.jobs := rfl
@[simp] theorem setAlign_phases (a b : Dword) : (setAlign s a b).phases = s.phases := rfl
@[simp] theorem setAlign_graphs (a b : Dword) : (setAlign s a b).graphs = s.graphs := rfl
@[simp] theorem setAlign_launches (a b : Dword) : (setAlign s a b).launches = s.launches := rfl
@[simp] theorem setAlign_requests (a b : Dword) : (setAlign s a b).requests = s.requests := rfl
@[simp] theorem setAlign_resumes (a b : Dword) : (setAlign s a b).resumes = s.resumes := rfl
@[simp] theorem setAlign_devBars (a b : Dword) : (setAlign s a b).devBars = s.devBars := rfl
@[simp] theorem setAlign_slaloms (a b : Dword) : (setAlign s a b).slaloms = s.slaloms := rfl
@[simp] theorem setAlign_sched (a b : Dword) : (setAlign s a b).sched = s.sched := rfl
@[simp] theorem setAlign_heats (a b : Dword) : (setAlign s a b).heats = s.heats := rfl
@[simp] theorem setAlign_cmds (a b : Dword) : (setAlign s a b).cmds = s.cmds := rfl
@[simp] theorem setAlign_handlers (a b : Dword) : (setAlign s a b).handlers = s.handlers := rfl
@[simp] theorem setAlign_stashes (a b : Dword) : (setAlign s a b).stashes = s.stashes := rfl
@[simp] theorem setAlign_atomics (a b : Dword) : (setAlign s a b).atomics = s.atomics := rfl
@[simp] theorem setAlign_replies (a b : Dword) : (setAlign s a b).replies = s.replies := rfl
@[simp] theorem setAlign_seqs (a b : Dword) : (setAlign s a b).seqs = s.seqs := rfl
@[simp] theorem setAlign_leases (a b : Dword) : (setAlign s a b).leases = s.leases := rfl
@[simp] theorem setAlign_agenda (a b : Dword) : (setAlign s a b).agenda = s.agenda := rfl
@[simp] theorem setAlign_cur (a b : Dword) : (setAlign s a b).cur = s.cur := rfl
@[simp] theorem setAlign_waited (a b : Dword) : (setAlign s a b).waited = s.waited := rfl
@[simp] theorem setAlign_performing (a b : Dword) : (setAlign s a b).performing = s.performing := rfl
@[simp] theorem setAlign_rr (a b : Dword) : (setAlign s a b).rr = s.rr := rfl
@[simp] theorem setAlign_freeCtr (a b : Dword) : (setAlign s a b).freeCtr = s.freeCtr := rfl
@[simp] theorem setAlign_nextId (a b : Dword) : (setAlign s a b).nextId = s.nextId := rfl

@[simp] theorem request_dev (l : Launch) (r : Option Dword) (b : Bool) : (request s l r b).dev = s.dev := rfl
@[simp] theorem request_lamom (l : Launch) (r : Option Dword) (b : Bool) : (request s l r b).lamom = s.lamom := rfl
@[simp] theorem request_mem (l : Launch) (r : Option Dword) (b : Bool) : (request s l r b).mem = s.mem := rfl
@[simp] theorem request_net (l : Launch) (r : Option Dword) (b : Bool) : (request s l r b).net = s.net := rfl
@[simp] theorem request_tlb (l : Launch) (r : Option Dword) (b : Bool) : (request s l r b).tlb = s.tlb := rfl
@[simp] theorem request_queues (l : Launch) (r : Option Dword) (b : Bool) : (request s l r b).queues = s.queues := rfl
@[simp] theorem request_packets (l : Launch) (r : Option Dword) (b : Bool) : (request s l r b).packets = s.packets := rfl
@[simp] theorem request_jobs (l : Launch) (r : Option Dword) (b : Bool) : (request s l r b).jobs = s.jobs := rfl
@[simp] theorem request_phases (l : Launch) (r : Option Dword) (b : Bool) : (request s l r b).phases = s.phases := rfl
@[simp] theorem request_graphs (l : Launch) (r : Option Dword) (b : Bool) : (request s l r b).graphs = s.graphs := rfl
@[simp] theorem request_resumes (l : Launch) (r : Option Dword) (b : Bool) : (request s l r b).resumes = s.resumes := rfl
@[simp] theorem request_devBars (l : Launch) (r : Option Dword) (b : Bool) : (request s l r b).devBars = s.devBars := rfl
@[simp] theorem request_slaloms (l : Launch) (r : Option Dword) (b : Bool) : (request s l r b).slaloms = s.slaloms := rfl
@[simp] theorem request_sched (l : Launch) (r : Option Dword) (b : Bool) : (request s l r b).sched = s.sched := rfl
@[simp] theorem request_heats (l : Launch) (r : Option Dword) (b : Bool) : (request s l r b).heats = s.heats := rfl
@[simp] theorem request_cmds (l : Launch) (r : Option Dword) (b : Bool) : (request s l r b).cmds = s.cmds := rfl
@[simp] theorem request_handlers (l : Launch) (r : Option Dword) (b : Bool) : (request s l r b).handlers = s.handlers := rfl
@[simp] theorem request_stashes (l : Launch) (r : Option Dword) (b : Bool) : (request s l r b).stashes = s.stashes := rfl
@[simp] theorem request_atomics (l : Launch) (r : Option Dword) (b : Bool) : (request s l r b).atomics = s.atomics := rfl
@[simp] theorem request_replies (l : Launch) (r : Option Dword) (b : Bool) : (request s l r b).replies = s.replies := rfl
@[simp] theorem request_seqs (l : Launch) (r : Option Dword) (b : Bool) : (request s l r b).seqs = s.seqs := rfl
@[simp] theorem request_leases (l : Launch) (r : Option Dword) (b : Bool) : (request s l r b).leases = s.leases := rfl
@[simp] theorem request_agenda (l : Launch) (r : Option Dword) (b : Bool) : (request s l r b).agenda = s.agenda := rfl
@[simp] theorem request_cur (l : Launch) (r : Option Dword) (b : Bool) : (request s l r b).cur = s.cur := rfl
@[simp] theorem request_waited (l : Launch) (r : Option Dword) (b : Bool) : (request s l r b).waited = s.waited := rfl
@[simp] theorem request_performing (l : Launch) (r : Option Dword) (b : Bool) : (request s l r b).performing = s.performing := rfl
@[simp] theorem request_rr (l : Launch) (r : Option Dword) (b : Bool) : (request s l r b).rr = s.rr := rfl
@[simp] theorem request_freeCtr (l : Launch) (r : Option Dword) (b : Bool) : (request s l r b).freeCtr = s.freeCtr := rfl

end

/-! ## Updates of a heat -/

section
variable (h : Heat)


@[simp] theorem Heat.setB_id (n : BitVec 3) (v : TBit) : (h.setB n v).id = h.id := by unfold Heat.setB; split <;> rfl
@[simp] theorem Heat.setB_type (n : BitVec 3) (v : TBit) : (h.setB n v).type = h.type := by unfold Heat.setB; split <;> rfl
@[simp] theorem Heat.setB_core (n : BitVec 3) (v : TBit) : (h.setB n v).core = h.core := by unfold Heat.setB; split <;> rfl
@[simp] theorem Heat.setB_slot (n : BitVec 3) (v : TBit) : (h.setB n v).slot = h.slot := by unfold Heat.setB; split <;> rfl
@[simp] theorem Heat.setB_since (n : BitVec 3) (v : TBit) : (h.setB n v).since = h.since := by unfold Heat.setB; split <;> rfl
@[simp] theorem Heat.setB_spad (n : BitVec 3) (v : TBit) : (h.setB n v).spad = h.spad := by unfold Heat.setB; split <;> rfl
@[simp] theorem Heat.setB_asr (n : BitVec 3) (v : TBit) : (h.setB n v).asr = h.asr := by unfold Heat.setB; split <;> rfl
@[simp] theorem Heat.setB_status (n : BitVec 3) (v : TBit) : (h.setB n v).status = h.status := by unfold Heat.setB; split <;> rfl
@[simp] theorem Heat.setB_stop (n : BitVec 3) (v : TBit) : (h.setB n v).stop = h.stop := by unfold Heat.setB; split <;> rfl
@[simp] theorem Heat.setB_fault (n : BitVec 3) (v : TBit) : (h.setB n v).fault = h.fault := by unfold Heat.setB; split <;> rfl
@[simp] theorem Heat.setB_secondary (n : BitVec 3) (v : TBit) : (h.setB n v).secondary = h.secondary := by unfold Heat.setB; split <;> rfl
@[simp] theorem Heat.setB_C (n : BitVec 3) (v : TBit) : (h.setB n v).C = h.C := by unfold Heat.setB; split <;> rfl
@[simp] theorem Heat.setB_L (n : BitVec 3) (v : TBit) : (h.setB n v).L = h.L := by unfold Heat.setB; split <;> rfl
@[simp] theorem Heat.setB_X (n : BitVec 3) (v : TBit) : (h.setB n v).X = h.X := by unfold Heat.setB; split <;> rfl
@[simp] theorem Heat.setB_S (n : BitVec 3) (v : TBit) : (h.setB n v).S = h.S := by unfold Heat.setB; split <;> rfl
@[simp] theorem Heat.setB_pL (n : BitVec 3) (v : TBit) : (h.setB n v).pL = h.pL := by unfold Heat.setB; split <;> rfl
@[simp] theorem Heat.setB_pS (n : BitVec 3) (v : TBit) : (h.setB n v).pS = h.pS := by unfold Heat.setB; split <;> rfl
@[simp] theorem Heat.setB_x (n : BitVec 3) (v : TBit) : (h.setB n v).x = h.x := by unfold Heat.setB; split <;> rfl
@[simp] theorem Heat.setB_q (n : BitVec 3) (v : TBit) : (h.setB n v).q = h.q := by unfold Heat.setB; split <;> rfl
@[simp] theorem Heat.setB_g (n : BitVec 3) (v : TBit) : (h.setB n v).g = h.g := by unfold Heat.setB; split <;> rfl
@[simp] theorem Heat.setB_co (n : BitVec 3) (v : TBit) : (h.setB n v).co = h.co := by unfold Heat.setB; split <;> rfl
@[simp] theorem Heat.setB_coTT (n : BitVec 3) (v : TBit) : (h.setB n v).coTT = h.coTT := by unfold Heat.setB; split <;> rfl
@[simp] theorem Heat.setB_fifo (n : BitVec 3) (v : TBit) : (h.setB n v).fifo = h.fifo := by unfold Heat.setB; split <;> rfl
@[simp] theorem Heat.setB_hidden (n : BitVec 3) (v : TBit) : (h.setB n v).hidden = h.hidden := by unfold Heat.setB; split <;> rfl
@[simp] theorem Heat.setB_outcomes (n : BitVec 3) (v : TBit) : (h.setB n v).outcomes = h.outcomes := by unfold Heat.setB; split <;> rfl
@[simp] theorem Heat.setB_versC (n : BitVec 3) (v : TBit) : (h.setB n v).versC = h.versC := by unfold Heat.setB; split <;> rfl
@[simp] theorem Heat.setB_versX (n : BitVec 3) (v : TBit) : (h.setB n v).versX = h.versX := by unfold Heat.setB; split <;> rfl
@[simp] theorem Heat.setB_pend (n : BitVec 3) (v : TBit) : (h.setB n v).pend = h.pend := by unfold Heat.setB; split <;> rfl
@[simp] theorem Heat.setB_ctl (n : BitVec 3) (v : TBit) : (h.setB n v).ctl = h.ctl := by unfold Heat.setB; split <;> rfl
@[simp] theorem Heat.setB_hold (n : BitVec 3) (v : TBit) : (h.setB n v).hold = h.hold := by unfold Heat.setB; split <;> rfl
@[simp] theorem Heat.setB_invm (n : BitVec 3) (v : TBit) : (h.setB n v).invm = h.invm := by unfold Heat.setB; split <;> rfl
@[simp] theorem Heat.setB_marker (n : BitVec 3) (v : TBit) : (h.setB n v).marker = h.marker := by unfold Heat.setB; split <;> rfl
@[simp] theorem Heat.setB_bags (n : BitVec 3) (v : TBit) : (h.setB n v).bags = h.bags := by unfold Heat.setB; split <;> rfl
@[simp] theorem Heat.setB_blocks (n : BitVec 3) (v : TBit) : (h.setB n v).blocks = h.blocks := by unfold Heat.setB; split <;> rfl
@[simp] theorem Heat.setB_hnd (n : BitVec 3) (v : TBit) : (h.setB n v).hnd = h.hnd := by unfold Heat.setB; split <;> rfl
@[simp] theorem Heat.setB_claim (n : BitVec 3) (v : TBit) : (h.setB n v).claim = h.claim := by unfold Heat.setB; split <;> rfl
@[simp] theorem Heat.setB_susp (n : BitVec 3) (v : TBit) : (h.setB n v).susp = h.susp := by unfold Heat.setB; split <;> rfl
@[simp] theorem Heat.setB_cursor (n : BitVec 3) (v : TBit) : (h.setB n v).cursor = h.cursor := by unfold Heat.setB; split <;> rfl
@[simp] theorem Heat.setB_cmdCount (n : BitVec 3) (v : TBit) : (h.setB n v).cmdCount = h.cmdCount := by unfold Heat.setB; split <;> rfl
@[simp] theorem Heat.setB_haltPending (n : BitVec 3) (v : TBit) : (h.setB n v).haltPending = h.haltPending := by unfold Heat.setB; split <;> rfl
@[simp] theorem Heat.setB_firstStroke (n : BitVec 3) (v : TBit) : (h.setB n v).firstStroke = h.firstStroke := by unfold Heat.setB; split <;> rfl
@[simp] theorem Heat.setB_lastStroke (n : BitVec 3) (v : TBit) : (h.setB n v).lastStroke = h.lastStroke := by unfold Heat.setB; split <;> rfl
@[simp] theorem Heat.setB_spanOver (n : BitVec 3) (v : TBit) : (h.setB n v).spanOver = h.spanOver := by unfold Heat.setB; split <;> rfl
@[simp] theorem Heat.setB_resumers (n : BitVec 3) (v : TBit) : (h.setB n v).resumers = h.resumers := by unfold Heat.setB; split <;> rfl
@[simp] theorem Heat.setB_record (n : BitVec 3) (v : TBit) : (h.setB n v).record = h.record := by unfold Heat.setB; split <;> rfl
@[simp] theorem Heat.setB_trapDue (n : BitVec 3) (v : TBit) : (h.setB n v).trapDue = h.trapDue := by unfold Heat.setB; split <;> rfl
@[simp] theorem Heat.setB_freed (n : BitVec 3) (v : TBit) : (h.setB n v).freed = h.freed := by unfold Heat.setB; split <;> rfl
@[simp] theorem Heat.setB_traceDue (n : BitVec 3) (v : TBit) : (h.setB n v).traceDue = h.traceDue := by unfold Heat.setB; split <;> rfl
@[simp] theorem Heat.setB_overrun (n : BitVec 3) (v : TBit) : (h.setB n v).overrun = h.overrun := by unfold Heat.setB; split <;> rfl

@[simp] theorem Heat.setS_id (n : BitVec 6) (v : TVal) : (h.setS n v).id = h.id := by unfold Heat.setS; split <;> rfl
@[simp] theorem Heat.setS_type (n : BitVec 6) (v : TVal) : (h.setS n v).type = h.type := by unfold Heat.setS; split <;> rfl
@[simp] theorem Heat.setS_core (n : BitVec 6) (v : TVal) : (h.setS n v).core = h.core := by unfold Heat.setS; split <;> rfl
@[simp] theorem Heat.setS_slot (n : BitVec 6) (v : TVal) : (h.setS n v).slot = h.slot := by unfold Heat.setS; split <;> rfl
@[simp] theorem Heat.setS_since (n : BitVec 6) (v : TVal) : (h.setS n v).since = h.since := by unfold Heat.setS; split <;> rfl
@[simp] theorem Heat.setS_spad (n : BitVec 6) (v : TVal) : (h.setS n v).spad = h.spad := by unfold Heat.setS; split <;> rfl
@[simp] theorem Heat.setS_asr (n : BitVec 6) (v : TVal) : (h.setS n v).asr = h.asr := by unfold Heat.setS; split <;> rfl
@[simp] theorem Heat.setS_status (n : BitVec 6) (v : TVal) : (h.setS n v).status = h.status := by unfold Heat.setS; split <;> rfl
@[simp] theorem Heat.setS_stop (n : BitVec 6) (v : TVal) : (h.setS n v).stop = h.stop := by unfold Heat.setS; split <;> rfl
@[simp] theorem Heat.setS_fault (n : BitVec 6) (v : TVal) : (h.setS n v).fault = h.fault := by unfold Heat.setS; split <;> rfl
@[simp] theorem Heat.setS_secondary (n : BitVec 6) (v : TVal) : (h.setS n v).secondary = h.secondary := by unfold Heat.setS; split <;> rfl
@[simp] theorem Heat.setS_C (n : BitVec 6) (v : TVal) : (h.setS n v).C = h.C := by unfold Heat.setS; split <;> rfl
@[simp] theorem Heat.setS_L (n : BitVec 6) (v : TVal) : (h.setS n v).L = h.L := by unfold Heat.setS; split <;> rfl
@[simp] theorem Heat.setS_X (n : BitVec 6) (v : TVal) : (h.setS n v).X = h.X := by unfold Heat.setS; split <;> rfl
@[simp] theorem Heat.setS_S (n : BitVec 6) (v : TVal) : (h.setS n v).S = h.S := by unfold Heat.setS; split <;> rfl
@[simp] theorem Heat.setS_pL (n : BitVec 6) (v : TVal) : (h.setS n v).pL = h.pL := by unfold Heat.setS; split <;> rfl
@[simp] theorem Heat.setS_pS (n : BitVec 6) (v : TVal) : (h.setS n v).pS = h.pS := by unfold Heat.setS; split <;> rfl
@[simp] theorem Heat.setS_x (n : BitVec 6) (v : TVal) : (h.setS n v).x = h.x := by unfold Heat.setS; split <;> rfl
@[simp] theorem Heat.setS_q (n : BitVec 6) (v : TVal) : (h.setS n v).q = h.q := by unfold Heat.setS; split <;> rfl
@[simp] theorem Heat.setS_g (n : BitVec 6) (v : TVal) : (h.setS n v).g = h.g := by unfold Heat.setS; split <;> rfl
@[simp] theorem Heat.setS_co (n : BitVec 6) (v : TVal) : (h.setS n v).co = h.co := by unfold Heat.setS; split <;> rfl
@[simp] theorem Heat.setS_coTT (n : BitVec 6) (v : TVal) : (h.setS n v).coTT = h.coTT := by unfold Heat.setS; split <;> rfl
@[simp] theorem Heat.setS_fifo (n : BitVec 6) (v : TVal) : (h.setS n v).fifo = h.fifo := by unfold Heat.setS; split <;> rfl
@[simp] theorem Heat.setS_hidden (n : BitVec 6) (v : TVal) : (h.setS n v).hidden = h.hidden := by unfold Heat.setS; split <;> rfl
@[simp] theorem Heat.setS_outcomes (n : BitVec 6) (v : TVal) : (h.setS n v).outcomes = h.outcomes := by unfold Heat.setS; split <;> rfl
@[simp] theorem Heat.setS_versX (n : BitVec 6) (v : TVal) : (h.setS n v).versX = h.versX := by unfold Heat.setS; split <;> rfl
@[simp] theorem Heat.setS_pend (n : BitVec 6) (v : TVal) : (h.setS n v).pend = h.pend := by unfold Heat.setS; split <;> rfl
@[simp] theorem Heat.setS_ctl (n : BitVec 6) (v : TVal) : (h.setS n v).ctl = h.ctl := by unfold Heat.setS; split <;> rfl
@[simp] theorem Heat.setS_hold (n : BitVec 6) (v : TVal) : (h.setS n v).hold = h.hold := by unfold Heat.setS; split <;> rfl
@[simp] theorem Heat.setS_invm (n : BitVec 6) (v : TVal) : (h.setS n v).invm = h.invm := by unfold Heat.setS; split <;> rfl
@[simp] theorem Heat.setS_marker (n : BitVec 6) (v : TVal) : (h.setS n v).marker = h.marker := by unfold Heat.setS; split <;> rfl
@[simp] theorem Heat.setS_bags (n : BitVec 6) (v : TVal) : (h.setS n v).bags = h.bags := by unfold Heat.setS; split <;> rfl
@[simp] theorem Heat.setS_blocks (n : BitVec 6) (v : TVal) : (h.setS n v).blocks = h.blocks := by unfold Heat.setS; split <;> rfl
@[simp] theorem Heat.setS_hnd (n : BitVec 6) (v : TVal) : (h.setS n v).hnd = h.hnd := by unfold Heat.setS; split <;> rfl
@[simp] theorem Heat.setS_claim (n : BitVec 6) (v : TVal) : (h.setS n v).claim = h.claim := by unfold Heat.setS; split <;> rfl
@[simp] theorem Heat.setS_susp (n : BitVec 6) (v : TVal) : (h.setS n v).susp = h.susp := by unfold Heat.setS; split <;> rfl
@[simp] theorem Heat.setS_cursor (n : BitVec 6) (v : TVal) : (h.setS n v).cursor = h.cursor := by unfold Heat.setS; split <;> rfl
@[simp] theorem Heat.setS_cmdCount (n : BitVec 6) (v : TVal) : (h.setS n v).cmdCount = h.cmdCount := by unfold Heat.setS; split <;> rfl
@[simp] theorem Heat.setS_haltPending (n : BitVec 6) (v : TVal) : (h.setS n v).haltPending = h.haltPending := by unfold Heat.setS; split <;> rfl
@[simp] theorem Heat.setS_firstStroke (n : BitVec 6) (v : TVal) : (h.setS n v).firstStroke = h.firstStroke := by unfold Heat.setS; split <;> rfl
@[simp] theorem Heat.setS_lastStroke (n : BitVec 6) (v : TVal) : (h.setS n v).lastStroke = h.lastStroke := by unfold Heat.setS; split <;> rfl
@[simp] theorem Heat.setS_spanOver (n : BitVec 6) (v : TVal) : (h.setS n v).spanOver = h.spanOver := by unfold Heat.setS; split <;> rfl
@[simp] theorem Heat.setS_resumers (n : BitVec 6) (v : TVal) : (h.setS n v).resumers = h.resumers := by unfold Heat.setS; split <;> rfl
@[simp] theorem Heat.setS_record (n : BitVec 6) (v : TVal) : (h.setS n v).record = h.record := by unfold Heat.setS; split <;> rfl
@[simp] theorem Heat.setS_trapDue (n : BitVec 6) (v : TVal) : (h.setS n v).trapDue = h.trapDue := by unfold Heat.setS; split <;> rfl
@[simp] theorem Heat.setS_freed (n : BitVec 6) (v : TVal) : (h.setS n v).freed = h.freed := by unfold Heat.setS; split <;> rfl
@[simp] theorem Heat.setS_traceDue (n : BitVec 6) (v : TVal) : (h.setS n v).traceDue = h.traceDue := by unfold Heat.setS; split <;> rfl
@[simp] theorem Heat.setS_overrun (n : BitVec 6) (v : TVal) : (h.setS n v).overrun = h.overrun := by unfold Heat.setS; split <;> rfl

@[simp] theorem Heat.setK_id (n : BitVec 3) (v : TVal) : (h.setK n v).id = h.id := by unfold Heat.setK; split <;> rfl
@[simp] theorem Heat.setK_type (n : BitVec 3) (v : TVal) : (h.setK n v).type = h.type := by unfold Heat.setK; split <;> rfl
@[simp] theorem Heat.setK_core (n : BitVec 3) (v : TVal) : (h.setK n v).core = h.core := by unfold Heat.setK; split <;> rfl
@[simp] theorem Heat.setK_slot (n : BitVec 3) (v : TVal) : (h.setK n v).slot = h.slot := by unfold Heat.setK; split <;> rfl
@[simp] theorem Heat.setK_since (n : BitVec 3) (v : TVal) : (h.setK n v).since = h.since := by unfold Heat.setK; split <;> rfl
@[simp] theorem Heat.setK_spad (n : BitVec 3) (v : TVal) : (h.setK n v).spad = h.spad := by unfold Heat.setK; split <;> rfl
@[simp] theorem Heat.setK_asr (n : BitVec 3) (v : TVal) : (h.setK n v).asr = h.asr := by unfold Heat.setK; split <;> rfl
@[simp] theorem Heat.setK_status (n : BitVec 3) (v : TVal) : (h.setK n v).status = h.status := by unfold Heat.setK; split <;> rfl
@[simp] theorem Heat.setK_stop (n : BitVec 3) (v : TVal) : (h.setK n v).stop = h.stop := by unfold Heat.setK; split <;> rfl
@[simp] theorem Heat.setK_fault (n : BitVec 3) (v : TVal) : (h.setK n v).fault = h.fault := by unfold Heat.setK; split <;> rfl
@[simp] theorem Heat.setK_secondary (n : BitVec 3) (v : TVal) : (h.setK n v).secondary = h.secondary := by unfold Heat.setK; split <;> rfl
@[simp] theorem Heat.setK_C (n : BitVec 3) (v : TVal) : (h.setK n v).C = h.C := by unfold Heat.setK; split <;> rfl
@[simp] theorem Heat.setK_L (n : BitVec 3) (v : TVal) : (h.setK n v).L = h.L := by unfold Heat.setK; split <;> rfl
@[simp] theorem Heat.setK_X (n : BitVec 3) (v : TVal) : (h.setK n v).X = h.X := by unfold Heat.setK; split <;> rfl
@[simp] theorem Heat.setK_S (n : BitVec 3) (v : TVal) : (h.setK n v).S = h.S := by unfold Heat.setK; split <;> rfl
@[simp] theorem Heat.setK_c (n : BitVec 3) (v : TVal) : (h.setK n v).c = h.c := by unfold Heat.setK; split <;> rfl
@[simp] theorem Heat.setK_pL (n : BitVec 3) (v : TVal) : (h.setK n v).pL = h.pL := by unfold Heat.setK; split <;> rfl
@[simp] theorem Heat.setK_pS (n : BitVec 3) (v : TVal) : (h.setK n v).pS = h.pS := by unfold Heat.setK; split <;> rfl
@[simp] theorem Heat.setK_q (n : BitVec 3) (v : TVal) : (h.setK n v).q = h.q := by unfold Heat.setK; split <;> rfl
@[simp] theorem Heat.setK_g (n : BitVec 3) (v : TVal) : (h.setK n v).g = h.g := by unfold Heat.setK; split <;> rfl
@[simp] theorem Heat.setK_co (n : BitVec 3) (v : TVal) : (h.setK n v).co = h.co := by unfold Heat.setK; split <;> rfl
@[simp] theorem Heat.setK_coTT (n : BitVec 3) (v : TVal) : (h.setK n v).coTT = h.coTT := by unfold Heat.setK; split <;> rfl
@[simp] theorem Heat.setK_fifo (n : BitVec 3) (v : TVal) : (h.setK n v).fifo = h.fifo := by unfold Heat.setK; split <;> rfl
@[simp] theorem Heat.setK_hidden (n : BitVec 3) (v : TVal) : (h.setK n v).hidden = h.hidden := by unfold Heat.setK; split <;> rfl
@[simp] theorem Heat.setK_outcomes (n : BitVec 3) (v : TVal) : (h.setK n v).outcomes = h.outcomes := by unfold Heat.setK; split <;> rfl
@[simp] theorem Heat.setK_versC (n : BitVec 3) (v : TVal) : (h.setK n v).versC = h.versC := by unfold Heat.setK; split <;> rfl
@[simp] theorem Heat.setK_pend (n : BitVec 3) (v : TVal) : (h.setK n v).pend = h.pend := by unfold Heat.setK; split <;> rfl
@[simp] theorem Heat.setK_ctl (n : BitVec 3) (v : TVal) : (h.setK n v).ctl = h.ctl := by unfold Heat.setK; split <;> rfl
@[simp] theorem Heat.setK_hold (n : BitVec 3) (v : TVal) : (h.setK n v).hold = h.hold := by unfold Heat.setK; split <;> rfl
@[simp] theorem Heat.setK_invm (n : BitVec 3) (v : TVal) : (h.setK n v).invm = h.invm := by unfold Heat.setK; split <;> rfl
@[simp] theorem Heat.setK_marker (n : BitVec 3) (v : TVal) : (h.setK n v).marker = h.marker := by unfold Heat.setK; split <;> rfl
@[simp] theorem Heat.setK_bags (n : BitVec 3) (v : TVal) : (h.setK n v).bags = h.bags := by unfold Heat.setK; split <;> rfl
@[simp] theorem Heat.setK_blocks (n : BitVec 3) (v : TVal) : (h.setK n v).blocks = h.blocks := by unfold Heat.setK; split <;> rfl
@[simp] theorem Heat.setK_hnd (n : BitVec 3) (v : TVal) : (h.setK n v).hnd = h.hnd := by unfold Heat.setK; split <;> rfl
@[simp] theorem Heat.setK_claim (n : BitVec 3) (v : TVal) : (h.setK n v).claim = h.claim := by unfold Heat.setK; split <;> rfl
@[simp] theorem Heat.setK_susp (n : BitVec 3) (v : TVal) : (h.setK n v).susp = h.susp := by unfold Heat.setK; split <;> rfl
@[simp] theorem Heat.setK_cursor (n : BitVec 3) (v : TVal) : (h.setK n v).cursor = h.cursor := by unfold Heat.setK; split <;> rfl
@[simp] theorem Heat.setK_cmdCount (n : BitVec 3) (v : TVal) : (h.setK n v).cmdCount = h.cmdCount := by unfold Heat.setK; split <;> rfl
@[simp] theorem Heat.setK_haltPending (n : BitVec 3) (v : TVal) : (h.setK n v).haltPending = h.haltPending := by unfold Heat.setK; split <;> rfl
@[simp] theorem Heat.setK_firstStroke (n : BitVec 3) (v : TVal) : (h.setK n v).firstStroke = h.firstStroke := by unfold Heat.setK; split <;> rfl
@[simp] theorem Heat.setK_lastStroke (n : BitVec 3) (v : TVal) : (h.setK n v).lastStroke = h.lastStroke := by unfold Heat.setK; split <;> rfl
@[simp] theorem Heat.setK_spanOver (n : BitVec 3) (v : TVal) : (h.setK n v).spanOver = h.spanOver := by unfold Heat.setK; split <;> rfl
@[simp] theorem Heat.setK_resumers (n : BitVec 3) (v : TVal) : (h.setK n v).resumers = h.resumers := by unfold Heat.setK; split <;> rfl
@[simp] theorem Heat.setK_record (n : BitVec 3) (v : TVal) : (h.setK n v).record = h.record := by unfold Heat.setK; split <;> rfl
@[simp] theorem Heat.setK_trapDue (n : BitVec 3) (v : TVal) : (h.setK n v).trapDue = h.trapDue := by unfold Heat.setK; split <;> rfl
@[simp] theorem Heat.setK_freed (n : BitVec 3) (v : TVal) : (h.setK n v).freed = h.freed := by unfold Heat.setK; split <;> rfl
@[simp] theorem Heat.setK_traceDue (n : BitVec 3) (v : TVal) : (h.setK n v).traceDue = h.traceDue := by unfold Heat.setK; split <;> rfl
@[simp] theorem Heat.setK_overrun (n : BitVec 3) (v : TVal) : (h.setK n v).overrun = h.overrun := by unfold Heat.setK; split <;> rfl

@[simp] theorem Heat.setP_id (p : Seat) (n : BitVec 4) (v : TVal) : (h.setP p n v).id = h.id := by unfold Heat.setP; split <;> rfl
@[simp] theorem Heat.setP_type (p : Seat) (n : BitVec 4) (v : TVal) : (h.setP p n v).type = h.type := by unfold Heat.setP; split <;> rfl
@[simp] theorem Heat.setP_core (p : Seat) (n : BitVec 4) (v : TVal) : (h.setP p n v).core = h.core := by unfold Heat.setP; split <;> rfl
@[simp] theorem Heat.setP_slot (p : Seat) (n : BitVec 4) (v : TVal) : (h.setP p n v).slot = h.slot := by unfold Heat.setP; split <;> rfl
@[simp] theorem Heat.setP_since (p : Seat) (n : BitVec 4) (v : TVal) : (h.setP p n v).since = h.since := by unfold Heat.setP; split <;> rfl
@[simp] theorem Heat.setP_spad (p : Seat) (n : BitVec 4) (v : TVal) : (h.setP p n v).spad = h.spad := by unfold Heat.setP; split <;> rfl
@[simp] theorem Heat.setP_asr (p : Seat) (n : BitVec 4) (v : TVal) : (h.setP p n v).asr = h.asr := by unfold Heat.setP; split <;> rfl
@[simp] theorem Heat.setP_status (p : Seat) (n : BitVec 4) (v : TVal) : (h.setP p n v).status = h.status := by unfold Heat.setP; split <;> rfl
@[simp] theorem Heat.setP_stop (p : Seat) (n : BitVec 4) (v : TVal) : (h.setP p n v).stop = h.stop := by unfold Heat.setP; split <;> rfl
@[simp] theorem Heat.setP_fault (p : Seat) (n : BitVec 4) (v : TVal) : (h.setP p n v).fault = h.fault := by unfold Heat.setP; split <;> rfl
@[simp] theorem Heat.setP_secondary (p : Seat) (n : BitVec 4) (v : TVal) : (h.setP p n v).secondary = h.secondary := by unfold Heat.setP; split <;> rfl
@[simp] theorem Heat.setP_C (p : Seat) (n : BitVec 4) (v : TVal) : (h.setP p n v).C = h.C := by unfold Heat.setP; split <;> rfl
@[simp] theorem Heat.setP_L (p : Seat) (n : BitVec 4) (v : TVal) : (h.setP p n v).L = h.L := by unfold Heat.setP; split <;> rfl
@[simp] theorem Heat.setP_X (p : Seat) (n : BitVec 4) (v : TVal) : (h.setP p n v).X = h.X := by unfold Heat.setP; split <;> rfl
@[simp] theorem Heat.setP_S (p : Seat) (n : BitVec 4) (v : TVal) : (h.setP p n v).S = h.S := by unfold Heat.setP; split <;> rfl
@[simp] theorem Heat.setP_c (p : Seat) (n : BitVec 4) (v : TVal) : (h.setP p n v).c = h.c := by unfold Heat.setP; split <;> rfl
@[simp] theorem Heat.setP_x (p : Seat) (n : BitVec 4) (v : TVal) : (h.setP p n v).x = h.x := by unfold Heat.setP; split <;> rfl
@[simp] theorem Heat.setP_q (p : Seat) (n : BitVec 4) (v : TVal) : (h.setP p n v).q = h.q := by unfold Heat.setP; split <;> rfl
@[simp] theorem Heat.setP_g (p : Seat) (n : BitVec 4) (v : TVal) : (h.setP p n v).g = h.g := by unfold Heat.setP; split <;> rfl
@[simp] theorem Heat.setP_co (p : Seat) (n : BitVec 4) (v : TVal) : (h.setP p n v).co = h.co := by unfold Heat.setP; split <;> rfl
@[simp] theorem Heat.setP_coTT (p : Seat) (n : BitVec 4) (v : TVal) : (h.setP p n v).coTT = h.coTT := by unfold Heat.setP; split <;> rfl
@[simp] theorem Heat.setP_fifo (p : Seat) (n : BitVec 4) (v : TVal) : (h.setP p n v).fifo = h.fifo := by unfold Heat.setP; split <;> rfl
@[simp] theorem Heat.setP_hidden (p : Seat) (n : BitVec 4) (v : TVal) : (h.setP p n v).hidden = h.hidden := by unfold Heat.setP; split <;> rfl
@[simp] theorem Heat.setP_outcomes (p : Seat) (n : BitVec 4) (v : TVal) : (h.setP p n v).outcomes = h.outcomes := by unfold Heat.setP; split <;> rfl
@[simp] theorem Heat.setP_versC (p : Seat) (n : BitVec 4) (v : TVal) : (h.setP p n v).versC = h.versC := by unfold Heat.setP; split <;> rfl
@[simp] theorem Heat.setP_versX (p : Seat) (n : BitVec 4) (v : TVal) : (h.setP p n v).versX = h.versX := by unfold Heat.setP; split <;> rfl
@[simp] theorem Heat.setP_pend (p : Seat) (n : BitVec 4) (v : TVal) : (h.setP p n v).pend = h.pend := by unfold Heat.setP; split <;> rfl
@[simp] theorem Heat.setP_ctl (p : Seat) (n : BitVec 4) (v : TVal) : (h.setP p n v).ctl = h.ctl := by unfold Heat.setP; split <;> rfl
@[simp] theorem Heat.setP_hold (p : Seat) (n : BitVec 4) (v : TVal) : (h.setP p n v).hold = h.hold := by unfold Heat.setP; split <;> rfl
@[simp] theorem Heat.setP_invm (p : Seat) (n : BitVec 4) (v : TVal) : (h.setP p n v).invm = h.invm := by unfold Heat.setP; split <;> rfl
@[simp] theorem Heat.setP_marker (p : Seat) (n : BitVec 4) (v : TVal) : (h.setP p n v).marker = h.marker := by unfold Heat.setP; split <;> rfl
@[simp] theorem Heat.setP_bags (p : Seat) (n : BitVec 4) (v : TVal) : (h.setP p n v).bags = h.bags := by unfold Heat.setP; split <;> rfl
@[simp] theorem Heat.setP_blocks (p : Seat) (n : BitVec 4) (v : TVal) : (h.setP p n v).blocks = h.blocks := by unfold Heat.setP; split <;> rfl
@[simp] theorem Heat.setP_hnd (p : Seat) (n : BitVec 4) (v : TVal) : (h.setP p n v).hnd = h.hnd := by unfold Heat.setP; split <;> rfl
@[simp] theorem Heat.setP_claim (p : Seat) (n : BitVec 4) (v : TVal) : (h.setP p n v).claim = h.claim := by unfold Heat.setP; split <;> rfl
@[simp] theorem Heat.setP_susp (p : Seat) (n : BitVec 4) (v : TVal) : (h.setP p n v).susp = h.susp := by unfold Heat.setP; split <;> rfl
@[simp] theorem Heat.setP_cursor (p : Seat) (n : BitVec 4) (v : TVal) : (h.setP p n v).cursor = h.cursor := by unfold Heat.setP; split <;> rfl
@[simp] theorem Heat.setP_cmdCount (p : Seat) (n : BitVec 4) (v : TVal) : (h.setP p n v).cmdCount = h.cmdCount := by unfold Heat.setP; split <;> rfl
@[simp] theorem Heat.setP_haltPending (p : Seat) (n : BitVec 4) (v : TVal) : (h.setP p n v).haltPending = h.haltPending := by unfold Heat.setP; split <;> rfl
@[simp] theorem Heat.setP_firstStroke (p : Seat) (n : BitVec 4) (v : TVal) : (h.setP p n v).firstStroke = h.firstStroke := by unfold Heat.setP; split <;> rfl
@[simp] theorem Heat.setP_lastStroke (p : Seat) (n : BitVec 4) (v : TVal) : (h.setP p n v).lastStroke = h.lastStroke := by unfold Heat.setP; split <;> rfl
@[simp] theorem Heat.setP_spanOver (p : Seat) (n : BitVec 4) (v : TVal) : (h.setP p n v).spanOver = h.spanOver := by unfold Heat.setP; split <;> rfl
@[simp] theorem Heat.setP_resumers (p : Seat) (n : BitVec 4) (v : TVal) : (h.setP p n v).resumers = h.resumers := by unfold Heat.setP; split <;> rfl
@[simp] theorem Heat.setP_record (p : Seat) (n : BitVec 4) (v : TVal) : (h.setP p n v).record = h.record := by unfold Heat.setP; split <;> rfl
@[simp] theorem Heat.setP_trapDue (p : Seat) (n : BitVec 4) (v : TVal) : (h.setP p n v).trapDue = h.trapDue := by unfold Heat.setP; split <;> rfl
@[simp] theorem Heat.setP_freed (p : Seat) (n : BitVec 4) (v : TVal) : (h.setP p n v).freed = h.freed := by unfold Heat.setP; split <;> rfl
@[simp] theorem Heat.setP_traceDue (p : Seat) (n : BitVec 4) (v : TVal) : (h.setP p n v).traceDue = h.traceDue := by unfold Heat.setP; split <;> rfl
@[simp] theorem Heat.setP_overrun (p : Seat) (n : BitVec 4) (v : TVal) : (h.setP p n v).overrun = h.overrun := by unfold Heat.setP; split <;> rfl

@[simp] theorem Heat.setSeat_id (p : Seat) (v : SeatState) : (h.setSeat p v).id = h.id := by cases p <;> rfl
@[simp] theorem Heat.setSeat_type (p : Seat) (v : SeatState) : (h.setSeat p v).type = h.type := by cases p <;> rfl
@[simp] theorem Heat.setSeat_core (p : Seat) (v : SeatState) : (h.setSeat p v).core = h.core := by cases p <;> rfl
@[simp] theorem Heat.setSeat_slot (p : Seat) (v : SeatState) : (h.setSeat p v).slot = h.slot := by cases p <;> rfl
@[simp] theorem Heat.setSeat_since (p : Seat) (v : SeatState) : (h.setSeat p v).since = h.since := by cases p <;> rfl
@[simp] theorem Heat.setSeat_spad (p : Seat) (v : SeatState) : (h.setSeat p v).spad = h.spad := by cases p <;> rfl
@[simp] theorem Heat.setSeat_asr (p : Seat) (v : SeatState) : (h.setSeat p v).asr = h.asr := by cases p <;> rfl
@[simp] theorem Heat.setSeat_status (p : Seat) (v : SeatState) : (h.setSeat p v).status = h.status := by cases p <;> rfl
@[simp] theorem Heat.setSeat_stop (p : Seat) (v : SeatState) : (h.setSeat p v).stop = h.stop := by cases p <;> rfl
@[simp] theorem Heat.setSeat_fault (p : Seat) (v : SeatState) : (h.setSeat p v).fault = h.fault := by cases p <;> rfl
@[simp] theorem Heat.setSeat_secondary (p : Seat) (v : SeatState) : (h.setSeat p v).secondary = h.secondary := by cases p <;> rfl
@[simp] theorem Heat.setSeat_c (p : Seat) (v : SeatState) : (h.setSeat p v).c = h.c := by cases p <;> rfl
@[simp] theorem Heat.setSeat_pL (p : Seat) (v : SeatState) : (h.setSeat p v).pL = h.pL := by cases p <;> rfl
@[simp] theorem Heat.setSeat_pS (p : Seat) (v : SeatState) : (h.setSeat p v).pS = h.pS := by cases p <;> rfl
@[simp] theorem Heat.setSeat_x (p : Seat) (v : SeatState) : (h.setSeat p v).x = h.x := by cases p <;> rfl
@[simp] theorem Heat.setSeat_q (p : Seat) (v : SeatState) : (h.setSeat p v).q = h.q := by cases p <;> rfl
@[simp] theorem Heat.setSeat_g (p : Seat) (v : SeatState) : (h.setSeat p v).g = h.g := by cases p <;> rfl
@[simp] theorem Heat.setSeat_co (p : Seat) (v : SeatState) : (h.setSeat p v).co = h.co := by cases p <;> rfl
@[simp] theorem Heat.setSeat_coTT (p : Seat) (v : SeatState) : (h.setSeat p v).coTT = h.coTT := by cases p <;> rfl
@[simp] theorem Heat.setSeat_fifo (p : Seat) (v : SeatState) : (h.setSeat p v).fifo = h.fifo := by cases p <;> rfl
@[simp] theorem Heat.setSeat_hidden (p : Seat) (v : SeatState) : (h.setSeat p v).hidden = h.hidden := by cases p <;> rfl
@[simp] theorem Heat.setSeat_outcomes (p : Seat) (v : SeatState) : (h.setSeat p v).outcomes = h.outcomes := by cases p <;> rfl
@[simp] theorem Heat.setSeat_versC (p : Seat) (v : SeatState) : (h.setSeat p v).versC = h.versC := by cases p <;> rfl
@[simp] theorem Heat.setSeat_versX (p : Seat) (v : SeatState) : (h.setSeat p v).versX = h.versX := by cases p <;> rfl
@[simp] theorem Heat.setSeat_pend (p : Seat) (v : SeatState) : (h.setSeat p v).pend = h.pend := by cases p <;> rfl
@[simp] theorem Heat.setSeat_ctl (p : Seat) (v : SeatState) : (h.setSeat p v).ctl = h.ctl := by cases p <;> rfl
@[simp] theorem Heat.setSeat_hold (p : Seat) (v : SeatState) : (h.setSeat p v).hold = h.hold := by cases p <;> rfl
@[simp] theorem Heat.setSeat_invm (p : Seat) (v : SeatState) : (h.setSeat p v).invm = h.invm := by cases p <;> rfl
@[simp] theorem Heat.setSeat_marker (p : Seat) (v : SeatState) : (h.setSeat p v).marker = h.marker := by cases p <;> rfl
@[simp] theorem Heat.setSeat_bags (p : Seat) (v : SeatState) : (h.setSeat p v).bags = h.bags := by cases p <;> rfl
@[simp] theorem Heat.setSeat_blocks (p : Seat) (v : SeatState) : (h.setSeat p v).blocks = h.blocks := by cases p <;> rfl
@[simp] theorem Heat.setSeat_hnd (p : Seat) (v : SeatState) : (h.setSeat p v).hnd = h.hnd := by cases p <;> rfl
@[simp] theorem Heat.setSeat_claim (p : Seat) (v : SeatState) : (h.setSeat p v).claim = h.claim := by cases p <;> rfl
@[simp] theorem Heat.setSeat_susp (p : Seat) (v : SeatState) : (h.setSeat p v).susp = h.susp := by cases p <;> rfl
@[simp] theorem Heat.setSeat_cursor (p : Seat) (v : SeatState) : (h.setSeat p v).cursor = h.cursor := by cases p <;> rfl
@[simp] theorem Heat.setSeat_cmdCount (p : Seat) (v : SeatState) : (h.setSeat p v).cmdCount = h.cmdCount := by cases p <;> rfl
@[simp] theorem Heat.setSeat_haltPending (p : Seat) (v : SeatState) : (h.setSeat p v).haltPending = h.haltPending := by cases p <;> rfl
@[simp] theorem Heat.setSeat_firstStroke (p : Seat) (v : SeatState) : (h.setSeat p v).firstStroke = h.firstStroke := by cases p <;> rfl
@[simp] theorem Heat.setSeat_lastStroke (p : Seat) (v : SeatState) : (h.setSeat p v).lastStroke = h.lastStroke := by cases p <;> rfl
@[simp] theorem Heat.setSeat_spanOver (p : Seat) (v : SeatState) : (h.setSeat p v).spanOver = h.spanOver := by cases p <;> rfl
@[simp] theorem Heat.setSeat_resumers (p : Seat) (v : SeatState) : (h.setSeat p v).resumers = h.resumers := by cases p <;> rfl
@[simp] theorem Heat.setSeat_record (p : Seat) (v : SeatState) : (h.setSeat p v).record = h.record := by cases p <;> rfl
@[simp] theorem Heat.setSeat_trapDue (p : Seat) (v : SeatState) : (h.setSeat p v).trapDue = h.trapDue := by cases p <;> rfl
@[simp] theorem Heat.setSeat_freed (p : Seat) (v : SeatState) : (h.setSeat p v).freed = h.freed := by cases p <;> rfl
@[simp] theorem Heat.setSeat_traceDue (p : Seat) (v : SeatState) : (h.setSeat p v).traceDue = h.traceDue := by cases p <;> rfl
@[simp] theorem Heat.setSeat_overrun (p : Seat) (v : SeatState) : (h.setSeat p v).overrun = h.overrun := by cases p <;> rfl

@[simp] theorem Heat.onSeat_id (p : Seat) (f : SeatState → SeatState) : (h.onSeat p f).id = h.id := by cases p <;> rfl
@[simp] theorem Heat.onSeat_type (p : Seat) (f : SeatState → SeatState) : (h.onSeat p f).type = h.type := by cases p <;> rfl
@[simp] theorem Heat.onSeat_core (p : Seat) (f : SeatState → SeatState) : (h.onSeat p f).core = h.core := by cases p <;> rfl
@[simp] theorem Heat.onSeat_slot (p : Seat) (f : SeatState → SeatState) : (h.onSeat p f).slot = h.slot := by cases p <;> rfl
@[simp] theorem Heat.onSeat_since (p : Seat) (f : SeatState → SeatState) : (h.onSeat p f).since = h.since := by cases p <;> rfl
@[simp] theorem Heat.onSeat_spad (p : Seat) (f : SeatState → SeatState) : (h.onSeat p f).spad = h.spad := by cases p <;> rfl
@[simp] theorem Heat.onSeat_asr (p : Seat) (f : SeatState → SeatState) : (h.onSeat p f).asr = h.asr := by cases p <;> rfl
@[simp] theorem Heat.onSeat_status (p : Seat) (f : SeatState → SeatState) : (h.onSeat p f).status = h.status := by cases p <;> rfl
@[simp] theorem Heat.onSeat_stop (p : Seat) (f : SeatState → SeatState) : (h.onSeat p f).stop = h.stop := by cases p <;> rfl
@[simp] theorem Heat.onSeat_fault (p : Seat) (f : SeatState → SeatState) : (h.onSeat p f).fault = h.fault := by cases p <;> rfl
@[simp] theorem Heat.onSeat_secondary (p : Seat) (f : SeatState → SeatState) : (h.onSeat p f).secondary = h.secondary := by cases p <;> rfl
@[simp] theorem Heat.onSeat_c (p : Seat) (f : SeatState → SeatState) : (h.onSeat p f).c = h.c := by cases p <;> rfl
@[simp] theorem Heat.onSeat_pL (p : Seat) (f : SeatState → SeatState) : (h.onSeat p f).pL = h.pL := by cases p <;> rfl
@[simp] theorem Heat.onSeat_pS (p : Seat) (f : SeatState → SeatState) : (h.onSeat p f).pS = h.pS := by cases p <;> rfl
@[simp] theorem Heat.onSeat_x (p : Seat) (f : SeatState → SeatState) : (h.onSeat p f).x = h.x := by cases p <;> rfl
@[simp] theorem Heat.onSeat_q (p : Seat) (f : SeatState → SeatState) : (h.onSeat p f).q = h.q := by cases p <;> rfl
@[simp] theorem Heat.onSeat_g (p : Seat) (f : SeatState → SeatState) : (h.onSeat p f).g = h.g := by cases p <;> rfl
@[simp] theorem Heat.onSeat_co (p : Seat) (f : SeatState → SeatState) : (h.onSeat p f).co = h.co := by cases p <;> rfl
@[simp] theorem Heat.onSeat_coTT (p : Seat) (f : SeatState → SeatState) : (h.onSeat p f).coTT = h.coTT := by cases p <;> rfl
@[simp] theorem Heat.onSeat_fifo (p : Seat) (f : SeatState → SeatState) : (h.onSeat p f).fifo = h.fifo := by cases p <;> rfl
@[simp] theorem Heat.onSeat_hidden (p : Seat) (f : SeatState → SeatState) : (h.onSeat p f).hidden = h.hidden := by cases p <;> rfl
@[simp] theorem Heat.onSeat_outcomes (p : Seat) (f : SeatState → SeatState) : (h.onSeat p f).outcomes = h.outcomes := by cases p <;> rfl
@[simp] theorem Heat.onSeat_versC (p : Seat) (f : SeatState → SeatState) : (h.onSeat p f).versC = h.versC := by cases p <;> rfl
@[simp] theorem Heat.onSeat_versX (p : Seat) (f : SeatState → SeatState) : (h.onSeat p f).versX = h.versX := by cases p <;> rfl
@[simp] theorem Heat.onSeat_pend (p : Seat) (f : SeatState → SeatState) : (h.onSeat p f).pend = h.pend := by cases p <;> rfl
@[simp] theorem Heat.onSeat_ctl (p : Seat) (f : SeatState → SeatState) : (h.onSeat p f).ctl = h.ctl := by cases p <;> rfl
@[simp] theorem Heat.onSeat_hold (p : Seat) (f : SeatState → SeatState) : (h.onSeat p f).hold = h.hold := by cases p <;> rfl
@[simp] theorem Heat.onSeat_invm (p : Seat) (f : SeatState → SeatState) : (h.onSeat p f).invm = h.invm := by cases p <;> rfl
@[simp] theorem Heat.onSeat_marker (p : Seat) (f : SeatState → SeatState) : (h.onSeat p f).marker = h.marker := by cases p <;> rfl
@[simp] theorem Heat.onSeat_bags (p : Seat) (f : SeatState → SeatState) : (h.onSeat p f).bags = h.bags := by cases p <;> rfl
@[simp] theorem Heat.onSeat_blocks (p : Seat) (f : SeatState → SeatState) : (h.onSeat p f).blocks = h.blocks := by cases p <;> rfl
@[simp] theorem Heat.onSeat_hnd (p : Seat) (f : SeatState → SeatState) : (h.onSeat p f).hnd = h.hnd := by cases p <;> rfl
@[simp] theorem Heat.onSeat_claim (p : Seat) (f : SeatState → SeatState) : (h.onSeat p f).claim = h.claim := by cases p <;> rfl
@[simp] theorem Heat.onSeat_susp (p : Seat) (f : SeatState → SeatState) : (h.onSeat p f).susp = h.susp := by cases p <;> rfl
@[simp] theorem Heat.onSeat_cursor (p : Seat) (f : SeatState → SeatState) : (h.onSeat p f).cursor = h.cursor := by cases p <;> rfl
@[simp] theorem Heat.onSeat_cmdCount (p : Seat) (f : SeatState → SeatState) : (h.onSeat p f).cmdCount = h.cmdCount := by cases p <;> rfl
@[simp] theorem Heat.onSeat_haltPending (p : Seat) (f : SeatState → SeatState) : (h.onSeat p f).haltPending = h.haltPending := by cases p <;> rfl
@[simp] theorem Heat.onSeat_firstStroke (p : Seat) (f : SeatState → SeatState) : (h.onSeat p f).firstStroke = h.firstStroke := by cases p <;> rfl
@[simp] theorem Heat.onSeat_lastStroke (p : Seat) (f : SeatState → SeatState) : (h.onSeat p f).lastStroke = h.lastStroke := by cases p <;> rfl
@[simp] theorem Heat.onSeat_spanOver (p : Seat) (f : SeatState → SeatState) : (h.onSeat p f).spanOver = h.spanOver := by cases p <;> rfl
@[simp] theorem Heat.onSeat_resumers (p : Seat) (f : SeatState → SeatState) : (h.onSeat p f).resumers = h.resumers := by cases p <;> rfl
@[simp] theorem Heat.onSeat_record (p : Seat) (f : SeatState → SeatState) : (h.onSeat p f).record = h.record := by cases p <;> rfl
@[simp] theorem Heat.onSeat_trapDue (p : Seat) (f : SeatState → SeatState) : (h.onSeat p f).trapDue = h.trapDue := by cases p <;> rfl
@[simp] theorem Heat.onSeat_freed (p : Seat) (f : SeatState → SeatState) : (h.onSeat p f).freed = h.freed := by cases p <;> rfl
@[simp] theorem Heat.onSeat_traceDue (p : Seat) (f : SeatState → SeatState) : (h.onSeat p f).traceDue = h.traceDue := by cases p <;> rfl
@[simp] theorem Heat.onSeat_overrun (p : Seat) (f : SeatState → SeatState) : (h.onSeat p f).overrun = h.overrun := by cases p <;> rfl

/-- A heat's seat after one of its seats is set. -/
theorem Heat.seat_setSeat (p q : Seat) (v : SeatState) : (h.setSeat p v).seat q = if q = p then v else h.seat q := by
  cases p <;> cases q <;> rfl

theorem Heat.seat_onSeat (p q : Seat) (f : SeatState → SeatState) :
    (h.onSeat p f).seat q = if q = p then f (h.seat p) else h.seat q := by
  cases p <;> cases q <;> rfl

end

/-! ## Finding what was stored -/

section
variable (s : State) (h : Heat)

/-- A list's first element of a kind, after a change that keeps the kind. -/
theorem find?_mapIf {α : Type} (q p : α → Bool) (f : α → α) (l : List α) (hq : ∀ x, p x = true → q (f x) = q x) :
    (mapIf p f l).find? q = (l.find? q).map fun x => if p x then f x else x := by
  induction l with
  | nil => rfl
  | cons a t ih =>
    have hh : q (if p a then f a else a) = q a := by
      by_cases hp : p a = true
      · simp [hp, hq a hp]
      · simp [hp]
    simp only [mapIf, List.map_cons, List.find?_cons, hh] at *
    cases q a with
    | true => rfl
    | false => exact ih

/-- A heat of the state is found after it is stored. -/
theorem State.heat?_putHeat_self {k : Heat} (hk : s.heat? h.id.uid = some k) : (s.putHeat h).heat? h.id.uid = some h := by
  have h1 := find?_mapIf (fun x => x.id.uid == h.id.uid) (fun k => k.id.uid == h.id.uid) (fun _ => h) s.heats
    (by intro x hx; simp only [hx]; simp)
  unfold State.heat? State.putHeat at *
  have hu : k.id.uid = h.id.uid := by simpa using List.find?_some hk
  rw [h1, hk]
  simp [hu]

/-- Storing a heat leaves the others. -/
theorem State.heat?_putHeat_ne {u : Nat} (hu : u ≠ h.id.uid) : (s.putHeat h).heat? u = s.heat? u := by
  have h1 := find?_mapIf (fun x => x.id.uid == u) (fun k => k.id.uid == h.id.uid) (fun _ => h) s.heats
    (by
      intro x hx
      have hx' : x.id.uid = h.id.uid := by simpa using hx
      rw [hx'])
  unfold State.heat? State.putHeat
  rw [h1]
  cases hf : s.heats.find? (fun x => x.id.uid == u) with
  | none => rfl
  | some k =>
    have := List.find?_some hf
    have hk : k.id.uid = u := by simpa using this
    simp [hk, hu]

end

end Sys2Proof.Machine
end

