-- ==== Sys2Proof/Laws/Memory.lean ====
section
/-!
SUPPORT. Memory: reading a byte after writing one, the canonical form under every operation, and what the writes of a
party and the fault entry leave alone.
-/

namespace Sys2Proof.Machine

/-! ## Bytes -/

/-- Another byte reads as before. -/
theorem cellGet_cellSet_ne {a x : Nat} (h : x ≠ a) (b : Byte) (l : List Host.Cell) :
    cellGet (cellSet a b l) x = cellGet l x := by
  induction l with
  | nil =>
    unfold cellSet
    split
    · rfl
    · simp [cellGet, Ne.symm h]
  | cons c t ih =>
    obtain ⟨k, d⟩ := c
    unfold cellSet
    split
    · next hk =>
      subst hk
      split <;> simp [cellGet, Ne.symm h]
    · split
      · split <;> simp [cellGet, Ne.symm h]
      · unfold cellGet
        rw [ih]

/-- A strictly rising list whose addresses lie above a number. -/
def Above (n : Nat) (l : List Host.Cell) : Prop := ∀ c ∈ l, n < c.1

/-- What the canonical form says, as propositions. -/
def Canonical : List Host.Cell → Prop
  | [] => True
  | (a, b) :: t => b ≠ 0 ∧ Above a t ∧ Canonical t

theorem rising_cons {a : Nat} {l : List Nat} (h : rising (a :: l) = true) :
    rising l = true ∧ ∀ x ∈ l, a < x := by
  induction l generalizing a with
  | nil => simp [rising]
  | cons b t ih =>
    simp only [rising, Bool.and_eq_true, decide_eq_true_eq] at h
    have hb := ih h.2
    refine ⟨h.2, ?_⟩
    intro x hx
    rcases List.mem_cons.mp hx with rfl | hx
    · exact h.1
    · exact Nat.lt_trans h.1 (hb.2 x hx)

theorem rising_of_above {a : Nat} {l : List Nat} (h : ∀ x ∈ l, a < x) (hl : rising l = true) :
    rising (a :: l) = true := by
  cases l with
  | nil => rfl
  | cons b t => simp [rising, h b (by simp), hl]

/-- The Bool form and the propositions agree. -/
theorem Mem.wf_iff (m : Mem) : m.wf = true ↔ Canonical m.cells := by
  unfold Mem.wf
  induction m.cells with
  | nil => simp [rising, Canonical]
  | cons c t ih =>
    obtain ⟨a, b⟩ := c
    simp only [Bool.and_eq_true] at ih ⊢
    constructor
    · intro ⟨h1, h2⟩
      have h3 := rising_cons h1
      simp only [List.all_cons, Bool.and_eq_true] at h2
      refine ⟨bne_iff_ne.mp h2.1, ?_, ih.mp ⟨h3.1, h2.2⟩⟩
      intro c hc
      exact h3.2 c.1 (List.mem_map_of_mem hc)
    · intro ⟨hb, ha, ht⟩
      have := ih.mpr ht
      refine ⟨?_, by rw [List.all_cons, this.2, Bool.and_true]; exact bne_iff_ne.mpr hb⟩
      apply rising_of_above _ this.1
      intro x hx
      obtain ⟨c, hc, rfl⟩ := List.mem_map.mp hx
      exact ha c hc

theorem Above.cellSet {n a : Nat} {b : Byte} {l : List Host.Cell} (hl : Above n l) (ha : n < a) :
    Above n (cellSet a b l) := by
  induction l with
  | nil =>
    unfold Machine.cellSet
    split
    · intro c hc; cases hc
    · intro c hc; simp at hc; subst hc; exact ha
  | cons c t ih =>
    obtain ⟨k, d⟩ := c
    have ht : Above n t := fun c hc => hl c (List.mem_cons_of_mem _ hc)
    have hk : n < k := hl (k, d) (by simp)
    unfold Machine.cellSet
    split
    · split
      · exact ht
      · intro c hc; rcases List.mem_cons.mp hc with rfl | hc
        · exact ha
        · exact ht c hc
    · split
      · split
        · exact hl
        · intro c hc; rcases List.mem_cons.mp hc with rfl | hc
          · exact ha
          · exact hl c hc
      · intro c hc; rcases List.mem_cons.mp hc with rfl | hc
        · exact hk
        · exact ih ht c hc

/-- Storing a byte keeps the canonical form. -/
theorem Canonical.cellSet {a : Nat} {b : Byte} {l : List Host.Cell} (hl : Canonical l) :
    Canonical (cellSet a b l) := by
  induction l with
  | nil =>
    unfold Machine.cellSet
    split
    · trivial
    · exact ⟨‹_›, fun _ hc => absurd hc (List.not_mem_nil), trivial⟩
  | cons c t ih =>
    obtain ⟨k, d⟩ := c
    obtain ⟨hd, hk, ht⟩ := hl
    unfold Machine.cellSet
    split
    · next he =>
      subst he
      split
      · exact ht
      · exact ⟨‹_›, hk, ht⟩
    · split
      · next hlt =>
        split
        · exact ⟨hd, hk, ht⟩
        · refine ⟨‹_›, ?_, hd, hk, ht⟩
          intro c hc; rcases List.mem_cons.mp hc with rfl | hc
          · exact hlt
          · exact Nat.lt_trans hlt (hk c hc)
      · next hne hlt => exact ⟨hd, hk.cellSet (by omega), ih ht⟩

theorem cellGet_above {n x : Nat} {l : List Host.Cell} (hl : Above n l) (hx : x ≤ n) : cellGet l x = 0 := by
  induction l with
  | nil => rfl
  | cons c t ih =>
    obtain ⟨k, d⟩ := c
    have hk : n < k := hl (k, d) (by simp)
    unfold cellGet
    rw [if_neg (by omega)]
    exact ih fun c hc => hl c (List.mem_cons_of_mem _ hc)

/-- In canonical memory a byte reads as it was written. -/
theorem Canonical.cellGet_cellSet {a : Nat} {b : Byte} {l : List Host.Cell} (hl : Canonical l) :
    cellGet (Machine.cellSet a b l) a = b := by
  induction l with
  | nil =>
    unfold Machine.cellSet
    split
    · next h => simp [cellGet, h]
    · simp [cellGet]
  | cons c t ih =>
    obtain ⟨k, d⟩ := c
    obtain ⟨hd, hk, ht⟩ := hl
    unfold Machine.cellSet
    split
    · next he =>
      subst he
      split
      · next h => rw [h]; exact cellGet_above hk (Nat.le_refl _)
      · simp [cellGet]
    · split
      · next hne hlt =>
        split
        · next h =>
          rw [h]
          exact cellGet_above (n := a) (l := (k, d) :: t)
            (by intro c hc; rcases List.mem_cons.mp hc with rfl | hc
                · exact hlt
                · exact Nat.lt_trans hlt (hk c hc)) (Nat.le_refl _)
        · simp [cellGet]
      · next hne _ =>
        unfold cellGet
        rw [if_neg hne]
        exact ih ht

/-! ## Writes -/

theorem Canonical.cellsPut {pa : Nat} {data : List (Byte × Bool)} {l : List Host.Cell} (hl : Canonical l) :
    Canonical (cellsPut pa data l) := by
  induction data generalizing pa l with
  | nil => exact hl
  | cons d t ih => exact ih hl.cellSet

/-- A write keeps the canonical form. -/
theorem Mem.wf_put {m : Mem} (h : m.wf = true) (pa : Nat) (data : List (Byte × Bool)) : (m.put pa data).wf = true := by
  rw [Mem.wf_iff] at *
  exact Canonical.cellsPut h

theorem Canonical.filter {p : Host.Cell → Bool} {l : List Host.Cell} (hl : Canonical l) : Canonical (l.filter p) := by
  induction l with
  | nil => exact hl
  | cons c t ih =>
    obtain ⟨k, d⟩ := c
    obtain ⟨hd, hk, ht⟩ := hl
    rw [List.filter_cons]
    split
    · exact ⟨hd, fun c hc => hk c (List.mem_filter.mp hc).1, ih ht⟩
    · exact ih ht

/-- Zeroing a range keeps the canonical form. -/
theorem Mem.wf_zero {m : Mem} (h : m.wf = true) (lo n : Nat) : (m.zero lo n).wf = true := by
  rw [Mem.wf_iff] at *
  exact h.filter

/-- Dropping all but the host's bytes keeps it. -/
theorem hostOnly_wf {m : Mem} (h : m.wf = true) : (hostOnly m).wf = true := by
  rw [Mem.wf_iff] at *
  exact h.filter

/-- Moving a line to another key keeps it. -/
theorem rekey_wf {s : State} {m : Mem} (h : m.wf = true) (pa key : Nat) : (rekey s pa key m).wf = true := by
  rw [Mem.wf_iff] at *
  unfold rekey
  dsimp only
  generalize assoc (pa / 128) m.sealedLines = sealed
  cases sealed with
  | none => exact h
  | some old =>
    generalize s.lamom.keys.find? _ = slot
    cases slot with
    | none => exact h
    | some k =>
      dsimp only
      split
      · exact h
      · generalize withTaint false _ = data
        exact h.cellsPut

/-- Memory with nothing listed is canonical. -/
theorem Mem.reset_wf : Mem.reset.wf = true := rfl

/-- A byte outside a write reads as before. -/
theorem cellGet_cellsPut_out {pa x : Nat} {data : List (Byte × Bool)} (l : List Host.Cell)
    (h : x < pa ∨ pa + data.length ≤ x) : cellGet (cellsPut pa data l) x = cellGet l x := by
  induction data generalizing pa l with
  | nil => rfl
  | cons d t ih =>
    simp only [List.length_cons] at h
    show cellGet (cellsPut (pa + 1) t (Machine.cellSet pa d.1 l)) x = _
    rw [ih _ (by omega), cellGet_cellSet_ne (by omega)]

/-- In canonical memory the bytes of a write read as they were written. -/
theorem cellGet_cellsPut_in {pa i : Nat} {data : List (Byte × Bool)} {l : List Host.Cell} (hl : Canonical l)
    (hi : i < data.length) : cellGet (cellsPut pa data l) (pa + i) = (data[i]).1 := by
  induction data generalizing pa i l with
  | nil => cases hi
  | cons d t ih =>
    show cellGet (cellsPut (pa + 1) t (Machine.cellSet pa d.1 l)) (pa + i) = _
    cases i with
    | zero => rw [cellGet_cellsPut_out _ (by omega)]; exact hl.cellGet_cellSet
    | succ i =>
      have := ih (pa := pa + 1) (i := i) (l := Machine.cellSet pa d.1 l) hl.cellSet (by simpa using hi)
      rw [show pa + (i + 1) = pa + 1 + i by omega]
      simpa using this

/-- A range that is zeroed reads zero. -/
theorem cellGet_zero_in {m : Mem} {lo n x : Nat} (h : lo ≤ x ∧ x < lo + n) : cellGet (m.zero lo n).cells x = 0 := by
  show cellGet (m.cells.filter _) x = 0
  induction m.cells with
  | nil => rfl
  | cons c t ih =>
    obtain ⟨k, d⟩ := c
    rw [List.filter_cons]
    split
    · next hk =>
      unfold cellGet
      have : ¬ k = x := by simp at hk; omega
      rw [if_neg this]
      exact ih
    · exact ih

end Sys2Proof.Machine
end

