-- ==== Sys2Proof/Laws/Ops.lean ====
section
/-!
SUPPORT. What the shared operations can do, said once: writes of a party, cancels, THE fault entry, the debug halt,
resolving an address, loads and stores.
-/

namespace Sys2Proof.Machine

variable {s s' : State}

/-! ## Writes -/

/-- A write of a party changes memory, the fabric's messages and the counter of identifiers, and nothing else. -/
theorem writeUnderlay_shape (s : State) (u die pa key : Nat) (data : List (Byte × Bool)) :
    ∃ m n i, writeUnderlay s u die pa key data = { s with mem := m, net := n, nextId := i } := by
  unfold writeUnderlay
  dsimp only
  split
  · exact ⟨_, _, _, rfl⟩
  · split <;> exact ⟨_, _, _, rfl⟩

theorem mergeClock_shape (s : State) (u : Nat) (clk : List Nat) : ∃ n, mergeClock s u clk = { s with net := n } := by
  unfold mergeClock
  split
  · exact ⟨s.net, rfl⟩
  · exact ⟨_, rfl⟩

/-- An access to a cell of ASR changes clocks alone. -/
theorem cellClock_shape (s : State) (u die pa : Nat) : ∃ n, cellClock s u die pa = { s with net := n } := by
  unfold cellClock
  obtain ⟨n, h⟩ := mergeClock_shape s u (viewClock s die pa)
  exact ⟨_, by rw [h]⟩

/-- What is sent out changes the fabric alone. -/
theorem sendOuts_shape (s : State) (vs : List TVal) : ∃ n, vs.foldl sendOut s = { s with net := n } := by
  induction vs generalizing s with
  | nil => exact ⟨s.net, rfl⟩
  | cons v t ih =>
    obtain ⟨n, h⟩ := ih (sendOut s v)
    exact ⟨n, by rw [List.foldl_cons, h]; rfl⟩

theorem writePhys_shape (s : State) (u die pa key : Nat) (data : List (Byte × Bool)) :
    ∃ m n i, writePhys s u die pa key data = { s with mem := m, net := n, nextId := i } := by
  unfold writePhys
  split
  · exact writeUnderlay_shape ..
  · exact ⟨s.mem, _, _, rfl⟩
  · obtain ⟨n, h⟩ := cellClock_shape s u die pa
    exact ⟨_, n, s.nextId, by rw [h]⟩
  · obtain ⟨n, h⟩ := cellClock_shape s u die pa
    obtain ⟨n2, h2⟩ := sendOuts_shape { s with net := n } (dwordsOf data.length data)
    exact ⟨_, n2, s.nextId, by simp only [h, h2]; rfl⟩
  · exact ⟨_, _, s.nextId, rfl⟩

/-- A write of a party keeps memory canonical. -/
theorem writeUnderlay_wf (h : s.mem.wf = true) (u die pa key : Nat) (data : List (Byte × Bool)) :
    (writeUnderlay s u die pa key data).mem.wf = true := by
  unfold writeUnderlay
  dsimp only
  split
  · exact Mem.wf_put (rekey_wf h ..) ..
  · split
    · exact Mem.wf_put (rekey_wf h ..) ..
    · exact rekey_wf h ..

theorem writePhys_wf (h : s.mem.wf = true) (u die pa key : Nat) (data : List (Byte × Bool)) :
    (writePhys s u die pa key data).mem.wf = true := by
  unfold writePhys
  split
  · exact writeUnderlay_wf h ..
  · exact h
  · obtain ⟨n, e⟩ := cellClock_shape s u die pa
    rw [e]
    exact Mem.wf_put h ..
  · obtain ⟨n, e⟩ := cellClock_shape s u die pa
    obtain ⟨n2, e2⟩ := sendOuts_shape { s with net := n } (dwordsOf data.length data)
    rw [e, e2]
    exact Mem.wf_put h ..
  · exact Mem.wf_put h ..

/-! ## Cancels and the fault entry -/

theorem countFinal_shape (s : State) (h : Heat) (f : Launch → Launch) :
    ∃ ls, countFinal s h f = { s with launches := ls } := by
  unfold countFinal
  split
  · exact ⟨s.launches, rfl⟩
  · exact ⟨_, rfl⟩

/-- A fold of steps that change heats and launches alone changes heats and launches alone. -/
theorem foldl_launches {α : Type} {g : State → α → State}
    (hg : ∀ s a, ∃ hs ls, g s a = { s with heats := hs, launches := ls }) (l : List α) (s : State) :
    ∃ hs ls, l.foldl g s = { s with heats := hs, launches := ls } := by
  induction l generalizing s with
  | nil => exact ⟨s.heats, s.launches, rfl⟩
  | cons a t ih =>
    obtain ⟨_, _, h1⟩ := hg s a
    obtain ⟨hs, ls, h2⟩ := ih (g s a)
    exact ⟨hs, ls, by rw [List.foldl_cons, h2, h1]⟩

theorem endSuspended_shape (s : State) (h : Heat) (f : Launch → Launch) :
    ∃ hs ls, endSuspended s h f = { s with heats := hs, launches := ls } := by
  unfold endSuspended addTaints
  split
  · obtain ⟨ls, e⟩ := countFinal_shape s h f
    exact ⟨_, ls, by rw [e]⟩
  · obtain ⟨ls, e⟩ := countFinal_shape (s.onLaunch h.id.job h.id.launch fun l =>
      { l with tcnt := List.zipWith (· + ·) l.tcnt [h.ctl.tStored, h.ctl.tControl, h.ctl.tCleared, h.ctl.tRead] }) h f
    exact ⟨_, ls, by rw [e]; rfl⟩

/-- A cancel changes heats and launches alone. -/
theorem cancelHeats_shape (s : State) (p : Heat → Bool) :
    ∃ hs ls, cancelHeats s p = { s with heats := hs, launches := ls } := by
  unfold cancelHeats
  obtain ⟨hs, ls, h⟩ := foldl_launches (g := fun s h => endSuspended s h fun l => { l with cancelled := true })
    (fun s a => endSuspended_shape s a _) (s.heats.filter fun h => p h && h.status == .suspended)
    { s with heats := mapIf p (cancelOne s) s.heats }
  exact ⟨hs, ls, h⟩

/-- THE fault entry changes heats, launches, jobs and the schedule alone. -/
theorem raiseFault_shape (s : State) (h : Heat) (p : Option Seat) (i : FaultInfo) :
    ∃ hs ls js sc, raiseFault s h p i = { s with heats := hs, launches := ls, jobs := js, sched := sc } := by
  have hb : ∀ (t : State) (c : Prop) [Decidable c], (∃ hs ls, t = { s with heats := hs, launches := ls }) →
      ∃ hs ls js sc, (if c then breakSchedule t h.id.job else t) =
        { s with heats := hs, launches := ls, jobs := js, sched := sc } := by
    rintro t c _ ⟨hs, ls, rfl⟩
    split
    · exact ⟨_, _, _, _, rfl⟩
    · exact ⟨hs, ls, s.jobs, s.sched, rfl⟩
  have hc : ∀ (k : Heat) (c : Prop) [Decidable c] (q : Heat → Bool), ∃ hs ls,
      (if c then cancelHeats (s.putHeat k) q else s.putHeat k) = { s with heats := hs, launches := ls } := by
    intro k c _ q
    split
    · obtain ⟨hs, ls, he⟩ := cancelHeats_shape (s.putHeat k) q
      exact ⟨hs, ls, he⟩
    · exact ⟨_, s.launches, rfl⟩
  have hl : ∀ (t : State) (c : Prop) [Decidable c] (f : Launch → Launch),
      (∃ hs ls, t = { s with heats := hs, launches := ls }) →
      ∃ hs ls, (if c then t.onLaunch h.id.job h.id.launch f else t) = { s with heats := hs, launches := ls } := by
    rintro t c _ f ⟨hs, ls, rfl⟩
    split
    · exact ⟨hs, _, rfl⟩
    · exact ⟨hs, ls, rfl⟩
  unfold raiseFault
  exact hb _ _ (hl _ _ _ (hc _ _ _))

@[simp] theorem raiseFault_mem (s : State) (h : Heat) (p : Option Seat) (i : FaultInfo) :
    (raiseFault s h p i).mem = s.mem := by
  obtain ⟨_, _, _, _, he⟩ := raiseFault_shape s h p i
  rw [he]

@[simp] theorem raiseFault_dev (s : State) (h : Heat) (p : Option Seat) (i : FaultInfo) :
    (raiseFault s h p i).dev = s.dev := by
  obtain ⟨_, _, _, _, he⟩ := raiseFault_shape s h p i
  rw [he]

@[simp] theorem raiseFault_lamom (s : State) (h : Heat) (p : Option Seat) (i : FaultInfo) :
    (raiseFault s h p i).lamom = s.lamom := by
  obtain ⟨_, _, _, _, he⟩ := raiseFault_shape s h p i
  rw [he]

/-- The debug halt changes jobs and heats alone. -/
theorem haltJob_shape (s : State) (job r n : Nat) :
    ∃ js hs, haltJob s job r n = { s with jobs := js, heats := hs } := by
  unfold haltJob
  dsimp only
  split
  · exact ⟨_, _, rfl⟩
  · exact ⟨s.jobs, s.heats, rfl⟩

/-! ## Resolving, loading and storing -/

/-- The device's registers after an access: the power-gated units, when each was touched, and the requests counted. -/
def DevRegs.touches (d : DevRegs) (g : List GateUnit) (t : List (GateUnit × Nat)) (r : List ((Nat × Nat) × Nat)) : DevRegs :=
  { d with gated := g, touched := t, requests := r }

/-- What an access may change beside its bytes: translations, stash marks, copies of lines, messages and clocks, the
power-gated units and what is noted of accesses to them, and the counter of identifiers. -/
def Touches (s s' : State) : Prop :=
  ∃ tl st nt g t r i, s' = { s with tlb := tl, stashes := st, net := nt, dev := s.dev.touches g t r, nextId := i }

/-- What leaves the device's registers alone. -/
theorem Touches.still (s : State) (tl : List TlbEntry) (st : List Stash) (n : Net) (i : Nat) :
    Touches s { s with tlb := tl, stashes := st, net := n, nextId := i } :=
  ⟨tl, st, n, s.dev.gated, s.dev.touched, s.dev.requests, i, rfl⟩

theorem Touches.refl (s : State) : Touches s s := .still s s.tlb s.stashes s.net s.nextId

theorem Touches.trans {a b c : State} (h : Touches a b) (k : Touches b c) : Touches a c := by
  obtain ⟨_, _, _, _, _, _, _, rfl⟩ := h
  obtain ⟨t2, s2, n2, g2, c2, r2, i2, rfl⟩ := k
  exact ⟨t2, s2, n2, g2, c2, r2, i2, rfl⟩

theorem Touches.mem {s s' : State} (h : Touches s s') : s'.mem = s.mem := by
  obtain ⟨_, _, _, _, _, _, _, rfl⟩ := h
  rfl

/-- What changes the fabric and the counter of identifiers alone. -/
theorem Touches.net (s : State) (n : Net) (i : Nat) : Touches s { s with net := n, nextId := i } :=
  .still s s.tlb s.stashes n i

/-- A fold of steps that only touch. -/
theorem Touches.foldl {α : Type} {g : State → α → State} (hg : ∀ s a, Touches s (g s a)) (l : List α) (s : State) :
    Touches s (l.foldl g s) := by
  induction l generalizing s with
  | nil => exact .refl s
  | cons a t ih => exact (hg s a).trans (ih (g s a))

theorem fillReplica_touches (s : State) (die pa : Nat) : Touches s (fillReplica s die pa) := by
  unfold fillReplica
  dsimp only
  split
  · exact .net s _ s.nextId
  · exact .refl s

theorem lookupLeaf_touches (s : State) (core job root va : Nat) : Touches s (lookupLeaf s core job root va).1 := by
  unfold lookupLeaf
  dsimp only
  split
  · exact .refl s
  · split
    · exact .refl s
    · exact .still s _ s.stashes s.net s.nextId

theorem translate_touches {s s' : State} {h : Heat} {core : Nat} {va : Dword} {acc : Access} {f : Frame}
    (hr : translate s h core va acc = .ok (s', f)) : Touches s s' := by
  unfold translate at hr
  split at hr
  · cases hr
  · next j _ =>
    have ht := lookupLeaf_touches s core j.id j.root.toNat (va.toNat % 2 ^ 48)
    dsimp only at hr
    split at hr
    · cases hr
    · next he =>
      rw [he] at ht
      split at hr
      · cases hr
      · simp only [Except.ok.injEq, Prod.mk.injEq] at hr
        rw [← hr.1]
        exact ht

theorem localFrame_touches {s s' : State} {o : Heat} {core off : Nat} {acc : Access} {f : Frame}
    (hr : localFrame s o core off acc = .ok (s', f)) : Touches s s' := by
  unfold localFrame at hr
  split at hr
  · split at hr
    · cases hr
    · next t _ _ s1 g ht =>
      simp only [Except.ok.injEq, Prod.mk.injEq] at hr
      rw [← hr.1]
      have h2 := (translate_touches ht).trans (fillReplica_touches s1 (o.core / 64) g.pa)
      exact h2.trans (.still _ _ _ _ _)
  · split at hr
    · cases hr
    · simp only [Except.ok.injEq, Prod.mk.injEq] at hr
      rw [← hr.1]
      exact .refl s

/-- Where an address leads is found without a change but of translations, stash marks and copies. -/
theorem resolve_touches {s s' : State} {h : Heat} {core : Nat} {va : Dword} {acc : Access} {f : Frame}
    (hr : resolve s h core va acc = .ok (s', f)) : Touches s s' := by
  unfold resolve at hr
  dsimp only at hr
  have ok : ∀ {t : State} {g : Frame}, (Except.ok (t, g) : Except (BitVec 8) (State × Frame)) = .ok (s', f) → t = s' := by
    intro t g e
    simp only [Except.ok.injEq, Prod.mk.injEq] at e
    exact e.1
  repeat' split at hr
  all_goals first
    | cases hr; done
    | exact translate_touches hr
    | exact localFrame_touches hr
    | (have := ok hr; subst this; exact .refl _)

theorem mergeClock_touches (s : State) (u : Nat) (clk : List Nat) : Touches s (mergeClock s u clk) := by
  obtain ⟨n, h⟩ := mergeClock_shape s u clk
  rw [h]
  exact .net s n s.nextId

theorem bringClock_touches (s : State) (u die pa : Nat) : Touches s (bringClock s u die pa) := by
  have hc : Touches s (cellClock s u die pa) := by
    obtain ⟨n, h⟩ := cellClock_shape s u die pa
    rw [h]
    exact .net s n s.nextId
  unfold bringClock
  split
  · exact hc
  · exact hc
  · exact mergeClock_touches ..

theorem wake_touches (s : State) (core pa : Nat) : Touches s (wake s core pa) :=
  ⟨s.tlb, s.stashes, s.net, _, _, _, s.nextId, rfl⟩

theorem sendMsg_touches (s : State) (h c : Option Nat) (ls : List DrawLeg) : Touches s (sendMsg s h c ls) := .net s _ _

/-- The messages that a read sends. -/
theorem rideRead_touches (s : State) (h : Heat) (core pa cls : Nat) : Touches s (rideRead s h core pa cls) := by
  have hf : Touches s (fillL1 s core (pa / 128)) := .net s _ s.nextId
  unfold rideRead
  dsimp only
  repeat' split
  all_goals first
    | exact .refl s
    | exact hf
    | exact sendMsg_touches ..

theorem probeCopies_touches (s : State) (h : Heat) (pa : Nat) : Touches s (probeCopies s h pa) := by
  unfold probeCopies
  exact (Touches.net s _ s.nextId).trans (Touches.foldl (fun _ _ => sendMsg_touches ..) _ _)

/-- A forward's message. -/
theorem rideForward_touches (s : State) (u : Nat) (f : Forward) : Touches s (rideForward s u f) := by
  unfold rideForward
  dsimp only
  generalize hs : sendMsg s _ _ _ = s1
  have h1 : Touches s s1 := by rw [← hs]; exact sendMsg_touches ..
  cases f.word with
  | none => exact h1
  | some w => exact h1.trans (.net s1 _ s1.nextId)

/-- A slice's note of the key of a line that it fills. -/
theorem noteFill_touches (s : State) (pa key : Nat) : Touches s (noteFill s pa key) := by
  unfold noteFill
  dsimp only
  split
  · exact .net s _ s.nextId
  · exact .refl s

/-- The messages that a write sends. -/
theorem rideWrite_touches (s : State) (h : Heat) (core pa since : Nat) : Touches s (rideWrite s h core pa since) := by
  unfold rideWrite
  dsimp only
  split
  · exact .refl s
  · refine Touches.trans ?_ (probeCopies_touches _ h pa)
    refine Touches.trans ?_ (Touches.foldl (fun _ _ => rideForward_touches ..) _ _)
    split
    · exact .refl s
    · exact sendMsg_touches ..

/-- What a watchpoint may change: the debug halt. -/
theorem watch_shape {s s' : State} {job : Nat} {va : Dword} {n : Nat} {rd wr : Bool}
    (hr : watch s job va n rd wr = .ok s') : ∃ js hs, s' = { s with jobs := js, heats := hs } := by
  unfold watch at hr
  split at hr
  · simp only [Except.ok.injEq] at hr
    exact ⟨s.jobs, s.heats, hr.symm⟩
  · simp only [Except.ok.injEq] at hr
    obtain ⟨js, hs, he⟩ := haltJob_shape s job 2 ‹_›
    exact ⟨js, hs, by rw [← hr, he]⟩
  · cases hr

/-- A load leaves memory as it is. -/
theorem loadAt_mem {s s' : State} {h : Heat} {core : Nat} {va : Dword} {n : Nat} {bs : List (Byte × Bool)}
    (hr : loadAt s h core va n = .ok (s', bs)) : s'.mem = s.mem := by
  unfold loadAt at hr
  split at hr
  · cases hr
  · split at hr
    · cases hr
    · next s1 f he =>
      have h1 := (resolve_touches he).mem
      split at hr
      · cases hr
      · split at hr
        · cases hr
        · split at hr
          · cases hr
          · split at hr
            · cases hr
            · next s2 hw =>
              obtain ⟨js, hs, e2⟩ := watch_shape hw
              have h2 : s2.mem = s.mem := by rw [e2, ← h1]
              split at hr
              · simp only [Except.ok.injEq, Prod.mk.injEq] at hr
                rw [← hr.1, h2]
              · simp only [Except.ok.injEq, Prod.mk.injEq] at hr
                rw [← hr.1, (rideRead_touches _ _ _ _ _).mem, (wake_touches _ _ _).mem, (bringClock_touches _ _ _ _).mem]
                rw [(noteFill_touches _ _ _).mem]
                split
                · rw [(fillReplica_touches _ _ _).mem, h2]
                · exact h2

/-- A store keeps memory canonical. -/
theorem storeAt_wf {s s' : State} {h : Heat} {core : Nat} {va : Dword} {data : List (Byte × Bool)}
    (hr : storeAt s h core va data = .ok s') (hs : s.mem.wf = true) : s'.mem.wf = true := by
  unfold storeAt at hr
  split at hr
  · cases hr
  · split at hr
    · cases hr
    · next s1 f hg =>
      have h1 : s1.mem = s.mem := by
        unfold storeFrame at hg
        split at hg
        · simp [faultAt] at hg
        · next he =>
          split at hg
          · simp [faultAt] at hg
          · simp only [Except.ok.injEq, Prod.mk.injEq] at hg
            rw [← hg.1]
            exact (resolve_touches he).mem
      split at hr
      · cases hr
      · next s2 hw =>
        obtain ⟨js, hs', e2⟩ := watch_shape hw
        simp only [Except.ok.injEq] at hr
        rw [← hr, (rideWrite_touches _ _ _ _ _).mem]
        apply writePhys_wf
        rw [(wake_touches _ _ _).mem, e2]
        rw [h1]
        exact hs

end Sys2Proof.Machine
end

