-- ==== Sys2Proof/Laws/PerInstr.lean ====
section
/-!
SUPPORT. Per instruction: the number of words that it encodes to is the length that tag and opcode give (04/R84).
-/

namespace Sys2Proof

theorem pack_lt (fs : List (Nat × Nat)) : pack fs < 2 ^ widthOf fs := by
  induction fs with
  | nil => simp [pack, widthOf]
  | cons f t ih =>
    obtain ⟨n, v⟩ := f
    have hv : v % 2 ^ n + 1 ≤ 2 ^ n := Nat.mod_lt _ (Nat.two_pow_pos n)
    have := Nat.mul_le_mul_right (2 ^ widthOf t) hv
    rw [Nat.add_mul, Nat.one_mul] at this
    simp only [pack, widthOf, Nat.pow_add]
    omega

/-- A base word's top fields read back. -/
theorem isLong_cWord (op : Nat) (fs : List (Nat × Nat)) (hw : widthOf fs = 22) (ho : op < 128) :
    isLong (cWord op fs).toNat = (longOps 0).contains op := by
  have h := pack_lt fs
  rw [hw] at h
  have e : (cWord op fs).toNat = op * 2 ^ 22 + pack fs := by
    simp only [cWord, word, pack, widthOf, hw, BitVec.toNat_ofNat]
    omega
  have ht : tagOf (cWord op fs).toNat = 0 := by unfold tagOf bits; rw [e]; omega
  have hb : bits (cWord op fs).toNat 22 7 = op := by unfold bits; rw [e]; omega
  simp [isLong, ht, hb]

theorem widthOf_append (a b : List (Nat × Nat)) : widthOf (a ++ b) = widthOf a + widthOf b := by
  induction a with
  | nil => simp [widthOf]
  | cons f t ih => simp [widthOf, ih, Nat.add_assoc]

theorem pack_append (a b : List (Nat × Nat)) : pack (a ++ b) = pack a * 2 ^ widthOf b + pack b := by
  induction a with
  | nil => simp [pack]
  | cons f t ih =>
    obtain ⟨n, v⟩ := f
    simp only [List.cons_append, pack, ih, widthOf_append, Nat.add_mul, Nat.pow_add]
    rw [Nat.mul_assoc, Nat.add_assoc]

theorem isLong_slotWord (tag : Nat) (w : Slot) (op : Nat) (fs : List (Nat × Nat)) (hw : widthOf fs = 14) (ht : 0 < tag)
    (ht' : tag < 8) (ho : op < 64) : isLong (slotWord tag w op fs).toNat = (longOps tag).contains op := by
  have h := pack_lt fs
  rw [hw] at h
  have hs : pack (slotF w) < 2 ^ 9 := pack_lt (slotF w)
  have e : (slotWord tag w op fs).toNat = tag * 2 ^ 29 + pack (slotF w) * 2 ^ 20 + op * 2 ^ 14 + pack fs := by
    have hw9 : widthOf (slotF w) = 9 := rfl
    simp only [slotWord, word, pack, widthOf, widthOf_append, pack_append, hw, hw9, BitVec.toNat_ofNat]
    omega
  have h1 : tagOf (slotWord tag w op fs).toNat = tag := by unfold tagOf bits; rw [e]; omega
  have h2 : bits (slotWord tag w op fs).toNat 14 6 = op := by unfold bits; rw [e]; omega
  simp only [isLong, h1, h2]
  rw [if_neg (by omega)]

theorem isLong_sharedWord (op : Nat) (fs : List (Nat × Nat)) (hw : widthOf fs = 24) (ho : op < 32) :
    isLong (sharedWord op fs).toNat = false := by
  have h := pack_lt fs
  rw [hw] at h
  have e : (sharedWord op fs).toNat = 4 * 2 ^ 29 + op * 2 ^ 24 + pack fs := by
    simp only [sharedWord, word, pack, widthOf, hw, BitVec.toNat_ofNat]
    omega
  have ht : tagOf (sharedWord op fs).toNat = 4 := by unfold tagOf bits; rw [e]; omega
  simp [isLong, ht, longOps]

/-- An instruction has the number of words that its first word's tag and opcode give; an event has none. -/
def Laws.Coded.Statement (i : Instr) : Prop :=
  match encode i with
  | [] => True
  | [a] => isLong a.toNat = false
  | [a, _] => isLong a.toNat = true
  | _ => False

theorem Laws.Coded.nopa : Laws.Coded.Statement (.nopa) :=
  isLong_sharedWord _ _ rfl (by decide)
theorem Laws.Coded.br (bp : BitVec 3) (neg : Bool) (disp : BitVec 20) : Laws.Coded.Statement (.br bp neg disp) :=
  isLong_sharedWord _ _ rfl (by decide)
theorem Laws.Coded.jmp (disp : BitVec 24) : Laws.Coded.Statement (.jmp disp) :=
  isLong_sharedWord _ _ rfl (by decide)
theorem Laws.Coded.call (disp : BitVec 24) : Laws.Coded.Statement (.call disp) :=
  isLong_sharedWord _ _ rfl (by decide)
theorem Laws.Coded.ret : Laws.Coded.Statement (.ret) :=
  isLong_sharedWord _ _ rfl (by decide)
theorem Laws.Coded.loopLc (lc : BitVec 3) (body : BitVec 12) : Laws.Coded.Statement (.loopLc lc body) :=
  isLong_sharedWord _ _ rfl (by decide)
theorem Laws.Coded.loopImm (count : BitVec 11) (body : BitVec 12) : Laws.Coded.Statement (.loopImm count body) :=
  isLong_sharedWord _ _ rfl (by decide)
theorem Laws.Coded.iterationEnd : Laws.Coded.Statement (.iterationEnd) :=
  trivial
theorem Laws.Coded.lexit (bp : BitVec 3) (neg : Bool) : Laws.Coded.Statement (.lexit bp neg) :=
  isLong_sharedWord _ _ rfl (by decide)
theorem Laws.Coded.lexitDrain (heat : Nat) : Laws.Coded.Statement (.lexitDrain heat) :=
  trivial
theorem Laws.Coded.stroke : Laws.Coded.Statement (.stroke) :=
  isLong_sharedWord _ _ rfl (by decide)
theorem Laws.Coded.hend : Laws.Coded.Statement (.hend) :=
  isLong_sharedWord _ _ rfl (by decide)
theorem Laws.Coded.nop : Laws.Coded.Statement (.nop) :=
  isLong_cWord _ _ rfl (by decide)
theorem Laws.Coded.add (d a b : BitVec 6) : Laws.Coded.Statement (.add d a b) :=
  isLong_cWord _ _ rfl (by decide)
theorem Laws.Coded.sub (d a b : BitVec 6) : Laws.Coded.Statement (.sub d a b) :=
  isLong_cWord _ _ rfl (by decide)
theorem Laws.Coded.and (d a b : BitVec 6) : Laws.Coded.Statement (.and d a b) :=
  isLong_cWord _ _ rfl (by decide)
theorem Laws.Coded.or (d a b : BitVec 6) : Laws.Coded.Statement (.or d a b) :=
  isLong_cWord _ _ rfl (by decide)
theorem Laws.Coded.xor (d a b : BitVec 6) : Laws.Coded.Statement (.xor d a b) :=
  isLong_cWord _ _ rfl (by decide)
theorem Laws.Coded.shl (d a b : BitVec 6) : Laws.Coded.Statement (.shl d a b) :=
  isLong_cWord _ _ rfl (by decide)
theorem Laws.Coded.shr (d a b : BitVec 6) : Laws.Coded.Statement (.shr d a b) :=
  isLong_cWord _ _ rfl (by decide)
theorem Laws.Coded.sar (d a b : BitVec 6) : Laws.Coded.Statement (.sar d a b) :=
  isLong_cWord _ _ rfl (by decide)
theorem Laws.Coded.mul (d a b : BitVec 6) : Laws.Coded.Statement (.mul d a b) :=
  isLong_cWord _ _ rfl (by decide)
theorem Laws.Coded.mulh (d a b : BitVec 6) : Laws.Coded.Statement (.mulh d a b) :=
  isLong_cWord _ _ rfl (by decide)
theorem Laws.Coded.mulhn (d a b : BitVec 6) : Laws.Coded.Statement (.mulhn d a b) :=
  isLong_cWord _ _ rfl (by decide)
theorem Laws.Coded.div (d a b : BitVec 6) : Laws.Coded.Statement (.div d a b) :=
  isLong_cWord _ _ rfl (by decide)
theorem Laws.Coded.divn (d a b : BitVec 6) : Laws.Coded.Statement (.divn d a b) :=
  isLong_cWord _ _ rfl (by decide)
theorem Laws.Coded.rem (d a b : BitVec 6) : Laws.Coded.Statement (.rem d a b) :=
  isLong_cWord _ _ rfl (by decide)
theorem Laws.Coded.remn (d a b : BitVec 6) : Laws.Coded.Statement (.remn d a b) :=
  isLong_cWord _ _ rfl (by decide)
theorem Laws.Coded.min (d a b : BitVec 6) : Laws.Coded.Statement (.min d a b) :=
  isLong_cWord _ _ rfl (by decide)
theorem Laws.Coded.max (d a b : BitVec 6) : Laws.Coded.Statement (.max d a b) :=
  isLong_cWord _ _ rfl (by decide)
theorem Laws.Coded.minn (d a b : BitVec 6) : Laws.Coded.Statement (.minn d a b) :=
  isLong_cWord _ _ rfl (by decide)
theorem Laws.Coded.maxn (d a b : BitVec 6) : Laws.Coded.Statement (.maxn d a b) :=
  isLong_cWord _ _ rfl (by decide)
theorem Laws.Coded.clz (d a : BitVec 6) : Laws.Coded.Statement (.clz d a) :=
  isLong_cWord _ _ rfl (by decide)
theorem Laws.Coded.popc (d a : BitVec 6) : Laws.Coded.Statement (.popc d a) :=
  isLong_cWord _ _ rfl (by decide)
theorem Laws.Coded.bfx (d a b : BitVec 6) (sgn : Bool) : Laws.Coded.Statement (.bfx d a b sgn) :=
  isLong_cWord _ _ rfl (by decide)
theorem Laws.Coded.bfi (d a b : BitVec 6) : Laws.Coded.Statement (.bfi d a b) :=
  isLong_cWord _ _ rfl (by decide)
theorem Laws.Coded.sel (d a b : BitVec 6) (neg : Bool) (bp : BitVec 3) : Laws.Coded.Statement (.sel d a b neg bp) :=
  isLong_cWord _ _ rfl (by decide)
theorem Laws.Coded.cmp (comb bp : BitVec 3) (a b : BitVec 6) (cond : BitVec 4) : Laws.Coded.Statement (.cmp comb bp a b cond) :=
  isLong_cWord _ _ rfl (by decide)
theorem Laws.Coded.sext (d a : BitVec 6) (w : BitVec 4) : Laws.Coded.Statement (.sext d a w) :=
  isLong_cWord _ _ rfl (by decide)
theorem Laws.Coded.zext (d a : BitVec 6) (w : BitVec 4) : Laws.Coded.Statement (.zext d a w) :=
  isLong_cWord _ _ rfl (by decide)
theorem Laws.Coded.lea (d a b : BitVec 6) (sh : BitVec 4) : Laws.Coded.Statement (.lea d a b sh) :=
  isLong_cWord _ _ rfl (by decide)
theorem Laws.Coded.addi (d a : BitVec 6) (imm : BitVec 10) : Laws.Coded.Statement (.addi d a imm) :=
  isLong_cWord _ _ rfl (by decide)
theorem Laws.Coded.andi (d a : BitVec 6) (imm : BitVec 10) : Laws.Coded.Statement (.andi d a imm) :=
  isLong_cWord _ _ rfl (by decide)
theorem Laws.Coded.ori (d a : BitVec 6) (imm : BitVec 10) : Laws.Coded.Statement (.ori d a imm) :=
  isLong_cWord _ _ rfl (by decide)
theorem Laws.Coded.xori (d a : BitVec 6) (imm : BitVec 10) : Laws.Coded.Statement (.xori d a imm) :=
  isLong_cWord _ _ rfl (by decide)
theorem Laws.Coded.shli (d a sh : BitVec 6) : Laws.Coded.Statement (.shli d a sh) :=
  isLong_cWord _ _ rfl (by decide)
theorem Laws.Coded.shri (d a sh : BitVec 6) : Laws.Coded.Statement (.shri d a sh) :=
  isLong_cWord _ _ rfl (by decide)
theorem Laws.Coded.sari (d a sh : BitVec 6) : Laws.Coded.Statement (.sari d a sh) :=
  isLong_cWord _ _ rfl (by decide)
theorem Laws.Coded.cmpi (cond bp : BitVec 3) (a : BitVec 6) (imm : BitVec 10) : Laws.Coded.Statement (.cmpi cond bp a imm) :=
  isLong_cWord _ _ rfl (by decide)
theorem Laws.Coded.movi (d : BitVec 6) (imm : BitVec 32) (stamp : BitVec 16) : Laws.Coded.Statement (.movi d imm stamp) :=
  isLong_cWord _ _ rfl (by decide)
theorem Laws.Coded.movhi (d : BitVec 6) (imm : BitVec 32) (stamp : BitVec 16) : Laws.Coded.Statement (.movhi d imm stamp) :=
  isLong_cWord _ _ rfl (by decide)
theorem Laws.Coded.lds (d a : BitVec 6) (off : BitVec 23) (w : BitVec 3) (stamp : BitVec 16) : Laws.Coded.Statement (.lds d a off w stamp) :=
  isLong_cWord _ _ rfl (by decide)
theorem Laws.Coded.sts (d a : BitVec 6) (off : BitVec 23) (w : BitVec 3) (stamp : BitVec 16) : Laws.Coded.Statement (.sts d a off w stamp) :=
  isLong_cWord _ _ rfl (by decide)
theorem Laws.Coded.loadReturn (id : Nat) : Laws.Coded.Statement (.loadReturn id) :=
  trivial
theorem Laws.Coded.csrr (d : BitVec 6) (n : BitVec 10) : Laws.Coded.Statement (.csrr d n) :=
  isLong_cWord _ _ rfl (by decide)
theorem Laws.Coded.csrw (a : BitVec 6) (n : BitVec 10) : Laws.Coded.Statement (.csrw a n) :=
  isLong_cWord _ _ rfl (by decide)
theorem Laws.Coded.trap (code : BitVec 10) : Laws.Coded.Statement (.trap code) :=
  isLong_cWord _ _ rfl (by decide)
theorem Laws.Coded.setlc (lc : BitVec 3) (a : BitVec 6) : Laws.Coded.Statement (.setlc lc a) :=
  isLong_cWord _ _ rfl (by decide)
theorem Laws.Coded.setstrd (lvl : BitVec 3) (a : BitVec 6) (seatS en : Bool) (slot : BitVec 2) (p : BitVec 4) (stamp : BitVec 16) : Laws.Coded.Statement (.setstrd lvl a seatS en slot p stamp) :=
  isLong_cWord _ _ rfl (by decide)
theorem Laws.Coded.setslip (a : BitVec 6) : Laws.Coded.Statement (.setslip a) :=
  isLong_cWord _ _ rfl (by decide)
theorem Laws.Coded.prio (a : BitVec 6) : Laws.Coded.Statement (.prio a) :=
  isLong_cWord _ _ rfl (by decide)
theorem Laws.Coded.rdclk (d : BitVec 6) : Laws.Coded.Statement (.rdclk d) :=
  isLong_cWord _ _ rfl (by decide)
theorem Laws.Coded.rdstroke (d : BitVec 6) : Laws.Coded.Statement (.rdstroke d) :=
  isLong_cWord _ _ rfl (by decide)
theorem Laws.Coded.wfe (d a : BitVec 6) : Laws.Coded.Statement (.wfe d a) :=
  isLong_cWord _ _ rfl (by decide)
theorem Laws.Coded.wfeTimeout (heat : Nat) : Laws.Coded.Statement (.wfeTimeout heat) :=
  trivial
theorem Laws.Coded.sms : Laws.Coded.Statement (.sms) :=
  isLong_cWord _ _ rfl (by decide)
theorem Laws.Coded.wpv : Laws.Coded.Statement (.wpv) :=
  isLong_cWord _ _ rfl (by decide)
theorem Laws.Coded.hret : Laws.Coded.Statement (.hret) :=
  isLong_cWord _ _ rfl (by decide)
theorem Laws.Coded.bkpt (code : BitVec 10) : Laws.Coded.Statement (.bkpt code) :=
  isLong_cWord _ _ rfl (by decide)
theorem Laws.Coded.aadd (d a b : BitVec 6) (wide : Bool) (off stamp : BitVec 16) : Laws.Coded.Statement (.aadd d a b wide off stamp) :=
  isLong_cWord _ _ rfl (by decide)
theorem Laws.Coded.amin (d a b : BitVec 6) (wide : Bool) (off stamp : BitVec 16) : Laws.Coded.Statement (.amin d a b wide off stamp) :=
  isLong_cWord _ _ rfl (by decide)
theorem Laws.Coded.amax (d a b : BitVec 6) (wide : Bool) (off stamp : BitVec 16) : Laws.Coded.Statement (.amax d a b wide off stamp) :=
  isLong_cWord _ _ rfl (by decide)
theorem Laws.Coded.aminn (d a b : BitVec 6) (wide : Bool) (off stamp : BitVec 16) : Laws.Coded.Statement (.aminn d a b wide off stamp) :=
  isLong_cWord _ _ rfl (by decide)
theorem Laws.Coded.amaxn (d a b : BitVec 6) (wide : Bool) (off stamp : BitVec 16) : Laws.Coded.Statement (.amaxn d a b wide off stamp) :=
  isLong_cWord _ _ rfl (by decide)
theorem Laws.Coded.aand (d a b : BitVec 6) (wide : Bool) (off stamp : BitVec 16) : Laws.Coded.Statement (.aand d a b wide off stamp) :=
  isLong_cWord _ _ rfl (by decide)
theorem Laws.Coded.aor (d a b : BitVec 6) (wide : Bool) (off stamp : BitVec 16) : Laws.Coded.Statement (.aor d a b wide off stamp) :=
  isLong_cWord _ _ rfl (by decide)
theorem Laws.Coded.axor (d a b : BitVec 6) (wide : Bool) (off stamp : BitVec 16) : Laws.Coded.Statement (.axor d a b wide off stamp) :=
  isLong_cWord _ _ rfl (by decide)
theorem Laws.Coded.axchg (d a b : BitVec 6) (wide : Bool) (off stamp : BitVec 16) : Laws.Coded.Statement (.axchg d a b wide off stamp) :=
  isLong_cWord _ _ rfl (by decide)
theorem Laws.Coded.acas (d a b : BitVec 6) (wide : Bool) (off stamp : BitVec 16) : Laws.Coded.Statement (.acas d a b wide off stamp) :=
  isLong_cWord _ _ rfl (by decide)
theorem Laws.Coded.faadd (d a b : BitVec 6) (off stamp : BitVec 16) : Laws.Coded.Statement (.faadd d a b off stamp) :=
  isLong_cWord _ _ rfl (by decide)
theorem Laws.Coded.famin (d a b : BitVec 6) (off stamp : BitVec 16) : Laws.Coded.Statement (.famin d a b off stamp) :=
  isLong_cWord _ _ rfl (by decide)
theorem Laws.Coded.famax (d a b : BitVec 6) (off stamp : BitVec 16) : Laws.Coded.Statement (.famax d a b off stamp) :=
  isLong_cWord _ _ rfl (by decide)
theorem Laws.Coded.laadd (a b : BitVec 6) (form : BitVec 2) (off stamp : BitVec 16) : Laws.Coded.Statement (.laadd a b form off stamp) :=
  isLong_cWord _ _ rfl (by decide)
theorem Laws.Coded.ald (d a : BitVec 6) (form : BitVec 2) (off stamp : BitVec 16) : Laws.Coded.Statement (.ald d a form off stamp) :=
  isLong_cWord _ _ rfl (by decide)
theorem Laws.Coded.ast (a b : BitVec 6) (wide : Bool) (off stamp : BitVec 16) : Laws.Coded.Statement (.ast a b wide off stamp) :=
  isLong_cWord _ _ rfl (by decide)
theorem Laws.Coded.atomicApply (id : Nat) : Laws.Coded.Statement (.atomicApply id) :=
  trivial
theorem Laws.Coded.fence (scope : BitVec 4) : Laws.Coded.Statement (.fence scope) :=
  isLong_cWord _ _ rfl (by decide)
theorem Laws.Coded.fencea (scope : BitVec 4) : Laws.Coded.Statement (.fencea scope) :=
  isLong_cWord _ _ rfl (by decide)
theorem Laws.Coded.fencer (scope : BitVec 4) : Laws.Coded.Statement (.fencer scope) :=
  isLong_cWord _ _ rfl (by decide)
theorem Laws.Coded.barinit (a b : BitVec 6) (off stamp : BitVec 16) : Laws.Coded.Statement (.barinit a b off stamp) :=
  isLong_cWord _ _ rfl (by decide)
theorem Laws.Coded.bararr (d a : BitVec 6) : Laws.Coded.Statement (.bararr d a) :=
  isLong_cWord _ _ rfl (by decide)
theorem Laws.Coded.barwait (a b : BitVec 6) : Laws.Coded.Statement (.barwait a b) :=
  isLong_cWord _ _ rfl (by decide)
theorem Laws.Coded.waitcoAll (d a : BitVec 6) : Laws.Coded.Statement (.waitcoAll d a) :=
  isLong_cWord _ _ rfl (by decide)
theorem Laws.Coded.waitcoAny (d a : BitVec 6) : Laws.Coded.Statement (.waitcoAny d a) :=
  isLong_cWord _ _ rfl (by decide)
theorem Laws.Coded.testco (d a : BitVec 6) : Laws.Coded.Statement (.testco d a) :=
  isLong_cWord _ _ rfl (by decide)
theorem Laws.Coded.dbar (id : BitVec 6) : Laws.Coded.Statement (.dbar id) :=
  isLong_cWord _ _ rfl (by decide)
theorem Laws.Coded.spawn (d a : BitVec 6) (c : Ctl) : Laws.Coded.Statement (.spawn d a c) :=
  isLong_cWord _ _ rfl (by decide)
theorem Laws.Coded.spawnt (d a b : BitVec 6) (n : BitVec 4) (c : Ctl) : Laws.Coded.Statement (.spawnt d a b n c) :=
  isLong_cWord _ _ rfl (by decide)
theorem Laws.Coded.cancel (d a b : BitVec 6) (lvl : BitVec 4) : Laws.Coded.Statement (.cancel d a b lvl) :=
  isLong_cWord _ _ rfl (by decide)
theorem Laws.Coded.waitc (d a b : BitVec 6) (lvl : BitVec 4) : Laws.Coded.Statement (.waitc d a b lvl) :=
  isLong_cWord _ _ rfl (by decide)
theorem Laws.Coded.suspend (a b : BitVec 6) : Laws.Coded.Statement (.suspend a b) :=
  isLong_cWord _ _ rfl (by decide)
theorem Laws.Coded.resume (d a : BitVec 6) (c : Ctl) : Laws.Coded.Statement (.resume d a c) :=
  isLong_cWord _ _ rfl (by decide)
theorem Laws.Coded.copyco (d a b : BitVec 6) (c : Ctl) : Laws.Coded.Statement (.copyco d a b c) :=
  isLong_cWord _ _ rfl (by decide)
theorem Laws.Coded.dropco (d a : BitVec 6) : Laws.Coded.Statement (.dropco d a) :=
  isLong_cWord _ _ rfl (by decide)
theorem Laws.Coded.yieldi (a : BitVec 6) : Laws.Coded.Statement (.yieldi a) :=
  isLong_cWord _ _ rfl (by decide)
theorem Laws.Coded.yieldExpiry (heat : Nat) : Laws.Coded.Statement (.yieldExpiry heat) :=
  trivial
theorem Laws.Coded.self (d : BitVec 6) (sel : BitVec 4) : Laws.Coded.Statement (.self d sel) :=
  isLong_cWord _ _ rfl (by decide)
theorem Laws.Coded.slwin (a b : BitVec 6) (kk : BitVec 4) (w1 : BitVec 12) (stamp : BitVec 16) : Laws.Coded.Statement (.slwin a b kk w1 stamp) :=
  isLong_cWord _ _ rfl (by decide)
theorem Laws.Coded.slres (a b : BitVec 6) (off stamp : BitVec 16) : Laws.Coded.Statement (.slres a b off stamp) :=
  isLong_cWord _ _ rfl (by decide)
theorem Laws.Coded.slchk (comb bp : BitVec 3) (a b : BitVec 6) (off stamp : BitVec 16) : Laws.Coded.Statement (.slchk comb bp a b off stamp) :=
  isLong_cWord _ _ rfl (by decide)
theorem Laws.Coded.sldone (a : BitVec 6) (neg : Bool) (bp : BitVec 3) : Laws.Coded.Statement (.sldone a neg bp) :=
  isLong_cWord _ _ rfl (by decide)
theorem Laws.Coded.slnext (d : BitVec 6) : Laws.Coded.Statement (.slnext d) :=
  isLong_cWord _ _ rfl (by decide)
theorem Laws.Coded.slreset (a b : BitVec 6) (off stamp : BitVec 16) : Laws.Coded.Statement (.slreset a b off stamp) :=
  isLong_cWord _ _ rfl (by decide)
theorem Laws.Coded.taintq (d a : BitVec 6) : Laws.Coded.Statement (.taintq d a) :=
  isLong_cWord _ _ rfl (by decide)
theorem Laws.Coded.taintqMem (d a : BitVec 6) : Laws.Coded.Statement (.taintqMem d a) :=
  isLong_cWord _ _ rfl (by decide)
theorem Laws.Coded.tclr (d a : BitVec 6) : Laws.Coded.Statement (.tclr d a) :=
  isLong_cWord _ _ rfl (by decide)
theorem Laws.Coded.tcnt (d : BitVec 6) (clr : Bool) (sel : BitVec 2) : Laws.Coded.Statement (.tcnt d clr sel) :=
  isLong_cWord _ _ rfl (by decide)
theorem Laws.Coded.nopl (w : Slot) : Laws.Coded.Statement (.nopl w) :=
  isLong_slotWord _ _ _ _ rfl (by decide) (by decide) (by decide)
theorem Laws.Coded.ldq (w : Slot) (q p : BitVec 4) (upd : BitVec 2) : Laws.Coded.Statement (.ldq w q p upd) :=
  isLong_slotWord _ _ _ _ rfl (by decide) (by decide) (by decide)
theorem Laws.Coded.ldqs (w : Slot) (q p : BitVec 4) (upd : BitVec 2) : Laws.Coded.Statement (.ldqs w q p upd) :=
  isLong_slotWord _ _ _ _ rfl (by decide) (by decide) (by decide)
theorem Laws.Coded.gatq (w : Slot) (q p : BitVec 4) (qi : BitVec 2) : Laws.Coded.Statement (.gatq w q p qi) :=
  isLong_slotWord _ _ _ _ rfl (by decide) (by decide) (by decide)
theorem Laws.Coded.lQset (w : Slot) (q : BitVec 4) (sa : BitVec 6) (ringEn : Bool) (ring : BitVec 3) (fmt : BitVec 4) (elems1 : BitVec 9) (stamp : BitVec 16) : Laws.Coded.Statement (.lQset w q sa ringEn ring fmt elems1 stamp) :=
  isLong_slotWord _ _ _ _ rfl (by decide) (by decide) (by decide)
theorem Laws.Coded.lPset (w : Slot) (p : BitVec 4) (sa : BitVec 6) : Laws.Coded.Statement (.lPset w p sa) :=
  isLong_slotWord _ _ _ _ rfl (by decide) (by decide) (by decide)
theorem Laws.Coded.lPadd (w : Slot) (p : BitVec 4) (imm : BitVec 10) : Laws.Coded.Statement (.lPadd w p imm) :=
  isLong_slotWord _ _ _ _ rfl (by decide) (by decide) (by decide)
theorem Laws.Coded.cpyin (w : Slot) (p : BitVec 4) (sa : BitVec 6) (len : BitVec 12) (c : Ctl) : Laws.Coded.Statement (.cpyin w p sa len c) :=
  isLong_slotWord _ _ _ _ rfl (by decide) (by decide) (by decide)
theorem Laws.Coded.gatr (w : Slot) (pb pi : BitVec 4) (disp : BitVec 14) (c : Ctl) : Laws.Coded.Statement (.gatr w pb pi disp c) :=
  isLong_slotWord _ _ _ _ rfl (by decide) (by decide) (by decide)
theorem Laws.Coded.ldblk (w : Slot) (tag : BitVec 4) (sa lines1 : BitVec 6) (c : Ctl) : Laws.Coded.Statement (.ldblk w tag sa lines1 c) :=
  isLong_slotWord _ _ _ _ rfl (by decide) (by decide) (by decide)
theorem Laws.Coded.ldblkRel (w : Slot) (tag : BitVec 4) (c : Ctl) : Laws.Coded.Statement (.ldblkRel w tag c) :=
  isLong_slotWord _ _ _ _ rfl (by decide) (by decide) (by decide)
theorem Laws.Coded.pref (w : Slot) (sa : BitVec 6) (level : BitVec 2) (lines1 : BitVec 8) (stamp : BitVec 16) : Laws.Coded.Statement (.pref w sa level lines1 stamp) :=
  isLong_slotWord _ _ _ _ rfl (by decide) (by decide) (by decide)
theorem Laws.Coded.stmap (w : Slot) (p : BitVec 4) (sa : BitVec 6) (slot : BitVec 4) (lines stamp : BitVec 16) : Laws.Coded.Statement (.stmap w p sa slot lines stamp) :=
  isLong_slotWord _ _ _ _ rfl (by decide) (by decide) (by decide)
theorem Laws.Coded.stunmap (w : Slot) (slot : BitVec 4) (c : Ctl) : Laws.Coded.Statement (.stunmap w slot c) :=
  isLong_slotWord _ _ _ _ rfl (by decide) (by decide) (by decide)
theorem Laws.Coded.stflush (w : Slot) (all : Bool) (slot : BitVec 4) (c : Ctl) : Laws.Coded.Statement (.stflush w all slot c) :=
  isLong_slotWord _ _ _ _ rfl (by decide) (by decide) (by decide)
theorem Laws.Coded.bagopen (w : Slot) (disp : BitVec 22) (c : Ctl) : Laws.Coded.Statement (.bagopen w disp c) :=
  isLong_slotWord _ _ _ _ rfl (by decide) (by decide) (by decide)
theorem Laws.Coded.invm (w : Slot) (sa : BitVec 6) (size : BitVec 2) (pages1 : BitVec 14) (stamp : BitVec 16) : Laws.Coded.Statement (.invm w sa size pages1 stamp) :=
  isLong_slotWord _ _ _ _ rfl (by decide) (by decide) (by decide)
theorem Laws.Coded.invmComplete (heat : Nat) : Laws.Coded.Statement (.invmComplete heat) :=
  trivial
theorem Laws.Coded.lCwait (w : Slot) (co : BitVec 6) : Laws.Coded.Statement (.lCwait w co) :=
  isLong_slotWord _ _ _ _ rfl (by decide) (by decide) (by decide)
theorem Laws.Coded.rpush (w : Slot) (ring : BitVec 3) (n : BitVec 11) : Laws.Coded.Statement (.rpush w ring n) :=
  isLong_slotWord _ _ _ _ rfl (by decide) (by decide) (by decide)
theorem Laws.Coded.hnd (w : Slot) (disp : BitVec 30) (stamp : BitVec 16) : Laws.Coded.Statement (.hnd w disp stamp) :=
  isLong_slotWord _ _ _ _ rfl (by decide) (by decide) (by decide)
theorem Laws.Coded.nops (w : Slot) : Laws.Coded.Statement (.nops w) :=
  isLong_slotWord _ _ _ _ rfl (by decide) (by decide) (by decide)
theorem Laws.Coded.stq (w : Slot) (q p : BitVec 4) (upd : BitVec 2) : Laws.Coded.Statement (.stq w q p upd) :=
  isLong_slotWord _ _ _ _ rfl (by decide) (by decide) (by decide)
theorem Laws.Coded.stqs (w : Slot) (q p : BitVec 4) (upd : BitVec 2) : Laws.Coded.Statement (.stqs w q p upd) :=
  isLong_slotWord _ _ _ _ rfl (by decide) (by decide) (by decide)
theorem Laws.Coded.scatq (w : Slot) (q p : BitVec 4) (qi : BitVec 2) : Laws.Coded.Statement (.scatq w q p qi) :=
  isLong_slotWord _ _ _ _ rfl (by decide) (by decide) (by decide)
theorem Laws.Coded.sQset (w : Slot) (q : BitVec 4) (sa : BitVec 6) (ringEn : Bool) (ring : BitVec 3) (fmt : BitVec 4) (elems1 : BitVec 9) (stamp : BitVec 16) : Laws.Coded.Statement (.sQset w q sa ringEn ring fmt elems1 stamp) :=
  isLong_slotWord _ _ _ _ rfl (by decide) (by decide) (by decide)
theorem Laws.Coded.sPset (w : Slot) (p : BitVec 4) (sa : BitVec 6) : Laws.Coded.Statement (.sPset w p sa) :=
  isLong_slotWord _ _ _ _ rfl (by decide) (by decide) (by decide)
theorem Laws.Coded.sPadd (w : Slot) (p : BitVec 4) (imm : BitVec 10) : Laws.Coded.Statement (.sPadd w p imm) :=
  isLong_slotWord _ _ _ _ rfl (by decide) (by decide) (by decide)
theorem Laws.Coded.cpyout (w : Slot) (p : BitVec 4) (sa : BitVec 6) (len : BitVec 12) (c : Ctl) : Laws.Coded.Statement (.cpyout w p sa len c) :=
  isLong_slotWord _ _ _ _ rfl (by decide) (by decide) (by decide)
theorem Laws.Coded.scatr (w : Slot) (pb pi : BitVec 4) (disp : BitVec 14) (c : Ctl) : Laws.Coded.Statement (.scatr w pb pi disp c) :=
  isLong_slotWord _ _ _ _ rfl (by decide) (by decide) (by decide)
theorem Laws.Coded.bagclose (w : Slot) (disp : BitVec 22) (c : Ctl) : Laws.Coded.Statement (.bagclose w disp c) :=
  isLong_slotWord _ _ _ _ rfl (by decide) (by decide) (by decide)
theorem Laws.Coded.asrcpy (w : Slot) (p : BitVec 4) (sa : BitVec 6) (n : BitVec 11) (retire : Bool) (c : Ctl) : Laws.Coded.Statement (.asrcpy w p sa n retire c) :=
  isLong_slotWord _ _ _ _ rfl (by decide) (by decide) (by decide)
theorem Laws.Coded.coll (w : Slot) (p : BitVec 4) (c : Ctl) : Laws.Coded.Statement (.coll w p c) :=
  isLong_slotWord _ _ _ _ rfl (by decide) (by decide) (by decide)
theorem Laws.Coded.rpop (w : Slot) (ring : BitVec 3) (n : BitVec 11) : Laws.Coded.Statement (.rpop w ring n) :=
  isLong_slotWord _ _ _ _ rfl (by decide) (by decide) (by decide)
theorem Laws.Coded.sCwait (w : Slot) (co : BitVec 6) : Laws.Coded.Statement (.sCwait w co) :=
  isLong_slotWord _ _ _ _ rfl (by decide) (by decide) (by decide)
theorem Laws.Coded.nopx (w : Slot) : Laws.Coded.Statement (.nopx w) :=
  isLong_slotWord _ _ _ _ rfl (by decide) (by decide) (by decide)
theorem Laws.Coded.sett (w : Slot) (fmt : BitVec 4) (rm : BitVec 3) : Laws.Coded.Statement (.sett w fmt rm) :=
  isLong_slotWord _ _ _ _ rfl (by decide) (by decide) (by decide)
theorem Laws.Coded.settM (w : Slot) (af wf : BitVec 4) (asg wsg : Bool) : Laws.Coded.Statement (.settM w af wf asg wsg) :=
  isLong_slotWord _ _ _ _ rfl (by decide) (by decide) (by decide)
theorem Laws.Coded.settO (w : Slot) (fmt : BitVec 4) : Laws.Coded.Statement (.settO w fmt) :=
  isLong_slotWord _ _ _ _ rfl (by decide) (by decide) (by decide)
theorem Laws.Coded.vadd (w : Slot) (vd va : BitVec 5) (vb : BitVec 4) : Laws.Coded.Statement (.vadd w vd va vb) :=
  isLong_slotWord _ _ _ _ rfl (by decide) (by decide) (by decide)
theorem Laws.Coded.vsub (w : Slot) (vd va : BitVec 5) (vb : BitVec 4) : Laws.Coded.Statement (.vsub w vd va vb) :=
  isLong_slotWord _ _ _ _ rfl (by decide) (by decide) (by decide)
theorem Laws.Coded.vmul (w : Slot) (vd va : BitVec 5) (vb : BitVec 4) : Laws.Coded.Statement (.vmul w vd va vb) :=
  isLong_slotWord _ _ _ _ rfl (by decide) (by decide) (by decide)
theorem Laws.Coded.vfma (w : Slot) (vd va : BitVec 5) (vb : BitVec 4) : Laws.Coded.Statement (.vfma w vd va vb) :=
  isLong_slotWord _ _ _ _ rfl (by decide) (by decide) (by decide)
theorem Laws.Coded.vmin (w : Slot) (vd va : BitVec 5) (vb : BitVec 4) : Laws.Coded.Statement (.vmin w vd va vb) :=
  isLong_slotWord _ _ _ _ rfl (by decide) (by decide) (by decide)
theorem Laws.Coded.vmax (w : Slot) (vd va : BitVec 5) (vb : BitVec 4) : Laws.Coded.Statement (.vmax w vd va vb) :=
  isLong_slotWord _ _ _ _ rfl (by decide) (by decide) (by decide)
theorem Laws.Coded.vabs (w : Slot) (vd va : BitVec 5) : Laws.Coded.Statement (.vabs w vd va) :=
  isLong_slotWord _ _ _ _ rfl (by decide) (by decide) (by decide)
theorem Laws.Coded.vneg (w : Slot) (vd va : BitVec 5) : Laws.Coded.Statement (.vneg w vd va) :=
  isLong_slotWord _ _ _ _ rfl (by decide) (by decide) (by decide)
theorem Laws.Coded.vand (w : Slot) (vd va : BitVec 5) (vb : BitVec 4) : Laws.Coded.Statement (.vand w vd va vb) :=
  isLong_slotWord _ _ _ _ rfl (by decide) (by decide) (by decide)
theorem Laws.Coded.vor (w : Slot) (vd va : BitVec 5) (vb : BitVec 4) : Laws.Coded.Statement (.vor w vd va vb) :=
  isLong_slotWord _ _ _ _ rfl (by decide) (by decide) (by decide)
theorem Laws.Coded.vxor (w : Slot) (vd va : BitVec 5) (vb : BitVec 4) : Laws.Coded.Statement (.vxor w vd va vb) :=
  isLong_slotWord _ _ _ _ rfl (by decide) (by decide) (by decide)
theorem Laws.Coded.vshl (w : Slot) (vd va : BitVec 5) (vb : BitVec 4) : Laws.Coded.Statement (.vshl w vd va vb) :=
  isLong_slotWord _ _ _ _ rfl (by decide) (by decide) (by decide)
theorem Laws.Coded.vshr (w : Slot) (vd va : BitVec 5) (vb : BitVec 4) : Laws.Coded.Statement (.vshr w vd va vb) :=
  isLong_slotWord _ _ _ _ rfl (by decide) (by decide) (by decide)
theorem Laws.Coded.vsar (w : Slot) (vd va : BitVec 5) (vb : BitVec 4) : Laws.Coded.Statement (.vsar w vd va vb) :=
  isLong_slotWord _ _ _ _ rfl (by decide) (by decide) (by decide)
theorem Laws.Coded.vcmp (w : Slot) (kd : BitVec 3) (cond : BitVec 2) (va : BitVec 5) (vb : BitVec 4) : Laws.Coded.Statement (.vcmp w kd cond va vb) :=
  isLong_slotWord _ _ _ _ rfl (by decide) (by decide) (by decide)
theorem Laws.Coded.vsel (w : Slot) (vd va : BitVec 5) (vb : BitVec 4) : Laws.Coded.Statement (.vsel w vd va vb) :=
  isLong_slotWord _ _ _ _ rfl (by decide) (by decide) (by decide)
theorem Laws.Coded.vmov (w : Slot) (vd va : BitVec 5) : Laws.Coded.Statement (.vmov w vd va) :=
  isLong_slotWord _ _ _ _ rfl (by decide) (by decide) (by decide)
theorem Laws.Coded.vbcst (w : Slot) (vd : BitVec 5) (sa : BitVec 6) : Laws.Coded.Statement (.vbcst w vd sa) :=
  isLong_slotWord _ _ _ _ rfl (by decide) (by decide) (by decide)
theorem Laws.Coded.vidx (w : Slot) (vd : BitVec 5) : Laws.Coded.Statement (.vidx w vd) :=
  isLong_slotWord _ _ _ _ rfl (by decide) (by decide) (by decide)
theorem Laws.Coded.vcvt (w : Slot) (vd va : BitVec 5) (fmt : BitVec 4) : Laws.Coded.Statement (.vcvt w vd va fmt) :=
  isLong_slotWord _ _ _ _ rfl (by decide) (by decide) (by decide)
theorem Laws.Coded.vrcp (w : Slot) (vd va : BitVec 5) : Laws.Coded.Statement (.vrcp w vd va) :=
  isLong_slotWord _ _ _ _ rfl (by decide) (by decide) (by decide)
theorem Laws.Coded.vrsq (w : Slot) (vd va : BitVec 5) : Laws.Coded.Statement (.vrsq w vd va) :=
  isLong_slotWord _ _ _ _ rfl (by decide) (by decide) (by decide)
theorem Laws.Coded.vexp2 (w : Slot) (vd va : BitVec 5) : Laws.Coded.Statement (.vexp2 w vd va) :=
  isLong_slotWord _ _ _ _ rfl (by decide) (by decide) (by decide)
theorem Laws.Coded.vlog2 (w : Slot) (vd va : BitVec 5) : Laws.Coded.Statement (.vlog2 w vd va) :=
  isLong_slotWord _ _ _ _ rfl (by decide) (by decide) (by decide)
theorem Laws.Coded.vred (w : Slot) (vd va : BitVec 5) (op : BitVec 4) : Laws.Coded.Statement (.vred w vd va op) :=
  isLong_slotWord _ _ _ _ rfl (by decide) (by decide) (by decide)
theorem Laws.Coded.vscan (w : Slot) (vd va : BitVec 5) (excl : Bool) (op : BitVec 3) : Laws.Coded.Statement (.vscan w vd va excl op) :=
  isLong_slotWord _ _ _ _ rfl (by decide) (by decide) (by decide)
theorem Laws.Coded.vperm (w : Slot) (vd va : BitVec 5) (vb : BitVec 4) : Laws.Coded.Statement (.vperm w vd va vb) :=
  isLong_slotWord _ _ _ _ rfl (by decide) (by decide) (by decide)
theorem Laws.Coded.vqnt (w : Slot) (vd va : BitVec 5) : Laws.Coded.Statement (.vqnt w vd va) :=
  isLong_slotWord _ _ _ _ rfl (by decide) (by decide) (by decide)
theorem Laws.Coded.vdqn (w : Slot) (vd va : BitVec 5) : Laws.Coded.Statement (.vdqn w vd va) :=
  isLong_slotWord _ _ _ _ rfl (by decide) (by decide) (by decide)
theorem Laws.Coded.kop (w : Slot) (kd ka kb op : BitVec 3) : Laws.Coded.Statement (.kop w kd ka kb op) :=
  isLong_slotWord _ _ _ _ rfl (by decide) (by decide) (by decide)
theorem Laws.Coded.vcpush (w : Slot) (vd va : BitVec 5) (form : BitVec 4) : Laws.Coded.Statement (.vcpush w vd va form) :=
  isLong_slotWord _ _ _ _ rfl (by decide) (by decide) (by decide)
theorem Laws.Coded.vcpop (w : Slot) (vd va : BitVec 5) (form : BitVec 4) : Laws.Coded.Statement (.vcpop w vd va form) :=
  isLong_slotWord _ _ _ _ rfl (by decide) (by decide) (by decide)
theorem Laws.Coded.mwld (w : Slot) (ring : BitVec 3) (k1 n1 : BitVec 8) (stamp : BitVec 16) : Laws.Coded.Statement (.mwld w ring k1 n1 stamp) :=
  isLong_slotWord _ _ _ _ rfl (by decide) (by decide) (by decide)
theorem Laws.Coded.mbag (w : Slot) (ring : BitVec 3) (acc exact : Bool) (disp : BitVec 17) (c : Ctl) : Laws.Coded.Statement (.mbag w ring acc exact disp c) :=
  isLong_slotWord _ _ _ _ rfl (by decide) (by decide) (by decide)
theorem Laws.Coded.mmul (w : Slot) (src : BitVec 3) (srcQ : Bool) (dk : BitVec 2) (dst : BitVec 3) (sr : BitVec 6) (c : Ctl) : Laws.Coded.Statement (.mmul w src srcQ dk dst sr c) :=
  isLong_slotWord _ _ _ _ rfl (by decide) (by decide) (by decide)
theorem Laws.Coded.mdist (w : Slot) (src : BitVec 3) (srcQ : Bool) (dk : BitVec 2) (dst : BitVec 3) (sr : BitVec 6) (c : Ctl) : Laws.Coded.Statement (.mdist w src srcQ dk dst sr c) :=
  isLong_slotWord _ _ _ _ rfl (by decide) (by decide) (by decide)
theorem Laws.Coded.mtopk (w : Slot) (src : BitVec 3) (srcQ : Bool) (dk : BitVec 2) (dst : BitVec 3) (largest : Bool) (kr1 : BitVec 4) (dist : Bool) (sr : BitVec 6) (c : Ctl) : Laws.Coded.Statement (.mtopk w src srcQ dk dst largest kr1 dist sr c) :=
  isLong_slotWord _ _ _ _ rfl (by decide) (by decide) (by decide)
theorem Laws.Coded.mret (w : Slot) (force : Bool) (disp : BitVec 17) (c : Ctl) : Laws.Coded.Statement (.mret w force disp c) :=
  isLong_slotWord _ _ _ _ rfl (by decide) (by decide) (by decide)
theorem Laws.Coded.mretRegion (w : Slot) (kind : BitVec 2) (n1 : BitVec 8) (sr : BitVec 6) (c : Ctl) : Laws.Coded.Statement (.mretRegion w kind n1 sr c) :=
  isLong_slotWord _ _ _ _ rfl (by decide) (by decide) (by decide)
theorem Laws.Coded.mclr (w : Slot) (kind : BitVec 2) (n1 : BitVec 8) (sr : BitVec 6) (c : Ctl) : Laws.Coded.Statement (.mclr w kind n1 sr c) :=
  isLong_slotWord _ _ _ _ rfl (by decide) (by decide) (by decide)
theorem Laws.Coded.rset (w : Slot) (f : BitVec 30) (stamp : BitVec 16) : Laws.Coded.Statement (.rset w f stamp) :=
  isLong_slotWord _ _ _ _ rfl (by decide) (by decide) (by decide)
theorem Laws.Coded.mwait (w : Slot) : Laws.Coded.Statement (.mwait w) :=
  isLong_slotWord _ _ _ _ rfl (by decide) (by decide) (by decide)
theorem Laws.Coded.lease (w : Slot) (n1 : BitVec 8) : Laws.Coded.Statement (.lease w n1) :=
  isLong_slotWord _ _ _ _ rfl (by decide) (by decide) (by decide)
theorem Laws.Coded.unlease (w : Slot) : Laws.Coded.Statement (.unlease w) :=
  isLong_slotWord _ _ _ _ rfl (by decide) (by decide) (by decide)
theorem Laws.Coded.leaseGrant (crew : Nat) : Laws.Coded.Statement (.leaseGrant crew) :=
  trivial
theorem Laws.Coded.arrayRowResult (cmd : Nat) : Laws.Coded.Statement (.arrayRowResult cmd) :=
  trivial
theorem Laws.Coded.engineCommandStart (core : Nat) : Laws.Coded.Statement (.engineCommandStart core) :=
  trivial
theorem Laws.Coded.gatherRowLand (cmd pos : Nat) : Laws.Coded.Statement (.gatherRowLand cmd pos) :=
  trivial
theorem Laws.Coded.transferPerformed (cmd : Nat) : Laws.Coded.Statement (.transferPerformed cmd) :=
  trivial
theorem Laws.Coded.commandComplete (cmd : Nat) : Laws.Coded.Statement (.commandComplete cmd) :=
  trivial
theorem Laws.Coded.handlerStart (core : Nat) : Laws.Coded.Statement (.handlerStart core) :=
  trivial
theorem Laws.Coded.tokenWatchdog (heat : Nat) (seat : Seat) : Laws.Coded.Statement (.tokenWatchdog heat seat) :=
  trivial
theorem Laws.Coded.heatAged (heat : Nat) (seat : Seat) : Laws.Coded.Statement (.heatAged heat seat) :=
  trivial
theorem Laws.Coded.walkerPlace (die : Nat) : Laws.Coded.Statement (.walkerPlace die) :=
  trivial
theorem Laws.Coded.launchEnqueue (req : Nat) : Laws.Coded.Statement (.launchEnqueue req) :=
  trivial
theorem Laws.Coded.heatEnd (heat : Nat) : Laws.Coded.Statement (.heatEnd heat) :=
  trivial
theorem Laws.Coded.heatFaulted (heat : Nat) : Laws.Coded.Statement (.heatFaulted heat) :=
  trivial
theorem Laws.Coded.heatCancelled (heat : Nat) : Laws.Coded.Statement (.heatCancelled heat) :=
  trivial
theorem Laws.Coded.heatSuspended (heat : Nat) : Laws.Coded.Statement (.heatSuspended heat) :=
  trivial
theorem Laws.Coded.resumePlacement (req : Nat) : Laws.Coded.Statement (.resumePlacement req) :=
  trivial
theorem Laws.Coded.coxedPlacement (entry : Nat) : Laws.Coded.Statement (.coxedPlacement entry) :=
  trivial
theorem Laws.Coded.spanEnd (heat : Nat) : Laws.Coded.Statement (.spanEnd heat) :=
  trivial
theorem Laws.Coded.drawMessageEntry (msg : Nat) : Laws.Coded.Statement (.drawMessageEntry msg) :=
  trivial
theorem Laws.Coded.beatRelease (id : Nat) : Laws.Coded.Statement (.beatRelease id) :=
  trivial
theorem Laws.Coded.writeForwardApply (id : Nat) : Laws.Coded.Statement (.writeForwardApply id) :=
  trivial
theorem Laws.Coded.sampleTick (job : Nat) : Laws.Coded.Statement (.sampleTick job) :=
  trivial
theorem Laws.Coded.qpollChange (q : Nat) : Laws.Coded.Statement (.qpollChange q) :=
  trivial
theorem Laws.Coded.nopPacket (q : Nat) : Laws.Coded.Statement (.nopPacket q) :=
  trivial
theorem Laws.Coded.launchPacket (q : Nat) : Laws.Coded.Statement (.launchPacket q) :=
  trivial
theorem Laws.Coded.graphPacket (q : Nat) : Laws.Coded.Statement (.graphPacket q) :=
  trivial
theorem Laws.Coded.pclose (q : Nat) : Laws.Coded.Statement (.pclose q) :=
  trivial
theorem Laws.Coded.cancelPacket (q : Nat) : Laws.Coded.Statement (.cancelPacket q) :=
  trivial
theorem Laws.Coded.writePacket (q : Nat) : Laws.Coded.Statement (.writePacket q) :=
  trivial
theorem Laws.Coded.coxedPacket (q : Nat) : Laws.Coded.Statement (.coxedPacket q) :=
  trivial
theorem Laws.Coded.preemptPacket (q : Nat) : Laws.Coded.Statement (.preemptPacket q) :=
  trivial
theorem Laws.Coded.wayFlushDone (die slice : Nat) : Laws.Coded.Statement (.wayFlushDone die slice) :=
  trivial
theorem Laws.Coded.rebalanceInterval (die : Nat) : Laws.Coded.Statement (.rebalanceInterval die) :=
  trivial
theorem Laws.Coded.bucketMoveDone (die : Nat) : Laws.Coded.Statement (.bucketMoveDone die) :=
  trivial
theorem Laws.Coded.haltPendingHalt (heat : Nat) : Laws.Coded.Statement (.haltPendingHalt heat) :=
  trivial
theorem Laws.Coded.rom (ok : Bool) : Laws.Coded.Statement (.rom ok) :=
  trivial
theorem Laws.Coded.verify (lamomImg cpImg : FirmwareImage) : Laws.Coded.Statement (.verify lamomImg cpImg) :=
  trivial
theorem Laws.Coded.measure (ok : Bool) : Laws.Coded.Statement (.measure ok) :=
  trivial
theorem Laws.Coded.arrays (ok : Bool) : Laws.Coded.Statement (.arrays ok) :=
  trivial
theorem Laws.Coded.sram (ok : Bool) : Laws.Coded.Statement (.sram ok) :=
  trivial
theorem Laws.Coded.dram (ok : Bool) : Laws.Coded.Statement (.dram ok) :=
  trivial
theorem Laws.Coded.links (dieOk cxlOk : Bool) (cables : List LinkTraining) : Laws.Coded.Statement (.links dieOk cxlOk cables) :=
  trivial
theorem Laws.Coded.illegalEncoding : Laws.Coded.Statement (.illegalEncoding) :=
  trivial
theorem Laws.Coded.fetchFailure (protection : Bool) : Laws.Coded.Statement (.fetchFailure protection) :=
  trivial
theorem Laws.Coded.atomicRetry (id : Nat) : Laws.Coded.Statement (.atomicRetry id) :=
  trivial
theorem Laws.Coded.settleTimeout (cmd : Nat) : Laws.Coded.Statement (.settleTimeout cmd) :=
  trivial
theorem Laws.Coded.commandSteal (cmd thief : Nat) : Laws.Coded.Statement (.commandSteal cmd thief) :=
  trivial
theorem Laws.Coded.stealAcknowledge (cmd : Nat) : Laws.Coded.Statement (.stealAcknowledge cmd) :=
  trivial
theorem Laws.Coded.stealMarkTimeout (cmd : Nat) : Laws.Coded.Statement (.stealMarkTimeout cmd) :=
  trivial
theorem Laws.Coded.thiefReset (core : Nat) : Laws.Coded.Statement (.thiefReset core) :=
  trivial
theorem Laws.Coded.cancelMessage (job : NumBeat) : Laws.Coded.Statement (.cancelMessage job) :=
  trivial
theorem Laws.Coded.fjaroitaBeatArrival (beat : LinkBeat) (addr : Nat) (val : BitVec 64) (taint : Bool) : Laws.Coded.Statement (.fjaroitaBeatArrival beat addr val taint) :=
  trivial
theorem Laws.Coded.probeArrival (core line : Nat) : Laws.Coded.Statement (.probeArrival core line) :=
  trivial
theorem Laws.Coded.hostHdmAccess (wr : Bool) (addr : Nat) (val : BitVec 64) : Laws.Coded.Statement (.hostHdmAccess wr addr val) :=
  trivial
theorem Laws.Coded.collAbortMessage (job group : Nat) (seq : NumBeat) : Laws.Coded.Statement (.collAbortMessage job group seq) :=
  trivial
theorem Laws.Coded.qdoor (q : Nat) (p : BitVec 32) : Laws.Coded.Statement (.qdoor q p) :=
  trivial
theorem Laws.Coded.qctl (q : Nat) (v : BitVec 32) : Laws.Coded.Statement (.qctl q v) :=
  trivial
theorem Laws.Coded.devnum (v : BitVec 64) : Laws.Coded.Statement (.devnum v) :=
  trivial
theorem Laws.Coded.bucketTableEntry (die b : Nat) (v : BitVec 32) : Laws.Coded.Statement (.bucketTableEntry die b v) :=
  trivial
theorem Laws.Coded.registerWrite (r : HostReg) (v : BitVec 64) : Laws.Coded.Statement (.registerWrite r v) :=
  trivial
theorem Laws.Coded.flushWays (die slice : Nat) (mask : BitVec 16) : Laws.Coded.Statement (.flushWays die slice mask) :=
  trivial
theorem Laws.Coded.setScratchMask (die slice : Nat) (mask : BitVec 16) : Laws.Coded.Statement (.setScratchMask die slice mask) :=
  trivial
theorem Laws.Coded.clkalignStart (v : BitVec 64) : Laws.Coded.Statement (.clkalignStart v) :=
  trivial
theorem Laws.Coded.clockAligned (parentAligned : Bool) (parentClock : Nat) (ends : List Nat) : Laws.Coded.Statement (.clockAligned parentAligned parentClock ends) :=
  trivial
theorem Laws.Coded.linkDown (link : Nat) : Laws.Coded.Statement (.linkDown link) :=
  trivial
theorem Laws.Coded.unitGate (u : GateUnit) : Laws.Coded.Statement (.unitGate u) :=
  trivial
theorem Laws.Coded.unitWake (u : GateUnit) : Laws.Coded.Statement (.unitWake u) :=
  trivial
theorem Laws.Coded.readSelfTestReport : Laws.Coded.Statement (.readSelfTestReport) :=
  trivial
theorem Laws.Coded.readErrorLog : Laws.Coded.Statement (.readErrorLog) :=
  trivial
theorem Laws.Coded.readMeasurementRegister (m : Nat) : Laws.Coded.Statement (.readMeasurementRegister m) :=
  trivial
theorem Laws.Coded.extendRegister (m : Nat) (digest : BitVec 512) : Laws.Coded.Statement (.extendRegister m digest) :=
  trivial
theorem Laws.Coded.advanceSecurityVersion : Laws.Coded.Statement (.advanceSecurityVersion) :=
  trivial
theorem Laws.Coded.keyLoad (slot : Nat) (key : BitVec 512) (owner : Nat) : Laws.Coded.Statement (.keyLoad slot key owner) :=
  trivial
theorem Laws.Coded.keyUnload (slot : Nat) : Laws.Coded.Statement (.keyUnload slot) :=
  trivial
theorem Laws.Coded.debuggerAttach (job : Nat) : Laws.Coded.Statement (.debuggerAttach job) :=
  trivial
theorem Laws.Coded.debuggerDetach (job : Nat) : Laws.Coded.Statement (.debuggerDetach job) :=
  trivial
theorem Laws.Coded.setWatchpoint (job n : Nat) (base : BitVec 64) (log2len : Nat) (rd wr : Bool) : Laws.Coded.Statement (.setWatchpoint job n base log2len rd wr) :=
  trivial
theorem Laws.Coded.haltRequest (job : Nat) (heat : Option Nat) : Laws.Coded.Statement (.haltRequest job heat) :=
  trivial
theorem Laws.Coded.release (job : Nat) : Laws.Coded.Statement (.release job) :=
  trivial
theorem Laws.Coded.stepRelease (heat : Nat) (seat : Seat) (n : Nat) : Laws.Coded.Statement (.stepRelease heat seat n) :=
  trivial
theorem Laws.Coded.readHaltRecord (job : Nat) : Laws.Coded.Statement (.readHaltRecord job) :=
  trivial
theorem Laws.Coded.mailboxUnsupported (opcode : BitVec 16) : Laws.Coded.Statement (.mailboxUnsupported opcode) :=
  trivial
theorem Laws.Coded.debugRegisterWrite (heat : Nat) (r : DebugReg) (v : BitVec 64) (taint : Bool) : Laws.Coded.Statement (.debugRegisterWrite heat r v taint) :=
  trivial
theorem Laws.Coded.getVersion : Laws.Coded.Statement (.getVersion) :=
  trivial
theorem Laws.Coded.getCapabilities : Laws.Coded.Statement (.getCapabilities) :=
  trivial
theorem Laws.Coded.negotiateAlgorithms : Laws.Coded.Statement (.negotiateAlgorithms) :=
  trivial
theorem Laws.Coded.getDigests : Laws.Coded.Statement (.getDigests) :=
  trivial
theorem Laws.Coded.getCertificate : Laws.Coded.Statement (.getCertificate) :=
  trivial
theorem Laws.Coded.challenge (nonce : BitVec 256) : Laws.Coded.Statement (.challenge nonce) :=
  trivial
theorem Laws.Coded.getMeasurements (index : Nat) (nonce : BitVec 256) : Laws.Coded.Statement (.getMeasurements index nonce) :=
  trivial
theorem Laws.Coded.keyExchange (share : BitVec 512) : Laws.Coded.Statement (.keyExchange share) :=
  trivial
theorem Laws.Coded.finish : Laws.Coded.Statement (.finish) :=
  trivial
theorem Laws.Coded.boardResetRelease : Laws.Coded.Statement (.boardResetRelease) :=
  trivial
theorem Laws.Coded.ready : Laws.Coded.Statement (.ready) :=
  trivial
theorem Laws.Coded.thermalTrip : Laws.Coded.Statement (.thermalTrip) :=
  trivial
theorem Laws.Coded.powerTrip : Laws.Coded.Statement (.powerTrip) :=
  trivial
theorem Laws.Coded.computeReenable : Laws.Coded.Statement (.computeReenable) :=
  trivial
theorem Laws.Coded.victimCoreReset (core : Nat) : Laws.Coded.Statement (.victimCoreReset core) :=
  trivial
theorem Laws.Coded.hostRejectedWrite (id : Nat) : Laws.Coded.Statement (.hostRejectedWrite id) :=
  trivial
theorem Laws.Coded.cxlFlushReadComplete : Laws.Coded.Statement (.cxlFlushReadComplete) :=
  trivial
theorem Laws.Coded.peerAsrAccess (addr : Nat) (access : PeerAccess) (val : BitVec 64) : Laws.Coded.Statement (.peerAsrAccess addr access val) :=
  trivial
theorem Laws.Coded.collPartnerMessage (job group seq rank : Nat) (sig : CollSig) (data : PartBeat) : Laws.Coded.Statement (.collPartnerMessage job group seq rank sig data) :=
  trivial
theorem Laws.Coded.stashLineWriteBack (heat slot line : Nat) : Laws.Coded.Statement (.stashLineWriteBack heat slot line) :=
  trivial

end Sys2Proof
end

