-- ==== Sys2Proof/Tests/Slice0.lean ====
section
/-!
SUPPORT. Tests: an ill-formed instruction for each encoding check, words of the manual's encodings, single words whose
result the manual's text gives, and, for each statement with premises, a state and operands that meet them.
-/

namespace Sys2Proof.Machine

set_option Elab.async false

/-! ## The rig: one heat of the plain machine (log 5) with units of scratchpad and ASR -/

/-- The heat of the rig: eight units of scratchpad and of ASR, the first core. -/
def rigHeat : Heat := startHeat plainId plainType [] 0 0 0 [0, 1, 2, 3, 4, 5, 6, 7] [0, 1, 2, 3, 4, 5, 6, 7] 0 0

/-- The plain machine with that heat, or another one, with a seat of it as the acting one, and with a readable and
writable page at 0x1000000 (20/R449, R450). -/
def rig (p : Seat) (h : Heat := rigHeat) : State :=
  let s := plainMachine State.reset
  { s with heats := [h], cur := some ⟨1, p, none⟩
           mem := s.mem.put 0x108008 (withTaint false (leBytes 8 0x200001B)) }

/-- The first address of the scratchpad window and of the ASR window that the rig's heat holds (12/R346). -/
def spad0 : Dword := 0x7FFF00000000
def asr0 : Dword := 0x7FFF00800000

/-- What Clear asks, as a check. -/
def clearB (w : Issue) (p : Seat) (s : State) (h : Heat) : Bool :=
  !stopsHere h p && !debugHeld s h p && !unresolved w h p && (match due s h p w with | .free | .now => true | _ => false) && !misfit s h w &&
  (holdWait s h p w).isNone && (match executes s h p w with | .ok b => b | .error _ => false) &&
  (w.slot.bind (tokenWait h p)).isNone && (versionWait h p w).isNone

theorem Clear.of_check {w : Issue} {p : Seat} {s : State} {h : Heat} (ha : s.acting = some (h, ⟨h.id.uid, p, none⟩))
    (hb : clearB w p s h = true) : Clear w p s h := by
  simp only [clearB, Bool.and_eq_true, Bool.not_eq_true', Option.isNone_iff_eq_none] at hb
  obtain ⟨⟨⟨⟨⟨⟨⟨⟨h1, h2⟩, hr⟩, h3⟩, h4⟩, h5⟩, h6⟩, h7⟩, h8⟩ := hb
  refine ⟨⟨_, ha, rfl, rfl⟩, h1, h2, hr, ?_, h4, h5, ?_, h7, h8⟩
  · split at h3 <;> simp_all
  · split at h6 <;> simp_all

/-- A computation that answers. -/
def answers {ε α : Type} (e : Except ε α) : Bool := match e with | .ok _ => true | .error _ => false

theorem ok_of_answers {ε α : Type} {e : Except ε α} (h : answers e = true) : ∃ x, e = .ok x := by
  cases e with
  | ok x => exact ⟨x, rfl⟩
  | error _ => simp [answers] at h

/-- What Readable, Writable and CellFree ask, as checks. -/
def readableB (s : State) (h : Heat) (core : Nat) (va : Dword) (n : Nat) : Bool :=
  (stashWait s h va n).isNone &&
    match resolve s h core va .read with
    | .error _ => false
    | .ok (s1, f) => (watchHit s1 h.id.job va.toNat n true false).isNone && !mustWait s1 h.id.uid (core / 64) f.pa &&
        !s1.mem.errors.contains (f.pa / 128) && (List.range n).all fun i => !s1.mem.poisoned (f.pa + i)

def writableB (s : State) (h : Heat) (core : Nat) (va : Dword) (n : Nat) (t : Bool) : Bool :=
  (stashWait s h va n).isNone &&
    match resolve s h core va .write with
    | .error _ => false
    | .ok (s1, f) => (!f.clean || !t) && (watchHit s1 h.id.job va.toNat n false true).isNone

def cellFreeB (s : State) (h : Heat) (va : Dword) (n : Nat) (acc : Access) : Bool :=
  match resolve s h h.core va acc with
  | .error _ => true
  | .ok (s1, f) => !cellBusy s1 h.id.uid f.pa n

theorem Readable.of_check {s : State} {h : Heat} {core n : Nat} {va : Dword} (hb : readableB s h core va n = true) :
    Readable s h core va n := by
  simp only [readableB, Bool.and_eq_true, Option.isNone_iff_eq_none] at hb
  obtain ⟨hf, hr⟩ := hb
  refine ⟨hf, ?_⟩
  split at hr
  · cases hr
  · rename_i s1 f he
    simp only [Bool.and_eq_true, Option.isNone_iff_eq_none, Bool.not_eq_true', List.all_eq_true, List.mem_range,
      List.contains_eq_mem, decide_eq_false_iff_not] at hr
    exact ⟨s1, f, he, fun k => by simp [hr.1.1.1], .inr ⟨hr.1.1.2, hr.1.2, fun i hi => hr.2 i hi⟩⟩

theorem Writable.of_check {s : State} {h : Heat} {core n : Nat} {va : Dword} {t : Bool}
    (hb : writableB s h core va n t = true) : Writable s h core va n t := by
  simp only [writableB, Bool.and_eq_true, Option.isNone_iff_eq_none] at hb
  obtain ⟨hf, hr⟩ := hb
  refine ⟨hf, ?_⟩
  split at hr
  · cases hr
  · rename_i s1 f he
    simp only [Bool.and_eq_true, Option.isNone_iff_eq_none, Bool.or_eq_true, Bool.not_eq_true'] at hr
    exact ⟨s1, f, he, fun h1 => by simpa [h1] using hr.1, fun k => by simp [hr.2]⟩

theorem CellFree.of_check {s : State} {h : Heat} {n : Nat} {va : Dword} {acc : Access}
    (hb : cellFreeB s h va n acc = true) : CellFree s h va n acc := by
  intro s1 f he
  simp only [cellFreeB, he, Bool.not_eq_true'] at hb
  exact .inr hb

/-! ## Encoding checks (04/R94 to R107; 07/R188, R189, R205; 08/R261): an ill-formed instruction for each -/

/-- A slot with no bit set, predicate k0. -/
def plainSlot : Slot := ⟨false, false, false, false, false, false, 0⟩

/-- First-only and last-only together (04/R94). -/
def bothFlags : Slot := ⟨false, false, false, false, true, true, 0⟩

/-- The control fields of a command on object 1 with neither bit. -/
def plainC : Ctl := ⟨0xFFFF, false, false, 1⟩

theorem test_refuses_both_flags : check (.vadd bothFlags 0 1 2) = some .bothFlags ∧ check (.nopl bothFlags) = some .bothFlags ∧
    check (.ldq bothFlags 0 0 0) = some .bothFlags ∧ WellFormed (.nops bothFlags) = false := by decide

theorem test_refuses_loop_fields : check (.loopLc 6 1) = some .badLoop ∧ check (.loopLc 5 0) = some .badLoop ∧
    check (.loopImm 3 0) = some .badLoop ∧ check (.loopLc 5 1) = none := by decide

theorem test_refuses_reserved_codes : check (.cmp 3 0 1 2 0) = some .reservedCode ∧
    check (.cmp 2 0 1 2 6) = some .reservedCode ∧ check (.cmpi 6 0 1 0) = some .reservedCode ∧
    check (.sext 1 2 3) = some .reservedCode ∧ check (.zext 1 2 3) = some .reservedCode ∧
    check (.lds 1 2 0 7 0) = some .reservedCode ∧ check (.sts 1 2 0 7 0) = some .reservedCode ∧
    check (.setlc 6 1) = some .reservedCode ∧ check (.setstrd 6 1 false false 0 0 0) = some .reservedCode ∧
    check (.laadd 1 2 3 0 0) = some .reservedCode ∧ check (.fence 6) = some .reservedCode ∧
    check (.fencea 6) = some .reservedCode ∧ check (.fencer 6) = some .reservedCode ∧
    check (.self 1 7) = some .reservedCode ∧ check (.slwin 1 2 11 0 0) = some .reservedCode ∧
    check (.slchk 3 1 1 2 0 0) = some .reservedCode := by decide

theorem test_refuses_reserved_codes_of_slots : check (.ldq plainSlot 0 0 2) = some .reservedCode ∧
    check (.stqs plainSlot 8 0 3) = some .reservedCode ∧ check (.pref plainSlot 0 3 1 0) = some .reservedCode ∧
    check (.invm plainSlot 0 3 1 0) = some .reservedCode ∧ check (.sett plainSlot 13 0) = some .reservedCode ∧
    check (.sett plainSlot 0 5) = some .reservedCode ∧ check (.settO plainSlot 6) = some .reservedCode ∧
    check (.vcmp plainSlot 0 0 1 2) = some .reservedCode ∧ check (.vcvt plainSlot 0 1 13) = some .reservedCode ∧
    check (.vred plainSlot 0 1 6) = some .reservedCode ∧ check (.vscan plainSlot 0 1 false 6) = some .reservedCode ∧
    check (.kop plainSlot 0 1 2 0) = some .reservedCode ∧ check (.kop plainSlot 1 1 2 5) = some .reservedCode ∧
    check (.vcpush plainSlot 24 1 3) = some .reservedCode ∧ check (.vcpop plainSlot 0 16 2) = some .reservedCode ∧
    check (.mbag plainSlot 0 false true 0 plainC) = some .reservedCode ∧
    check (.mtopk plainSlot 0 false 2 0 false 0 false 0 plainC) = some .reservedCode ∧
    check (.mretRegion plainSlot 3 0 0 plainC) = some .reservedCode ∧
    check (.mclr plainSlot 3 0 0 plainC) = some .reservedCode := by decide

theorem test_refuses_nonzero_fields : check (.cancel 1 0 1 1) = some .nonzeroField ∧
    check (.cancel 1 1 0 4) = some .nonzeroField ∧ check (.waitc 1 0 1 2) = some .nonzeroField ∧
    check (.lQset plainSlot 0 0 false 1 0 0 0) = some .nonzeroField ∧
    check (.sQset plainSlot 8 0 false 1 0 0 0) = some .nonzeroField ∧
    check (.stflush plainSlot true 1 plainC) = some .nonzeroField ∧ check (.invm plainSlot 1 2 0 0) = some .nonzeroField ∧
    check (.invm plainSlot 0 2 1 0) = some .nonzeroField ∧ check (.kop plainSlot 1 1 1 4) = some .nonzeroField ∧
    check (.vcpush plainSlot 24 1 2) = some .nonzeroField ∧
    check (.mmul plainSlot 0 false 1 4 0 plainC) = some .nonzeroField ∧
    check (.mdist plainSlot 0 false 2 1 0 plainC) = some .nonzeroField := by decide

theorem test_refuses_streams_on_the_wrong_side : check (.vadd plainSlot 16 1 2) = some .badStream ∧
    check (.vadd plainSlot 23 1 2) = some .badStream ∧ check (.vadd plainSlot 0 24 2) = some .badStream ∧
    check (.vcmp plainSlot 1 0 24 2) = some .badStream ∧
    check (.vcpop plainSlot 16 16 0) = some .badStream ∧ check (.vcpop plainSlot 0 24 0) = some .badStream ∧
    check (.vbcst plainSlot 17 1) = some .badStream := by decide

theorem test_refuses_command_bits : check (.spawn 1 2 ⟨0, true, false, 1⟩) = some .badReloc ∧
    check (.spawn 1 2 ⟨0, false, true, 1⟩) = some .badSpec ∧ check (.resume 1 2 ⟨0, false, true, 1⟩) = some .badSpec ∧
    check (.copyco 1 2 3 ⟨0, true, false, 1⟩) = some .badReloc ∧
    check (.ldblk plainSlot 0 0 0 ⟨0, true, false, 1⟩) = some .badReloc ∧
    check (.bagopen plainSlot 0 ⟨0, true, false, 1⟩) = some .badReloc ∧
    check (.coll plainSlot 0 ⟨0, true, false, 1⟩) = some .badReloc ∧
    check (.mret plainSlot false 0 ⟨0, true, false, 1⟩) = some .badReloc := by decide

theorem test_refuses_lengths : check (.cpyout plainSlot 0 1 (2048 + 64) plainC) = some .badLength ∧
    check (.cpyin plainSlot 0 1 (2048 + 64) plainC) = some .badLength ∧ check (.cpyin plainSlot 0 1 2047 plainC) = none ∧
    check (.cpyin plainSlot 0 1 (2048 + 63) plainC) = none := by decide

/-- Values that are illegal only when the word executes are no encoding errors (04/R107, R108). -/
theorem test_leaves_values_to_execution : check (.cpyin plainSlot 0 1 0 plainC) = none ∧ check (.vqnt plainSlot 28 0) = none ∧
    check (.vdqn plainSlot 0 15) = none ∧ check (.stmap plainSlot 0 1 0 0 0) = none ∧ check (.rpush plainSlot 0 0) = none ∧
    check (.lQset plainSlot 0 0 false 0 0 64 0) = none := by decide

theorem test_refuses_registers_past_the_file : check (.spawnt 1 2 61 4 plainC) = some .badRegister ∧
    check (.spawnt 1 2 60 4 plainC) = none ∧ check (.spawnt 1 2 0 5 plainC) = some .reservedCode := by decide

/-! ## Decoding: a word of every constructor with its operand fields filled, laid out by hand from the field tables of
04/R85 to R106 and 05 to 08 (the fixed bits agree with the masks of the opcode table) -/

/-- The word, and the second one of a long instruction, decode to the instruction. -/
def reads (w0 w1 : Nat) (i : Instr) : Bool := decodeWords w0 w1 matches .ok _ && (decodeWords w0 w1).toOption == some i

theorem test_decodes_shared_words :
    (reads 0x80000000 0x00000000 .nopa &&
     reads 0x81ACA264 0x00000000 (.br 5 false 828004) &&
     reads 0x824D7298 0x00000000 (.jmp 5075608) &&
     reads 0x83741732 0x00000000 (.call 7608114) &&
     reads 0x84000000 0x00000000 .ret &&
     reads 0x85002431 0x00000000 (.loopLc 2 1073) &&
     reads 0x85FCB535 0x00000000 (.loopImm 1995 1333) &&
     reads 0x86700000 0x00000000 (.lexit 3 true) &&
     reads 0x87000000 0x00000000 .stroke &&
     reads 0x88000000 0x00000000 .hend) = true := by
  decide +kernel

theorem test_decodes_integer_words :
    (reads 0x00000000 0x00000000 .nop &&
     reads 0x007AFF00 0x00000000 (.add 58 63 48) &&
     reads 0x00AF8590 0x00000000 (.sub 47 33 25) &&
     reads 0x00EAE150 0x00000000 (.and 42 56 21) &&
     reads 0x0116E610 0x00000000 (.or 22 57 33) &&
     reads 0x01682860 0x00000000 (.xor 40 10 6) &&
     reads 0x01BB2B90 0x00000000 (.shl 59 10 57) &&
     reads 0x01D5C1D0 0x00000000 (.shr 21 48 29) &&
     reads 0x0212B740 0x00000000 (.sar 18 45 52) &&
     reads 0x027C1F00 0x00000000 (.mul 60 7 48) &&
     reads 0x02A00710 0x00000000 (.mulh 32 1 49) &&
     reads 0x02FD3930 0x00000000 (.mulhn 61 14 19) &&
     reads 0x032D7F60 0x00000000 (.div 45 31 54) &&
     reads 0x035D2EA0 0x00000000 (.divn 29 11 42) &&
     reads 0x0395B700 0x00000000 (.rem 21 45 48) &&
     reads 0x03E86AC0 0x00000000 (.remn 40 26 44) &&
     reads 0x040A49D0 0x00000000 (.min 10 18 29) &&
     reads 0x045F82D0 0x00000000 (.max 31 32 45) &&
     reads 0x04874060 0x00000000 (.minn 7 16 6) &&
     reads 0x04F96C60 0x00000000 (.maxn 57 27 6) &&
     reads 0x052E6800 0x00000000 (.clz 46 26) &&
     reads 0x057BEC00 0x00000000 (.popc 59 59) &&
     reads 0x059A1D71 0x00000000 (.bfx 26 7 23 true) &&
     reads 0x05D54EC0 0x00000000 (.bfi 21 19 44) &&
     reads 0x06399D38 0x00000000 (.sel 57 39 19 true 0) &&
     reads 0x0655F3E2 0x00000000 (.cmp 2 5 60 62 2) &&
     reads 0x0689B802 0x00000000 (.sext 9 46 2) &&
     reads 0x06F1A401 0x00000000 (.zext 49 41 1)) = true := by
  decide +kernel

theorem test_decodes_immediate_words :
    (reads 0x071071B8 0x00000000 (.lea 16 28 27 8) &&
     reads 0x080A4B26 0x00000000 (.addi 10 18 806) &&
     reads 0x085D69AA 0x00000000 (.andi 29 26 426) &&
     reads 0x08804AED 0x00000000 (.ori 0 18 749) &&
     reads 0x08CAF85F 0x00000000 (.xori 10 62 95) &&
     reads 0x0908D401 0x00000000 (.shli 8 53 1) &&
     reads 0x094C6434 0x00000000 (.shri 12 25 52) &&
     reads 0x09B5E024 0x00000000 (.sari 53 56 36) &&
     reads 0x09C26792 0x00000000 (.cmpi 0 2 25 914) &&
     reads 0x0A026602 0xE37C139D (.movi 2 329082370 58236) &&
     reads 0x0A75E1D7 0x80F67B61 (.movhi 53 2070012375 33014)) = true := by
  decide +kernel

theorem test_decodes_system_words :
    (reads 0x0A840003 0x00012000 (.lds 4 0 3 1 1) &&
     reads 0x0AEEC4DC 0x739A33BE (.sts 46 49 5175516 1 29594) &&
     reads 0x0C030348 0x00000000 (.csrr 3 840) &&
     reads 0x0C404B6A 0x00000000 (.csrw 18 874) &&
     reads 0x0C8001B5 0x00000000 (.trap 437) &&
     reads 0x0CC11400 0x00000000 (.setlc 1 5) &&
     reads 0x0D05A400 0xD0A20005 (.setstrd 5 41 false false 0 5 53410) &&
     reads 0x0D40A400 0x00000000 (.setslip 41) &&
     reads 0x0D80D400 0x00000000 (.prio 53) &&
     reads 0x0DD00000 0x00000000 (.rdclk 16) &&
     reads 0x0E1D0000 0x00000000 (.rdstroke 29) &&
     reads 0x0E526800 0x00000000 (.wfe 18 26) &&
     reads 0x0E800000 0x00000000 .sms &&
     reads 0x0EC00000 0x00000000 .wpv &&
     reads 0x0F000000 0x00000000 .hret &&
     reads 0x0F400315 0x00000000 (.bkpt 789)) = true := by
  decide +kernel

theorem test_decodes_atomic_words :
    (reads 0x101467F0 0x72F1F5E9 (.aadd 20 25 63 false 62953 29425) &&
     reads 0x104CF931 0x189CDB5C (.amin 12 62 19 true 56156 6300) &&
     reads 0x10940B10 0x540E71FE (.amax 20 2 49 false 29182 21518) &&
     reads 0x10EC04E0 0x02708779 (.aminn 44 1 14 false 34681 624) &&
     reads 0x11264910 0x43E6611E (.amaxn 38 18 17 false 24862 17382) &&
     reads 0x1165E7C0 0x04C23990 (.aand 37 57 60 false 14736 1218) &&
     reads 0x11967851 0xA74F99FB (.aor 22 30 5 true 39419 42831) &&
     reads 0x11D83320 0x9CA0365D (.axor 24 12 50 false 13917 40096) &&
     reads 0x122AF091 0xFC015FAC (.axchg 42 60 9 true 24492 64513) &&
     reads 0x1261CDE0 0xC9A4D313 (.acas 33 51 30 false 54035 51620) &&
     reads 0x129CD070 0xD64B4C09 (.faadd 28 52 7 19465 54859) &&
     reads 0x12EEF7F0 0x78169C4A (.famin 46 61 63 40010 30742) &&
     reads 0x131C7130 0xEC95F1D9 (.famax 28 28 19 61913 60565) &&
     reads 0x134082B0 0x2C4247DF (.laadd 32 43 0 18399 11330) &&
     reads 0x1398A802 0xB4C31589 (.ald 24 42 2 5513 46275) &&
     reads 0x13C05790 0x4E29095C (.ast 21 57 false 2396 20009)) = true := by
  decide +kernel

theorem test_decodes_sync_words :
    (reads 0x14000002 0x00000000 (.fence 2) &&
     reads 0x14400000 0x00000000 (.fencea 0) &&
     reads 0x14800000 0x00000000 (.fencer 0) &&
     reads 0x14C06130 0x596C216D (.barinit 24 19 8557 22892) &&
     reads 0x1534A000 0x00000000 (.bararr 52 40) &&
     reads 0x15406580 0x00000000 (.barwait 25 24) &&
     reads 0x15B70800 0x00000000 (.waitcoAll 55 2) &&
     reads 0x15BE1801 0x00000000 (.waitcoAny 62 6) &&
     reads 0x15C5A000 0x00000000 (.testco 5 40) &&
     reads 0x162E0000 0x00000000 (.dbar 46)) = true := by
  decide +kernel

theorem test_decodes_tasks_words :
    (reads 0x18194C00 0xFFFF3600 (.spawn 25 19 ⟨65535, false, false, 54⟩) &&
     reads 0x184DE5F3 0xFFFF2200 (.spawnt 13 57 31 3 ⟨65535, false, false, 34⟩) &&
     reads 0x18B55040 0x00000000 (.cancel 53 20 4 0) &&
     reads 0x18C10003 0x00000000 (.waitc 1 0 0 3) &&
     reads 0x1900ECB0 0x00000000 (.suspend 59 11) &&
     reads 0x19637400 0xFFFF0900 (.resume 35 29 ⟨65535, false, false, 9⟩) &&
     reads 0x19ADCF30 0xFFFF0100 (.copyco 45 51 51 ⟨65535, false, false, 1⟩) &&
     reads 0x19D41C00 0x00000000 (.dropco 20 7) &&
     reads 0x1A00FC00 0x00000000 (.yieldi 63) &&
     reads 0x1A5F0003 0x00000000 (.self 31 3)) = true := by
  decide +kernel

theorem test_decodes_slalom_and_taint_words :
    (reads 0x1C0072A0 0xBBEE4AD9 (.slwin 28 42 4 2777 48110) &&
     reads 0x1C40EC10 0x4217953E (.slres 59 1 38206 16919) &&
     reads 0x1C97AC20 0x9123BA62 (.slchk 2 7 43 2 47714 37155) &&
     reads 0x1CC05C0E 0x00000000 (.sldone 23 true 6) &&
     reads 0x1D220000 0x00000000 (.slnext 34) &&
     reads 0x1D400C00 0x387B8EFB (.slreset 3 0 36603 14459) &&
     reads 0x1DB51400 0x00000000 (.taintq 53 5) &&
     reads 0x1D845001 0x00000000 (.taintqMem 4 20) &&
     reads 0x1DD19000 0x00000000 (.tclr 17 36) &&
     reads 0x1E3A0006 0x00000000 (.tcnt 58 true 2)) = true := by
  decide +kernel

theorem test_decodes_load_seat_words :
    (reads 0x22E00000 0x00000000 (.nopl ⟨false, false, false, true, false, true, 6⟩) &&
     reads 0x39004980 0x00000000 (.ldq ⟨true, true, false, false, true, false, 0⟩ 2 6 0) &&
     reads 0x2E40BD40 0x00000000 (.ldqs ⟨false, true, true, true, false, false, 4⟩ 15 5 0) &&
     reads 0x2B50FBA0 0x00000000 (.gatq ⟨false, true, false, true, true, false, 5⟩ 14 14 2) &&
     reads 0x21010018 0x00011018 (.lQset ⟨false, false, false, false, true, false, 0⟩ 0 1 true 0 1 3 1) &&
     reads 0x34717AD0 0x00000000 (.lPset ⟨true, false, true, false, false, false, 7⟩ 14 45) &&
     reads 0x28F1ABE4 0x00000000 (.lPadd ⟨false, true, false, false, false, true, 7⟩ 10 996) &&
     reads 0x2461F57E 0xFFFF0080 (.cpyin ⟨false, false, true, false, false, false, 6⟩ 13 23 2062 ⟨65535, false, false, 0⟩) &&
     reads 0x29021E5A 0xC6002F86 (.gatr ⟨false, true, false, false, true, false, 0⟩ 7 9 8602 ⟨50688, false, false, 47⟩) &&
     reads 0x29227A10 0xFFFF320D (.ldblk ⟨false, true, false, false, true, false, 2⟩ 14 33 13 ⟨65535, false, false, 50⟩) &&
     reads 0x30224800 0xFFFF2580 (.ldblkRel ⟨true, false, false, false, false, false, 2⟩ 2 ⟨65535, false, false, 37⟩) &&
     reads 0x3B7281B0 0x326B8035 (.pref ⟨true, true, false, true, true, false, 7⟩ 27 2 53 12907) &&
     reads 0x3132D790 0xBFAD3BDF (.stmap ⟨true, false, false, false, true, false, 3⟩ 5 57 0 15327 49069) &&
     reads 0x3063000A 0xF32F0200 (.stunmap ⟨true, false, false, false, false, false, 6⟩ 10 ⟨62255, false, false, 2⟩) &&
     reads 0x22634010 0x07A52800 (.stflush ⟨false, false, false, true, false, false, 6⟩ true 0 ⟨1957, false, false, 40⟩) &&
     reads 0x22638367 0xFFFF602A (.bagopen ⟨false, false, false, true, false, false, 6⟩ 688999 ⟨65535, false, true, 32⟩) &&
     reads 0x2173C1E0 0xC1C9464F (.invm ⟨false, false, false, false, true, false, 7⟩ 30 1 1615 49609) &&
     reads 0x33740016 0x00000000 (.lCwait ⟨true, false, false, true, true, false, 7⟩ 22) &&
     reads 0x2A9477F9 0x00000000 (.rpush ⟨false, true, false, true, false, true, 1⟩ 6 2041) &&
     reads 0x2D24BF70 0xA544D5CB (.hnd ⟨false, true, true, false, true, false, 2⟩ 1064359371 42308)) = true := by
  decide +kernel

theorem test_decodes_store_seat_words :
    (reads 0x72100000 0x00000000 (.nops ⟨true, false, false, true, false, false, 1⟩) &&
     reads 0x65506080 0x00000000 (.stq ⟨false, false, true, false, true, false, 5⟩ 8 2 0) &&
     reads 0x70F09690 0x00000000 (.stqs ⟨true, false, false, false, false, true, 7⟩ 5 10 1) &&
     reads 0x6310F9B0 0x00000000 (.scatq ⟨false, false, false, true, true, false, 1⟩ 14 6 3) &&
     reads 0x70010C1A 0x00020018 (.sQset ⟨true, false, false, false, false, false, 0⟩ 3 1 true 2 0 3 2) &&
     reads 0x69217160 0x00000000 (.sPset ⟨false, true, false, false, true, false, 2⟩ 12 22) &&
     reads 0x6201BDA3 0x00000000 (.sPadd ⟨false, false, false, true, false, false, 0⟩ 15 419) &&
     reads 0x6731E824 0xFFFF1D3D (.cpyout ⟨false, false, true, true, true, false, 3⟩ 10 2 980 ⟨65535, false, false, 29⟩) &&
     reads 0x615202AD 0xFFFF2787 (.scatr ⟨false, false, false, false, true, false, 5⟩ 0 10 8685 ⟨65535, false, false, 39⟩) &&
     reads 0x624255C4 0xFFFF2F1D (.bagclose ⟨false, false, false, true, false, false, 4⟩ 480708 ⟨65535, false, false, 47⟩) &&
     reads 0x6842BCCF 0xB2FE04B4 (.asrcpy ⟨false, true, false, false, false, false, 4⟩ 15 12 847 true ⟨45822, false, false, 4⟩) &&
     reads 0x6922C000 0xFFFF5C00 (.coll ⟨false, true, false, false, true, false, 2⟩ 0 ⟨65535, false, true, 28⟩) &&
     reads 0x62231977 0x00000000 (.rpop ⟨false, false, false, true, false, false, 2⟩ 3 375) &&
     reads 0x65434018 0x00000000 (.sCwait ⟨false, false, true, false, true, false, 4⟩ 24)) = true := by
  decide +kernel

theorem test_decodes_vector_words :
    (reads 0x53500000 0x00000000 (.nopx ⟨true, false, false, true, true, false, 5⟩) &&
     reads 0x40404560 0x00000000 (.sett ⟨false, false, false, false, false, false, 4⟩ 5 3) &&
     reads 0x4A1057F4 0x00000000 (.settM ⟨false, true, false, true, false, false, 1⟩ 7 15 false true) &&
     reads 0x42806500 0x00000000 (.settO ⟨false, false, false, true, false, true, 0⟩ 5) &&
     reads 0x50409E17 0x00000000 (.vadd ⟨true, false, false, false, false, false, 4⟩ 15 1 7) &&
     reads 0x4220F119 0x00000000 (.vsub ⟨false, false, false, true, false, false, 2⟩ 24 17 9) &&
     reads 0x4D313922 0x00000000 (.vmul ⟨false, true, true, false, true, false, 3⟩ 28 18 2) &&
     reads 0x50714482 0x00000000 (.vfma ⟨true, false, false, false, false, false, 7⟩ 2 8 2) &&
     reads 0x58318445 0x00000000 (.vmin ⟨true, true, false, false, false, false, 3⟩ 2 4 5) &&
     reads 0x4371FB08 0x00000000 (.vmax ⟨false, false, false, true, true, false, 7⟩ 29 16 8) &&
     reads 0x4E620D50 0x00000000 (.vabs ⟨false, true, true, true, false, false, 6⟩ 6 21) &&
     reads 0x50327ED0 0x00000000 (.vneg ⟨true, false, false, false, false, false, 3⟩ 31 13) &&
     reads 0x50A28694 0x00000000 (.vand ⟨true, false, false, false, false, true, 2⟩ 3 9 4) &&
     reads 0x4092CA44 0x00000000 (.vor ⟨false, false, false, false, false, true, 1⟩ 5 4 4) &&
     reads 0x4E7334F7 0x00000000 (.vxor ⟨false, true, true, true, false, false, 7⟩ 26 15 7) &&
     reads 0x58135018 0x00000000 (.vshl ⟨true, true, false, false, false, false, 1⟩ 8 1 8) &&
     reads 0x59038633 0x00000000 (.vshr ⟨true, true, false, false, true, false, 0⟩ 3 3 3) &&
     reads 0x4293FA8B 0x00000000 (.vsar ⟨false, false, false, true, false, true, 1⟩ 29 8 11) &&
     reads 0x40541607 0x00000000 (.vcmp ⟨false, false, false, false, false, false, 5⟩ 2 3 0 7) &&
     reads 0x40444626 0x00000000 (.vsel ⟨false, false, false, false, false, false, 4⟩ 3 2 6) &&
     reads 0x5D748F30 0x00000000 (.vmov ⟨true, true, true, false, true, false, 7⟩ 7 19) &&
     reads 0x4664DD80 0x00000000 (.vbcst ⟨false, false, true, true, false, false, 6⟩ 14 48) &&
     reads 0x4C250A00 0x00000000 (.vidx ⟨false, true, true, false, false, false, 2⟩ 5)) = true := by
  decide +kernel

theorem test_decodes_vector_moves_words :
    (reads 0x44654015 0x00000000 (.vcvt ⟨false, false, true, false, false, false, 6⟩ 0 1 5) &&
     reads 0x50458A80 0x00000000 (.vrcp ⟨true, false, false, false, false, false, 4⟩ 5 8) &&
     reads 0x4305F360 0x00000000 (.vrsq ⟨false, false, false, true, true, false, 0⟩ 25 22) &&
     reads 0x40860170 0x00000000 (.vexp2 ⟨false, false, false, false, false, true, 0⟩ 0 23) &&
     reads 0x4E764C00 0x00000000 (.vlog2 ⟨false, true, true, true, false, false, 7⟩ 6 0) &&
     reads 0x53168645 0x00000000 (.vred ⟨true, false, false, true, true, false, 1⟩ 3 4 5) &&
     reads 0x4426FC63 0x00000000 (.vscan ⟨false, false, true, false, false, false, 2⟩ 30 6 false 3) &&
     reads 0x44370831 0x00000000 (.vperm ⟨false, false, true, false, false, false, 3⟩ 4 3 1) &&
     reads 0x59277680 0x00000000 (.vqnt ⟨true, true, false, false, true, false, 2⟩ 27 8) &&
     reads 0x55179F70 0x00000000 (.vdqn ⟨true, false, true, false, true, false, 1⟩ 15 23) &&
     reads 0x56A7DD60 0x00000000 (.kop ⟨true, false, true, true, false, true, 2⟩ 3 5 3 0) &&
     reads 0x48583040 0x00000000 (.vcpush ⟨false, true, false, false, false, false, 5⟩ 24 4 0) &&
     reads 0x40785D11 0x00000000 (.vcpop ⟨false, false, false, false, false, false, 7⟩ 14 17 1)) = true := by
  decide +kernel

theorem test_decodes_matrix_words :
    (reads 0x4A7C3E20 0x3CBBD900 (.mwld ⟨false, true, false, true, false, false, 7⟩ 7 196 217 15547) &&
     reads 0x514C4776 0xFFFF0723 (.mbag ⟨true, false, false, false, true, false, 4⟩ 0 true true 18294 ⟨65535, false, false, 7⟩) &&
     reads 0x508C8C20 0xFFFF2602 (.mmul ⟨true, false, false, false, false, true, 0⟩ 1 true 0 1 2 ⟨65535, false, false, 38⟩) &&
     reads 0x415CEC20 0xF3E32501 (.mdist ⟨false, false, false, false, true, false, 5⟩ 5 true 0 1 1 ⟨62435, false, false, 37⟩) &&
     reads 0x510D3083 0x4C302010 (.mtopk ⟨true, false, false, false, true, false, 0⟩ 6 false 0 4 false 3 false 16 ⟨19504, false, false, 32⟩) &&
     reads 0x405D509C 0xFFFF270E (.mret ⟨false, false, false, false, false, false, 5⟩ true 7324 ⟨65535, false, false, 39⟩) &&
     reads 0x536D68F1 0xFFFF1118 (.mretRegion ⟨true, false, false, true, true, false, 6⟩ 2 241 24 ⟨65535, false, false, 17⟩) &&
     reads 0x416D8438 0xFFFF3321 (.mclr ⟨false, false, false, false, true, false, 6⟩ 1 56 33 ⟨65535, false, false, 51⟩) &&
     reads 0x402DFF6C 0xCA9D1D25 (.rset ⟨false, false, false, false, false, false, 2⟩ 122257260 51869) &&
     reads 0x42DE0000 0x00000000 (.mwait ⟨false, false, false, true, false, true, 5⟩) &&
     reads 0x42CE402E 0x00000000 (.lease ⟨false, false, false, true, false, true, 4⟩ 46) &&
     reads 0x480E8000 0x00000000 (.unlease ⟨false, true, false, false, false, false, 0⟩)) = true := by
  decide +kernel

/-! ## Words laid out field by field from the manual's layouts: each field times its place -/

/-- A C word of register form (04/R88). -/
def cWord (op sd sa sb fn : Nat) : Nat := op * 2 ^ 22 + sd * 2 ^ 16 + sa * 2 ^ 10 + sb * 2 ^ 4 + fn

/-- The base word of an L, X or S instruction (04/R93): tag, token bits 28 to 25, flags 24 and 23, predicate, op6,
operands. -/
def slotWord (tag tokens flags pred op ops : Nat) : Nat :=
  tag * 2 ^ 29 + tokens * 2 ^ 25 + flags * 2 ^ 23 + pred * 2 ^ 20 + op * 2 ^ 14 + ops

/-- The extension of a command (04/R98): stamp, relocatable, speculative, object, cmd8. -/
def cmdWord (stamp reloc spec co cmd8 : Nat) : Nat := stamp * 2 ^ 16 + reloc * 2 ^ 15 + spec * 2 ^ 14 + co * 2 ^ 8 + cmd8

/-- 04/R86, R87, R102: BR with bp 3, neg and disp -2; LOOP lc4 of 9 words; LEXIT of b2, negated; CALL back by one. -/
theorem test_byhand_shared :
    reads (4 * 2 ^ 29 + 0x01 * 2 ^ 24 + 3 * 2 ^ 21 + 1 * 2 ^ 20 + 0xFFFFE) 0 (.br 3 true 0xFFFFE) = true ∧
    reads (4 * 2 ^ 29 + 0x05 * 2 ^ 24 + 4 * 2 ^ 12 + 9) 0 (.loopLc 4 9) = true ∧
    reads (4 * 2 ^ 29 + 0x05 * 2 ^ 24 + 1 * 2 ^ 23 + 2047 * 2 ^ 12 + 1) 0 (.loopImm 2047 1) = true ∧
    reads (4 * 2 ^ 29 + 0x06 * 2 ^ 24 + 2 * 2 ^ 21 + 1 * 2 ^ 20) 0 (.lexit 2 true) = true ∧
    reads (4 * 2 ^ 29 + 0x03 * 2 ^ 24 + 0xFFFFFF) 0 (.call 0xFFFFFF) = true := by decide

/-- 04/R88 to R92, R103: register, immediate, long-ext and long-imm forms. LDS takes its width from x16 bits 15:13 and a
23-bit offset (05/R135). -/
theorem test_byhand_integer :
    reads (cWord 0x02 7 8 9 0) 0 (.sub 7 8 9) = true ∧ reads (cWord 0x1C 1 2 3 15) 0 (.lea 1 2 3 15) = true ∧
    reads (cWord 0x19 (2 * 8 + 5) 6 7 4) 0 (.cmp 2 5 6 7 4) = true ∧
    reads (0x20 * 2 ^ 22 + 5 * 2 ^ 16 + 6 * 2 ^ 10 + 0x3FF) 0 (.addi 5 6 0x3FF) = true ∧
    reads (0x29 * 2 ^ 22 + 5 * 2 ^ 16 + 0xBEEF) (0xFFFF * 2 ^ 16 + 0xDEAD) (.movhi 5 0xDEADBEEF 0xFFFF) = true ∧
    reads (0x2B * 2 ^ 22 + 5 * 2 ^ 16 + 6 * 2 ^ 10 + 0x3F8) (0x0123 * 2 ^ 16 + 4 * 2 ^ 13 + 0x1FFF)
      (.sts 5 6 0x7FFFF8 4 0x0123) = true := by decide

/-- 05/R137, R139; 06/R147, R157, R166, R180: CSRW of 0x020, TRAP 7, FENCE device, CANCEL of level 1, ACAS of 64 bits at
offset -8, TCNT with clear. -/
theorem test_byhand_system :
    reads (0x31 * 2 ^ 22 + 9 * 2 ^ 10 + 0x020) 0 (.csrw 9 0x020) = true ∧ reads (0x32 * 2 ^ 22 + 7) 0 (.trap 7) = true ∧
    reads (cWord 0x50 0 0 0 4) 0 (.fence 4) = true ∧ reads (cWord 0x62 4 5 0 1) 0 (.cancel 4 5 0 1) = true ∧
    reads (cWord 0x49 4 5 6 1) (0xFFFF * 2 ^ 16 + 0xFFF8) (.acas 4 5 6 true 0xFFF8 0xFFFF) = true ∧
    reads (cWord 0x65 4 5 0 0) (cmdWord 0xFFFF 0 0 17 0) (.resume 4 5 ⟨0xFFFF, false, false, 17⟩) = true ∧
    reads (cWord 0x73 0 5 0 (8 + 3)) 0 (.sldone 5 true 3) = true := by decide

/-- 04/R93, R97, R98, R104; 07/R205, R220, R224: LDQ with all four token bits, PADD, CPYIN of 100 words, relocatable;
PREF of 3 lines into the slice; CWAIT of c9. -/
theorem test_byhand_load_seat :
    reads (slotWord 1 15 0 2 0x01 (3 * 2 ^ 10 + 4 * 2 ^ 6 + 1 * 2 ^ 4)) 0 (.ldq ⟨true, true, true, true, false, false, 2⟩ 3 4 1) = true ∧
    reads (slotWord 1 0 2 0 0x06 (3 * 2 ^ 10 + 0x3FE)) 0 (.lPadd ⟨false, false, false, false, true, false, 0⟩ 3 0x3FE) = true ∧
    reads (slotWord 1 0 0 0 0x07 (1 * 2 ^ 10 + 2 * 2 ^ 4 + 100 % 16)) (cmdWord 0x0010 1 0 5 (100 / 16))
      (.cpyin plainSlot 1 2 100 ⟨0x0010, true, false, 5⟩) = true ∧
    reads (slotWord 1 0 0 0 0x0A (6 * 2 ^ 4)) (0xFFFF * 2 ^ 16 + 1 * 2 ^ 14 + 2) (.pref plainSlot 6 1 2 0xFFFF) = true ∧
    reads (slotWord 1 0 0 0 0x10 9) 0 (.lCwait plainSlot 9) = true := by decide

/-- 04/R97, R105; 07/R207, R214: STQS, ASRCPY of 33 cells that retires, BAGCLOSE at displacement -4, speculative. -/
theorem test_byhand_store_seat :
    reads (slotWord 3 8 1 0 0x02 (8 * 2 ^ 10 + 15 * 2 ^ 6)) 0 (.stqs ⟨true, false, false, false, false, true, 0⟩ 8 15 0) = true ∧
    reads (slotWord 3 0 0 0 0x0A (1 * 2 ^ 10 + 2 * 2 ^ 4 + 33 % 16)) (cmdWord 0xFFFF 0 0 5 (1 * 2 ^ 7 + 33 / 16))
      (.asrcpy plainSlot 1 2 33 true ⟨0xFFFF, false, false, 5⟩) = true ∧
    reads (slotWord 3 0 0 0 0x09 0x3FFC) (cmdWord 0xFFFF 0 1 5 0xFF)
      (.bagclose plainSlot 0x3FFFFC ⟨0xFFFF, false, true, 5⟩) = true ∧
    reads (slotWord 3 0 0 0 0x0D 63) 0 (.sCwait plainSlot 63) = true := by decide

/-- 04/R96, R106; 08/R237, R242, R243, R252: three-operand, VBCST, VCMP and KOP layouts, and LEASE of 64. -/
theorem test_byhand_vector :
    reads (slotWord 2 0 0 3 0x04 (24 * 2 ^ 9 + 17 * 2 ^ 4 + 5)) 0 (.vmul { plainSlot with pred := 3 } 24 17 5) = true ∧
    reads (slotWord 2 0 0 0 0x13 (4 * 2 ^ 9 + 9 * 2 ^ 3)) 0 (.vbcst plainSlot 4 9) = true ∧
    reads (slotWord 2 0 0 0 0x10 (5 * 2 ^ 11 + 2 * 2 ^ 9 + 18 * 2 ^ 4 + 7)) 0 (.vcmp plainSlot 5 2 18 7) = true ∧
    reads (slotWord 2 0 0 0 0x1F (5 * 2 ^ 11 + 6 * 2 ^ 8 + 7 * 2 ^ 5 + 3 * 2 ^ 2)) 0 (.kop plainSlot 5 6 7 3) = true ∧
    reads (slotWord 2 0 0 0 0x39 63) 0 (.lease plainSlot 63) = true := by decide

/-- 08/R260, R261: the word that R260 spells out; MWLD of ring 3 with K 16 and N 64; MTOPK of 4 largest distances from ring 1 to ring 2 with region s9. -/
theorem test_byhand_matrix : reads 0x400C0818 0xFFFF0300 (.mwld plainSlot 1 3 3 0xFFFF) = true ∧
    reads (slotWord 2 0 0 0 0x30 (3 * 2 ^ 11 + 15 * 2 ^ 3)) (0xFFFF * 2 ^ 16 + 63 * 2 ^ 8) (.mwld plainSlot 3 15 63 0xFFFF) = true ∧
    reads (slotWord 2 0 0 0 0x34 (1 * 2 ^ 11 + 2 * 2 ^ 5 + 1 * 2 ^ 4 + 3)) (cmdWord 0xFFFF 0 0 7 (1 * 2 ^ 6 + 9))
      (.mtopk plainSlot 1 false 0 2 true 3 true 9 ⟨0xFFFF, false, false, 7⟩) = true := by decide

/-- 04/R107: reserved tags and opcodes, and a field that must be zero, are no instruction. -/
theorem test_refuses_reserved_words :
    decodeWords (5 * 2 ^ 29) 0 = .error .reservedTag ∧ decodeWords (7 * 2 ^ 29) 0 = .error .reservedTag ∧
    decodeWords (4 * 2 ^ 29 + 0x09 * 2 ^ 24) 0 = .error .reservedOpcode ∧ decodeWords (0x1D * 2 ^ 22) 0 = .error .reservedOpcode ∧
    decodeWords (slotWord 1 0 0 0 0x13 0) 0 = .error .reservedOpcode ∧
    decodeWords (slotWord 2 0 0 0 0x22 0) 0 = .error .reservedOpcode ∧
    decodeWords (slotWord 3 0 0 0 0x0E 0) 0 = .error .reservedOpcode ∧
    (decodeWords (cWord 0x01 1 2 3 1) 0).toOption = none ∧ (decodeWords (4 * 2 ^ 29 + 1) 0).toOption = none := by
  and_intros <;> rfl

/-! ## One word each: results that the manual's text states, or that follow from it by hand -/

/-- The rig's heat with values in scalars. -/
def withS (l : List (BitVec 6 × TVal)) (h : Heat := rigHeat) : Heat := l.foldl (fun h x => { h with c := { h.c with s := h.c.s.set x.1.toNat x.2 } }) h

def val (v : Dword) : TVal := ⟨v, false⟩

/-- The heat after one word. -/
def did (i : Instr) (p : Seat) (h : Heat) : Heat :=
  match exec i (rig p h) with
  | .next t => (t.heat? 1).getD rigHeat
  | _ => rigHeat

/-- A byte of memory after one word, and its taint, as the first die reads them. -/
def stored (i : Instr) (p : Seat) (h : Heat) (pa : Nat) : Byte × Bool :=
  match exec i (rig p h) with
  | .next t => viewByte t 0 pa
  | _ => (0, false)

/-- The class and engine status of the fault that a word raises. -/
def raised (i : Instr) (p : Seat) (h : Heat) : Option (BitVec 8 × Dword) := (did i p h).fault.map fun f => (f.cls, f.engStatus)

/-- 05/R129: the sum is modulo 2^64; 10/R322: a result takes the OR of its operands' taints. -/
theorem test_add_wraps : (did (.add 2 3 4) .C (withS [(3, ⟨-1, true⟩), (4, val 1)])).s 2 = ⟨0, true⟩ := by decide +kernel

/-- 05/R129: LEA shifts sb by fn. -/
theorem test_lea_shifts_the_second : (did (.lea 2 3 4 3) .C (withS [(3, val 5), (4, val 2)])).s 2 = val 21 := by decide +kernel

/-- 05/R129: the high halves of -1 times -1, signed and natural. -/
theorem test_high_products : (did (.mulh 2 3 3) .C (withS [(3, val (-1))])).s 2 = val 0 ∧
    (did (.mulhn 2 3 3) .C (withS [(3, val (-1))])).s 2 = val 0xFFFFFFFFFFFFFFFE := by and_intros <;> decide +kernel

/-- 05/R130: the corners of division. -/
theorem test_division_corners : (did (.div 2 3 4) .C (withS [(3, val 7)])).s 2 = val (-1) ∧
    (did (.rem 2 3 4) .C (withS [(3, val 7)])).s 2 = val 7 ∧
    (did (.div 2 3 4) .C (withS [(3, val (-7)), (4, val 2)])).s 2 = val (-3) ∧
    (did (.rem 2 3 4) .C (withS [(3, val (-7)), (4, val 2)])).s 2 = val (-1) ∧
    (did (.div 2 3 4) .C (withS [(3, val 0x8000000000000000), (4, val (-1))])).s 2 = val 0x8000000000000000 := by
  and_intros <;> decide +kernel

/-- 05/R129: shift counts are modulo 64, and SAR keeps the sign. -/
theorem test_shift_counts : (did (.shl 2 3 4) .C (withS [(3, val 1), (4, val 65)])).s 2 = val 2 ∧
    (did (.sar 2 3 4) .C (withS [(3, val (-8)), (4, val 66)])).s 2 = val (-2) := by and_intros <;> decide +kernel

/-- 05/R132: lt is signed, ltn is natural. -/
theorem test_compare_signs : (did (.cmp 0 2 3 4 2) .C (withS [(3, val (-1)), (4, val 1)])).b 2 = ⟨true, false⟩ ∧
    (did (.cmp 0 2 3 4 4) .C (withS [(3, val (-1)), (4, val 1)])).b 2 = ⟨false, false⟩ := by and_intros <;> decide +kernel

/-- 04/R91: a write to s0 is discarded, and the seat goes on to the next word. -/
theorem test_s0_discards : (did (.addi 0 3 5) .C rigHeat).s 0 = val 0 ∧
    (did (.addi 0 3 5) .C rigHeat).C.pc = rigHeat.C.pc + 4 := by and_intros <;> decide +kernel

/-- 04/R90: MOVI extends its sign, MOVHI keeps the low half. -/
theorem test_long_immediates : (did (.movi 2 0x80000000 0xFFFF) .C rigHeat).s 2 = val 0xFFFFFFFF80000000 ∧
    (did (.movhi 2 0xABCD 0xFFFF) .C (withS [(2, val 0x1122334455667788)])).s 2 = val 0x0000ABCD55667788 := by
  and_intros <;> decide +kernel

/-- 05/R140: a negative count saturates to 0. -/
theorem test_setlc_saturates : ((did (.setlc 3 4) .C (withS [(4, val (-5))])).c.lc[3]).v = 0 ∧
    ((did (.setlc 3 4) .C (withS [(4, val 0x123456789A)])).c.lc[3]).v = 0xFFFFFFFF := by and_intros <;> decide +kernel

/-- 05/R135, R136; 03/R61: STS writes little-endian bytes; a misaligned one raises class 0x03 and writes nothing. -/
theorem test_sts_bytes : stored (.sts 5 6 2 2 0xFFFF) .C (withS [(5, val 0xA1B2), (6, val spad0)]) (spadAddr 0 2) = (0xB2, false) ∧
    stored (.sts 5 6 2 2 0xFFFF) .C (withS [(5, val 0xA1B2), (6, val spad0)]) (spadAddr 0 3) = (0xA1, false) ∧
    raised (.sts 5 6 1 2 0xFFFF) .C (withS [(5, val 0xA1B2), (6, val spad0)]) = some (0x03, 0) := by
  and_intros <;> decide +kernel

/-- 05/R137, R138: STROKELEN at reset; an unassigned number is illegal. -/
theorem test_csr_numbers : (did (.csrr 2 0x010) .C rigHeat).s 2 = val 65536 ∧
    raised (.csrr 2 0x005) .C rigHeat = some (0x01, 0) ∧ raised (.csrw 2 0x012) .C rigHeat = some (0x01, 0) := by
  and_intros <;> decide +kernel

/-- 05/R139: the codes of TRAP and BKPT stand in the engine status. -/
theorem test_trap_codes : raised (.trap 1023) .C rigHeat = some (0x14, 1023) ∧
    raised (.bkpt 5) .C rigHeat = some (0x13, 5) := by and_intros <;> decide +kernel

/-- 04/R86, 05/R112: the displacement counts from the word itself; CALL pushes the next address. -/
theorem test_jump_and_call : (did (.jmp 0xFFFFFF) .C rigHeat).C.pc = 0xFFC ∧ (did (.call 3) .C rigHeat).C.pc = 0x100C ∧
    (did (.call 3) .C rigHeat).C.ret = [0x1004] ∧ (did (.br 1 false 2) .C rigHeat).C.pc = 0x1004 ∧
    (did (.br 1 true 2) .C rigHeat).C.pc = 0x1008 := by and_intros <;> decide +kernel

/-- 05/R117: a count of 0 skips the body; one of 3 enters it with remain 3. -/
theorem test_loop_counts : (did (.loopImm 0 5) .C rigHeat).C.pc = 0x1018 ∧ (did (.loopImm 3 5) .C rigHeat).C.pc = 0x1004 ∧
    ((did (.loopImm 3 5) .C rigHeat).C.loops.map (·.remain)) = [3] := by and_intros <;> decide +kernel

/-- 05/R126: HEND ends the seat. -/
theorem test_hend_ends : (did .hend .X rigHeat).X.ended = true ∧ (did .hend .X rigHeat).C.ended = false := by
  and_intros <;> decide +kernel

/-- 06/R163: an empty mask gives all ones for WAITCO any, and no errors for WAITCO all. -/
theorem test_waitco_empty : (did (.waitcoAny 2 3) .C rigHeat).s 2 = ⟨-1, true⟩ ∧
    (did (.waitcoAll 2 3) .C rigHeat).s 2 = val 0 := by and_intros <;> decide +kernel

/-- 06/R180: TAINTQ gives the taint bit, untainted, TCLR clears it and counts. -/
theorem test_taint_words : (did (.taintq 2 3) .C (withS [(3, ⟨9, true⟩)])).s 2 = val 1 ∧
    (did (.tclr 2 3) .C (withS [(3, ⟨9, true⟩)])).s 2 = val 9 ∧
    (did (.tclr 2 3) .C (withS [(3, ⟨9, true⟩)])).ctl.tCleared = 1 := by and_intros <;> decide +kernel

/-- 06/R147, R153: an atomic outside ASR raises class 0x06. -/
theorem test_atomic_target : raised (.aadd 2 3 4 false 0 0xFFFF) .C (withS [(3, val spad0)]) = some (0x06, 0) := by
  decide +kernel

/-- 02/R21, R22: L pushes a token to X, and X pops one that is there. -/
theorem test_tokens : (did (.nopl { plainSlot with pushDn := true }) .L rigHeat).fifo.toList = [1, 0, 0, 0, 0, 0] ∧
    (did (.nopx { plainSlot with popUp := true }) .X { rigHeat with fifo := #v[1, 0, 0, 0, 0, 0] }).fifo.toList =
      [0, 0, 0, 0, 0, 0] := by and_intros <;> decide +kernel

/-- A vector whose lanes are given, the rest zero. -/
def lanes (l : List Nat) : VReg := ⟨BitVec.ofNat 2048 (l.foldr (fun x a => x + 2 ^ 32 * a) 0), 0⟩

/-- The rig's heat with v1, v2 and a type. -/
def withV (t : BitVec 4) (a b : List Nat) (h : Heat := rigHeat) : Heat :=
  { h with x := { h.x with v := (h.x.v.set 1 (lanes a)).set 2 (lanes b), types := { h.x.types with t := t } } }

/-- The first lanes of v0. -/
def v0 (h : Heat) (n : Nat) : List Nat := (List.range n).map fun i => (h.v 0).elem 32 i

/-- 08/R232; 03/R56: 1.0 + 2.0, 1.5 x -2.0 and -0 + 0 in f32. -/
theorem test_float_lanes :
    v0 (did (.vadd plainSlot 0 1 2) .X (withV 0 [0x3F800000, 0x80000000] [0x40000000, 0])) 2 = [0x40400000, 0] ∧
    v0 (did (.vmul plainSlot 0 1 2) .X (withV 0 [0x3FC00000] [0xC0000000])) 1 = [0xC0400000] := by
  and_intros <;> decide +kernel

/-- 08/R236, R230: 1/0 is infinity and sets divide by zero; 2^3 and log2 8 are exact. -/
theorem test_functions : v0 (did (.vrcp plainSlot 0 1) .X (withV 0 [0] [])) 1 = [0x7F800000] ∧
    (did (.vrcp plainSlot 0 1) .X (withV 0 [0] [])).x.statLog.map (fun e => e.2.getLsbD 1) = [true] ∧
    v0 (did (.vexp2 { plainSlot with pred := 1 } 0 1) .X
      { withV 0 [0x40400000] [] with x := { (withV 0 [0x40400000] []).x with k := (rigHeat.x.k.set 1 ⟨1, false⟩) } }) 1 =
      [0x41000000] := by and_intros <;> decide +kernel

/-- 08/R233: integer lanes wrap, and shift counts are modulo the width. -/
theorem test_integer_lanes : v0 (did (.vadd plainSlot 0 1 2) .X (withV 5 [0xFFFFFFFF, 7] [1, 8])) 2 = [0, 15] ∧
    v0 (did (.vshl plainSlot 0 1 2) .X (withV 5 [3] [33])) 1 = [6] ∧
    v0 (did (.vperm plainSlot 0 1 2) .X (withV 5 [10, 11, 12] [2, 66, 0])) 3 = [12, 12, 10] := by
  and_intros <;> decide +kernel

/-- 08/R239: a sum reduction of the lanes stands in every element. -/
theorem test_reduction : v0 (did (.vred plainSlot 0 1 0) .X (withV 5 [1, 2, 3] [])) 2 = [6, 6] := by decide +kernel

/-- 08/R242, R243: VCMP eq, and KOP not of it. -/
theorem test_lane_predicates : ((did (.vcmp plainSlot 3 0 1 2) .X (withV 5 [1, 2] [1, 3])).k 3).v = 0xFFFFFFFFFFFFFFFD ∧
    ((did (.kop plainSlot 3 0 0 4) .X rigHeat).k 3).v = 0 := by and_intros <;> decide +kernel

/-- 07/R186, R191: PSET; STQ stores the head entry and advances by the row stride. -/
theorem test_store_stream :
    let h := (withV 5 [] [])
    let d : QDesc := ⟨5, 2, 8, 4, none, false⟩
    let k := { h with pS := h.pS.set 1 (val spad0), q := h.q.set 8 { desc := some d, entries := [lanes [0x11223344, 5]], buf := [], taken := 0, due := [] } }
    stored (.stq plainSlot 8 1 1) .S k (spadAddr 0 0) = (0x44, false) ∧ stored (.stq plainSlot 8 1 1) .S k (spadAddr 0 4) = (5, false) ∧
    ((did (.stq plainSlot 8 1 1) .S k).p .S 1).v = spad0 + 8 ∧ ((did (.stq plainSlot 8 1 1) .S k).stream 8).entries = [] ∧
    ((did (.sPset plainSlot 2 5) .S (withS [(5, val 77)])).p .S 2).v = 77 := by
  and_intros <;> decide +kernel

/-- 08/R252, R253: a matrix command without a lease raises class 0x11; LEASE waits for its grant. -/
theorem test_lease : raised (.mclr plainSlot 0 3 5 plainC) .X rigHeat = some (0x11, 0) ∧
    (did (.lease plainSlot 3) .X rigHeat).X.pc = rigHeat.X.pc := by and_intros <;> decide +kernel

/-- 21/R457: READ_ERROR_LOG is answered. -/
theorem test_host_side : (match exec .readErrorLog (rig .C) with | .next t => t.lamom.answers.length | _ => 0) = 1 := by
  decide +kernel

/-- 20/R421, 04/R107: a word that is no instruction raises class 0x01, and a heat's register limit holds (02/R28). -/
theorem test_illegal : raised .illegalEncoding .C rigHeat = some (0x01, 0) ∧
    raised (.add 63 1 2) .C { rigHeat with type := { plainType with sGroups := 7 } } = some (0x01, 0) := by
  and_intros <;> decide +kernel

/-- The model's own: a word placed by withFetchWord is the next one that step runs (log 5). -/
theorem test_withFetchWord :
    (match step (State.reset.withFetchWord 32 0x04421000) with
      | .next t => (t.heat? 1).elim 0 fun h => h.C.pc.toNat | _ => 0) = 0x1004 := by decide +kernel

/-! ## Premises: a state and operands that meet those of each statement (the rig, or the rig changed as said) -/

abbrev rC : State := rig .C
abbrev rL : State := rig .L
abbrev rX : State := rig .X
abbrev rS : State := rig .S

theorem met_IntegerWords : Clear (Issue.c 1 [2, 3, 4] [3, 4] true) .C rC rigHeat ∧ rigHeat.settled 3 ∧
    rigHeat.settled 4 ∧ Clear (Issue.c 1 [2, 3] [3] true) .C rC rigHeat ∧
    Clear (Issue.cLong [2] [] true 0xFFFF) .C rC rigHeat ∧
    Clear (Issue.cLong [2] [2] true 0xFFFF) .C rC rigHeat ∧ rigHeat.settled 2 := by
  and_intros <;> first | exact Clear.of_check rfl (by decide +kernel) | rfl

/-- By zero, by three, and the smallest integer by -1. -/
theorem met_DivisionNeverTraps : Clear (Issue.c 1 [2, 3, 4] [3, 4] true) .C rC rigHeat ∧ rigHeat.settled 3 ∧
    (rigHeat.s 4).v = 0 ∧ ((withS [(4, val 3)]).s 4).v ≠ 0 ∧
    (let h := withS [(3, val (BitVec.intMin 64)), (4, val (BitVec.allOnes 64))]
     Clear (Issue.c 1 [2, 3, 4] [3, 4] true) .C (rig .C h) h ∧ (h.s 3).v = BitVec.intMin 64 ∧
       (h.s 4).v = BitVec.allOnes 64) ∧
    (ranOn (Issue.c 1 [2, 3, 4] [3, 4] true) .C rC rigHeat rC (rigHeat.setS 2 (val 1))).heat? 1 ≠ none := by
  and_intros <;> first | exact Clear.of_check rfl (by decide +kernel) | rfl | decide +kernel

theorem met_BitFieldWords : Clear ((Issue.c 1 [2, 3] [3] true).of (.sext 2 3 2)) .C rC rigHeat ∧
    Clear ((Issue.c 1 [2, 3] [3] true).of (.zext 2 3 0)) .C rC rigHeat ∧ (2 : BitVec 4).toNat ≤ 2 ∧
    Clear (Issue.c 1 [2, 3] [3] true) .C rC rigHeat ∧ Clear (Issue.c 1 [2, 3, 4] [3, 4] true) .C rC rigHeat ∧
    Clear (Issue.c 1 [2, 3, 4] [2, 3, 4] true) .C rC rigHeat ∧ rigHeat.settled 2 ∧ rigHeat.settled 3 ∧
    rigHeat.settled 4 := by
  and_intros <;> first | exact Clear.of_check rfl (by decide +kernel) | rfl | decide

theorem met_CompareWords : Clear ((Issue.c 1 [3, 4] [3, 4] false).of (.cmp 2 7 3 4 5)) .C rC rigHeat ∧
    Clear ((Issue.c 1 [3] [3] false).of (.cmpi 5 7 3 0x200)) .C rC rigHeat ∧ rigHeat.settled 3 ∧ rigHeat.settled 4 := by
  and_intros <;> first | exact Clear.of_check rfl (by decide +kernel) | rfl

theorem met_HardwiredRegisters : rigHeat.settled 0 := rfl

/-- A word of each list of the frames answers a next state. -/
def goesOn (i : Instr) (s : State) : Bool := match exec i s with | .next _ => true | _ => false

theorem met_RegisterWordFrame : goesOn (.add 2 3 4) rC = true ∧ goesOn (.cmp 0 2 3 4 0) rC = true := by
  and_intros <;> decide +kernel

theorem met_ExecutedWordGoesOn : rC.heat? rigHeat.id.uid = some rigHeat := rfl

/-- A false slot. -/
theorem met_SkippedWordMovesNoToken :
    let w := (Issue.short { plainSlot with popUp := true, pred := 1 } []).of (.nopl { plainSlot with popUp := true, pred := 1 })
    rL.acting = some (rigHeat, ⟨1, .L, none⟩) ∧ stopsHere rigHeat .L = false ∧ debugHeld rL rigHeat .L = false ∧
    unresolved w rigHeat .L = false ∧ due rL rigHeat .L w = .free ∧ misfit rL rigHeat w = false ∧ holdWait rL rigHeat .L w = none ∧
    executes rL rigHeat .L w = .ok false ∧
    (ran { w with slot := none } .L rL rigHeat rL rigHeat (nextWord rigHeat w.len)).heat? rigHeat.id.uid ≠ none := by
  and_intros <;> first | rfl | decide +kernel

/-- The rig's heat with fifteen return addresses, and a coxed one at its next stroke. -/
theorem met_ControlWords : Clear (Issue.c 1 [] [] false) .C rC rigHeat ∧
    Clear ((Issue.short plainSlot []).of (.nopl plainSlot)) .L rL rigHeat ∧
    Clear ((Issue.short plainSlot []).of (.nopx plainSlot)) .X rX rigHeat ∧
    Clear ((Issue.short plainSlot []).of (.nops plainSlot)) .S rS rigHeat ∧
    Clear (sharedIssue true) .C rC rigHeat ∧ targetOk rigHeat.C (rigHeat.C.pc + (5 : BitVec 24).signExtend 64 * 4) = true ∧
    Clear (sharedIssue false) .X rX rigHeat ∧ rigHeat.X.ret.length < 16 ∧ rigHeat.id.coxed = false ∧
    (let h := { rigHeat with C := { rigHeat.C with ret := List.replicate 16 8 } }
     Clear (sharedIssue false) .C (rig .C h) h ∧ h.C.ret = 8 :: List.replicate 15 8 ∧ h.C.inner = none) ∧
    (let h := { rigHeat with id := { rigHeat.id with coxed := true } }
     Clear (sharedIssue false) .C (rig .C h) h ∧ (rig .C h).now = nextStroke h h.C * (rig .C h).dev.strokeLen) ∧
    (rigHeat.outcomes.filter fun e => !e.taken_ rigHeat).length < 16 ∧
    (let h := { rigHeat with outcomes := [⟨0, 0x1000, true, 0, [], false, false, false⟩], C := { rigHeat.C with tt := 1 } }
     Clear (sharedIssue true) .L (rig .L h) h ∧ (outcomeAt h (h.tt .L)).isSome = true) := by
  and_intros <;> first | exact Clear.of_check rfl (by decide +kernel) | rfl | decide +kernel

/-- The rig's heat inside a loop of one word, at its last of two iterations or at its end. -/
def looped (pc : Dword) (remain : Nat) : Heat :=
  let u : SeatState := { rigHeat.C with pc := pc, loops := [⟨0x1000, 0x1004, 0x1008, remain, 1, 0, rigHeat.c.strides.toList.take 4⟩] }
  { rigHeat with C := u, L := u }

theorem met_LoopWords : Clear ((sharedIssue false).of (.loopLc 5 1)) .C rC rigHeat ∧
    Clear ((sharedIssue false).of (.loopImm 2047 4095)) .C rC rigHeat ∧ rigHeat.C.loops.length < 6 ∧
    endsBeyond rigHeat.C 4095 = false ∧
    (let h := { rigHeat with outcomes := [⟨0, 0x1000, false, 3, [], false, false, false⟩], C := { rigHeat.C with tt := 1 } }
     Clear ((sharedIssue false).of (.loopImm 3 5)) .L (rig .L h) h ∧
       Clear ((sharedIssue false).of (.loopLc 0 5)) .L (rig .L h) h ∧
       Clear (sharedIssue false) .L (rig .L h) h ∧ (outcomeAt h (h.tt .L)).isSome = true) ∧
    (rig .L (looped 0x1008 1)).acting = some (looped 0x1008 1, ⟨1, .L, none⟩) ∧
    (rig .L (looped 0x1008 2)).acting = some (looped 0x1008 2, ⟨1, .L, none⟩) ∧
    (looped 0x1008 2).L.loops.map (fun l => (l.depth, l.stop, l.remain)) = [(0, 0x1008, 2)] ∧
    (looped 0x1008 2).L.pc = 0x1008 ∧ (looped 0x1008 2).L.ret.length = 0 ∧
    Clear (sharedIssue false) .C (rig .C (looped 0x1004 1)) (looped 0x1004 1) ∧
    Clear (sharedIssue false) .L (rig .L (looped 0x1004 1)) (looped 0x1004 1) ∧
    outcomeAt (looped 0x1004 1) 0 = none ∧
    (let h := { rigHeat with
       C := { rigHeat.C with exits := [⟨0, 3⟩] }, L := { rigHeat.L with exits := [⟨0, 3⟩, ⟨4, 5⟩] }
       X := { rigHeat.X with exits := [⟨0, 3⟩] }, S := { rigHeat.S with ended := true } }
     (rig .C h).heat? 1 = some h ∧ h.id.uid = 1 ∧
       seats.all (fun p => (h.seat p).ended || (!(h.seat p).exits.isEmpty && ((rig .C h).cmdsOfSeat 1 p).isEmpty)) = true) := by
  and_intros <;> first | exact Clear.of_check rfl (by decide +kernel) | rfl | decide +kernel

theorem met_StepRunsTheDecodedWord :
    let s := State.reset.withFetchWord 32 0x04421000
    let s0 : State := { s with agenda := [] }
    s.agenda = [.slot 0 .C] ∧ (candidates s0 0 .C).map (fun h => (stopsHere h .C, h.C.check.isNone, (atIterationEnd h.C).isNone)) =
      [(false, true, true)] ∧
    (match candidates s0 0 .C with
      | h :: _ => (match fetchWord s0 h h.C.pc with | .ok x => if s.heat? h.id.uid = some h then x.2 else 0 | .error _ => 0)
      | [] => 0) = 0x04421000 ∧
    (decodeWords 0x04421000 0).toOption.isSome = true ∧ isLong 0x04421000 = false ∧ (ownerOf 0x04421000).getD .C = .C := by
  and_intros <;> decide +kernel

theorem met_StepKeepsMemoryCanonical : Inv State.reset ∧
    (match step State.reset with | .next _ => true | _ => false) = true := by and_intros <;> rfl

theorem met_DecodeOfEncode : WellFormed (.vadd plainSlot 31 23 15) = true ∧ WellFormed .nopa = true := by decide

theorem met_StepTakesTheNextActAndClockAdvances :
    ({ rC with agenda := [.event .ready] } : State).agenda = [.event .ready] ∧ rC.agenda = [] ∧
    (ownSteps State.reset)[10000]? = none ∧ State.reset.lamom.stage = .held ∧ rC.lamom.stage ≠ .held ∧ rC.dev.lead = 0 ∧
    rC.dev.clock + (2 ^ 64 - 1) < 2 ^ 64 ∧ freeSlots State.reset = [] ∧ cycleBound State.reset = false ∧
    (let s : State := { State.reset with net := { Net.reset with msgs := [⟨5, none, none, 0, [], none, none⟩] } }
     freeSlots s = [] ∧ cycleBound s = true) ∧
    (∀ w ∈ [0x80000000, 0x88000000], let s := State.reset.withFetchWord 32 w
     let s0 : State := { s with agenda := [] }
     freeSlots s0 ≠ [] ∧ (match serveFirst (freeSlots s0) s0 with | .next _ => true | _ => false) = true) := by
  and_intros <;> first | rfl | decide +kernel

/-- A heat with the address and a value in s3 and s4, and loads and atomics that have come back. -/
def atSpad : Heat := withS [(3, val spad0), (4, ⟨7, true⟩)]
def atAsr : Heat := withS [(3, val asr0), (4, ⟨7, true⟩)]
def back : Pending := ⟨9, some 5, 0, some (val 1), 0x1000, spad0, none, false⟩

theorem met_ScalarLoadsAndStores :
    Clear ((Issue.cLong [5, 3] [3] true 0xFFFF).of (.lds 5 3 8 6 0xFFFF)) .C (rig .C atSpad) atSpad ∧ atSpad.settled 3 ∧
    (spad0 + 8).toNat % 8 = 0 ∧ CellFree (rig .C atSpad) atSpad (spad0 + 8) 8 .read ∧
    Readable (rig .C atSpad) atSpad 0 (spad0 + 8) 8 ∧
    Clear ((Issue.cLong [4, 3] [4, 3] false 0xFFFF).of (.sts 4 3 8 6 0xFFFF)) .C (rig .C atSpad) atSpad ∧
    CellFree (rig .C atSpad) atSpad (spad0 + 8) 8 .write ∧ Writable (rig .C atSpad) atSpad 0 (spad0 + 8) 8 true ∧
    (let h := { rigHeat with pend := [back] }
     ((rig .C h).heats.find? fun k => k.pend.any fun x => x.id == 9) = some h ∧ (h.pend.find? fun x => x.id == 9) = some back ∧
       back.dst = some 5 ∧ back.ctx = none ∧ back.cancelled = false ∧ riding (rig .C h) 9 = false ∧
       buffered (rig .C h) h 9 = false ∧ loadUnanswered (rig .C h) h back = false ∧ (rig .C h).net.badBeats.contains 9 = false ∧
       (rig .C h).job? h.id.job = some plainJob ∧ plainJob.halt = none) := by
  and_intros <;> first
    | exact Clear.of_check rfl (by decide +kernel) | exact Readable.of_check (by decide +kernel)
    | exact Writable.of_check (by decide +kernel) | exact CellFree.of_check (by decide +kernel) | rfl

/-- A seat at C's text time, and one past it; a load older than a superseded value, and a later one. -/
theorem met_LandedLoadIsWhatReadersSee : rigHeat.X.ended = false ∧ rigHeat.X.seen = [] ∧
    rigHeat.pendingOn 5 (rigHeat.tt .X) = false ∧ rigHeat.versC = [] ∧ rigHeat.tt .X ≤ rigHeat.tt .C ∧
    (let h := { rigHeat with X := { rigHeat.X with tt := 3 } }
     ¬ h.tt .X ≤ h.tt .C ∧ h.pendingOn 5 (h.tt .X) = false) ∧
    (let h := { rigHeat with versC := [⟨.s 5, 4, val 0⟩] }
     (∀ x ∈ h.versC, x.reg = .s 5 → x.tt ≤ 4) ∧ ∃ x ∈ h.versC, x.reg = .s 5 ∧ 3 < x.tt) := by
  and_intros <;> first | rfl | decide +kernel

theorem met_ScalarStoreFrame : goesOn (.lds 5 3 8 6 0xFFFF) (rig .C atSpad) = true ∧
    goesOn (.sts 4 3 8 6 0xFFFF) (rig .C atSpad) = true ∧ (rig .C atSpad).mem.sealedLines = [] ∧
    (rig .C atSpad).actor = some atSpad ∧
    answers (resolve (rig .C atSpad) atSpad 0 (spad0 + 8) .write) = true := by
  and_intros <;> rfl

/-- A read, and a write of each kind at the ends of its range, with privilege. -/
theorem met_SpecialRegisterWords :
    Clear { Issue.c 1 [2] [] true with handler := false } .C rC rigHeat ∧
    Clear { Issue.c 1 [3] [3] false with handler := false } .C rC rigHeat ∧ rigHeat.settled 3 ∧
    rigHeat.tt .C ≤ rigHeat.tt .X ∧ rC.privileged rigHeat = true ∧
    (∀ x ∈ [256, 65535], let h := withS [(3, val (BitVec.ofNat 64 x))]; 256 ≤ (h.s 3).v.toNat ∧ (h.s 3).v.toNat ≤ 65535) ∧
    (∀ x ∈ [1, 256], let h := withS [(3, val (BitVec.ofNat 64 x))]; 1 ≤ (h.s 3).v.toNat ∧ (h.s 3).v.toNat ≤ 256) ∧
    (137 * 256 + 3) / 256 % 256 ≤ 137 ∧ (writeRebal rC 0x04003201).isSome = true := by
  and_intros <;> first | exact Clear.of_check rfl (by decide +kernel) | rfl | decide +kernel

/-- Without privilege, and with it values just outside. -/
theorem met_SpecialRegisterFaults : Sound rigHeat .C ∧ rC.heat? rigHeat.id.uid = some rigHeat ∧
    (0x005 : BitVec 10).toNat ∉ [0x000, 0x001, 0x002, 0x003, 0x004, 0x010] ∧
    ({ rC with jobs := [{ plainJob with flags := 0 }] } : State).privileged rigHeat = false ∧
    ((withS [(3, val 255)]).s 3).v.toNat < 256 ∧ 65535 < ((withS [(3, val 65536)]).s 3).v.toNat ∧
    (rigHeat.s 3).v.toNat < 1 ∧ 256 < ((withS [(3, val 257)]).s 3).v.toNat ∧
    Clear { Issue.c 1 [3] [3] false with handler := false } .C { rC with jobs := [{ plainJob with flags := 0 }] } rigHeat := by
  and_intros <;> first | exact Clear.of_check rfl (by decide +kernel) | rfl | decide +kernel

theorem met_TrapAndBreakpoint : Clear (Issue.seatOnly [] [] false) .C rC rigHeat ∧ rC.heat? rigHeat.id.uid = some rigHeat ∧
    Sound rigHeat .C ∧ rC.job? rigHeat.id.job = some plainJob ∧ plainJob.debugger = false ∧
    ({ rC with jobs := [{ plainJob with debugger := true }] } : State).job? rigHeat.id.job =
      some { plainJob with debugger := true } ∧
    Clear (Issue.seatOnly [] [] false) .C { rC with jobs := [{ plainJob with debugger := true }] } rigHeat := by
  and_intros <;> first | exact Clear.of_check rfl (by decide +kernel) | rfl

theorem met_CountAndClockWords : Clear ((Issue.seatOnly [3] [3] false).of (.setlc 5 3)) .C rC rigHeat ∧
    Clear { (Issue.cLong [3] [3] false 0xFFFF).of (.setstrd 5 3 true true 3 15 0xFFFF) with handler := false } .C rC rigHeat ∧
    (5 : BitVec 3).toNat < 6 ∧ 4 * (5 : BitVec 3).toNat + (3 : BitVec 2).toNat < 24 ∧
    Clear (Issue.seatOnly [3] [3] false) .C rC rigHeat ∧ Clear (Issue.seatOnly [2] [] true) .C rC rigHeat ∧
    Clear ((Issue.seatOnly [2] [] true).of (.self 2 6)) .C rC rigHeat ∧ rigHeat.id.coxed = false ∧
    (let h := { rigHeat with id := { rigHeat.id with coxed := true } }
     Clear (Issue.seatOnly [2] [] true) .C (rig .C h) h ∧ h.id.coxed = true) := by
  and_intros <;> first | exact Clear.of_check rfl (by decide +kernel) | rfl | decide +kernel

/-- A latch set, a wait that runs, one that is over; an expired count; a handler that runs. -/
def ctx : Handler :=
  { id := 4, heat := 1, core := 0, target := 0x1000, index := 0, obj := 0, status := 0, progress := 0, running := true
    pc := 0x1000, s := Vector.replicate 16 ⟨0, false⟩, b := (Vector.replicate 8 ⟨false, false⟩).set 0 ⟨true, false⟩, count := 255 }

theorem met_EventAndYieldWords :
    (∀ hd ∈ [Holding.none, .wfe 0 5, .wfeOver], let h := { rigHeat with hold := hd, ctl := { rigHeat.ctl with latch := true } }
      clearB (Issue.seatOnly [2, 3] [3] true) .C (rig .C h) h = true) ∧
    Clear (Issue.seatOnly [2, 3] [3] true) .C rC rigHeat ∧ rigHeat.hold = .none ∧ rigHeat.ctl.latch = false ∧
    (let h := { rigHeat with hold := .wfe 0 5 }
     let s := { rig .C h with dev := { DevRegs.reset with clock := 5 } }
     s.heat? 1 = some h ∧ h.ctl.latch = false ∧ 5 ≤ s.now - 0) ∧
    (let h := { rigHeat with hold := .yielded 0 5 }
     let s := { rig .C h with dev := { DevRegs.reset with clock := 5 } }
     s.heat? 1 = some h ∧ 5 ≤ s.now - 0 ∧ 0 < s.now ∧
       ∀ k ∈ s.heats, k.core = h.core → k.onCore = true → k.id.uid ≠ h.id.uid → wasReady s k = false) ∧
    Clear (Issue.seatOnly [3] [3] false) .C rC rigHeat ∧ Clear (Issue.seatOnly [] [] false) .C rC rigHeat ∧
    predecessorFailed rC rigHeat = false ∧ predecessorsVisible rC rigHeat = true ∧ Sound rigHeat .C ∧
    (let s := { rC with handlers := [ctx], cur := some ⟨1, .C, some 4⟩ }
     s.acting = some (rigHeat, ⟨1, .C, some 4⟩) ∧ (s.handlers.find? fun x => x.id == 4) = some ctx ∧ ctx.count < 256) := by
  and_intros <;> first
    | exact Clear.of_check rfl (by decide +kernel)
    | rfl
    | decide +kernel


/-- A field beyond the file, a register beyond the demand, and a coxed stamp of 0xFFFF. -/
theorem met_IllegalWordsRaiseTheFault : rC.acting = some (rigHeat, ⟨1, .C, none⟩) ∧ stopsHere rigHeat .C = false ∧
    debugHeld rC rigHeat .C = false ∧ Sound rigHeat .C ∧ ((Issue.c 1 [] [] false).of (.setlc 6 1)).bad = true ∧
    (∃ n ∈ (Issue.c 1 [63] [] true).names, 8 * ({ plainType with sGroups := 7 } : TaskType).sGroups ≤ n.toNat) ∧
    ((0xFFFF : BitVec 16) = 0xFFFF ∨ rC.dev.strokeLen ≤ (0xFFFF : BitVec 16).toNat) ∧
    Clear (sharedIssue true) .C rC rigHeat := by
  and_intros <;> first
    | exact Clear.of_check rfl (by decide +kernel) | rfl | decide +kernel

/-- A heat that stops for each cause, in this cycle and in an earlier one, and a gang of two. -/
theorem met_TakingAFault :
    let st (c : StopCause) (n : Nat) : Heat := { rigHeat with stop := some ⟨c, n, 0, false⟩ }
    rigHeat.stop = none ∧ (st .fault 0).stop = some ⟨.fault, 0, 0, false⟩ ∧
    ((⟨.cancel, 1, 0, false⟩ : Stop).since ≠ rC.now) ∧ (⟨.cancel, 0, 0, false⟩ : Stop).since = rC.now ∧
    rC.heat? rigHeat.id.uid = some rigHeat ∧
    (let h := { rigHeat with type := { plainType with gang := true } }
     let k := { h with id := { h.id with uid := 2, index := 1 }, core := 1 }
     let s := { rig .C h with heats := [h, k] }
     h.stop = none ∧ h.type.gang = true ∧ h.id.detached = false ∧ s.heat? k.id.uid = some k ∧ k.id.uid ≠ h.id.uid ∧
       k.id.job = h.id.job ∧ k.id.launch = h.id.launch ∧ k.id.detached = false ∧ k.status = .resident) := by
  and_intros <;> first | rfl | decide +kernel

/-- A computation answers, and its answer is as told. -/
def answersWith {ε α : Type} (e : Except ε α) (p : α → Bool) : Bool := match e with | .ok x => p x | .error _ => false

/-- A 32-bit and a 64-bit cell, and an accumulator cell of 96 bytes. -/
theorem met_AtomicWordsSendTheirPacket :
    let s := rig .C atAsr
    (∀ i ∈ [Instr.aadd 5 3 4 true 8 0xFFFF, .ald 5 3 2 0 0xFFFF, .laadd 3 4 2 32 0xFFFF],
      clearB ((Issue.cLong [5, 3, 4] [3, 4, 0] true 0xFFFF).of i) .C s atAsr = true) ∧
    Clear ((Issue.cLong [5, 3, 4] [3, 4, 5] true 0xFFFF).of (.acas 5 3 4 true 8 0xFFFF)) .C s atAsr ∧
    atAsr.settled 3 ∧ atAsr.settled 4 ∧ atAsr.settled 0 ∧ atAsr.settled 5 ∧
    answersWith (resolve s atAsr 0 (asr0 + 8) .atomic) (fun x => x.2.kind == .asr &&
      answers (cellParts x.1 atAsr (asr0 + 8) .atomic 8 x.2.pa)) = true ∧ (asr0 + 8).toNat % 8 = 0 ∧
    answersWith (resolve s atAsr 0 (asr0 + 32) .read) (fun x => x.2.kind == .asr &&
      answers (cellParts x.1 atAsr (asr0 + 32) .read 96 x.2.pa)) = true ∧ (asr0 + 32).toNat % 32 = 0 ∧
    (watchHit s 1 (asr0 + 8).toNat 8 true true).isNone = true ∧
    (s.atomics.filter fun x => x.core == atAsr.core).length < 64 := by
  and_intros <;> first | exact Clear.of_check rfl (by decide +kernel) | rfl | decide +kernel

/-- A packet on its way, with its outstanding access, and a reply kept. -/
def sent (op : BitVec 7) (form : Nat) : Packet :=
  ⟨9, 0, 3, 1, op, form, asr0 + 8, asrAddr 0 8, [asrAddr 0 8], val 5, 0, false, false, [], false, false, 0, 0x1000⟩
def sentAcc (op : BitVec 7) (form : Nat) : Packet :=
  { sent op form with va := asr0, pa := asrAddr 0 0, parts := [asrAddr 0 0, asrAddr 0 32, asrAddr 0 64] }
def carrying (p : Packet) : State := { rig .C { rigHeat with pend := [{ back with value := none }] } with atomics := [p] }
def sending (op : BitVec 7) (form : Nat) : State := carrying (sent op form)

/-- A packet that nothing holds, of a heat that waits for it. -/
def mayApply (s : State) (p : Packet) : Bool :=
  (s.atomics.find? fun k => k.id == p.id && !k.applied) == some p && !mustHold s p &&
  (match s.heat? p.heat with
    | some h => h.id.uid == p.heat && (h.pend.find? fun k => k.id == p.id).isSome
    | none => false)

theorem met_AtomicAppliesItsOperation :
    (∀ op ∈ [(0x40 : BitVec 7), 0x49, 0x4F], ∀ form ∈ [0, 1],
      mayApply (sending op form) (sent op form) = true ∧ (sent op form).form ≤ 1) ∧
    (∀ op ∈ [(0x4A : BitVec 7), 0x4C], mayApply (sending op 0) (sent op 0) = true) ∧
    (∀ form ∈ [0, 2, 3], mayApply (carrying (sentAcc 0x4D form)) (sentAcc 0x4D form) = true ∧
      mayApply (carrying (sentAcc 0x4E form)) (sentAcc 0x4E form) = true) ∧
    (let s := sending 0x40 0
     let p := sent 0x40 0
     Inv s ∧ savedReply s p = none ∧ p.clean = false ∧ p.parts = [p.pa] ∧
       kindOf p.pa = some .asr ∧ (∀ i ∈ List.range 96, s.mem.poisoned (asrAddr 0 0 + i) = false) ∧ s.mem.errors = [] ∧
       (sentAcc 0x4D 0).pa % 32 = 0 ∧ kindOf (sentAcc 0x4D 0).pa = some .asr) ∧
    (let p := { sent 0x40 0 with resent := true }
     let s := { carrying p with replies := [⟨0, 0, 3, val 8, 0⟩] }
     mayApply s p = true ∧ savedReply s p = some ⟨0, 0, 3, val 8, 0⟩) ∧
    (let s := rC
     kindOf (asrAddr 0 16) = some .asr ∧ asrAddr 0 16 % 8 = 0 ∧ s.sched = none ∧ s.net.forwards = [] ∧
       ∀ r ∈ s.replies, r.crew = homeCrew (asrAddr 0 16) → r.core = 256 + 255 → r.seq ≠ 0) := by
  and_intros <;> first | rfl | decide +kernel

/-- Nothing outstanding; an atomic that is not applied; a load that is outstanding. -/
theorem met_FencesWaitForWhatTheyOrder :
    let s := sending 0x40 0
    let h := { rigHeat with pend := [{ back with value := none }] }
    (∀ sc ∈ [(0 : BitVec 4), 5], clearB ((Issue.c 1 [] [] false).of (.fence sc)) .C rC rigHeat = true ∧
      clearB ((Issue.c 1 [] [] false).of (.fencea sc)) .C rC rigHeat = true ∧
      clearB ((Issue.c 1 [] [] false).of (.fencer sc)) .C rC rigHeat = true) ∧
    rC.atomics = [] ∧ unperformed rC 1 5 = false ∧ rigHeat.pend = [] ∧
    (let e := { rigHeat with L := { rigHeat.L with ended := true }, X := { rigHeat.X with ended := true }, S := { rigHeat.S with ended := true } }
     trailing e = [] ∧ Clear ((Issue.c 1 [] [] false).of (.fence 5)) .C (rig .C e) e) ∧
    Clear ((Issue.c 1 [] [] false).of (.fence 1)) .C s h ∧ (sent 0x40 0).heat = h.id.uid ∧ (sent 0x40 0).applied = false ∧
    h.pend ≠ [] ∧ due s h .C ((Issue.c 1 [] [] false).of (.fence 1)) ≠ .now := by
  and_intros <;> first | exact Clear.of_check rfl (by decide +kernel) | rfl | decide +kernel

/-- A count of 1 and of 2^28 - 1; an object with arrivals owed and one without; a generation that differs and one that
does not. -/
theorem met_BarrierWords :
    let h (n : Nat) := withS [(3, val spad0), (4, val (BitVec.ofNat 64 n))]
    (∀ n ∈ [1, 2 ^ 28 - 1], 0 < ((h n).s 4).v.toNat ∧ ((h n).s 4).v.toNat < 2 ^ 28 ∧ clearB
      { (Issue.cLong [3, 4] [3, 4] false 0xFFFF).of (.barinit 3 4 0 0xFFFF) with handler := false } .C (rig .C (h n)) (h n) = true) ∧
    answersWith (barrierWord (rig .C (h 1)) (h 1) spad0 .write) (fun x => !x.2.clean && x.2.kind == .spad &&
      (readBar x.1 0 x.2.pa).arrivals == 0) = true ∧
    (let s := { rig .C (h 1) with mem := (rig .C (h 1)).mem.put (spadAddr 0 0) (withTaint false (leBytes 16 (0x30 + 3 * 2 ^ 32))) }
     answersWith (barrierWord s (h 1) spad0 .write) (fun x => (readBar x.1 0 x.2.pa).arrivals != 0 &&
       (fenceWait s (h 1) (barrierScope x.2) ⟨true, false⟩ (.barrier x.2.pa)).isNone) = true) ∧
    Clear (Issue.seatOnly [2, 3] [3] true) .C (rig .C (h 1)) (h 1) ∧ Clear (Issue.seatOnly [3, 4] [3, 4] false) .C (rig .C (h 1)) (h 1) ∧
    answersWith (barrierWord (rig .C (h 1)) (h 1) spad0 .read) (fun x => (readBar x.1 0 x.2.pa).gen != 1) = true ∧
    answersWith (barrierWord (rig .C (h 0)) (h 0) spad0 .read) (fun x => (readBar x.1 0 x.2.pa).gen == 0) = true ∧
    (let b : BarObj := ⟨15, 2 ^ 28 - 1, 2 ^ 32 - 1, 2 ^ 32 - 1, 2 ^ 32 - 1⟩
     b.gen < 16 ∧ b.expected < 2 ^ 28 ∧ b.arrivals < 2 ^ 32 ∧ kindOf (spadAddr 255 2097136 + 15) = some .spad) := by
  and_intros <;> first | exact Clear.of_check rfl (by decide +kernel) | rfl | decide +kernel

/-- A launch of the plain job with one heat, or two, as a gang. -/
def gangLaunch (n : Nat) : Launch :=
  { id := 1, job := 1, graph := 1, phase := 0, type := { plainType with gang := true }, dims := [], order := [], mask := 0xFFFFFFFFFFFFFFFF,
    preds := [], die := 0, seq := 0, total := n, nextIdx := 1, live := 1, enqueued := true, coords := none, discarded := [],
    sms := false, complete := false, faulted := false, cancelled := false, cut := false, dropped := false, refused := false,
    overrun := false, faultedHeats := 0, spawners := [], held := false, prof := [], tcnt := [], coxed := false,
    startClock := [], endClock := [], indices := [] }

def gangHeat : Heat := { rigHeat with type := { plainType with gang := true } }

/-- The last arrival of one, the first of two, and a heat that waits for a generation that is over. -/
theorem met_DeviceBarrierEndsWithItsLastArrival :
    (∀ n ∈ [1, 2],
      let s : State := { rig .C gangHeat with launches := [gangLaunch n], devBars := [⟨1, 1, 63, 4, [], [], []⟩] }
      clearB (Issue.seatOnly [] [] false) .C s gangHeat = true ∧ (s.launch? 1 1).isSome = true ∧ gangHeat.id.launch = 1 ∧
        (gangLaunch n).mask.getLsbD (63 : BitVec 6).toNat = true ∧ s.devBar? 1 1 63 = some ⟨1, 1, 63, 4, [], [], []⟩ ∧
        (fenceWait s gangHeat 4 ⟨true, false⟩ (.deviceBarrier 63)).isNone = true ∧
        allArrived (s.onDevBar 1 1 63 fun b => { b with arrived := numIns 0 b.arrived }) ⟨1, 1, 63, 4, [0], [], []⟩ = decide (n = 1)) ∧
    (let h := { gangHeat with hold := .dbar 63 3 }
     let s : State := { rig .C h with launches := [gangLaunch 1], devBars := [⟨1, 1, 63, 4, [], [], []⟩] }
     Clear (Issue.seatOnly [] [] false) .C s h ∧ h.hold = .dbar 63 3 ∧ (3 : Nat) ≠ 4) := by
  and_intros <;> first | exact Clear.of_check rfl (by decide +kernel) | rfl | decide +kernel

/-- The first and the last object, free and busy. -/
theorem met_CompletionObjectWords :
    let h := withS [(3, val 0x8000000000000001)]
    let b : Heat := { h with co := h.co.set 63 { idleObj with status := 1 } }
    Clear (Issue.seatOnly [2, 3] [3] true) .C (rig .C h) h ∧ h.settled 3 ∧ objects (h.s 3).v = [0, 63] ∧
    (lateCommand h .C [0, 63]).isNone = true ∧ (∀ j ∈ objects (h.s 3).v, h.busyFor .C j = false) ∧ b.busyFor .C 63 = true ∧
    Clear (Issue.seatOnly [2, 3] [3] true) .C (rig .C b) b ∧ (objects (rigHeat.s 3).v) = [] ∧
    [0, 63].find? (fun i => !b.busyFor .C i) = some 0 ∧
    Clear ((Issue.short plainSlot []).of (.lCwait plainSlot 63)) .L rL rigHeat ∧
    (rigHeat.ahead .L fun k => k == .cmd 63).isNone = true ∧
    Clear ((Issue.short plainSlot []).of (.sCwait plainSlot 0)) .S rS rigHeat ∧
    (rigHeat.ahead .S fun k => k == .cmd 0).isNone = true := by
  and_intros <;> first | exact Clear.of_check rfl (by decide +kernel) | rfl | decide +kernel

/-- A record that does not pass, and one of a task type of the job's table that does, with one coordinate. -/
theorem met_SpawnCancelAndWaitWords :
    let s := rC
    let w : Issue := { (Issue.cLong [2, 3] [3] true 0xFFFF).of (.spawn 2 3 plainC) with engine := some 0, handler := false }
    let wt : Issue := { (Issue.cLong ([2, 3, 4] ++ regRange 4 1) (3 :: regRange 4 1) true 0xFFFF).of (.spawnt 2 3 4 1 plainC) with
      engine := some 0, handler := false }
    Clear w .C s rigHeat ∧ Clear wt .C s rigHeat ∧ s.job? 1 = some plainJob ∧ rigHeat.busy 1 = false ∧
    rigHeat.id.coxed = false ∧ trailing rigHeat = [] ∧ (queueWait s rigHeat).isNone = true ∧
    (admitRecord s plainJob 0 0x20001).isNone = true ∧
    Clear ((Issue.seatOnly [2, 3, 4] [3, 4] true).of (.cancel 2 3 0 1)) .C s rigHeat ∧
    Clear ((Issue.seatOnly [2, 3, 0] [3, 0] true).of (.waitc 2 3 0 1)) .C s rigHeat ∧
    (levelSummary s rigHeat 1 9 0).isNone = true ∧
    (let t : State := { rC with launches := [{ gangLaunch 1 with id := 2, complete := true }] }
     ((levelSummary t rigHeat 1 2 0).map (·.testBit 0)) = some true) ∧
    (let t : State := { rC with launches := [{ gangLaunch 1 with id := 2 }] }
     ((levelSummary t rigHeat 1 2 0).map fun v => (v.testBit 0, v.testBit 4)) = some (false, false)) := by
  and_intros <;> first | exact Clear.of_check rfl (by decide +kernel) | rfl

theorem met_CancelReachesTheHeatsOfItsLevel :
    let s : State := { rC with launches := [gangLaunch 1] }
    s.heat? 1 = some rigHeat ∧ rigHeat.id.uid = 1 ∧ (s.launch? 1 1).map (launchDone s) = some false ∧ rigHeat.id.job = 1 ∧
    rigHeat.id.launch = 1 ∧ rigHeat.id.detached = false ∧ rigHeat.status = .resident ∧ rigHeat.id.job ≠ 2 ∧
    ∃ k ∈ s.launches, k.job = 1 ∧ k.id = rigHeat.id.launch ∧ launchDone s k = false := by
  refine ⟨?_, ?_, ?_, ?_, ?_, ?_, ?_, ?_, gangLaunch 1, List.mem_singleton_self _, ?_⟩ <;>
    first | rfl | decide +kernel

theorem met_TaintWords : Clear (Issue.c 1 [5, 3] [3] true) .C (rig .C atSpad) atSpad ∧ atSpad.settled 3 ∧
    (atSpad.s 3).v.toNat % 4 = 0 ∧ cellWait (rig .C atSpad) atSpad spad0 4 .read = .ok () ∧
    answers (loadAt (rig .C atSpad) atSpad 0 spad0 4) = true ∧ Clear (Issue.seatOnly [2] [] true) .C rC rigHeat := by
  and_intros <;> first | exact Clear.of_check rfl (by decide +kernel) | rfl

/-- A ring of four tiles with one filled, and a fixed one. -/
def ring4 : Ring := ⟨0, 0, 2, 3, [⟨none, 0, 0, false⟩]⟩
def ringed (r : Ring) : Heat := { rigHeat with g := rigHeat.g.set 1 (some r) }

theorem met_PointerDescriptorAndRingWords :
    answers (readS rigHeat .L 3) = true ∧ answers (readS rigHeat .S 3) = true ∧
    Clear ((Issue.short plainSlot [3]).of (.lPset plainSlot 15 3)) .L rL rigHeat ∧
    Clear ((Issue.short plainSlot [3]).of (.sPset plainSlot 15 3)) .S rS rigHeat ∧
    Clear ((Issue.short plainSlot []).of (.lPadd plainSlot 0 0x200)) .L rL rigHeat ∧
    Clear ((Issue.short plainSlot []).of (.sPadd plainSlot 0 0x1FF)) .S rS rigHeat ∧
    (∀ q ∈ [(0 : BitVec 4), 7], (rigHeat.stream q).entries = [] ∧ q.toNat < 8 ∧
      clearB ((Issue.long plainSlot 0xFFFF [3]).of (.lQset plainSlot q 3 true 7 0 63 0xFFFF)) .L rL rigHeat = true) ∧
    (∀ q ∈ [(8 : BitVec 4), 11], (rigHeat.stream q).entries = [] ∧ 8 ≤ q.toNat ∧ q.toNat < 12 ∧
      clearB ((Issue.long plainSlot 0xFFFF [3]).of (.sQset plainSlot q 3 false 0 13 63 0xFFFF)) .S rS rigHeat = true) ∧
    (ringWait rigHeat .L 1).isNone = true ∧ (ringed ring4).g[(1 : BitVec 3).toNat] = some ring4 ∧ ring4.c ≠ 0 ∧
    Clear ((Issue.short plainSlot []).of (.rpush plainSlot 1 3)) .L (rig .L (ringed ring4)) (ringed ring4) ∧
    (3 : BitVec 11).toNat ≤ 2 ^ ring4.c ∧ ring4.tiles.length + (3 : BitVec 11).toNat ≤ 2 ^ ring4.c ∧
    (ringWait (ringed ring4) .S 1).isNone = true ∧
    Clear ((Issue.short plainSlot []).of (.rpop plainSlot 1 1)) .S (rig .S (ringed ring4)) (ringed ring4) ∧
    (1 : BitVec 11).toNat ≤ ring4.tiles.length ∧ 2 ^ ring4.c < (5 : BitVec 11).toNat ∧ ({ ring4 with c := 0 } : Ring).c = 0 ∧
    elemsOk 0 63 = true ∧ elemsOk 13 63 = true ∧ rigHeat.g[(1 : BitVec 3).toNat] = none ∧
    clearB ((Issue.short plainSlot []).of (.rpush plainSlot 1 0)) .L rL rigHeat = true ∧
    clearB ((Issue.short plainSlot []).of (.rpop plainSlot 1 0)) .S rS rigHeat = true ∧ Sound rigHeat .L ∧ Sound rigHeat .S ∧ rL.heat? rigHeat.id.uid = some rigHeat := by
  and_intros <;> first | exact Clear.of_check rfl (by decide +kernel) | decide +kernel

/-- A stream of two 32-bit elements with a pointer into the scratchpad, for L and for S, with an index entry. -/
def desc2 : QDesc := ⟨5, 2, 8, 4, none, false⟩
def streaming : Heat :=
  { rigHeat with
    pL := rigHeat.pL.set 1 (val spad0), pS := rigHeat.pS.set 1 (val spad0)
    q := ((rigHeat.q.set 0 ⟨some desc2, [], [], 0, []⟩).set 8 ⟨some desc2, [lanes [7, 8]], [], 0, []⟩).set 12
      { rigHeat.q[12] with entries := [lanes [0, 1]] } }

theorem met_StreamLoadWords :
    let h := streaming
    let s := rig .L h
    answers (readK h .L 0) = true ∧ answersWith (descOf h .L 0) (· == desc2) = true ∧ (h.stream 0).entries.length < 4 ∧
    Clear ((Issue.short plainSlot []).of (.ldq plainSlot 0 1 1)) .L s h ∧
    Clear ((Issue.short plainSlot []).of (.ldqs plainSlot 0 1 0)) .L s h ∧
    answersWith (streamPlan h .L desc2 spad0 false (BitVec.allOnes 64)) (fun cs => answers (loadMany s h cs)) = true ∧
    answersWith (streamPlan h .L desc2 spad0 true (BitVec.allOnes 64)) (fun cs => answers (loadMany s h cs)) = true ∧
    Clear ((Issue.short plainSlot []).of (.gatq plainSlot 0 1 0)) .L s h ∧ fmtBits desc2.fmt = 32 ∧
    answersWith (headEntry h 12 .X) (fun idx => (elementCheck (elementsOf desc2 spad0 idx (BitVec.allOnes 64))).isNone &&
      answers (loadMany s h ((elementsOf desc2 spad0 idx (BitVec.allOnes 64)).map fun e => ⟨e.2.1, 4, 4 * e.1⟩))) = true := by
  and_intros <;> first | exact Clear.of_check rfl (by decide +kernel) | decide +kernel

theorem met_StreamStoreWords :
    let h := streaming
    let s := rig .S h
    answers (readK h .S 0) = true ∧ answersWith (descOf h .S 8) (· == desc2) = true ∧
    answersWith (headEntry h 8 .X) (fun _ => true) = true ∧ 8 ≤ fmtBits desc2.fmt ∧
    Clear ((Issue.short plainSlot []).of (.stq plainSlot 8 1 1)) .S s h ∧
    Clear ((Issue.short plainSlot []).of (.stqs plainSlot 8 1 0)) .S s h ∧
    answersWith (streamPlan h .S desc2 spad0 false (BitVec.allOnes 64)) (fun cs =>
      answers (storeMany s h (cs.map fun c => (c.va, List.replicate c.n (0, false))))) = true ∧
    Clear ((Issue.short plainSlot []).of (.scatq plainSlot 8 1 0)) .S s h ∧
    answersWith (headEntry h 12 .X) (fun idx => (elementCheck (elementsOf desc2 spad0 idx (BitVec.allOnes 64))).isNone &&
      answers (storeMany s h ((elementsOf desc2 spad0 idx (BitVec.allOnes 64)).map fun e =>
        (e.2.1, List.replicate 4 (0, false))))) = true := by
  and_intros <;> first | exact Clear.of_check rfl (by decide +kernel) | decide +kernel

theorem met_StreamWordFrame : goesOn (.lPadd plainSlot 0 1) rL = true ∧ goesOn (.ldq plainSlot 0 1 1) (rig .L streaming) = true ∧
    goesOn (.stq plainSlot 8 1 1) (rig .S streaming) = true := by and_intros <;> decide +kernel

/-- A command's issue, as its meaning builds it. -/
def cmdIssue (i : Instr) (names : List (BitVec 6)) (eng : Nat) (op : Nat := 0) (c : Ctl := plainC) : Issue :=
  ((Issue.long plainSlot 0xFFFF names).of i).command eng op c

/-- The rig with bytes at 0x1100 of its text page, 64 words from the seats' words, and at 0x10000 of it. -/
def withBytes (p : Seat) (h : Heat) (text data : List Byte) : State :=
  let s := rig p h
  { s with mem := (s.mem.put 0x1001100 (withTaint false text)).put 0x1010000 (withTaint false data) }

/-- A gather or scatter record (07/R208): n rows of 4 bytes, 32-bit indices, scratchpad rows at pointer 3. -/
def gatherBytes (n : Nat) : List Byte := leBytes 16 (n + 2 * 2 ^ 24 + 2 * 2 ^ 27 + 2 * 2 ^ 32 + 3 * 2 ^ 36)

/-- A bag record (07/R213): its block at ASR offset 0, its region at 4,096, one tag, two rows. -/
def bagBytes : List Byte := leBytes 16 (4096 * 2 ^ 64) ++ leBytes 16 (1 + 2 * 2 ^ 32)

/-- A collective record (07/R225): an all-reduce sum of four i32 of group 0, and the group table with this device. -/
def collBytes : List Byte :=
  leBytes 8 (5 * 2 ^ 8 + 4 * 2 ^ 32) ++ leBytes 8 spad0.toNat ++ leBytes 8 asr0.toNat ++ leBytes 8 0 ++
    leBytes 8 1 ++ leBytes 8 0x10030 ++ leBytes 2 0

def moving : Heat :=
  { withS [(3, val (spad0 + 256)), (4, val 8), (5, val asr0), (6, val 0x10000)] with
    pL := ((rigHeat.pL.set 1 (val spad0)).set 2 (val spad0)).set 3 (val (spad0 + 512))
    pS := (((rigHeat.pS.set 1 (val spad0)).set 2 (val spad0)).set 3 (val (spad0 + 512))).set 4 (val 0x10000) }

/-- Copies of 8 bytes, of a scalar's 8 and of none; gathers and scatters of one row and of none; every other command. -/
theorem met_EngineCommandWords :
    let h := moving
    let l := rig .L h
    let s := rig .S h
    (h.ahead .L (· == .stash)).isNone = true ∧ (h.ahead .S (· == .stash)).isNone = true ∧ answers (readK h .L 0) = true ∧
    waitingHandlers l h.core < 8 ∧ (h.seat .L).seen = [] ∧ h.ctl.xferbar.getLsbD 0 = false ∧ h.busy 1 = false ∧ (queued l h.core).length < 32 ∧
    answersWith (startTransfer l h .L (some false)) (fun x => x.2.isNone) = true ∧
    answersWith (startTransfer s h .S (some true)) (fun x => x.2.isNone) = true ∧
    answersWith (readS h .L 3) (fun x => x.v == spad0 + 256) = true ∧
    answersWith (lengthOf h .L 2) (· == 8) = true ∧ answersWith (lengthOf h .L (2048 + 4)) (· == 8) = true ∧
    answersWith (lengthOf h .L 2048) (· == 0) = true ∧ (spad0 + 256).toNat % 4 = 0 ∧
    overlap (spad0 + 256).toNat spad0.toNat 8 = false ∧
    Clear (cmdIssue (.cpyin plainSlot 1 3 2 plainC) (3 :: lengthScalar 2) 1) .L l h ∧
    Clear (cmdIssue (.cpyout plainSlot 1 3 (2048 + 4) plainC) (3 :: lengthScalar (2048 + 4)) 1) .S s h ∧
    Clear (cmdIssue (.asrcpy plainSlot 1 5 1 true plainC) [5] 1) .S s h ∧ asr0.toNat % 32 = 0 ∧
    ([0, 1].all fun n => answersWith (readGather (withBytes .L h (gatherBytes n) []) h .L 64 plainC false) (fun x =>
      x.2.n == n && answersWith (currentBag h x.2) (·.isNone) && answers (gatherRing h .L x.2))) = true ∧
    ([0, 1].all fun n => answersWith (readGather (withBytes .S h (gatherBytes n) []) h .S 64 plainC true) (fun x =>
      x.2.n == n && answers (gatherRing h .S x.2))) = true ∧
    Clear (cmdIssue (.gatr plainSlot 1 2 64 plainC) [] 2) .L l h ∧ Clear (cmdIssue (.scatr plainSlot 1 2 64 plainC) [] 2) .S s h ∧
    Clear (cmdIssue (.ldblk plainSlot 2 6 63 plainC) [6] 7) .L l h ∧ (0x10000 : Dword).toNat % 128 = 0 ∧
    Clear (cmdIssue (.ldblkRel plainSlot 2 plainC) [] 7) .L l h ∧
    Clear (cmdIssue (.stunmap plainSlot 5 plainC) [] 6) .L l h ∧
    (mappedSlots { l with stashes := [⟨1, 0, 5, 0, 0x10000, 1, [], []⟩] } 1).contains 5 = true ∧
    Clear (cmdIssue (.stflush plainSlot true 0 plainC) [] 6) .L l h ∧
    answersWith (readBag 64 (withBytes .L h bagBytes []) h) (fun x => x.2.rows == 2) = true ∧
    Clear (cmdIssue (.bagopen plainSlot 64 plainC) [] 3) .L (withBytes .L h bagBytes []) h := by
  and_intros <;> first | exact Clear.of_check rfl (by decide +kernel) | decide +kernel

/-- An open bag at S's record address, and a collective of one device. -/
theorem met_EngineCommandWords_of_bags_and_groups :
    let b : Bag := { bagOf 0x1100 bagBytes with id := 7, phase := .opened }
    let h := { moving with bags := [b], S := { moving.S with tt := 1 } }
    answersWith (bagNamed h .S (displace h.S.pc (64 : BitVec 22))) (· == b) = true ∧
    Clear (cmdIssue (.bagclose plainSlot 64 plainC) [] 3) .S (rig .S h) h ∧
    (let s : State := { withBytes .S moving [] collBytes with jobs := [{ plainJob with groupTab := 0x10020 }] }
     answersWith (collPrep 4 s moving) (fun x => !x.2.2) = true ∧
       Clear (cmdIssue (.coll plainSlot 4 plainC) [] 5) .S s moving) := by
  and_intros <;> first | exact Clear.of_check rfl (by decide +kernel) | decide +kernel

/-- A stash of one line over the scratchpad, INVM with privilege and without, and its completion. -/
theorem met_HierarchyWords :
    let h := moving
    let l := rig .L h
    Clear ((Issue.long plainSlot 0xFFFF [6]).of (.pref plainSlot 6 2 255 0xFFFF)) .L l h ∧ answers (readS h .L 6) = true ∧
    Clear ((Issue.long plainSlot 0xFFFF [6]).of (.stmap plainSlot 1 6 15 1 0xFFFF)) .L l h ∧ (h.p .L 1).v.toNat % 128 = 0 ∧
    l.stashes = [] ∧ localBase ≤ (h.p .L 1).v.toNat ∧ (h.p .L 1).v.toNat - localBase + 128 * 1 ≤ 4096 * h.spad.length ∧
    mappedOver l 1 0 128 = false ∧ localRange l h 0x10000 1 = false ∧
    Clear ((Issue.long plainSlot 0xFFFF [6]).of (.invm plainSlot 6 0 0 0xFFFF)) .L l h ∧ l.privileged h = true ∧
    ({ l with jobs := [{ plainJob with flags := 0 }] } : State).privileged h = false ∧ Sound h .L ∧
    (let k := { h with invm := some [], marker := some (0x10000, 1, 0) }
     (rig .L k).heat? 1 = some k ∧ (rig .L k).cmds = []) ∧
    Clear ((Issue.long plainSlot 0xFFFF []).of (.hnd plainSlot 8 0xFFFF)) .L l h ∧ h.id.coxed = false ∧
    (let k := { h with id := { h.id with coxed := true } }
     Clear ((Issue.long plainSlot 0x0000 []).of (.hnd plainSlot 8 0x0000)) .L (rig .L k) k ∧ Sound k .L) := by
  and_intros <;> first | exact Clear.of_check rfl (by decide +kernel) | decide +kernel

/-- Float, integer and bitwise types; a stream as a source and as a destination. -/
theorem met_VectorWords :
    let h := streaming
    let s := rig .X h
    answersWith (readK h .X 0) (fun _ => true) = true ∧ answersWith (vecSource false h 1) (fun _ => true) = true ∧
    answers (vecRoom false h 24) = true ∧ answers (vecRoom false h 15) = true ∧ h.x.types.t.toNat ≤ 2 ∧
    kindCode (0 : BitVec 4) = .float f32 ∧ kindCode (2 : BitVec 4) = .float bf16 ∧
    (∀ i ∈ [Instr.vadd plainSlot 24 1 2, .vfma plainSlot 15 1 2, .vrcp plainSlot 0 1, .vmov plainSlot 0 1],
      clearB { xIssue plainSlot [0, 1, 2] i with xreads := [.v 0, .v 1, .v 2] } .X s h = true) ∧ readable h [1, 2] = true ∧
    (∀ t ∈ [(5 : BitVec 4), 12], 5 ≤ t.toNat ∧ t.toNat ≤ 12 ∧
      (match kindCode t with | .int _ n => n == ({ h.x.types with t := t } : XTypes).width | _ => false) = true) ∧
    Clear (xIssue plainSlot [] (.sett plainSlot 12 4)) .X rX rigHeat ∧
    Clear (xIssue plainSlot [] (.settM plainSlot 15 15 true true)) .X rX rigHeat ∧
    Clear (xIssue plainSlot [] (.settO plainSlot 5)) .X rX rigHeat := by
  and_intros <;> first | exact Clear.of_check rfl (by decide +kernel) | decide +kernel

/-- A block-format stream in and out, with an entry (03/R75). -/
def blocked : Heat :=
  let d : QDesc := { desc2 with fmt := 13, elems := 64 }
  { rigHeat with q := (rigHeat.q.set 0 ⟨some d, [lanes [1]], [], 0, []⟩).set 8 ⟨some d, [], [], 0, []⟩ }

theorem met_LaneMovingWords :
    let h := blocked
    let s := rig .X h
    answers (readK h .X 0) = true ∧ answers (vecSource false h 1) = true ∧ answers (vecSource true h 16) = true ∧
    readable h [1, 2] = true ∧ answers (vecRoom false h 0) = true ∧ answers (vecRoom true h 24) = true ∧
    (∀ i ∈ [Instr.vperm plainSlot 0 1 2, .vidx plainSlot 0, .vcvt plainSlot 0 1 12, .vred plainSlot 0 1 5,
        .vscan plainSlot 0 1 true 5, .vqnt plainSlot 24 1, .vdqn plainSlot 0 16],
      clearB { xIssue plainSlot [0, 1, 2] i with xreads := [.v 1, .v 2] } .X s h = true) ∧
    Clear { xIssue plainSlot [0, 1, 2] (.vsel plainSlot 0 1 2) with always := true, xreads := [.v 1, .v 2] } .X s h ∧
    Clear { xIssue plainSlot [0] (.vbcst plainSlot 0 3) with names := [3], reads := [3], xreads := [] } .X s h ∧
    answers (readS h .X 3) = true ∧ wideOrInt h.x.types = true ∧
    ([0, 5].all fun op => (reduction op { h.x.types with t := 5 }).isSome || op == 5) = true ∧
    (reduction 0 h.x.types).isSome = true ∧
    answersWith (descOf h .X 8) (fun d => (cbOf d.fmt).isSome) = true ∧
    answersWith (descOf h .X 0) (fun d => (cbOf d.fmt).isSome) = true := by
  and_intros <;> first | exact Clear.of_check rfl (by decide +kernel) | decide +kernel

theorem met_PredicateAndConditionalStreamWords :
    let h := { streaming with q := streaming.q.set 0 ⟨some desc2, [lanes [7, 8], lanes [9, 10]], [], 1, []⟩
                              x := { rigHeat.x with k := rigHeat.x.k.set 1 ⟨3, false⟩ } }
    let s := rig .X h
    let w1 : Slot := { plainSlot with pred := 1 }
    Clear { xIssue plainSlot [1, 2] (.vcmp plainSlot 7 3 1 2) with version := true, xreads := [.v 1, .v 2] } .X s h ∧ wideOrInt h.x.types = true ∧
    readable h [1, 2] = true ∧ Clear { xIssue plainSlot [] (.kop plainSlot 7 1 0 4) with version := true, xreads := [.k 1, .k 0] } .X s h ∧
    h.xBusy (.k 1) = false ∧ h.xBusy (.k 0) = false ∧
    (∀ form ∈ [(0 : BitVec 4), 1], clearB { xIssue w1 [1] (.vcpush w1 24 1 form) with xreads := [.v 1] } .X s h = true) ∧
    Clear { xIssue w1 [] (.vcpush w1 24 0 2) with xreads := [] } .X s h ∧
    clearB { xIssue plainSlot [24, 1, 2] (.vfma plainSlot 24 1 2) with xreads := [.v 1, .v 2] } .X s h = true ∧
    clearB { xIssue plainSlot [0, 1] (.vqnt plainSlot 0 1) with xreads := [.v 1] } .X s h = true ∧
    clearB { xIssue plainSlot [0, 1] (.vcpush plainSlot 0 1 0) with xreads := [.v 1] } .X s h = true ∧
    clearB { xIssue plainSlot [0, 1] (.vdqn plainSlot 0 1) with xreads := [] } .X s h = true ∧
    clearB { xIssue plainSlot [24] (.vcpop plainSlot 24 16 0) with xreads := [] } .X s h = true ∧ Sound h .X ∧
    s.heat? h.id.uid = some h ∧ answersWith (descOf h .X 8) (· == desc2) = true ∧
    fmtBits desc2.fmt = 32 ∧ 0 < desc2.elems ∧ (h.stream 8).buf.length < desc2.elems ∧
    (h.stream 8).entries.length + 1 ≤ 4 ∧ Clear (xIssue w1 [0] (.vcpop w1 0 16 1)) .X s h ∧
    answersWith (descOf h .X 0) (· == desc2) = true ∧ (h.stream 0).taken < desc2.elems ∧
    (h.stream 0).taken + ((List.range 64).filter (h.k 1).v.getLsbD).length ≤ desc2.elems * (h.stream 0).entries.length := by
  and_intros <;> first | exact Clear.of_check rfl (by decide +kernel) | decide +kernel

theorem met_VectorWordFrame : goesOn (.vadd plainSlot 0 1 2) rX = true ∧ goesOn (.kop plainSlot 1 2 3 0) rX = true ∧
    goesOn (.sett plainSlot 5 0) rX = true := by and_intros <;> decide +kernel

/-- A heat with rings 1 (tiles) and 2 (free), region scalars, and its crew's lease with an MWLD of 32 by 4 in its run. -/
def sweeping : Heat :=
  { withS [(3, val 2), (4, val 0)] with
    g := (rigHeat.g.set 1 (some ⟨0, 8, 1, 0, [⟨none, 0, 0, false⟩]⟩)).set 2 (some ⟨4096, 8, 1, 0, []⟩)
    bags := [{ bagOf 0x1100 bagBytes with id := 7, phase := .opened, policy := 3 * 2 ^ 8 }] }

def held : Lease := { newLease 0 with holder := some 1, left := 5, weights := some ⟨32, 4, 2, 6, 0, false⟩, lastMwld := some 6 }

def swept (h : Heat) (s : State := rig .X h) : State := { s with leases := [held] }

theorem met_MatrixWords :
    let h := { sweeping with X := { rigHeat.X with tt := 1 } }
    let s := swept h
    leased s h = true ∧ (h.ahead .X (· == .stash)).isNone = true ∧ (matrixOf s 1).length < 8 ∧ h.busy 1 = false ∧ h.x.types.pairOk = true ∧ countOk h.x.types.wf 256 = true ∧
    answers (arrayRing h 1 (2 * rowBytes h.x.types.wf 4) true) = true ∧ answers (firstTile h (tileReady h 1)) = true ∧
    Clear (cmdIssue (.mwld plainSlot 1 1 3 0xFFFF) [] 4) .X s h ∧
    (∀ p ∈ [Product.mmul, .mdist], answersWith (prodPrep p 1 false 0 2 3 s h) (fun x => !x.2) = true ∧
      answersWith (prodPrep p 1 false 0 2 4 s h) (fun x => x.2) = true) ∧
    answersWith (prodPrep (.mtopk 4 true false) 1 false 0 2 3 s h) (fun x => !x.2) = true ∧
    answersWith (prodPrep .mmul 1 false 3 0 3 s h) (fun x => !x.2) = true ∧
    Clear (cmdIssue (.mmul plainSlot 1 false 0 2 3 plainC) [3] 4) .X s h ∧
    Clear (cmdIssue (.mtopk plainSlot 1 false 0 2 true 3 false 3 plainC) [3] 4) .X s h ∧
    answersWith (bagNamed h .X (displace h.X.pc (64 : BitVec 17))) (fun b => b.id == 7 && bagFits b h.x.types 4 true false &&
      inAsr h b.acc b.regionSize) = true ∧ lastTile s h = some (6, 32, 4) ∧
    answers (arrayRing h 1 (rowBytes h.x.types.af 32) false) = true ∧
    Clear (cmdIssue (.mbag plainSlot 1 true false 64 plainC) [] 3) .X s h ∧
    (let k := { h with S := { rigHeat.S with tt := 1 }, bags := h.bags.map fun b => { b with closeTT := some 0, phase := .closed } }
     answersWith (bagClosed k (displace k.X.pc (64 : BitVec 17))) (fun b => retireFormat b.kind k.x.types.out) = true ∧
       Clear (cmdIssue (.mret plainSlot false 64 plainC) [] 4) .X (swept k) k) ∧
    answersWith (readS h .X 3) (fun x => x.v == 2) = true ∧ inAsr h 0 (2 * 4 * cellSize 1) = true ∧
    retireFormat 1 h.x.types.out = true ∧ Clear (cmdIssue (.mretRegion plainSlot 1 3 3 plainC) [3] 4) .X s h ∧
    Clear (cmdIssue (.mclr plainSlot 2 3 3 plainC) [3] 4) .X s h := by
  and_intros <;> first | exact Clear.of_check rfl (by decide +kernel) | decide +kernel

/-- Without a lease; granted and not passed; a ring of sixteen tiles of 256 bytes that fits. -/
theorem met_MatrixWords_of_leases :
    let h := sweeping
    let s := rig .X h
    leased s h = false ∧ Sound h .X ∧ Clear (cmdIssue (.mclr plainSlot 2 3 3 plainC) [3] 4) .X s h ∧
    Clear ((Issue.short plainSlot []).of (.lease plainSlot 255)) .X s h ∧ (leaseOf s h.crew).holder ≠ some 1 ∧
    leaseOverdue s h = none ∧
    (let t : State := { s with leases := [{ held with granted := true }] }
     leased t h = false ∧ (leaseOf t h.crew).holder = some 1 ∧ (leaseOf t h.crew).granted = true ∧
       Clear ((Issue.short plainSlot []).of (.lease plainSlot 0)) .X t h) ∧
    Clear ((Issue.short plainSlot []).of (.unlease plainSlot)) .X s h ∧
    Clear ((Issue.short plainSlot []).of (.mwait plainSlot)) .X s h ∧ matrixOf s 1 = [] ∧
    (let f : BitVec 30 := BitVec.ofNat 30 (3 * 2 ^ 27 + 1024 * 2 ^ 9 + 8 * 2 ^ 4 + 4)
     Clear ((Issue.long plainSlot 0xFFFF []).of (.rset plainSlot f 0xFFFF)) .X s h ∧ ringBad h (ringOf f).1 (ringOf f).2 = false ∧
       (ringOf f).2.base + (ringOf f).2.span ≤ 4096 * h.spad.length ∧ s.cmds = []) := by
  and_intros <;> first | exact Clear.of_check rfl (by decide +kernel) | decide +kernel

/-- LEASE, NOPA and MWLD stamped 128 in the text of a coxed heat, in the cycle of that stamp and the one before it. -/
theorem met_MatrixWords_of_leases_in_coxed_mode :
    let h : Heat := { rigHeat with id := { rigHeat.id with coxed := true } }
    let text := placeWord (rig .X h) h .X
      (wordBytes 0x400E4002 ++ wordBytes 0x80000000 ++ wordBytes 0x400C0818 ++ wordBytes 0x00800300)
    let s (n : Nat) : State := { text with dev := { text.dev with clock := n } }
    Clear ((Issue.short plainSlot []).of (.lease plainSlot 1)) .X (s 128) h ∧ leased (s 128) h = false ∧
    (leaseOf (s 128) h.crew).holder ≠ some 1 ∧
    leaseOverdue (s 128) h = some (.heldBehind (h.X.pc + 8) 128) ∧ leaseOverdue (s 127) h = none := by
  and_intros <;> first | exact Clear.of_check rfl (by decide +kernel) | decide +kernel

/-- A command of the rig's heat with object 5. -/
def cmd (kind : CmdKind) (phase : CmdPhase) : Cmd :=
  { newCmd rX rigHeat .L plainC 0x08 kind (some 5) none with id := 9, phase := phase }

/-- A command that may start, and one that hands a launch over. -/
theorem met_EngineEvents_of_starts : ∀ kind ∈ [CmdKind.ldblk 0 0x10000 1, .hand 3],
    let c := cmd kind .queued
    let s : State := { rC with cmds := [c] }
    (queued s 0).find? (fun c => c.phase == .queued && !engineHeld s c) = some c ∧ (running s 0).length < 16 ∧
      behindMarker s c = false := by decide +kernel

/-- A row of a gather and of a scatter of two rows, one of which a gather moves. -/
theorem met_EngineEvents_of_rows :
    let r : GatherRec := ⟨2, 4, false, 2, 2, 0, 3, 0, 0, 0, 0, 0⟩
    let z := val spad0
    let g := cmd (.gatr r z (val (spad0 + 256)) (val (spad0 + 512)) (val 0) none) .running
    let works (c : Cmd) (s : State) : Bool :=
      s.heat? 1 == some rigHeat && c.owes r.n 0 && c.owes r.n 1 &&
        (s.cmds.find? fun x => x.id == c.id && x.works && !x.spent && !engineHeld s x && !unmapHeld s x) == some c
    works g { rC with cmds := [g] } = true ∧
    (match rowPlan rC rigHeat g r z (val (spad0 + 256)) (val 0) 1 true with
      | .ok t x => (match moveRow t rigHeat g x.1 (spad0 + 516) 4 x.2.1 with | .ok _ _ => true | _ => false)
      | _ => false) = true ∧
    (let c := cmd (.scatr r z (val (spad0 + 256)) (val (spad0 + 512))) .running
     works c { rC with cmds := [c] } = true) := by
  and_intros <;> decide +kernel

/-- The sweep's heat with a row of 32 elements in q0 and room in q8, and a product of one row, tile to tile or stream to
stream. -/
def rowing : Heat :=
  let d : QDesc := { desc2 with fmt := 0, elems := 32 }
  { sweeping with q := (rigHeat.q.set 0 ⟨some d, [lanes [1]], [], 0, []⟩).set 8 ⟨some d, [], [], 0, []⟩ }

/-- A row of the array's results that is due. -/
def row4 : InRow := ⟨1000, List.replicate 4 (.fin false 3 0), 0, false, 0, false⟩

/-- A product that has read its last row of one, or of more; a row of results for a tile, a stream, the region, and a
bag; one for which the destination has no room; a command that is over; a row of an operand stream that may enter. -/
theorem met_EngineEvents_of_the_array :
    let ty := rigHeat.x.types
    let due (s : State) (c : Cmd) : Bool :=
      (s.cmds.find? fun k => k.id == c.id && !k.spent && arrayTurn s k && rowDue s k && !engineHeld s k && !unmapHeld s k) == some c
    let holding (h : Heat) (c : Cmd) : State := { swept h with cmds := [c], dev := { DevRegs.reset with clock := 1000 } }
    let prod (dk dst : Nat) : CmdKind := .prod .mmul 0 true dk (BitVec.ofNat 3 dst) 1 0 ty 6 false
    let going (kind : CmdKind) : Cmd := { cmd kind .running with inside := [row4], entered := 1, readDone := true }
    ([(0, 2), (1, 0), (2, 0)].all fun x =>
      let c := going (prod x.1 x.2)
      let s := holding rowing c
      due s c && s.heat? c.heat == some rowing && !roomOver s rowing x.1 (BitVec.ofNat 3 x.2) &&
        rowRoom rowing x.1 (BitVec.ofNat 3 x.2) &&
        (match putOut ((if x.1 < 2 then streamOut s rowing else s).performs c) rowing c .mmul x.1 (BitVec.ofNat 3 x.2) 0 0 ty false
          row4.results with | .ok _ _ => true | _ => false)) = true ∧
    (let c := going (prod 1 0)
     let h := { rowing with q := rowing.q.set 8 ⟨some { desc2 with fmt := 0, elems := 32 }, List.replicate 4 (lanes [1]), [], 0, []⟩ }
     let s := holding h c
     due s c = true ∧ s.heat? c.heat = some h ∧ roomOver s h 1 0 = false ∧ rowRoom h 1 0 = false) ∧
    (let c := going (.mbag 1 7 true false ty 6)
     let s := holding sweeping c
     due s c = true ∧ (sweeping.bag? 7).map (fun b => b.phase == .opened) = some true) ∧
    (let c := { going (prod 1 0) with inside := [] }
     arrayTurn (holding rowing c) c = true ∧ c.readDone = true) ∧
    (let s := holding rowing (cmd (prod 1 0) .running)
     (tileFor s rowing 6).isSome = true ∧ answers (vecSource true rowing 16) = true ∧ entryReady rowing 0 = true ∧
       depthLeft s rowing = true) := by
  and_intros <;> decide +kernel

/-- A hand-over that waits for its heat's atomic, and one whose atomics are applied. -/
theorem met_EngineEvents_of_hand_overs : ∀ b ∈ [true, false],
    let c := { cmd (.hand 3) .queued with id := 10 }
    let s : State := { rC with cmds := [c], atomics := [{ sent 0x40 0 with applied := b }] }
    (queued s 0).find? (fun c => c.phase == .queued && !engineHeld s c) = some c ∧ (running s 0).length < 16 ∧
      behindMarker s c = false ∧ (sent 0x40 0).heat = c.heat ∧ (sent 0x40 0).id < c.id := by decide +kernel

/-- An effect that is over: without a fault, with one, and with one that is suppressed; with and without a handler. -/
theorem met_EngineEvents_of_ends :
    let copy := { cmd (.copy spad0.toNat (spad0.toNat + 128) 8 false) .running with spent := true, prog := 8 }
    (∀ c ∈ [copy, { copy with hnd := some 0x1000 }, { copy with fault := some (0x05, 3) },
        { copy with fault := some (0x05, 3), suppressed := true }],
      let s : State := { rC with cmds := [c] }
      (s.cmds.find? fun x => x.id == 9 && x.works && !engineHeld s x) = some c ∧ c.orphan = false ∧ c.co = some 5 ∧
        (c.hnd = none ∨ handlerRoom s c.core = true) ∧ c.xfer = none ∧ s.heat? c.heat = some rigHeat ∧ c.past = none) ∧
    rigHeat.id.uid = copy.heat ∧ rigHeat.stop = none ∧
    ∀ d ∈ [false, true],
      let c := { copy with xfer := some (spad0 + 1024, false), xferDone := d }
      let s : State := { rC with cmds := [c] }
      (s.cmds.find? fun x => x.id == 9 && x.works && x.xfer.isSome && !engineHeld s x) = some c ∧ c.fault = none ∧
        s.heat? c.heat = some rigHeat := by
  and_intros <;> decide +kernel

/-- A free array that a heat asks for, in coxed mode as well, a handler that waits, and a copy of 128 bytes. -/
theorem met_EngineEvents_of_leases_handlers_and_copies :
    let asked : Lease := { newLease 0 with requests := [(1, 4)] }
    (∀ sched ∈ [none, some (⟨1, 1, 4, 1, [], [(0, 0), (0, 1)], [], true, false⟩ : Sched)],
      let s : State := { rX with leases := [asked], sched := sched }
      let l := settleLease s (leaseOf s 0)
      l.holder = none ∧ l.requests.filterMap (fun r => s.heat? r.1) = [rigHeat] ∧ l.turn = 0 ∧ rigHeat.core % 4 = 0) ∧
    (let k := { ctx with running := false }
     let s : State := { rC with handlers := [k] }
     (s.handlers.filter fun k => k.core == 0 && k.running).length < 2 ∧
       (s.handlers.find? fun k => k.core == 0 && !k.running && !handlerHeld s k.heat) = some k ∧
       (s.handlers.find? fun x => x.id == k.id) = some k) ∧
    (0 : Nat) < 128 ∧ (spad0.toNat + 128) % 128 + 128 ≤ 128 ∧ spad0.toNat + 128 < 2 ^ 64 ∧
    engineHeld rC (cmd (.copy spad0.toNat (spad0.toNat + 128) 128 false) .running) = false ∧
    answersWith (engineSpan rC rigHeat 0 spad0 128) (fun x => !x.2.2 &&
      answers (engineWrite x.1 rigHeat (spad0 + 128) x.2.1 false)) = true := by
  and_intros <;> decide +kernel
/-- The address of a COB in the rig's writable page, and a heat with no scratchpad and one unit of ASR, at a boundary. -/
def cob0 : Dword := 0x1000000

def leaving : Heat :=
  { withS [(3, val cob0), (4, val (asr0 + 8)), (5, val 0x1001000), (6, val (asr0 + 16))] with
    spad := [], asr := [0], type := { plainType with asrUnits := 1 } }

def suspendReq : SuspendReq := ⟨cob0, asr0 + 8, 7, 0, false, none⟩

/-- The task-type entry of 19/R409 with one unit of ASR, and a suspended COB's header of generation 1 with its claim. -/
def typeBytes : List Byte := leBytes 8 0x1000 ++ leBytes 8 0x8000 ++ leBytes 8 0x8000 ++ leBytes 8 0 ++ leBytes 8 (7 + 4 * 8 + 2 ^ 16) ++
  leBytes 24 0

def withCob (h : Heat) (code : Nat) (job : Nat) (rights : Nat) : State :=
  let s := rig .C h
  let hd := newHeader { leaving with id := { plainId with job := job } } { suspendReq with rights := rights } 1 0
  { s with
    jobs := [{ plainJob with typeTable := 0x10000 }]
    mem := ((s.mem.put 0x1010000 (withTaint false typeBytes)).put 0x2000000 (recordBytes 256 hd.fields)).put (asrAddr 0 8)
      (withTaint false (leBytes 8 (16 + code))) }

theorem met_ContinuationWordsAndEvents :
    let h := leaving
    let w : Issue := { (Issue.cLong [2, 3] [3] true 0xFFFF).of (.resume 2 3 plainC) with engine := some 0, handler := false }
    Inv rC ∧ kindOf (asrAddr 0 8) = some .asr ∧
    h.id.coxed = false ∧ (h.ahead .C SeenKind.isOpen).isNone = true ∧ trailing h = [] ∧ h.busy 1 = false ∧
    (queued (rig .C h) h.core).length < 32 ∧ answersWith (openBags h .C) (·.isEmpty) = true ∧ h.claim.isNone = true ∧ (h.s 4).v ≠ 0 ∧ pastFinal h = false ∧
    (h.s 3).v.toNat % 256 = 0 ∧ answers (resolve (rig .C h) h 0 cob0 .write) = true ∧
    answers (claimFrame (rig .C h) h (asr0 + 8)) = true ∧ h.stop = none ∧
    Clear ((Issue.seatOnly [3, 4] [3, 4] false).of (.suspend 3 4)) .C (rig .C h) h ∧
    (let s := withCob h 1 1 7
     Clear w .C s h ∧ answersWith (readHeader s h cob0) (fun x => answersWith (readNat s h (cob0 + 0x9000) 4) (fun p =>
       cobAccepted s { plainJob with typeTable := 0x10000 } 0 x.2 p.2 && (headerOf x.2).job == 1 && (headerOf x.2).gen == 1 &&
       answersWith (claimAccess x.1 h (BitVec.ofNat 64 (headerOf x.2).claim)) (fun f => claimCell f.1 f.2 == 17 &&
         !cellBusy f.1 1 f.2.pa 8))) = true) ∧
    (let s := withCob h 2 1 7
     answersWith (readHeader s h cob0) (fun x => answersWith (claimAccess x.1 h (asr0 + 8)) (fun f =>
       claimCell f.1 f.2 != 17 && claimCell f.1 f.2 != 20)) = true) ∧
    (let s := withCob h 1 2 0
     answersWith (readHeader s h cob0) (fun x => (headerOf x.2).job != 1 && !(headerOf x.2).rights.testBit 0) = true) ∧
    answersWith (readHeader (rig .C h) h cob0) (fun x => !cobAccepted (rig .C h) plainJob 0 x.2 0) = true := by
  and_intros <;> first | exact Clear.of_check rfl (by decide +kernel) | decide +kernel | rfl

/-- A heat whose seats have stopped for its SUSPEND, with nothing outstanding; the copying and the dropping of its COB. -/
def stoppedSeat (v : SeatState) : SeatState := { v with stopped := true }

def asleep : Heat :=
  { leaving with
    status := .stopping, stop := some ⟨.suspend, 0, 0, false⟩, susp := some suspendReq
    C := stoppedSeat leaving.C, L := stoppedSeat leaving.L, X := stoppedSeat leaving.X, S := stoppedSeat leaving.S }

theorem met_ContinuationWordsAndEvents_of_objects :
    let h := leaving
    let s := withCob h 1 1 7
    (let t := rig .C asleep
     t.heat? 1 = some asleep ∧ suspending asleep = true ∧ allStopped asleep = true ∧ bagPending asleep = false ∧
       unsettled t asleep = false ∧ t.cmds = [] ∧ t.stashes = []) ∧
    (let b := { asleep with bags := [{ bagOf 0x1100 [] with id := 7, phase := .opened }] }
     suspending b = true ∧ allStopped b = true ∧ bagPending b = true) ∧
    Clear { (Issue.cLong [6, 3, 5] [6, 3, 5] false 0xFFFF).of (.copyco 6 3 5 plainC) with engine := some 0, handler := false } .C s h ∧
    (h.s 5).v.toNat % 256 = 0 ∧ answersWith (readHeader s h cob0) (fun x => answers (claimFrame x.1 h (h.s 6).v)) = true ∧
    Clear ((Issue.seatOnly [2, 3] [3] true).of (.dropco 2 3)) .C s h ∧
    answersWith (readHeader s h cob0) (fun x => answersWith (claimAccess x.1 h (asr0 + 8)) (fun f =>
      answersWith (storeAt (setClaim f.1 h f.2 1 3) h 0 (cob0 + 16) (withTaint false (leBytes 4 3))) (fun y =>
        (continued y 1 (headerOf x.2)).isNone))) = true ∧
    (let c := cmd (.copy cob0.toNat spad0.toNat 8 false) .running
     let t : State := { rig .C asleep with cmds := [c], dev := { DevRegs.reset with clock := 4096 } }
     (t.cmds.find? fun x => x.id == 9 && !x.parked) = some c ∧ c.spent = false ∧ (parkedOf t 1).length < 32 ∧
       4096 ≤ t.now - settlingSince asleep ∧ (rig .C asleep).now - settlingSince asleep < 4096) ∧
    (let c := { cmd (.copy 0x2000000 spad0.toNat 8 false) .running with fault := some (0x05, 0) }
     parkable { rig .C asleep with mem := (rig .C asleep).mem.put 0x108010 (withTaint false (leBytes 8 (hostBase + 0x1B))) }
       asleep c = true) := by
  and_intros <;> first | exact Clear.of_check rfl (by decide +kernel) | decide +kernel

/-- A suspended COB is placed: the whole fixed part reads, the type is found and a core has room. -/
theorem met_ContinuationWordsAndEvents_of_placement :
    let s : State := { withCob leaving 2 1 7 with resumes := [⟨8, 1, cob0, 1, (1, 1), 0, true, 1, false⟩] }
    s.dev.computeOn = true ∧ coxedMode s = false ∧
    (s.resumes.find? fun x => x.id == 8 && x.handed) = some ⟨8, 1, cob0, 1, (1, 1), 0, true, 1, false⟩ ∧
    answers (readSpan s leaving cob0 fixedPart) = true ∧
    s.heat? 1 = some leaving ∧ s.job? 1 = some { plainJob with typeTable := 0x10000 } ∧
    (taskType? s { plainJob with typeTable := 0x10000 } 0 0).map (·.asrUnits) = some 1 ∧
    (findCore s 0 { plainType with asrUnits := 1 }).isSome = true := by
  and_intros <;> decide +kernel

/-- A command that has waited 512 cycles, with an idle thief; marked at 16 cycles; held. -/
theorem met_RelocationEvents :
    let c := { cmd (.copy spad0.toNat (spad0.toNat + 128) 8 false) .queued with reloc := true }
    (let s : State := { rC with cmds := [c], dev := { DevRegs.reset with clock := 512 } }
     (s.cmds.find? fun c => c.core / 4 == 1 / 4 && c.core != 1 && stealable s c) = some c ∧ engineIdle s 1 = true ∧ 1 < 256) ∧
    (let m := { c with phase := .marked 1 0 }
     let s : State := { rC with cmds := [m], dev := { DevRegs.reset with clock := 16 } }
     s.cmds = [m] ∧ m.orphan = false ∧ s.now - 0 ≤ 16 ∧ 16 ≤ s.now - 0 ∧ 16 < 17 - 0 ∧
       s.heat? m.heat = some rigHeat ∧ settling rigHeat = false ∧ settling asleep = true ∧
       ({ s with heats := [asleep] } : State).heat? m.heat = some asleep) ∧
    (let m := { c with phase := .held 1 }
     let s : State := { rC with cmds := [m] }
     s.cmds = [m] ∧ m.orphan = false ∧ s.heat? m.heat = some rigHeat ∧ rigHeat.status = .resident ∧
       (let d := { rigHeat with status := .stopping, stop := some ⟨.cancel, 0, 0, false⟩ }
        ({ s with heats := [d] } : State).heat? m.heat = some d ∧ d.id.uid = m.heat ∧ m.xfer = none ∧ m.co = some 5)) := by
  and_intros <;> decide +kernel

/-- A gang of one with a window of two iterations over a table of 1,024 slots in its ASR, in each round. -/
def gated : Heat := { gangHeat with c := (withS [(3, val 5), (4, val asr0), (6, val 1)]).c }

def window (passed : Nat) : Slalom :=
  { job := 1, launch := 1, n := 5, base := asr0, k := 0, w := 2, window := 0, fresh := 2, list := [0, 1], reports := [(0, true)],
    members := [0], passed := [(0, passed)] }

def inWindow (passed : Nat) : State := { rig .C gated with launches := [gangLaunch 1], slaloms := [window passed] }

theorem met_SlalomWords :
    let h := gated
    let w (i : Instr) : Issue := { (Issue.cLong [4, 6] [4, 6] false 0xFFFF).of i with handler := false }
    Clear { (Issue.cLong [3, 4] [3, 4] false 0xFFFF).of (.slwin 3 4 0 1 0xFFFF) with handler := false } .C (rig .C h) h ∧
    h.type.gang = true ∧ h.id.detached = false ∧ (h.s 3).v.toNat < 2 ^ 48 ∧ (h.s 4).v.toNat % (8 * 2 ^ 10) = 0 ∧
    (rig .C h).slalom? 1 1 = none ∧ answersWith (clearGate h false 64 asr0 (rig .C h)) (fun s => s.slaloms == []) = true ∧
    (inWindow 0).slalom? 1 1 = some (window 0) ∧
    answersWith (slalomOf (inWindow 0) h) (fun x => !x.2.2 && x.2.1.list == [0, 1] && myShare x.1 h x.2.1 == [0, 1]) = true ∧
    answersWith (slalomOf (inWindow 1) h) (fun x => x.2.2 && (myShare x.1 h x.2.1).contains 1 &&
      !(x.2.1.reports.any fun r => r.1 == 1) && x.2.1.reports.any fun r => r.1 == 0) = true ∧
    Clear (Issue.seatOnly [2] [] true) .C (inWindow 0) h ∧ Clear (w (.slres 4 6 0 0xFFFF)) .C (inWindow 0) h ∧
    Clear (w (.slchk 2 1 4 6 0 0xFFFF)) .C (inWindow 1) h ∧ Clear (w (.slreset 4 6 0 0xFFFF)) .C (inWindow 1) h ∧
    Clear (Issue.seatOnly [6] [6] false) .C (inWindow 1) h ∧ (h.s 6).v.toNat < 2 ^ 48 ∧
    cellWait (inWindow 0) h (asr0 + BitVec.ofNat 64 (8 * gateSlot 0 (h.s 4).v)) 8 .atomic = .ok () ∧
    answersWith (gateFrame (inWindow 0) h (asr0 + BitVec.ofNat 64 (8 * gateSlot 0 (h.s 4).v)) .atomic) (fun x =>
      !x.2.clean && (List.range 8).all fun k => !x.1.mem.poisoned (x.2.pa + k)) = true ∧
    (let s : State := { inWindow 0 with slaloms := [{ window 0 with list := [] }] }
     answersWith (slalomOf s h) (fun x => x.2.1.list == []) = true) := by
  and_intros <;> first | exact Clear.of_check rfl (by decide +kernel) | decide +kernel | rfl


/-! ### Lamom, the debugger, the host's queues and the events -/

abbrev at_ (g : Stage) : State := { State.reset with lamom := { Lamom.reset with stage := g } }

/-- Each state of the power-up; an image under another key; links; trips with a job resident; the clock's alignment. -/
theorem met_PowerUpTripsAndClocks :
    (∀ g ∈ [Stage.rom, .verify, .measure, .arrays, .sram, .dram, .links, .ready], (at_ g).lamom.stage = g) ∧
    (∀ n, n < 12 → [LinkTraining.absent, .trained 5][n]? ≠ some .failed) ∧ [LinkTraining.failed][0]? = some .failed ∧
    (at_ .ready).net.replicas = [] ∧ (at_ .ready).net.forwards = [] ∧
    (let s : State := { rC with launches := [gangLaunch 1] }
     s.job? 1 = some plainJob ∧ plainJob.complete = false ∧ s.launch? 1 1 = some (gangLaunch 1) ∧ launchDone s (gangLaunch 1) = false) ∧
    (∀ b ∈ [true, false], let s : State := { rC with dev := { DevRegs.reset with tripped := b } }; s.dev.tripped = b) ∧
    State.reset.dev.clkAlign.getLsbD 63 = false ∧ State.reset.sched = none ∧
    (0x400010 : BitVec 64).toNat / 2 ^ 16 % 2 ^ 16 = 64 ∧ (0x10000000 : BitVec 64).toNat / 2 ^ 16 % 2 ^ 16 = 4096 ∧
    (0x400010 : BitVec 64).getLsbD 4 = true ∧ (0x10000000 : BitVec 64).getLsbD 4 = false ∧
    (let s : State := { rC with dev := { DevRegs.reset with clkAlign := 0x8000000000400000, clock := 10 } }
     s.dev.clkAlign.getLsbD 63 = true ∧ s.dev.lead = 0 ∧ s.dev.clock ≤ 10 ∧ 9 < s.dev.clock) ∧
    State.reset.dev.clkAlign.toNat % 16 = 0 ∧ State.reset.dev.clkAlign.getLsbD 4 = false ∧ State.reset.dev.clkAlign.toNat % 16 ≠ 1 := by
  and_intros <;> decide +kernel

/-- Of two keys with different digests one is not the fused one, and no image under it is good. -/
theorem met_PowerUpTripsAndClocks_of_images (a b : FirmwareImage) (h : shake256 a.key ≠ shake256 b.key) :
    ¬ shake256 a.key = Config.fusedKeyDigest ∨ ¬ shake256 b.key = Config.fusedKeyDigest := by
  by_cases e : shake256 a.key = Config.fusedKeyDigest
  · exact .inr fun e1 => h (e.trans e1.symm)
  · exact .inl e

/-- Where the signature scheme takes a signature of an image's digest under the fused key, the image is good, and it is
not older than the fuses when it has their version. -/
theorem met_PowerUpTripsAndClocks_of_good_images (i : FirmwareImage) (hk : shake256 i.key = Config.fusedKeyDigest)
    (hs : Config.falconVerify i.key (imageDigest i) i.signature = true) (hv : i.version = State.reset.lamom.fused) :
    (shake256 i.key = Config.fusedKeyDigest ∧
      Config.falconVerify i.key (shake256 (i.head ++ i.stored.take i.length)) i.signature = true) ∧
      (at_ .verify).lamom.fused ≤ i.version := ⟨⟨hk, hs⟩, hv ▸ Nat.le_refl _⟩

/-- READY and SAFE; a session with a loaded slot and its line; each point of the SPDM exchange. -/
theorem met_MailboxAndAttestation :
    let session : State := { at_ .up with
      lamom := { (at_ .up).lamom with spdm := .session, keys := [⟨8191, 5, 1⟩] }, mem := { Mem.reset with lineKey := [(3, 8191)] } }
    (at_ .up).lamom.stage = .up ∧ (at_ .safe).lamom.stage = .safe ∧ (at_ .up).lamom.failCode = 0 ∧ (at_ .up).jobs = [] ∧ rC.jobs ≠ [] ∧
    rC.lamom.stage = .up ∧ session.lamom.stage = .up ∧ session.lamom.spdm = .session ∧ keySlot session 8190 = none ∧
    keySlot session 8191 ≠ none ∧ linesUnder session 8191 = [3] ∧ (at_ .up).lamom.spdm ≠ .session ∧
    (∀ x ∈ [Spdm.version, .capabilities, .exchanged, .negotiated, .session],
      let s : State := { at_ .up with lamom := { (at_ .up).lamom with spdm := x } }
      s.lamom.stage = .up ∧ s.lamom.spdm = x) := by
  and_intros <;> decide +kernel

/-- The rig's job halted, with two cancelled loads or none, with a step release or none. -/
def halted (step : Option (Nat × Seat × Nat)) (h : Heat := rigHeat) : State :=
  { rig .C h with jobs := [{ plainJob with halt := some ⟨0, 0, 7, [⟨4, 8, 1, 0, 3, 0⟩], step⟩ }] }

def sampling (n : Nat) (last : Nat) : State :=
  { rC with
    jobs := [{ plainJob with trapQ := 0x10000, sampled := last }], dev := { DevRegs.reset with clock := 1000 }
    mem := rC.mem.put 0x1010030 (withTaint false (leBytes 4 (n * 65536))) }

theorem met_DebuggerCommandsAndSamples :
    rC.lamom.stage = .up ∧ rC.job? 1 = some plainJob ∧ plainJob.complete = false ∧ plainJob.halt = none ∧
    (0x7FFF0000 : Dword).toNat % 2 ^ 16 = 0 ∧ (8 : Dword).toNat % 2 ^ 3 = 0 ∧ (4 : Dword).toNat % 2 ^ 3 ≠ 0 ∧
    (at_ .safe).lamom.stage = .safe ∧
    ((halted none).job? 1).map (fun j => (j.complete, j.halt.map fun x => (x.entries.length, x.step))) = some (false, some (1, none)) ∧
    (halted none).lamom.stage = .up ∧ (halted none).heat? 1 = some rigHeat ∧ rigHeat.onCore = true ∧
    (let h := { rigHeat with haltPending := true }
     (rig .C h).heat? 1 = some h ∧ cannotHalt (rig .C h) h = false) ∧
    (let h := { rigHeat with haltPending := true, status := .stopping }
     (rig .C h).heat? 1 = some h ∧ cannotHalt (rig .C h) h = true) ∧
    jobHalted (halted none) 1 = true ∧ haltExempt (halted none) rigHeat = false ∧ writeBacks rigHeat 63 = [] ∧
    (let h := { rigHeat with pend := [back] }
     (halted none h).heat? 1 = some h ∧ haltExempt (halted none h) h = false ∧ writeBacks h 5 ≠ []) ∧
    jobHalted rC 1 = false ∧ plainJob.trapQ = 0 ∧
    (let h := { rigHeat with status := .faulted }
     let s := rig .C h
     s.lamom.stage = .up ∧ s.job? 1 = some plainJob ∧ s.heat? 1 = some h ∧ h.id.uid = 1 ∧ h.id.job = 1) ∧
    (let s := sampling 1 936
     s.job? 1 ≠ none ∧ trapField s { plainJob with trapQ := 0x10000 } 0 48 / 2 ^ 16 = 1 ∧ 936 + 64 ≤ s.now ∧ s.now < 937 + 64) := by
  and_intros <;> first | decide +kernel | rfl

/-- The rig with one packet in a ring of the underlay. -/
def atHead (bs : List Byte) (h : Heat := rigHeat) : State :=
  let s := rig .C h
  { s with
    queues := [{ q := 0, base := 0x3000001, job := 0, ctl := 0x80000004, cons := 0, poll := 0, stat := 1, prod := 1, held := false, inHand := none }]
    mem := s.mem.put 0x3000000 (withTaint false bs) }

/-- A packet of a type with two 64-bit fields of its body and a third part. -/
def packet (type a b : Nat) (c : List Byte := leBytes 32 0) : List Byte :=
  leBytes 8 type ++ leBytes 8 a ++ leBytes 8 b ++ c ++ leBytes 8 0

/-- What HeadPacket asks, but for the job, as a check. -/
def headB (s : State) (q type : Nat) (bs : List Byte) : Bool :=
  hasTurn s q && (queueRegs s q).inHand.isNone && !headBad s q && bs == headBytes s q && part bs 0 0 == type && decide (type ≤ 7) && headerOk bs &&
  packetBreak s q == []

theorem HeadPacket.of_check {s : State} {q type : Nat} {bs : List Byte} {j : Job} (hj : queueJob s q = some (s, j))
    (hb : headB s q type bs = true) : HeadPacket s q type bs s j := by
  simp only [headB, Bool.and_eq_true, Bool.not_eq_true', beq_iff_eq, decide_eq_true_eq, Option.isNone_iff_eq_none] at hb
  obtain ⟨⟨⟨⟨⟨⟨⟨h1, h0⟩, h2⟩, h3⟩, h4⟩, h5⟩, h6⟩, h7⟩ := hb
  exact ⟨h1, h0, h2, h3, ⟨h4, h5⟩, h6, hj, h7⟩

/-- A packet in hand, of a job, whose queue has been disabled. -/
def inHand (type job : Nat) : State :=
  let s := atHead (packet type 0 0)
  { s with queues := s.queues.map fun r => { r with stat := 0, inHand := some (job, packet type 0 0) } }

/-- One packet of each type is dispatched, from the head of the queue, and from the hand once it is released. -/
theorem met_HostPackets (type : Nat) (h : type ∈ [0, 1, 2, 3, 4, 5, 6, 7]) :
    (∃ t, Dispatched (atHead (packet type 0 0)) 0 type (packet type 0 0) t plainJob) ∧
      InHandPacket (inHand type 1) 0 type (packet type 0 0) plainJob := by
  refine ⟨⟨_, .inl ⟨_, HeadPacket.of_check rfl (by revert type; decide +kernel), rfl⟩⟩, ?_, rfl, ?_, rfl, rfl, rfl⟩ <;>
    (revert type; decide +kernel)

/-- A packet in hand of a job that is no more, and one that a comparator holds; the second queue's turn after the first. -/
theorem met_HostPackets_in_hand :
    hasTurn (inHand 0 9) 0 = true ∧ (inHand 0 9).job? 9 = none ∧ part (packet 0 0 0) 0 0 = 0 ∧
    (let s := inHand 0 1
     hasTurn { s with queues := s.queues.map fun r => { r with held := true } } 0 = false) ∧
    (let s := atHead (packet 0 0 0)
     let t : State := { s with
       queues := s.queues ++ s.queues.map fun r => { r with q := 1 }, dev := { s.dev with cpTurn := [(0, 0, 5)] } }
     hasTurn t 1 = true ∧ offers t 0 = true) := by
  and_intros <;> decide +kernel

/-- The zero fields of each type; a mapped, an unmapped and a misaligned address of a WRITE; a resident and a suspended
heat of a PREEMPT; queues that stand, hold a reserved type, wait at a barrier or hold an unreadable packet. -/
theorem met_HostPackets_of_each :
    (∀ type ∈ [0, 1, 2, 3, 4, 5, 6, 7], let bs := packet type 0x1000000 0
      zeros bs 16 55 = true ∧ zeros bs 17 19 = true ∧ zeros bs 24 55 = true ∧ zeros bs 41 55 = true ∧ part bs 16 16 ≤ 4 ∧
        part bs 40 40 < 8 ∧ part bs 8 15 % 256 = 0) ∧ zeros (packet 0 0 0) 8 55 = true ∧
    (let s := atHead (packet 5 0x1000000 7)
     answers (jobFrame s plainJob 0 0x1000000 .write) = true ∧ answers (jobFrame s plainJob 0 0x2000000 .write) = false) ∧
    imageAt (atHead (packet 6 0x1000000 0)) plainJob 0 0x1000000 = none ∧
    (∀ k ∈ (atHead (packet 6 0 0)).jobs, k.complete = false → k.id = plainJob.id) ∧ coxedMode (atHead (packet 6 0 0)) = false ∧
    (let bs := packet 7 0x1000000 asr0.toNat (leBytes 8 0 ++ leBytes 4 1 ++ leBytes 4 0 ++ leBytes 16 7)
     let s := atHead bs
     s.member? 1 (part bs 32 35) (part bs 36 39) = some rigHeat ∧ claimRule rigHeat (BitVec.ofNat 64 (part bs 16 23)) = some asr0 ∧
       rigHeat.status = .resident ∧ s.heat? rigHeat.id.uid = some rigHeat ∧ part bs 40 40 = 7 ∧ s.member? 1 9 0 = none ∧
       ((atHead bs { rigHeat with status := .suspended }).member? 1 1 0).map (·.status) = some .suspended) ∧
    hasTurn rC 63 = false ∧
    (let s : State := { atHead (packet 8 0 0) with mem := { (atHead (packet 8 0 0)).mem with errors := [0x60000] } }
     hasTurn s 0 = true ∧ headBad s 0 = true) ∧
    (∀ type ∈ [8, 5, 0], let s := atHead (packet type 0 0)
     hasTurn s 0 = true ∧ headBad s 0 = false ∧ part (headBytes s 0) 0 0 = type) ∧
    (let s := atHead (packet 0x800 0 0)
     hasTurn s 0 = true ∧ headBad s 0 = false ∧ part (headBytes s 0) 0 0 = 0 ∧ headerOk (headBytes s 0) = false) ∧
    (let s := atHead (packet 0 1 0)
     hasTurn s 0 = true ∧ headBad s 0 = false ∧ headerOk (headBytes s 0) = true ∧ zeros (headBytes s 0) 8 55 = false) ∧
    (let s := atHead (packet 0x100 0 0)
     hasTurn s 0 = true ∧ (part (headBytes s 0) 1 1).testBit 0 = true ∧
       hasTurn { s with packets := [⟨1, 0, 0, false, false, 0, .write⟩] } 0 = false) ∧
    (let s : State := { atHead (packet 0 0 0) with jobs := [] }
     hasTurn s 0 = true ∧ queueJob s 0 = none) ∧
    (let s : State := { atHead (packet 0 0 0) with dev := { (atHead (packet 0 0 0)).dev with cmp := [(0, 1, 0xC000000000000000)] } }
     hasTurn s 0 = true ∧ headBad s 0 = false ∧ headerOk (headBytes s 0) = true ∧ packetBreak s 0 ≠ [] ∧
       (queueJob s 0).map (fun x => x.2.halt) = some none) := by
  and_intros <;> decide +kernel

/-- A queue in doorbell mode or in poll mode, disabled or enabled; a slice whose ways are in use. -/
def ringing (ctl : Word) : State :=
  { rC with
    queues := [⟨63, 0, 0, ctl, 0xFFFFFFFF, 0, 1, 0xFFFFFFFF, false, none⟩]
    dev := { DevRegs.reset with emptyWays := [(3, 31, 0xF00F)], slway := [(3, 31, 1), (3, 30, 0x80000000)] }
    mem := rC.mem.put hostBase (withTaint false (leBytes 4 3)) }

theorem met_HostRegistersAndSlices :
    (let r := queueRegs (ringing 0x80000004) 63
     r.polls = false ∧ r.running = true ∧ (0xF : Word) ≠ r.prod ∧ ((0xF : Word) - r.cons).toNat ≤ r.size ∧
       ((0xF : Word) - r.prod).toNat < 2 ^ 31 ∧ r.size < ((0x10 : Word) - r.cons).toNat ∧ r.enabled = true) ∧
    (queueRegs rC 63).polls = false ∧ (queueRegs rC 63).running = false ∧ (queueRegs rC 63).enabled = false ∧
    (let s := ringing 0xC0000004
     let r := queueRegs s 63
     let w : Word := BitVec.ofNat 32 (viewNat s (63 / 16) (hostPa r.poll.toNat) 4)
     r.polls = true ∧ r.running = true ∧ w ≠ r.prod ∧ (w - r.cons).toNat ≤ r.size ∧ (w - r.prod).toNat < 2 ^ 31) ∧
    (0x80000003 : Word).toNat % 32 < 4 ∧ 16 < (0x80000011 : Word).toNat % 32 ∧ 4 ≤ (0x80000004 : Word).toNat % 32 ∧
    (0x80000010 : Word).toNat % 32 ≤ 16 ∧ (0x80000010 : Word).getLsbD 31 = true ∧ rC.lamom.stage ≠ .safe ∧
    (∀ j ∈ State.reset.jobs, j.complete = true) ∧ (rC.jobs.any fun j => j.complete == false) = true ∧
    (rC.sched.elim false (·.live)) = false ∧
    (let s := ringing 4
     (wayReg s 3 31).getLsbD 31 = false ∧ s.dev.wayCmd = [] ∧ inMove s 3 31 = false ∧ s.sched = none ∧
       12 < ((List.range 16).filter (0x1FFF : BitVec 16).getLsbD).length ∧
       ((List.range 16).filter (0xF00E : BitVec 16).getLsbD).length ≤ 12 ∧
       (0xF00E : BitVec 16) &&& ~~~((wayReg s 3 31).setWidth 16) &&& ~~~(BitVec.ofNat 16 (emptied s 3 31)) = 0 ∧
       (0xF00E : BitVec 16).getLsbD 0 ≠ (wayReg s 3 31).getLsbD 0 ∧ (wayReg s 3 30).getLsbD 31 = true) ∧
    State.reset.dev.rebalCtl.getLsbD 0 = true ∧ State.reset.dev.moves = [] ∧
    (let s : State := { rC with dev := { DevRegs.reset with moves := [⟨0, 4095, 31, 2⟩] } }
     (s.dev.moves.find? fun m => m.die == 0) = some ⟨0, 4095, 31, 2⟩ ∧ s.dev.wayCmd = []) ∧
    (let s := ringing 4
     s.dev.gateCtl.getLsbD 0 = true ∧ gateable s (.scratchWay 3 31 0) = true ∧ gateable s (.spadBank 255 15) = true ∧
       gateable s (.spadBank 0 0) = false ∧ GateUnit.scratchWay 3 31 0 ∉ s.dev.gated) := by
  and_intros <;> decide +kernel

/-- A launch record of two heats at 0x11000 beside the task-type entry at 0x10000; the launch enqueued. -/
def recorded (l : Launch) : State :=
  { rC with
    jobs := [{ plainJob with typeTable := 0x10000 }], launches := [l]
    requests := [⟨4, 1, 1, some 0x11000, true⟩, ⟨5, 1, 1, some 0x11008, true⟩, ⟨6, 1, 1, none, true⟩]
    mem := (rC.mem.put 0x1010000 (withTaint false typeBytes)).put 0x1011000
      (withTaint false (leBytes 32 0 ++ leBytes 4 0 ++ leBytes 4 1 ++ leBytes 4 2 ++ leBytes 52 0)) }

def fresh (gang : Bool) : Launch := { gangLaunch 2 with type := { plainType with gang := gang }, nextIdx := 0, live := 0 }

def spent (v : SeatState) : SeatState := { v with ended := true }
def stopping (c : StopCause) : Heat :=
  { asleep with susp := none, stop := some ⟨c, 0, 0, false⟩, fault := some ⟨clsIllegal, 0, 0, 5, 0x1000, 0, 0, none, .C, false, 0⟩ }

theorem met_HeatsBeginAndEnd :
    (let s := recorded { fresh false with enqueued := false }
     let j := { plainJob with typeTable := 0x10000 }
     (∀ n ∈ [4, 5, 6], (s.requests.any fun r => r.id == n) = true) ∧ (s.launch? 1 1).isSome = true ∧ s.job? 1 = some j ∧
       (admitRecord s j 0 0x11000).map (·.total) = some 2 ∧ admitRecord s j 0 0x11008 = none) ∧
    (∀ l ∈ [fresh false, fresh true], let s : State := { rC with launches := [l] }
     coxedMode s = false ∧ s.dev.computeOn = true ∧ (∀ e ∈ s.dev.walked, e.2.1 ≠ s.now) ∧ lowerFirst s 0 = false ∧
       (let t : State := { s with launches := mapIf (enumerable s 0) (fun l => skipDiscarded l.total l) s.launches }
        walkerQueue t 0 = [l] ∧ launchBreak t l = [] ∧ t.launch? l.job l.id = some l ∧ findCore t l.die l.type = some 0)) ∧
    State.reset.dev.computeOn = false ∧ walkedNow { rC with dev := { rC.dev with walked := [(0, 0, [])] } } 0 = true ∧
    lowerFirst { rC with launches := [fresh false] } 1 = true ∧
    (let h := { rigHeat with X := { rigHeat.X with readySince := some 0 } }
     let s : State := { rig .C h with dev := { DevRegs.reset with clock := 4092 } }
     s.heat? 1 = some h ∧ s.dev.ageCap - 4 ≤ s.now - 0 ∧ (rig .C h).now - 0 < (rig .C h).dev.ageCap - 4) ∧
    (let h := { rigHeat with S := { rigHeat.S with wait := some ⟨.token 5, 0⟩ }, ctl := { rigHeat.ctl with tokwdog := 9 } }
     let s : State := { rig .C h with dev := { DevRegs.reset with clock := 10 } }
     s.heat? 1 = some h ∧ (h.seat .S).wait = some ⟨.token 5, 0⟩ ∧ h.stop = none ∧ h.ctl.tokwdog < s.now - 0 ∧ (rig .C h).now - 0 ≤ h.ctl.tokwdog) ∧
    (let h := { rigHeat with C := spent rigHeat.C, L := spent rigHeat.L, X := spent rigHeat.X, S := spent rigHeat.S }
     let s : State := { rig .C h with launches := [gangLaunch 1] }
     s.heat? 1 = some h ∧ h.onCore = true ∧ allEnded h = true ∧ drained s h = true ∧ (s.launch? 1 1).isSome = true) ∧
    allEnded rigHeat = false ∧
    (∀ c ∈ [StopCause.cancel, .fault], let h := stopping c
     h.status = .stopping ∧ h.stop = some ⟨c, 0, 0, false⟩ ∧ atRest (rig .C h) h = true ∧ h.id.trapTask = false ∧ h.freed = false ∧
       (rig .C h).heat? 1 = some h) := by
  and_intros <;> decide +kernel

/-- A schedule with one entry, and one draw entry of core 1 to core 20. -/
def schedule : Sched :=
  ⟨1, 1, 4, 1, [⟨0, [0, 0, 0, 0], 0, 1, 0, 1, 0, false⟩], [], [(0, 16, 0x80011400)], true, false⟩

def scheduled (clock : Nat) (heats : List Heat) : State :=
  { rC with
    sched := some schedule, heats := heats, jobs := [{ plainJob with coxed := true }]
    dev := { DevRegs.reset with computeOn := true, clock := clock, links := [⟨0, true, true, 50, some 100⟩] }
    launches := [{ gangLaunch 1 with coxed := true, nextIdx := 0, live := 0 }] }

/-- A forwarded write that nothing precedes, and one that waits for its message, or for an earlier one to its copy. -/
theorem met_FabricAndCoxedEvents_of_forwards :
    (∀ b ∈ [true, false], let f : Forward := ⟨7, 1, 1, 0, b, 0x2000000, [(5, false)], [], 1, [0, 1, 0, 0], none⟩
     let s : State := { rC with net := { Net.reset with
       forwards := [f], replicas := [⟨1, 0x2000000 / 128, List.replicate 128 0, [], []⟩] } }
     (s.net.forwards.find? fun g => g.id == 7) = some f ∧ riding s 7 = false ∧ messageHeld s 1 = false ∧
       s.net.forwards.any (comesFirst s f) = false ∧ holders s 0x2000000 = [1] ∧
       riding { s with net := { s.net with msgs := [⟨5, some 1, some 7, 0, [⟨1, 0, 2, 0⟩], none, none⟩] } } 7 = true ∧
       (∃ g ∈ s.net.forwards, b = true → precedes s 0 [0, 1, 0, 0] g = true)) ∧
    (let f : Forward := ⟨7, 1, 1, 0, false, 0x2000000, [(5, false)], [], 1, [0, 2, 0, 0], none⟩
     let s : State := { rC with net := { Net.reset with forwards := [{ f with id := 6 }, f] } }
     s.net.forwards.any (comesFirst s f) = true) := by
  and_intros <;> first | decide +kernel | rfl

/-- A host write that a forward precedes, and one to whose line a write is under way that its home has seen. -/
theorem met_FabricAndCoxedEvents_of_host_writes :
    let pa := 0x2000000
    let f : Forward := ⟨7, 1, 1, 0, true, pa + 8, [(5, false)], [], 1, [0, 1, 0, 0], none⟩
    let net : Net := { Net.reset with forwards := [f] }
    let s : State := { rC with net := { net with clocks := [(noHeat, [0, 1, 0, 0])] } }
    let t : State := { rC with net := { net with dieClocks := [(homeDie pa, [0, 1, 0, 0])] } }
    s.dev.winBase * 2 ^ 34 + pa / 8 * 8 % 2 ^ 34 = pa ∧ Inv s ∧ Inv t ∧ s.lamom.stage ≠ .safe ∧
    precedes s (homeDie pa) (heatClock s noHeat) f = true ∧ precedes t (homeDie pa) (heatClock t noHeat) f = false ∧
    f.addr / 128 = pa / 128 ∧ f.wdie ≠ homeDie pa ∧ observed f (dieClock t (homeDie pa)) = true := by
  and_intros <;> first | decide +kernel | rfl

theorem met_FabricAndCoxedEvents :
    lineBusy rC 0 0 = false ∧
    (let h := { rigHeat with pend := [{ back with addr := 0x1000000 }] }
     lineBusy (rig .C h) 0 0x40000 = true) ∧
    (at_ .safe).lamom.stage = .safe ∧ rC.lamom.stage ≠ .safe ∧ Inv rC ∧ rC.mem.sealedLines = [] ∧ rC.net.forwards = [] ∧
    (let p : Posted := ⟨3, 1, hostBase, [1, 2]⟩
     let s : State := { rC with net := { Net.reset with posted := [p] } }
     s.net.posted = [p] ∧ Inv s) ∧
    (let x : Stash := ⟨1, 0, 2, 0, 0x1000000, 4, [0, 1], [1]⟩
     let s : State := { rC with stashes := [x] }
     (s.stashes.find? fun t => t.heat == x.heat && t.slot == BitVec.ofNat 4 x.slot.toNat) = some x ∧ s.mem.errors = [] ∧ 1 ∈ x.dirty ∧
       0 ∉ x.dirty ∧ s.heat? 1 = some rigHeat ∧
       (∀ k ∈ [0, 1], (watchHit s 1 (x.global + BitVec.ofNat 64 (128 * k)).toNat 128 false true).isNone = true ∧ answers (translate s rigHeat 0 (x.global + BitVec.ofNat 64 (128 * k)) .write) = true)) ∧
    (let sig : CollSig := ⟨0, 0, 0, false, 0, 0⟩
     let c := cmd (.coll 2 3 0 2 sig 0 0 false) .running
     let s : State := { rC with cmds := [c] }
     s.job? 1 = some plainJob ∧ s.heat? c.heat = some rigHeat ∧ c.co = some 5 ∧ c.xfer = none ∧ c.fault = none ∧
       c.orphan = false) ∧
    (let p : CollPart := ⟨1, 2, 0, 0, ⟨0, 0, 0, false, 0, 0⟩, []⟩
     p ∈ collParts { rC with net := { Net.reset with parts := [p] } } 1 2 0 ∧ collParts rC 1 2 0 = []) ∧
    kindOf (asrAddr 0 8) = some .asr ∧ asrAddr 0 8 % 8 = 0 ∧ rC.sched = none ∧
    (let s := scheduled 120 [rigHeat]
     schedule.live = true ∧ s.sched = some schedule ∧ s.heat? 1 = some rigHeat ∧ rigHeat.stop = none ∧
       20 + ((s.dev.links.find? fun k => k.n == 0).bind (·.delay)).getD 0 = s.now ∧
       19 + ((s.dev.links.find? fun k => k.n == 0).bind (·.delay)).getD 0 < s.now ∧ s.heat? 99 = none) ∧
    (let b : Beat := ⟨4, .write (asrAddr 0 8) 9 false, 7, [], 0, none, false⟩
     let on (b : Beat) (ms : List DrawMsg) : State := { scheduled 7 [] with net := { Net.reset with beats := [b], msgs := ms } }
     let s := on b []
     let k := { b with sent := true }
     (s.net.beats.find? fun x => x.id == 4) = some b ∧ b.due ≤ s.now ∧ s.net.forwards = [] ∧ (scheduled 6 []).now < b.due ∧
       coxedMode s = true ∧ coxedMode rC = false ∧ ((on k []).net.beats.find? fun x => x.id == 4) = some k ∧
       riding (on k []) 4 = false ∧ riding (on k [⟨6, none, some 4, 7, [⟨0, 0, 114, 64⟩], none, none⟩]) 4 = true) ∧
    (let c : Sched := { schedule with refresh := 3 }
     let l : DrawLeg := ⟨0, 0, 1, 80⟩
     startsAt c l 4 = 6 ∧ c.refresh.getLsbD 2 = false ∧ 2 < c.slots) ∧
    (let l : DrawLeg := ⟨0, 0, 1, 20⟩
     let m : DrawMsg := ⟨5, some 1, some 9, 0, [l], none, some ⟨.C, 0x1000, none, 15⟩⟩
     let at_ (clock : Nat) (m : DrawMsg) : State := { scheduled clock [rigHeat] with net := { Net.reset with msgs := [m] } }
     (legStrips l).1 ≠ (legStrips l).2 ∧ owned schedule l ≠ [] ∧ owned schedule { l with dst := 21 } = [] ∧
       ((at_ 2 m).net.msgs.find? fun x => x.id == 5) = some m ∧ mayEnter (at_ 2 m) schedule l = true ∧
       mayEnter (at_ 3 m) schedule l = false ∧ (at_ 2 m).heat? 1 = some rigHeat ∧ (at_ 2 m).now < 3 ∧
       ((at_ 2 { m with legs := [] }).net.msgs.find? fun x => x.id == 5) = some { m with legs := [] }) ∧
    (let s := scheduled 65536 []
     let e : HeatEntry := ⟨0, [0, 0, 0, 0], 0, 1, 0, 1, 0, false⟩
     schedule.entries[0]? = some e ∧ e.placed = false ∧ 1 ≤ e.span ∧ placeCycle s schedule e ≤ s.now ∧
       (s.launch? 1 e.launch).map (fun l => l.cut || l.complete) = some false ∧ (s.job? 1).map (·.coxed) = some true ∧
       (∀ h ∈ s.heats, h.core = e.core → h.onCore = false) ∧
       (let t := scheduled 65536 [rigHeat]
        (t.heats.find? fun h => h.core == e.core && h.onCore) = some rigHeat ∧ t.heat? rigHeat.id.uid = some rigHeat)) ∧
    (let e : HeatEntry := ⟨1, [0, 0, 0, 0], 0, 1, 0, 1, 0, false⟩
     (scheduled 65535 []).now < placeCycle (scheduled 65535 []) schedule e) ∧
    (let h := { rigHeat with id := { plainId with coxed := true }, lastStroke := 2 }
     (scheduled 196608 [h]).heat? 1 = some h ∧ h.spanOver = false ∧ (h.lastStroke + 1) * (scheduled 196608 [h]).dev.strokeLen ≤ (scheduled 196608 [h]).now ∧
       (scheduled 196607 [h]).now < (h.lastStroke + 1) * (scheduled 196607 [h]).dev.strokeLen) ∧
    rC.job? 1 = some plainJob ∧ plainJob.complete = false ∧
    (let s : State := { rC with launches := [gangLaunch 1] }
     s.launch? 1 1 = some (gangLaunch 1) ∧ launchDone s (gangLaunch 1) = false) := by
  and_intros <;> first | decide +kernel | rfl

/-- Steps that go on: a heat's word and, from reset, the device's own. -/
theorem met_NothingIsSetBack : goesOn (.add 2 3 4) rC = true ∧
    (match step (State.reset.withFetchWord 32 0) with | .next _ => true | _ => false) = true := by
  and_intros <;> decide +kernel

/-- A word that decodes. -/
theorem met_EncodeOfDecode : (decodeTableWord 32 0x80000000).isSome = true := by decide +kernel

/-! ### Further clauses -/

/-- Each level of a cancel over a launch of a gang, or of none; a heat that stops for a pre-emption, and a suspended one. -/
theorem met_CancelReachesTheHeatsOfItsLevel_of_levels :
    let on (h : Heat) (l : Launch) : State :=
      { rig .C h with launches := [l], graphs := [⟨1, 1, 0, false⟩], phases := [⟨0, 3, 1, false⟩] }
    let s := on rigHeat (gangLaunch 1)
    let plain : Launch := { gangLaunch 2 with type := plainType }
    (gangLaunch 1).graph = 1 ∧ (⟨1, 1, 0, false⟩ : Graph) ∈ s.graphs ∧ (gangLaunch 1).phase = 0 ∧
    phaseDone s ⟨0, 3, 1, false⟩ = false ∧ (gangLaunch 1).type.gang = true ∧ (gangLaunch 1).indexList.contains 0 = true ∧
    s.member? 1 1 0 = some rigHeat ∧ rigHeat.status.final = false ∧
    plain.type.gang = false ∧ launchDone (on rigHeat plain) plain = false ∧ plain.indexList.contains 1 = true ∧
    (on rigHeat plain).member? 1 1 1 = none ∧ plain.cut = false ∧ plain.discarded.contains 1 = false ∧
    (∀ k ∈ [{ rigHeat with status := .suspended }, { rigHeat with status := .stopping, stop := some ⟨.preempt, 0, 0, false⟩ }],
      (on k (gangLaunch 1)).heat? 1 = some k ∧ launchDone (on k (gangLaunch 1)) (gangLaunch 1) = false) ∧
    (let d := { rigHeat with id := { rigHeat.id with detached := true } }
     (on d plain).heat? 1 = some d) := by
  and_intros <;> first | decide +kernel | rfl

/-- Values just outside the ranges of PROFSEL and REBALCTL, by a heat with privilege. -/
theorem met_SpecialRegisterFaults_of_ranges :
    let x (v : Nat) : Nat := ((withS [(3, val (BitVec.ofNat 64 v))]).s 3).v.toNat
    let y (v : Nat) : Nat × Nat := (x v / 2 ^ 8 % 2 ^ 8, x v / 2 ^ 16 % 2 ^ 16)
    rC.privileged rigHeat = true ∧ 137 < x (138 * 256) / 2 ^ 8 % 2 ^ 8 ∧ y 0x04000901 = (9, 1024) ∧ y 0x0400C901 = (201, 1024) ∧
    y 0x00003201 = (50, 0) := by
  and_intros <;> decide +kernel

/-- C's text time is reached by each seat that PROFSEL may name. -/
theorem met_SpecialRegisterWords_of_counters :
    ∀ sel ∈ [0, 1, 2, 3], rigHeat.tt .C ≤ rigHeat.tt (profSeatOf sel) := by decide +kernel

/-- A slot that pushes a token on L, whose results are there at once. -/
theorem met_ExecutedWordGoesOn_of_tokens :
    ((Issue.short { plainSlot with pushDn := true } []).of (.nopl { plainSlot with pushDn := true })).slot =
      some { plainSlot with pushDn := true } ∧ writtenAt rigHeat rigHeat ≤ rL.now := by
  and_intros <;> first | rfl | decide +kernel

/-- The end of an interval in which one slice has had every request; before it; slices that take buckets; a slice in a move. -/
theorem met_HostRegistersAndSlices_of_intervals_and_moves :
    let s : State := { rC with dev := { DevRegs.reset with clock := 2 ^ 20, requests := [((0, 5), 1000), ((0, 37), 10)] } }
    let load (n : Nat) : Nat := sliceLoad s 0 n
    s.dev.rebalCtl.getLsbD 0 = true ∧ s.sched.elim false (·.live) = false ∧ intervalEnd s 0 ≤ s.now ∧ rC.now < intervalEnd rC 0 ∧
    ((List.range 32).map load).sum * (100 + s.dev.rebalCtl.toNat / 2 ^ 8 % 2 ^ 8) < load 5 * 3200 ∧ s.dev.moves = [] ∧
    takesBucket s 0 0 = true ∧ takesBucket s 0 1 = true ∧
    (let t : State := { rC with dev := { DevRegs.reset with moves := [⟨0, 4095, 31, 2⟩] } }
     inMove t 0 31 = true ∧ (wayReg t 0 31).getLsbD 31 = false ∧ t.dev.wayCmd = []) := by
  and_intros <;> decide +kernel

/-- Units that nothing has touched for the threshold, and one that has just been touched. -/
theorem met_HostRegistersAndSlices_of_gating :
    let s : State := { ringing 4 with dev := { (ringing 4).dev with clock := 2 ^ 20 } }
    s.dev.gateCtl.getLsbD 0 = true ∧
    (∀ u ∈ [GateUnit.scratchWay 3 31 0, .spadBank 255 15, .l1dWay 7 3], gateable s u = true ∧ unitIdle s u = true ∧ u ∉ s.dev.gated) ∧
    unitIdle { s with dev := { s.dev with touched := [(.spadBank 255 15, 2 ^ 20)] } } (.spadBank 255 15) = false := by
  and_intros <;> decide +kernel

/-- A queue in SAFE, and an offer of both algorithms, of one; a link that failed. -/
theorem met_MailboxAndAttestation_of_offers :
    (queueRegs (at_ .safe) 63).enabled = false ∧ (at_ .safe).lamom.stage = .safe ∧
    (0xC005 : BitVec 16).toNat ∉ [0xC000, 0xC001, 0xC002, 0xC003, 0xC004] ∧
    (let l : Lamom := { (at_ .up).lamom with spdm := .capabilities, offer := (true, true) }
     l.spdm = .capabilities ∧ l.offer = (true, true) ∧ ({ l with offer := (true, false) } : Lamom).offer ≠ (true, true)) ∧
    ({ (at_ .safe).lamom with failLink := some 11 } : Lamom).failLink = some 11 ∧ State.reset.dev.peerCoxed = [] := by
  and_intros <;> first | decide +kernel | rfl

/-- A ring that an RSET of earlier text time names is waited for, and one that none names is not. -/
theorem met_PointerDescriptorAndRingWords_wait : ringWait rigHeat .L 3 = none ∧ ringWait rigHeat .S 3 = none := by
  and_intros <;> decide +kernel

end Sys2Proof.Machine
end

section
/-!
The stores of a row and of scattered elements (07/R191, R192; 03/R63): the bytes that `rowData` and `rowStores` give,
byte by byte, and what STQ, STQS and SCATQ do when their stores raise no fault.
-/

namespace Sys2Proof.Machine

/-! ## The bytes of a row -/

/-- The taint with which byte i of a row is stored: that of the byte's lane, in a block format that of every lane which
the byte's block covers (03/R63, 07/R191). -/
def laneTaint (d : QDesc) (e : VReg) (i : Nat) : Bool :=
  let bb := blockBytes d.fmt
  if fmtBits d.fmt ≠ 0 then e.taint.getLsbD (i / 4) else
    (List.range 64).any fun j => decide (i / bb * bb / 4 ≤ j ∧ 4 * j < i / bb * bb + bb) && e.taint.getLsbD j

theorem blockBytes_pos (f : BitVec 4) : 0 < blockBytes f := by
  unfold blockBytes
  split <;> omega

/-- The words from that of a span's first byte to that of its last are the lanes that the span covers. -/
theorem any_wordsOfSpan_eq_any_lanesOfSpan (m : BitVec 64) (lo n : Nat) (hn : 0 < n) :
    ((List.range ((lo + n - 1) / 4 - lo / 4 + 1)).any fun j => m.getLsbD (lo / 4 + j)) =
      (List.range 64).any fun j => decide (lo / 4 ≤ j ∧ 4 * j < lo + n) && m.getLsbD j := by
  rw [Bool.eq_iff_iff]
  simp only [List.any_eq_true, List.mem_range, Bool.and_eq_true, decide_eq_true_eq]
  constructor
  · rintro ⟨j, hj, hm⟩
    exact ⟨lo / 4 + j, BitVec.lt_of_getLsbD hm, ⟨by omega, by omega⟩, hm⟩
  · rintro ⟨j, -, ⟨hlo, hhi⟩, hm⟩
    exact ⟨j - lo / 4, by omega, by rwa [Nat.add_sub_cancel' hlo]⟩

/-- The bytes of a row carry the taint of the access and of their lanes. -/
theorem rowData_eq_map_laneTaint (d : QDesc) (e : VReg) (t : Bool) (cs : List Chunk) :
    rowData d e t cs = cs.map fun c =>
      (c.va, (List.range c.n).map fun n => (e.byte (c.at_ + n), t || laneTaint d e (c.at_ + n))) := by
  by_cases hf : fmtBits d.fmt = 0
  · have hb := blockBytes_pos d.fmt
    simp only [rowData, laneTaint, hf, Nat.ne_of_gt hb, any_wordsOfSpan_eq_any_lanesOfSpan _ _ _ hb, if_true, if_false,
      ne_eq, not_true_eq_false]
  · simp only [rowData, laneTaint, hf, if_true, if_false, ne_eq, not_false_eq_true]

/-- A byte of a row as memory takes it: the last one of an odd row of 4-bit elements keeps the upper half that stands
there, and with it its word's taint (07/R189, 03/R63). -/
def mergedByte (s : State) (h : Heat) (d : QDesc) (c : Chunk) (n : Nat) (b : Byte × Bool) : Byte × Bool :=
  let old := oldByte s h (c.va + BitVec.ofNat 64 n)
  if halfByte d (c.at_ + n) then ((b.1 &&& 0x0F) ||| (old.1 &&& 0xF0), b.2 || old.2) else b

/-- What is stored of a row given chunk by chunk and byte by byte. -/
theorem rowStores_map_range (s : State) (h : Heat) (d : QDesc) (cs : List Chunk) (f : Chunk → Nat → Byte × Bool) :
    rowStores s h d cs (cs.map fun c => (c.va, (List.range c.n).map (f c))) =
      cs.map fun c => (c.va, (List.range c.n).map fun n => mergedByte s h d c n (f c n)) := by
  simp only [rowStores, List.zipWith_map_right, List.zipWith_self]
  refine List.map_congr_left fun c _ => congrArg (Prod.mk c.va) (List.ext_getElem ?_ fun n _ _ => ?_)
  · simp only [List.length_map, List.length_zipIdx]
  · simp only [mergedByte, List.getElem_map, List.getElem_zipIdx, List.getElem_range, Nat.zero_add]

theorem withTaint_map {α : Type} (t : Bool) (f : α → Byte) (l : List α) :
    withTaint t (l.map f) = l.map fun a => (f a, t) := by
  simp only [withTaint, List.map_map, Function.comp_def]

/-! ## The words -/

section
variable {s s1 : State} {h h1 : Heat} {w : Slot} {q p : BitVec 4} {upd : BitVec 2} {strided : Bool}

/-- STQ and STQS are one operation, packed or strided. -/
theorem exec_storeStream {i : Instr} (hi : i = if strided then .stqs w q p upd else .stq w q p upd)
    (hc : Clear ((Issue.short w []).of i) .S s h) (hr : storeStream w q p upd strided s h = .ok (s1, h1)) :
    exec i s = .next (ranOn ((Issue.short w []).of i) .S s h s1 h1) := by
  subst hi
  cases strided with
  | false => exact (exec_stq ..).trans (issue_clear hc hr)
  | true => exact (exec_stqs ..).trans (issue_clear hc hr)

variable {d : QDesc} {k : TVal} {e : VReg}
variable (hk : readK h .S w.pred = .ok k) (h8 : 8 ≤ q.toNat) (h12 : q.toNat < 12) (hd : descOf h .S q = .ok d)
  (he : headEntry h q .X = .ok e)
include hk h8 h12 hd he

theorem storeStream_ok {cs : List Chunk}
    (hp : streamPlan h .S d (h.p .S p).v strided k.v = .ok cs)
    (hs : storeMany s h (rowStores s h d cs (rowData d e ((h.p .S p).t || d.taint || k.t) cs)) = .ok s1) :
    storeStream w q p upd strided s h = .ok (s1, advance (popEntry
      (countStores h (rowData d e ((h.p .S p).t || d.taint || k.t) cs)) q) .S p d upd) := by
  have hq : ¬(q.toNat < 8 ∨ 12 ≤ q.toNat) := by omega
  simp only [storeStream, hk, hq, hd, he, hp, hs, if_false]

theorem exec_scatq_stores {qi : BitVec 2} {idx : VReg} {data : List (Dword × List (Byte × Bool))}
    (hdata : data = (elementsOf d (h.p .S p).v idx k.v).map fun x => (x.2.1, (List.range 4).map fun i =>
      (e.byte (4 * x.1 + i), (h.p .S p).t || d.taint || k.t || x.2.2 || e.taint.getLsbD x.1)))
    (hc : Clear ((Issue.short w []).of (.scatq w q p qi)) .S s h) (hf : fmtBits d.fmt = 32)
    (hx : headEntry h (12 + qi.setWidth 4) .X = .ok idx) (hes : elementCheck (elementsOf d (h.p .S p).v idx k.v) = none)
    (hs : storeMany s h data = .ok s1) :
    exec (.scatq w q p qi) s = .next (ranOn ((Issue.short w []).of (.scatq w q p qi)) .S s h s1
      (popEntry (popEntry (countStores h data) (12 + qi.setWidth 4)) q)) := by
  have hq : ¬(q.toNat < 8 ∨ 12 ≤ q.toNat) := by omega
  subst hdata
  refine (exec_scatq ..).trans (issue_clear hc ?_)
  simp only [hk, hq, hd, hf, hx, he, hes, withTaint_map, hs, if_false, ne_eq, not_true_eq_false]

end

/-- Settles O40: the model's own row and element data are those written out in the statement. -/
theorem streamStoreWords : Obligations.StreamStoreWords := by
  unfold Obligations.StreamStoreWords
  intro s s1 h w q p upd qi d k e ptr t bb lane half hk h8 h12 hd he
  constructor
  · intro strided cs i plain data hc hp hs
    have hplain : rowData d e t cs = plain := rowData_eq_map_laneTaint d e t cs
    have hdata : rowStores s h d cs (rowData d e t cs) = data := by
      rw [hplain]
      exact rowStores_map_range s h d cs _
    rw [← hplain]
    exact exec_storeStream rfl hc (storeStream_ok hk h8 h12 hd he hp (hdata ▸ hs))
  · intro idx es data hc hf hx hes hs
    exact exec_scatq_stores hk h8 h12 hd he rfl hc hf hx hes hs

end Sys2Proof.Machine
end
